-- ==== Sys2Proof/Word.lean ====
section
/-! DEFINITION. The word types of the FJC-4608 and their plainest arithmetic (R7, R34). -/

namespace Sys2Proof

/-- A byte of memory. -/
abbrev Byte := BitVec 8

/-- A main-file or operand-file register (R186). -/
abbrev Reg32 := BitVec 32

/-- A scalar, special or management register (R186, R193). -/
abbrev Word := BitVec 64

/-- One bit for each lane of a group, or for each byte of a 64-byte sector. -/
abbrev Mask := BitVec 64

/-- The bytes of one 64-byte sector, byte 0 in the lowest bits. -/
abbrev Sector := BitVec 512

end Sys2Proof
end

