-- ==== Sys2Proof/Syntax.lean ====
section
/-! DEFINITION. The instruction words of the Umrun set (R34-R55, Table 2.8) and the other steps of the
device (spec/95_what_each_step_holds.md), one constructor of `Instr` for each row of the opcode table.
A word's constructor carries its decoded fields; a step that is no instruction word carries the data that
names what it acts on and what the outside world supplies. -/

namespace Sys2Proof

/-- Type codes (Table 2.3). -/
inductive Ty where
  | i8 | i16 | i32 | i64 | n8 | n16 | n32 | n64 | b8 | b16 | b32 | b64 | b128
  | f32 | f16 | bf16 | e4m3 | e5m2 | tf8 | tf6 | e8m0
deriving DecidableEq, Repr

/-- Rounding modes (R37). -/
inductive Rm where
  | rne | rz | ru | rd
deriving DecidableEq, Repr

/-- Comparison conditions (R217). -/
inductive Cond where
  | eq | ne | lt | le | gt | ge
deriving DecidableEq, Repr

/-- Memory spaces (R36). -/
inductive Space where
  | glb | loc | clu
deriving DecidableEq, Repr

/-- Orderings (R36). -/
inductive MemOrder where
  | none | acq | rel | ar
deriving DecidableEq, Repr

/-- Scopes (R36, Table 15.2). -/
inductive Scope where
  | grp | team | clu | dev | ten | sys
deriving DecidableEq, Repr

/-- Grades (R88). -/
inductive Grade where
  | empty | guess | prov | final
deriving DecidableEq, Repr

/-- Operations of `REDG` and `SCANG` (R249). -/
inductive RedOp where
  | add | min | max | and | or | xor
deriving DecidableEq, Repr

/-- Functions of `ATOM` and `FATOM` (Table 2.11). -/
inductive AtomFn where
  | add | minS | minU | maxS | maxU | and | or | xor | exch | cas | maxk | fadd
deriving DecidableEq, Repr

/-- Size codes of `LD` and `ST` (Table 2.10). -/
inductive LsSize where
  | u8 | u16 | w32 | w64 | w128 | s8 | s16
deriving DecidableEq, Repr

/-- Width codes of graded accesses (Table 2.12). -/
inductive GWidth where
  | w32 | w64 | w128
deriving DecidableEq, Repr

/-- Register operands in a source position (Table 1.1, Table 2.4). -/
inductive Src where
  | v (n : Fin 768)
  | o (n : Fin 8)
  | l (n : Fin 2)
  | k (n : Fin 16)
  | s (n : Fin 64)
deriving DecidableEq, Repr

/-- Register operands in a destination position (Table 2.4). -/
inductive Dst where
  | v (n : Fin 768)
  | o (n : Fin 8)
  | l0
  | s (n : Fin 64)
deriving DecidableEq, Repr

/-- Special registers (Table 9.4). -/
inductive Sr where
  | lane | group | team | task | core | pair | cluster | die | chip | gwidth | active | rejoinm
  | awbase | awlimit | rowprog | stackbase | stacktop | gradefloor | amdepth
  | faultpc | faultinfo | skid | prebudget | clock
deriving DecidableEq, Repr

/-- The guard of a full-form word (R42): predicate number and negation. -/
structure Guard where
  pg : Fin 8
  pn : Bool
deriving DecidableEq, Repr

/-- A-form word with one source. -/
structure F1 where
  g : Guard
  ty : Ty
  rm : Rm
  sat : Bool
  d : Dst
  a : Src
deriving DecidableEq, Repr

/-- A-form word with two sources. -/
structure F2 where
  g : Guard
  ty : Ty
  rm : Rm
  sat : Bool
  d : Dst
  a : Src
  b : Src
deriving DecidableEq, Repr

/-- A-form word with three sources. -/
structure F3 where
  g : Guard
  ty : Ty
  rm : Rm
  d : Dst
  a : Src
  b : Src
  c : Src
deriving DecidableEq, Repr

/-- C-form immediate word (R39); `w` is the FN bit that selects the second type of the class. -/
structure CImm where
  g : Guard
  w : Bool
  d : Dst
  a : Src
  imm : BitVec 27
deriving DecidableEq, Repr

/-- B-form immediate word (R39). -/
structure BImm where
  g : Guard
  w : Bool
  d : Dst
  a : Src
  b : Src
  imm : BitVec 17
deriving DecidableEq, Repr

/-- A comparison of two registers into a predicate (R217, R227). -/
structure SetP where
  g : Guard
  cond : Cond
  ty : Ty
  pd : Fin 8
  a : Src
  b : Src
deriving DecidableEq, Repr

/-- A predicate operation (R222, R247). -/
structure PredOp where
  g : Guard
  pd : Fin 8
  pa : Fin 8
  pb : Fin 8
deriving DecidableEq, Repr

/-- A word whose source is a predicate and whose result is a register (R248). -/
structure PredReg where
  g : Guard
  ty : Ty
  d : Dst
  pa : Fin 8
deriving DecidableEq, Repr

/-- A word of the special-function queue (R237). -/
structure Sfq where
  g : Guard
  tok : Fin 4
  d : Dst
  a : Src
  b : Src
  c : Src
deriving DecidableEq, Repr

/-- A reduction or scan (R249, R250). -/
structure Red where
  g : Guard
  op : RedOp
  ty : Ty
  d : Dst
  a : Src
deriving DecidableEq, Repr

/-- Operations of a pair slot (Table 2.6). -/
inductive PairOp where
  | iadd | isub | imul | iminI32 | imaxI32 | iminN32 | imaxN32 | and | or | xor | andn
  | shl | shr | sar | mov | movi | fadd | fsub | fmul | fmin | fmax
deriving DecidableEq, Repr

/-- The A operand of a pair slot (Table 2.5): a register of the slot's bank, or of another file. -/
inductive PairSrc where
  | bank (n : Fin 256)
  | o (n : Fin 8)
  | l (n : Fin 2)
  | k (n : Fin 16)
  | s (n : Fin 64)
deriving DecidableEq, Repr

/-- The fields of a pair slot (Table 2.5); guard 3 is always. -/
structure PairArgs where
  guard : Fin 4
  bank : Fin 3
  d : Fin 256
  a : PairSrc
  imm : Fin 16
deriving DecidableEq, Repr

/-- A whole pair slot. -/
structure PairSlot where
  op : PairOp
  x : PairArgs
deriving DecidableEq, Repr

/-- The address operands of an E-form word (R36, R152); `b = none` is the code 1023, no index. -/
structure Addr where
  a : Src
  b : Option Src
  off : BitVec 9
deriving DecidableEq, Repr

/-- `LD` (R162). -/
structure LdArgs where
  g : Guard
  fb : Bool
  size : LsSize
  space : Space
  strong : Bool
  ord : MemOrder
  scope : Scope
  d : Dst
  m : Addr
deriving DecidableEq, Repr

/-- `ST` (R163). -/
structure StArgs where
  g : Guard
  fb : Bool
  size : LsSize
  space : Space
  strong : Bool
  ord : MemOrder
  scope : Scope
  d : Src
  m : Addr
deriving DecidableEq, Repr

/-- `ATOM` and `FATOM` (R165, R183). -/
structure AtomArgs where
  g : Guard
  fb : Bool
  fn : AtomFn
  space : Space
  ord : MemOrder
  scope : Scope
  d : Dst
  a : Src
  b : Src
  off : BitVec 9
deriving DecidableEq, Repr

/-- A word with an ordering or a scope and no address (`FENCE`, `ACQR`). -/
structure FenceArgs where
  g : Guard
  fb : Bool
  ord : MemOrder
  scope : Scope
  a : Src
deriving DecidableEq, Repr

/-- `CFLUSH`, `CINV` (R168). -/
structure CacheArgs where
  g : Guard
  fb : Bool
  scope : Scope
  m : Addr
deriving DecidableEq, Repr

/-- A word over a page range: `SEAL`, `UNSEAL`, `HARVEST` (R169, R328). -/
structure RangeArgs where
  g : Guard
  fb : Bool
  d : Src
  m : Addr
deriving DecidableEq, Repr

/-- `WAITA` (R171). -/
structure WaitArgs where
  g : Guard
  fb : Bool
  space : Space
  scope : Scope
  d : Dst
  a : Src
  b : Src
  off : BitVec 9
deriving DecidableEq, Repr

/-- A word that reads at an address into a register: `PROBE`, `GRD`, `ACWAIT`. -/
structure ReadArgs where
  g : Guard
  fb : Bool
  space : Space
  d : Dst
  m : Addr
deriving DecidableEq, Repr

/-- A word whose descriptor lies in scalars: `TCOPY`, `FPUT`, `FGET`. -/
structure DescArgs where
  g : Guard
  fb : Bool
  space : Space
  sn : Fin 64
deriving DecidableEq, Repr

/-- `LDG` (R176); `pd = 7` means none. -/
structure LdgArgs where
  g : Guard
  fb : Bool
  grade : Grade
  width : GWidth
  nowait : Bool
  pd : Fin 8
  d : Dst
  m : Addr
deriving DecidableEq, Repr

/-- `STG`, `AMEND` (R177). -/
structure StgArgs where
  g : Guard
  fb : Bool
  grade : Grade
  width : GWidth
  d : Src
  m : Addr
deriving DecidableEq, Repr

/-- `GINIT`, `GADD` (R179). -/
structure GopArgs where
  g : Guard
  fb : Bool
  d : Src
  m : Addr
deriving DecidableEq, Repr

/-- `GREAD` (R179). -/
structure GreadArgs where
  g : Guard
  fb : Bool
  pd : Fin 8
  d : Dst
  m : Addr
deriving DecidableEq, Repr

/-- `GSPREAD` (R150, R179). -/
structure GspreadArgs where
  g : Guard
  fb : Bool
  pd : Fin 8
  d : Dst
  a : Src
  thr : Src
  off : BitVec 9
deriving DecidableEq, Repr

/-- A word with a count: `GFENCE`, `CARVE`. -/
structure CountArgs where
  g : Guard
  fb : Bool
  n : Fin 256
deriving DecidableEq, Repr

/-- A word with no operand but its flag: `GSTEP`, `FFENCE`. -/
structure FlagArgs where
  g : Guard
  fb : Bool
deriving DecidableEq, Repr

/-- `ACSET` (R185). -/
structure AcsetArgs where
  g : Guard
  fb : Bool
  space : Space
  a : Src
  b : Src
  off : BitVec 9
deriving DecidableEq, Repr

/-- `MLOAD`, `MSTORE` (R261, R269); `d` is the row word. -/
structure MrowArgs where
  g : Guard
  fb : Bool
  space : Space
  scope : Scope
  d : Src
  m : Addr
deriving DecidableEq, Repr

/-- A word over three registers that writes none: `MMA`, `MWRITE`, `AWSET` (R270). -/
structure Reg3 where
  g : Guard
  a : Src
  b : Src
  c : Src
deriving DecidableEq, Repr

/-- A PC-relative transfer (R306). -/
structure RelArgs where
  g : Guard
  uni : Bool
  disp : BitVec 27
deriving DecidableEq, Repr

/-- A transfer through a register (R306). -/
structure IndArgs where
  g : Guard
  uni : Bool
  a : Src
  n : BitVec 27
deriving DecidableEq, Repr

/-- A barrier word (R318). -/
structure BarArgs where
  g : Guard
  b : Fin 16
  c : Fin 17
deriving DecidableEq, Repr

/-- A word with a 16-bit code (R325). -/
structure CodeArgs where
  g : Guard
  code : BitVec 16
deriving DecidableEq, Repr

/-! ### What the steps that are no instruction words carry -/

/-- What an uncorrectable error poisons (R194, R273): a 16-bit half of a group's register, an accumulator element, or a
32-bit word of the operand buffer. -/
inductive RfErr where
  | half (slot : Nat) (reg : Src) (lane : Nat) (hi : Nat)
  | acc (row col : Nat)
  | ob (word : Nat)
  | stack (slot : Nat) (lane entry : Nat)
  | corrected
deriving DecidableEq, Repr

/-- What the controller finds when an access reads its line (R81): no error, one that it corrects, one that it cannot. -/
inductive MemErr where
  | none | soft | hard
deriving DecidableEq, Repr

/-- What a request packet asks of its target (R127); `fetch` is the read of an `FGET`. -/
inductive PacketOp where
  | load (size : Nat)
  | fetch (size : Nat)
  | store (mask : BitVec 256) (data : BitVec 2048)
  | atom (fn : AtomFn) (w64 : Bool) (data cmp : Word)
  | ldg (min : Grade) (nowait : Bool) (size : Nat)
  | grd
  | stg (mask : BitVec 256) (data : BitVec 2048) (grade : Grade) (gen depth limit : Nat)
  | amend (mask : BitVec 256) (data : BitVec 2048) (grade : Grade) (depth limit : Nat)
  | exportStore (mask : BitVec 256) (data : BitVec 2048) (grade : Grade) (gen depth tgid : Nat)
  | bulk (mask : BitVec 256) (data : BitVec 2048) (ctr : Option Word)
deriving DecidableEq, Repr

/-- A request packet (R122, R124, R127): sender's FPID, source chip and request number, IFA. -/
structure Packet where
  fpid : Nat
  src : Nat
  id : Nat
  ifa : Word
  op : PacketOp
deriving DecidableEq, Repr

/-- A gossip message (R143). -/
structure GossipMsg where
  src : Nat
  fpid : Nat
  entry : Nat
  region : Nat
  line : Nat
  seq : BitVec 32
  sent : List Word
  sentw : Word
deriving DecidableEq, Repr

/-- Who writes a partition's block: the hypervisor, or the partition's function, on its own stream with the T bit set or
not (R376). -/
inductive Writer where
  | hyper
  | function (onStream : Bool)
deriving DecidableEq, Repr

/-- Which management block a register write addresses (R374). -/
inductive Block where
  | hyper
  | part (p : Nat) (w : Writer)
deriving DecidableEq, Repr

/-- What a host atomic asks (R374). -/
inductive HostAtom where
  | fetchAdd | swap | cas
deriving DecidableEq, Repr

/-- A host request of at most 4,096 bytes through BAR2 (R374). `onStream` says that it travels on the function's own
selective stream with the T bit set (R376). -/
structure Bar2 where
  part : Nat
  off : Nat
  size : Nat
  write : Bool
  data : BitVec 32768
  onStream : Bool
deriving DecidableEq, Repr

/-- A firmware image as a die's ROM sees it (R380): which signatures verify, its security version, the
fused minimum, and its digest. -/
structure Firmware where
  ed25519Ok : Bool
  mldsaOk : Bool
  version : Nat
  minVersion : Nat
  digest : Nat
deriving DecidableEq, Repr

/-- TDISP requests that move a function's interface between its states (R376). -/
inductive Tdisp where
  | lock | start | stop
deriving DecidableEq, Repr

/-- A clause header (Table 2.7); `none` is the set-flag code 15. -/
structure Header where
  len : Fin 16
  wait : BitVec 12
  sfa : Option (Fin 12)
  sfb : Option (Fin 12)
deriving DecidableEq, Repr

/-- The words and steps of the device, one constructor for each row of the opcode table: the words
and the steps that the device takes by itself, in the table's order, then the steps that come from outside. -/
inductive Instr where
  | ill 
  | nop (g : Guard)
  | bra (x : RelArgs)
  | brx (x : IndArgs)
  | call (x : RelArgs)
  | callx (x : IndArgs)
  | ret (g : Guard) (uni : Bool)
  | stackFillReturn (core slot lane : Nat)
  | rejoin (g : Guard) (a : Option Src)
  | exit (g : Guard)
  | spawn (g : Guard) (disp : BitVec 27) (a : Src)
  | yield (g : Guard)
  | yieldWake (core slot lane : Nat)
  | sleep (g : Guard) (n : BitVec 27)
  | sleepWake (core slot lane : Nat)
  | wtok (g : Guard) (m : BitVec 4)
  | wflag (g : Guard) (m : BitVec 12)
  | bar (x : BarArgs)
  | bara (x : BarArgs)
  | barw (g : Guard) (b : Fin 16)
  | tlaunch (g : Guard) (d : Dst) (a : Src)
  | tdone (g : Guard) (grade : Grade)
  | twalk (g : Guard) (d : Dst)
  | tstat (g : Guard) (d : Dst) (a : Src)
  | trap (x : CodeArgs)
  | brk (x : CodeArgs)
  | sysc (x : CodeArgs)
  | hret (g : Guard)
  | hretKill (g : Guard)
  | pret (g : Guard)
  | mfs (g : Guard) (d : Dst) (r : Sr)
  | mts (g : Guard) (r : Sr) (a : Src)
  | harvest (x : RangeArgs)
  | iadd (x : F2)
  | iaddImm (x : CImm)
  | isub (x : F2)
  | isubImm (x : CImm)
  | imul (x : F2)
  | imulImm (x : CImm)
  | imulh (x : F2)
  | imulhImm (x : CImm)
  | imad (x : F3)
  | imadImm (x : BImm)
  | imadw (x : F3)
  | imadwImm (x : BImm)
  | ineg (x : F1)
  | iabs (x : F1)
  | imin (x : F2)
  | iminImm (x : CImm)
  | imax (x : F2)
  | imaxImm (x : CImm)
  | bitAnd (x : F2)
  | andImm (x : CImm)
  | bitOr (x : F2)
  | orImm (x : CImm)
  | bitXor (x : F2)
  | xorImm (x : CImm)
  | andn (x : F2)
  | andnImm (x : CImm)
  | bitNot (x : F1)
  | shl (x : F2)
  | shlImm (x : CImm)
  | shr (x : F2)
  | shrImm (x : CImm)
  | sar (x : F2)
  | sarImm (x : CImm)
  | rol (x : F2)
  | rolImm (x : CImm)
  | popc (x : F1)
  | clz (x : F1)
  | ctz (x : F1)
  | brev (x : F1)
  | bfx (x : F3)
  | bfxImm (x : BImm)
  | bfi (x : F3)
  | bfiImm (x : BImm)
  | isetp (x : SetP)
  | isetpImm (g : Guard) (cond : Cond) (uns : Bool) (pd : Fin 8) (a : Src) (imm : BitVec 26)
  | sel (g : Guard) (ty : Ty) (d : Dst) (a b : Src) (pc : Fin 8)
  | mov (x : F1)
  | movi (g : Guard) (d : Dst) (imm : BitVec 27)
  | moviHi (g : Guard) (d : Dst) (imm : BitVec 16)
  | lea (g : Guard) (sc : Fin 5) (d : Dst) (a b : Src)
  | rhash (x : F2)
  | pand (x : PredOp)
  | por (x : PredOp)
  | pxor (x : PredOp)
  | pnot (x : PredOp)
  | fadd (x : F2)
  | faddImm (x : CImm)
  | fsub (x : F2)
  | fsubImm (x : CImm)
  | fmul (x : F2)
  | fmulImm (x : CImm)
  | ffma (x : F3)
  | ffmaImm (x : BImm)
  | fmin (x : F2)
  | fminImm (x : CImm)
  | fmax (x : F2)
  | fmaxImm (x : CImm)
  | fabs (x : F1)
  | fneg (x : F1)
  | fsetp (x : SetP)
  | fsetpImm (g : Guard) (cond : Cond) (pd : Fin 8) (a : Src) (imm : BitVec 27)
  | fclass (x : F1)
  | frnd (x : F1)
  | fscl (x : F2)
  | fdot2 (x : F3)
  | cvt (x : F1) (sty : Ty)
  | pack (x : F3)
  | unpack (x : F2)
  | okey (x : F1)
  | keyf (x : F1)
  | qcvt (x : F2)
  | bscale (x : F1)
  | sfqRcp (x : Sfq)
  | sfqRsq (x : Sfq)
  | sfqSqrt (x : Sfq)
  | sfqExp2 (x : Sfq)
  | sfqLog2 (x : Sfq)
  | sfqSin (x : Sfq)
  | sfqCos (x : Sfq)
  | sfqTanh (x : Sfq)
  | sfqExp2s (x : Sfq)
  | sfqGnoise (x : Sfq)
  | sfqDiv (x : Sfq)
  | sfqResultArrival (core job : Nat)
  | xpull (x : F2)
  | xpush (x : F2)
  | xbcast (x : F2)
  | xbcastImm (g : Guard) (d : Dst) (a : Src) (lane : Fin 64)
  | vany (x : PredOp)
  | vall (x : PredOp)
  | vbal (x : PredReg)
  | vfirst (x : PredReg)
  | vcount (x : PredReg)
  | redg (x : Red)
  | scang (x : Red)
  | scangEx (x : Red)
  | matchLanes (x : F1)
  | pairIadd (x : PairArgs) (y : PairSlot)
  | pairIsub (x : PairArgs) (y : PairSlot)
  | pairImul (x : PairArgs) (y : PairSlot)
  | pairIminI32 (x : PairArgs) (y : PairSlot)
  | pairImaxI32 (x : PairArgs) (y : PairSlot)
  | pairIminN32 (x : PairArgs) (y : PairSlot)
  | pairImaxN32 (x : PairArgs) (y : PairSlot)
  | pairAnd (x : PairArgs) (y : PairSlot)
  | pairOr (x : PairArgs) (y : PairSlot)
  | pairXor (x : PairArgs) (y : PairSlot)
  | pairAndn (x : PairArgs) (y : PairSlot)
  | pairShl (x : PairArgs) (y : PairSlot)
  | pairShr (x : PairArgs) (y : PairSlot)
  | pairSar (x : PairArgs) (y : PairSlot)
  | pairMov (x : PairArgs) (y : PairSlot)
  | pairMovi (x : PairArgs) (y : PairSlot)
  | pairFadd (x : PairArgs) (y : PairSlot)
  | pairFsub (x : PairArgs) (y : PairSlot)
  | pairFmul (x : PairArgs) (y : PairSlot)
  | pairFmin (x : PairArgs) (y : PairSlot)
  | pairFmax (x : PairArgs) (y : PairSlot)
  | ld (x : LdArgs)
  | st (x : StArgs)
  | atom32 (x : AtomArgs)
  | atom64 (x : AtomArgs)
  | fence (x : FenceArgs)
  | acqr (x : FenceArgs)
  | cflush (x : CacheArgs)
  | cinv (x : CacheArgs)
  | seal (x : RangeArgs)
  | unseal (x : RangeArgs)
  | carve (x : CountArgs)
  | waita (x : WaitArgs)
  | watchRecheck (core req lane : Nat)
  | probe (x : ReadArgs)
  | tcopy (x : DescArgs)
  | draySectorLand (core req : Nat)
  | ldg (x : LdgArgs)
  | parkWake (core req lane : Nat)
  | parkRetry (core req lane : Nat)
  | stg (x : StgArgs)
  | amend (x : StgArgs)
  | grd (x : ReadArgs)
  | ginit (x : GopArgs)
  | gadd (x : GopArgs)
  | gread (x : GreadArgs)
  | gspread (x : GspreadArgs)
  | gfence (x : CountArgs)
  | gstep (x : FlagArgs)
  | fput (x : DescArgs)
  | fget (x : DescArgs)
  | fatom32 (x : AtomArgs)
  | fatom64 (x : AtomArgs)
  | ffence (x : FlagArgs)
  | acset (x : AcsetArgs)
  | acwait (x : ReadArgs)
  | obres (x : F2)
  | obrel (g : Guard) (a : Src)
  | mload (x : MrowArgs)
  | mloadRowLand (core req : Nat)
  | mma (x : Reg3)
  | mmaAll (x : Reg3)
  | oxPassStart (core : Nat)
  | oxPassEnd (core : Nat)
  | mzero (g : Guard) (a : Src)
  | mread (g : Guard) (d : Dst) (a b : Src)
  | mwrite (x : Reg3)
  | mstore (x : MrowArgs)
  | awset (x : Reg3)
  | gangIssue (core dt : Nat) (err : Option RfErr)
  | loadReturn (core req idx : Nat)
  | storeAcknowledge (core req idx : Nat)
  | writeBackMerge (core part easid va : Nat)
  | missReissue (core req : Nat)
  | plbFill (core part easid page : Nat)
  | lateFault (core req idx : Nat) (err : MemErr)
  | faultRecordWrite (part : Nat)
  | lateTrap (core slot : Nat)
  | siblingStop (core slot : Nat)
  | trapHandlerEntry (core slot : Nat)
  | combineDrainTimeout (core idx : Nat)
  | wayConvert (core : Nat)
  | gossipRoundStart (part nbr region : Nat)
  | gossipSplit (part nbr region line : Nat)
  | placeTeam (part core : Nat)
  | spawnBinFire (cluster bin core : Nat)
  | refireBinFire (part task : Nat)
  | teamEnd (run : Nat)
  | taskRetire (part slot : Nat)
  | preemptTakeEffect (p : Nat)
  | preemptBudgetExpiry (core : Nat)
  | contextSave (core : Nat)
  | watchNotify (core req lane : Nat)
  | tableWalk (part easid page : Nat)
  | rpcmdReplay (part easid vpage : Nat)
  | rpcmdDrop (part easid vpage : Nat)
  | holdStall (core slot : Nat)
  | directoryEviction (part easid va : Nat)
  | engineRecall (part easid va : Nat)
  | shootDown (part : Nat) (value : Word)
  | frameRelease (part : Nat) (value : Word)
  | keyInstall (slot key : Nat)
  | sccolWrite (p : Nat) (value : Word)
  | fabricPacketArrival (pkt : Packet)
  | fabricAcknowledge (id : Nat) (data : BitVec 2048) (rec : Nat)
  | fabricRefusal (id : Nat) (cause : Nat) (detail : Nat)
  | linkDown (link : Nat)
  | linkKeyWarn (link : Nat)
  | keySwitchFlit (link : Nat)
  | linkKeyInstall (link key salt : Nat)
  | linkKeyExhaust (link : Nat)
  | keyRequestFlit (link : Nat)
  | keyExpire (link : Nat)
  | plremapWrite (value : Word)
  | plctlWrite (value : Word)
  | fmpolWrite (i word : Nat) (value : Word)
  | linkRetrain (link : Nat)
  | gossipMessageArrival (msg : GossipMsg)
  | gossipAck (part nbr : Nat) (seq : BitVec 32)
  | gossipRefusal (part nbr : Nat) (seq : BitVec 32)
  | gossipReconcile (part nbr : Nat) (last : BitVec 32)
  | gsregWrite (part n word : Nat) (value : Word)
  | gsctlWrite (part : Nat) (value : Word)
  | tgctlEndGraph (part : Nat) (value : Word)
  | bwctlStart (part : Nat) (value : Word)
  | prectlGo (p : Nat)
  | saveFault (core : Nat)
  | svfallWrite (p : Nat) (value : Word)
  | prectlResume (p : Nat)
  | askill (part : Nat) (value : Word)
  | partcfgWrite (p : Nat) (value : Word)
  | pwrctlWrite (p : Nat) (value : Word)
  | powerInterval (p power : Nat)
  | hostBar2Access (x : Bar2)
  | hostAtomicOp (x : Bar2) (op : HostAtom) (cmp : Word)
  | hostCompletion (id : Nat) (data : BitVec 2048) (err : Bool)
  | getVersion (die : Nat)
  | getCapabilities (die : Nat)
  | negotiateAlgorithms (die : Nat)
  | getDigests (die : Nat)
  | getCertificate (die slot : Nat)
  | challenge (die slot nonce : Nat)
  | getMeasurements (die slot index nonce : Nat)
  | keyExchange (die slot session : Nat)
  | finish (die session : Nat)
  | ideKm (session stream key : Nat)
  | tdispRequest (session tdi : Nat) (op : Tdisp)
  | powerOn (fw : List Firmware)
  | channelTrained (die channel : Nat)
  | clusterRelease (die : Nat) (manifestOk : Bool)
  | registerWrite (blk : Block) (off : Nat) (value : Word)
  | fabricLinkTrained (link : Nat)
  | cxlPortTrained (port : Nat)
deriving DecidableEq, Repr

end Sys2Proof
end

