-- ==== Sys2Proof/WellFormed.lean ====
section
/-! DEFINITION. Which decoded words the instruction set has: type suffixes, operand widths and alignment,
modifiers and field limits (R40, R55, R187, R207 and each instruction's own rule). A word that breaks
one of these is ILLEGAL whatever group issues it. The checks that depend on the issuing group (the
register count, reduced service, handler mode) are in Machine/Operands.lean. -/

namespace Sys2Proof

/-- Width of a type in bits; TF6 codes count as the 8 bits of the register byte they sit in (R187, R200). -/
def Ty.bits : Ty → Nat
  | .i8 | .n8 | .b8 | .e4m3 | .e5m2 | .tf8 | .tf6 | .e8m0 => 8
  | .i16 | .n16 | .b16 | .f16 | .bf16 => 16
  | .i32 | .n32 | .b32 | .f32 => 32
  | .i64 | .n64 | .b64 => 64
  | .b128 => 128

def Ty.signed : Ty → Bool
  | .i8 | .i16 | .i32 | .i64 => true
  | _ => false

def Ty.uint : Ty → Bool
  | .n8 | .n16 | .n32 | .n64 => true
  | _ => false

/-- Two's-complement and unsigned integer types of 32 and 64 bits, and the bit strings of those widths. -/
def Ty.int3264 : Ty → Bool
  | .i32 | .i64 | .n32 | .n64 | .b32 | .b64 => true
  | _ => false

/-- The floating types of the vector arithmetic instructions (R223). -/
def Ty.fp : Ty → Bool
  | .f32 | .f16 | .bf16 => true
  | _ => false

/-- The floating types an element may have in the conversions of R232. -/
def Ty.anyFloat : Ty → Bool
  | .f32 | .f16 | .bf16 | .e4m3 | .e5m2 | .tf8 | .tf6 => true
  | _ => false

/-- A source at a width (R187): alignment, one file, no `k` above 32 bits, no `l` at 128. -/
def Src.okAt (lim w : Nat) : Src → Bool
  | .v n => n.val + (w + 31) / 32 ≤ lim && (w ≤ 32 || (w == 64 && n.val % 2 == 0) || (w == 128 && n.val % 4 == 0))
  | .o n => w ≤ 32 || (w == 64 && n.val % 2 == 0) || (w == 128 && n.val % 4 == 0)
  | .l _ => w ≤ 64
  | .k _ => w ≤ 32
  | .s n => w ≤ 64 || (w == 128 && n.val % 2 == 0)

/-- A destination at a width (R187). -/
def Dst.okAt (lim w : Nat) : Dst → Bool
  | .v n => n.val + (w + 31) / 32 ≤ lim && (w ≤ 32 || (w == 64 && n.val % 2 == 0) || (w == 128 && n.val % 4 == 0))
  | .o n => w ≤ 32 || (w == 64 && n.val % 2 == 0) || (w == 128 && n.val % 4 == 0)
  | .l0 => w ≤ 64
  | .s n => w ≤ 64 || (w == 128 && n.val % 2 == 0)

def F1.wf (lim : Nat) (x : F1) (ty : Ty → Bool) (satOk rmOk : Bool) (dw aw : Nat) : Bool :=
  ty x.ty && (satOk || !x.sat) && (rmOk || x.rm == .rne) && x.d.okAt lim dw && x.a.okAt lim aw

def F2.wf (lim : Nat) (x : F2) (ty : Ty → Bool) (satOk rmOk : Bool) (dw aw bw : Nat) : Bool :=
  ty x.ty && (satOk || !x.sat) && (rmOk || x.rm == .rne) && x.d.okAt lim dw && x.a.okAt lim aw && x.b.okAt lim bw

def F3.wf (lim : Nat) (x : F3) (ty : Ty → Bool) (rmOk : Bool) (dw aw bw cw : Nat) : Bool :=
  ty x.ty && (rmOk || x.rm == .rne) && x.d.okAt lim dw && x.a.okAt lim aw && x.b.okAt lim bw && x.c.okAt lim cw

/-- Width of an integer immediate form (R39). -/
def immBits (w : Bool) : Nat := if w then 64 else 32

/-- Width of a floating immediate form (R39): `.f32` or `.f16`. -/
def fimmBits (w : Bool) : Nat := if w then 16 else 32

def CImm.wfInt (lim : Nat) (x : CImm) : Bool := x.d.okAt lim (immBits x.w) && x.a.okAt lim (immBits x.w)

def CImm.wfFloat (lim : Nat) (x : CImm) : Bool :=
  x.d.okAt lim (fimmBits x.w) && x.a.okAt lim (fimmBits x.w) && (!x.w || x.imm.toNat < 65536)

def BImm.wfInt (lim : Nat) (x : BImm) : Bool :=
  x.d.okAt lim (immBits x.w) && x.a.okAt lim (immBits x.w) && x.b.okAt lim (immBits x.w)

def SetP.wf (lim : Nat) (x : SetP) (ty : Ty → Bool) : Bool :=
  ty x.ty && x.pd.val != 7 && x.a.okAt lim x.ty.bits && x.b.okAt lim x.ty.bits

/-- Types of `REDG` and `SCANG` by operation (Table 10.8). -/
def RedOp.okTy (op : RedOp) (t : Ty) : Bool :=
  match op with
  | .add => t.int3264 || t.fp
  | .min | .max => (t.int3264 && (t.signed || t.uint)) || t.fp
  | .and | .or | .xor => t.int3264

def Red.wf (lim : Nat) (x : Red) : Bool := x.op.okTy x.ty && x.d.okAt lim x.ty.bits && x.a.okAt lim x.ty.bits

/-- A special-function word with `n` sources; the fields it does not read are zero (R237). -/
def Sfq.wf (lim : Nat) (x : Sfq) (n : Nat) : Bool :=
  x.d.okAt lim 32 && x.a.okAt lim 32 && (if 2 ≤ n then x.b.okAt lim 32 else x.b == .v 0) &&
    (if 3 ≤ n then x.c.okAt lim 32 else x.c == .v 0)

def LsSize.bytes : LsSize → Nat
  | .u8 | .s8 => 1
  | .u16 | .s16 => 2
  | .w32 => 4
  | .w64 => 8
  | .w128 => 16

def GWidth.bytes : GWidth → Nat
  | .w32 => 4
  | .w64 => 8
  | .w128 => 16

/-- Width of the base operand by memory space (Table 8.1). -/
def Space.baseBits : Space → Nat
  | .glb => 64
  | _ => 32

def Addr.wf (lim : Nat) (m : Addr) (sp : Space) : Bool :=
  m.a.okAt lim sp.baseBits && (match m.b with | none => true | some b => b.okAt lim 32)

/-- `REDG`-free part of Table 8.2: an ordering needs kind `.s`. -/
def LdArgs.wf (lim : Nat) (x : LdArgs) : Bool :=
  (x.ord == .none || (x.ord == .acq && x.strong)) && x.d.okAt lim (8 * x.size.bytes) && x.m.wf lim x.space

def StArgs.wf (lim : Nat) (x : StArgs) : Bool :=
  (x.ord == .none || (x.ord == .rel && x.strong)) && x.size != .s8 && x.size != .s16 &&
    x.d.okAt lim (8 * x.size.bytes) && x.m.wf lim x.space

def AtomArgs.wf (lim : Nat) (x : AtomArgs) (w : Nat) (fabric : Bool) : Bool :=
  (x.fn != .maxk || w == 64) && (x.fn != .fadd || w == 32) &&
    (!fabric || (x.space == .glb && (x.scope == .dev || x.scope == .ten || x.scope == .sys))) &&
    x.d.okAt lim w && x.a.okAt lim x.space.baseBits && x.b.okAt lim w

/-- A range word: a 32-bit page count and a global address. -/
def RangeArgs.wf (lim : Nat) (x : RangeArgs) : Bool := x.d.okAt lim 32 && x.m.wf lim .glb

def StgArgs.wf (lim : Nat) (x : StgArgs) : Bool :=
  x.grade != .empty && x.d.okAt lim (8 * x.width.bytes) && x.m.wf lim .glb

/-- A pair slot's immediate (Table 2.6). -/
def PairOp.okImm (op : PairOp) (imm : Nat) : Bool :=
  match op with
  | .shl | .shr | .sar | .movi => true
  | .fadd | .fsub | .fmul => imm < 4
  | _ => imm == 0

def PairSlot.wf (lim : Nat) (s : PairSlot) : Bool :=
  decide (256 * s.x.bank.val + s.x.d.val < lim) &&
    (match s.x.a with | .bank n => decide (256 * s.x.bank.val + n.val < lim) || s.op == .movi | _ => true) &&
  s.op.okImm s.x.imm.val && (s.op != .movi || s.x.a == .bank 0)

/-- A pair word: two legal slots in different banks (R44). -/
def pairWf (lim : Nat) (op : PairOp) (x : PairArgs) (y : PairSlot) : Bool :=
  PairSlot.wf lim ⟨op, x⟩ && y.wf lim && x.bank != y.x.bank

def Sr.bits : Sr → Nat
  | .active | .rejoinm | .stackbase | .stacktop | .gradefloor | .amdepth | .faultpc | .faultinfo | .clock => 64
  | _ => 32

/-- Registers that `MTS` may name (Table 9.4). -/
def Sr.writable : Sr → Bool
  | .rejoinm | .awbase | .awlimit | .stackbase | .stacktop | .gradefloor | .amdepth | .faultpc | .faultinfo
  | .skid | .prebudget => true
  | _ => false

/-- Element types of `PACK` and `UNPACK` (R233). -/
def Ty.packable : Ty → Bool
  | .i8 | .n8 | .b8 | .e4m3 | .e5m2 | .tf8 | .i16 | .n16 | .b16 | .f16 | .bf16 | .tf6 => true
  | _ => false

/-- Destination types of `QCVT` and `BSCALE` (R235, R236). -/
def Ty.quant : Ty → Bool
  | .e4m3 | .e5m2 | .tf8 | .tf6 | .f16 | .bf16 => true
  | _ => false

def Ty.cvtInt (t : Ty) : Bool := t.signed || t.uint

/-- The pairs of `CVT` (R232, Table 10.6). `CVT` defines the mode field for every pair; between integers it has no
effect (DEDUCED, log entry 10). -/
def cvtWf (lim : Nat) (x : F1) (sty : Ty) : Bool :=
  (x.ty.cvtInt || x.ty.anyFloat) && (sty.cvtInt || sty.anyFloat) && x.ty != sty &&
    (!x.sat || (x.ty.cvtInt && sty.cvtInt) || (x.ty.anyFloat && sty.anyFloat)) &&
    x.d.okAt lim x.ty.bits && x.a.okAt lim sty.bits

def Ty.b3264 : Ty → Bool
  | .b32 | .b64 => true
  | _ => false

def Ty.i3264 : Ty → Bool
  | .i32 | .i64 => true
  | _ => false

def Ty.imadw : Ty → Bool
  | .i32 | .n32 | .i64 | .n64 => true
  | _ => false

def Ty.intMinMax : Ty → Bool
  | .i32 | .i64 | .n32 | .n64 => true
  | _ => false

def Ty.moveTy : Ty → Bool
  | .b32 | .b64 | .b128 => true
  | _ => false

/-- Formats of the Ox (Table 11.2). -/
def Ty.ox : Ty → Bool
  | .f32 | .f16 | .bf16 | .e4m3 | .e5m2 | .tf8 | .tf6 => true
  | _ => false

/-- Words that are legal for a group with `lim` main-file registers (R55 items 2 to 4 and 7). Steps that are no
instruction words have no word, and are well-formed as they stand. -/
def Instr.wfAt (lim : Nat) : Instr → Bool
  | .iadd x | .isub x =>
      x.wf lim Ty.int3264 (x.ty.signed || x.ty.uint) false x.ty.bits x.ty.bits x.ty.bits
  | .imul x | .imulh x => x.wf lim Ty.int3264 false false x.ty.bits x.ty.bits x.ty.bits
  | .iaddImm x | .isubImm x | .imulImm x | .imulhImm x | .iminImm x | .imaxImm x
  | .andImm x | .orImm x | .xorImm x | .andnImm x | .shlImm x | .shrImm x | .sarImm x | .rolImm x => x.wfInt lim
  | .imad x => x.wf lim Ty.int3264 false x.ty.bits x.ty.bits x.ty.bits x.ty.bits
  | .imadImm x => x.wfInt lim
  | .imadw x => x.wf lim Ty.imadw false (2 * x.ty.bits) x.ty.bits x.ty.bits (2 * x.ty.bits)
  | .imadwImm x =>
      x.d.okAt lim (2 * immBits x.w) && x.a.okAt lim (immBits x.w) && x.b.okAt lim (immBits x.w)
  | .ineg x | .iabs x => x.wf lim Ty.i3264 true false x.ty.bits x.ty.bits
  | .imin x | .imax x => x.wf lim Ty.intMinMax false false x.ty.bits x.ty.bits x.ty.bits
  | .bitAnd x | .bitOr x | .bitXor x | .andn x =>
      x.wf lim (fun t => t.int3264 || t == .b128) false false x.ty.bits x.ty.bits x.ty.bits
  | .bitNot x => x.wf lim (fun t => t.int3264 || t == .b128) false false x.ty.bits x.ty.bits
  | .shl x | .shr x | .rol x => x.wf lim Ty.b3264 false false x.ty.bits x.ty.bits x.ty.bits
  | .sar x => x.wf lim Ty.i3264 false false x.ty.bits x.ty.bits x.ty.bits
  | .popc x | .clz x | .ctz x => x.wf lim Ty.b3264 false false 32 x.ty.bits
  | .brev x => x.wf lim Ty.b3264 false false x.ty.bits x.ty.bits
  | .bfx x | .bfi x => x.wf lim Ty.int3264 false x.ty.bits x.ty.bits x.ty.bits x.ty.bits
  | .bfxImm x | .bfiImm x =>
      x.d.okAt lim (immBits x.w) && x.a.okAt lim (immBits x.w) && x.b.okAt lim (immBits x.w)
  | .isetp x => x.wf lim Ty.int3264
  | .isetpImm _ _ _ pd a _ => pd.val != 7 && a.okAt lim 32
  | .sel _ ty d a b _ => ty.moveTy && d.okAt lim ty.bits && a.okAt lim ty.bits && b.okAt lim ty.bits
  | .mov x => x.wf lim Ty.moveTy false false x.ty.bits x.ty.bits
  | .movi _ d _ | .moviHi _ d _ => d.okAt lim 32
  | .lea _ _ d a b => d.okAt lim 64 && a.okAt lim 64 && b.okAt lim 32
  | .rhash x => x.wf lim (· == .b32) false false 32 32 32
  | .pand x | .por x | .pxor x => x.pd.val != 7
  | .pnot x => x.pd.val != 7 && x.pb.val == 0
  | .fadd x | .fsub x | .fmul x => x.wf lim Ty.fp true true x.ty.bits x.ty.bits x.ty.bits
  | .faddImm x | .fsubImm x | .fmulImm x | .fminImm x | .fmaxImm x => x.wfFloat lim
  | .ffma x => x.wf lim Ty.fp true x.ty.bits x.ty.bits x.ty.bits x.ty.bits
  | .ffmaImm x =>
      x.d.okAt lim (fimmBits x.w) && x.a.okAt lim (fimmBits x.w) && x.b.okAt lim (fimmBits x.w) &&
        (!x.w || x.imm.toNat < 65536)
  | .fmin x | .fmax x => x.wf lim Ty.fp false false x.ty.bits x.ty.bits x.ty.bits
  | .fabs x | .fneg x => x.wf lim Ty.anyFloat false false x.ty.bits x.ty.bits
  | .fsetp x => x.wf lim Ty.fp
  | .fsetpImm _ _ pd a _ => pd.val != 7 && a.okAt lim 32
  | .fclass x => x.wf lim Ty.anyFloat false false 32 x.ty.bits
  | .frnd x => x.wf lim Ty.fp false true x.ty.bits x.ty.bits
  | .fscl x => x.wf lim Ty.fp false true x.ty.bits x.ty.bits 32
  | .fdot2 x => x.wf lim (fun t => t == .f16 || t == .bf16) true 32 32 32 32
  | .cvt x sty => cvtWf lim x sty
  | .pack x => x.wf lim Ty.packable false 32 32 32 32
  | .unpack x => x.wf lim Ty.packable false false 32 32 32
  | .okey x | .keyf x => x.wf lim Ty.fp false false x.ty.bits x.ty.bits
  | .qcvt x => x.wf lim Ty.quant true true x.ty.bits 32 32
  | .bscale x => x.wf lim Ty.quant false false 32 32
  | .sfqRcp x | .sfqRsq x | .sfqSqrt x | .sfqExp2 x | .sfqLog2 x | .sfqSin x | .sfqCos x | .sfqTanh x
  | .sfqGnoise x => x.wf lim 1
  | .sfqDiv x => x.wf lim 2
  | .sfqExp2s x => x.wf lim 3
  | .xpull x | .xpush x | .xbcast x => x.wf lim Ty.b3264 false false x.ty.bits x.ty.bits 32
  | .xbcastImm _ d a _ => d.okAt lim 32 && a.okAt lim 32
  | .vany x | .vall x => x.pd.val != 7 && x.pb.val == 0
  | .vbal x => x.ty.b3264 && x.d.okAt lim x.ty.bits
  | .vfirst x | .vcount x => x.ty == .i8 && x.d.okAt lim 32
  | .redg x | .scang x | .scangEx x => x.wf lim
  | .matchLanes x => x.wf lim Ty.b3264 false false 64 x.ty.bits
  | .pairIadd x y => pairWf lim .iadd x y
  | .pairIsub x y => pairWf lim .isub x y
  | .pairImul x y => pairWf lim .imul x y
  | .pairIminI32 x y => pairWf lim .iminI32 x y
  | .pairImaxI32 x y => pairWf lim .imaxI32 x y
  | .pairIminN32 x y => pairWf lim .iminN32 x y
  | .pairImaxN32 x y => pairWf lim .imaxN32 x y
  | .pairAnd x y => pairWf lim .and x y
  | .pairOr x y => pairWf lim .or x y
  | .pairXor x y => pairWf lim .xor x y
  | .pairAndn x y => pairWf lim .andn x y
  | .pairShl x y => pairWf lim .shl x y
  | .pairShr x y => pairWf lim .shr x y
  | .pairSar x y => pairWf lim .sar x y
  | .pairMov x y => pairWf lim .mov x y
  | .pairMovi x y => pairWf lim .movi x y
  | .pairFadd x y => pairWf lim .fadd x y
  | .pairFsub x y => pairWf lim .fsub x y
  | .pairFmul x y => pairWf lim .fmul x y
  | .pairFmin x y => pairWf lim .fmin x y
  | .pairFmax x y => pairWf lim .fmax x y
  | .ld x => x.wf lim
  | .st x => x.wf lim
  | .atom32 x => x.wf lim 32 false
  | .atom64 x => x.wf lim 64 false
  | .fence x => x.ord != .none && x.a == .v 0
  | .acqr x => x.ord == .acq && x.scope != .grp && x.scope != .team && x.a.okAt lim 32
  | .cflush x | .cinv x => x.m.wf lim .glb
  | .seal x | .unseal x | .harvest x => x.wf lim
  | .carve x => 1 ≤ x.n.val && x.n.val ≤ 8
  | .waita x => x.d.okAt lim 64 && x.a.okAt lim x.space.baseBits && x.b.okAt lim 64
  | .probe x => x.d.okAt lim 32 && x.m.wf lim x.space
  | .tcopy x => x.space == .glb && x.sn.val ≤ 58
  | .ldg x => x.d.okAt lim (8 * x.width.bytes) && x.m.wf lim .glb
  | .stg x | .amend x => x.wf lim
  | .grd x => x.space == .glb && x.d.okAt lim 32 && x.m.wf lim .glb
  | .ginit x => x.d.okAt lim 64 && x.m.wf lim .glb
  | .gadd x => x.d.okAt lim 32 && x.m.wf lim .glb
  | .gread x => x.d.okAt lim 32 && x.m.wf lim .glb
  | .gspread x => x.d.okAt lim 32 && x.a.okAt lim 64 && x.thr.okAt lim 32
  | .gfence _ => true
  | .gstep _ | .ffence _ => true
  | .fput x => x.sn.val ≤ 60
  | .fget x => x.sn.val ≤ 61
  | .fatom32 x => x.wf lim 32 true
  | .fatom64 x => x.wf lim 64 true
  | .acset x => x.space != .glb && x.a.okAt lim 32 && x.b.okAt lim 64
  | .acwait x => x.space != .glb && x.d.okAt lim 64 && x.m.wf lim x.space
  | .obres x => x.wf lim Ty.ox false false 32 32 32
  | .obrel _ a | .mzero _ a => a.okAt lim 32
  | .mload x => x.scope == .dev && x.d.okAt lim 32 && x.m.wf lim x.space
  | .mstore x => x.d.okAt lim 32 && x.m.wf lim x.space
  | .mma x | .mmaAll x | .mwrite x | .awset x => x.a.okAt lim 32 && x.b.okAt lim 32 && x.c.okAt lim 32
  | .mread _ d a b => d.okAt lim 32 && a.okAt lim 32 && b.okAt lim 32
  | .brx x | .callx x => x.a.okAt lim 64
  | .rejoin _ a => (match a with | none => true | some a => a.okAt lim 64)
  | .spawn _ _ a => a.okAt lim 64
  | .tlaunch _ d a => d.okAt lim 32 && a.okAt lim 64
  | .tstat _ d a => d.okAt lim 32 && a.okAt lim 32
  | .twalk _ d => d.okAt lim 32
  | .tdone _ gr => gr != .empty
  | .hret g | .hretKill g | .pret g => g.pg.val == 7 && !g.pn
  | .mfs _ d r => d.okAt lim r.bits
  | .mts _ r a => r.writable && a.okAt lim r.bits
  | .ill | .nop _ | .bra _ | .call _ | .ret _ _ | .exit _ | .yield _ | .sleep _ _ | .wtok _ _ | .wflag _ _
  | .bar _ | .bara _ | .barw _ _ | .trap _ | .brk _ | .sysc _ => true
  | .stackFillReturn .. | .yieldWake .. | .sleepWake .. | .sfqResultArrival .. | .watchNotify ..
  | .watchRecheck .. | .draySectorLand .. | .parkWake .. | .parkRetry .. | .mloadRowLand .. | .oxPassStart ..
  | .oxPassEnd .. | .gangIssue .. | .loadReturn .. | .storeAcknowledge .. | .writeBackMerge ..
  | .missReissue .. | .plbFill .. | .tableWalk .. | .lateFault .. | .faultRecordWrite .. | .lateTrap ..
  | .siblingStop .. | .trapHandlerEntry .. | .rpcmdReplay .. | .rpcmdDrop .. | .combineDrainTimeout ..
  | .holdStall .. | .wayConvert .. | .directoryEviction .. | .engineRecall .. | .shootDown ..
  | .frameRelease .. | .keyInstall .. | .sccolWrite .. | .fabricPacketArrival .. | .fabricAcknowledge ..
  | .fabricRefusal .. | .linkDown .. | .linkKeyWarn .. | .keySwitchFlit .. | .linkKeyInstall ..
  | .linkKeyExhaust .. | .keyRequestFlit .. | .keyExpire .. | .plremapWrite .. | .plctlWrite ..
  | .fmpolWrite .. | .linkRetrain .. | .gossipRoundStart .. | .gossipSplit .. | .gossipMessageArrival ..
  | .gossipAck .. | .gossipRefusal .. | .gossipReconcile .. | .gsregWrite .. | .gsctlWrite .. | .placeTeam ..
  | .spawnBinFire .. | .refireBinFire .. | .teamEnd .. | .taskRetire .. | .tgctlEndGraph .. | .bwctlStart ..
  | .prectlGo .. | .preemptTakeEffect .. | .preemptBudgetExpiry .. | .contextSave .. | .saveFault ..
  | .svfallWrite .. | .prectlResume .. | .askill .. | .partcfgWrite .. | .pwrctlWrite .. | .powerInterval ..
  | .hostBar2Access .. | .hostAtomicOp .. | .hostCompletion .. | .getVersion .. | .getCapabilities ..
  | .negotiateAlgorithms .. | .getDigests .. | .getCertificate .. | .challenge .. | .getMeasurements ..
  | .keyExchange .. | .finish .. | .ideKm .. | .tdispRequest .. | .powerOn .. | .channelTrained ..
  | .clusterRelease .. | .registerWrite .. | .fabricLinkTrained .. | .cxlPortTrained .. => true

/-- Well-formed words: legal for the largest register count. -/
def Instr.wf (i : Instr) : Bool := i.wfAt 768

/-- The instruction words, as against the other steps of the device. -/
def Instr.isWord : Instr → Bool
  | .stackFillReturn .. | .yieldWake .. | .sleepWake .. | .sfqResultArrival .. | .watchNotify ..
  | .watchRecheck .. | .draySectorLand .. | .parkWake .. | .parkRetry .. | .mloadRowLand .. | .oxPassStart ..
  | .oxPassEnd .. | .gangIssue .. | .loadReturn .. | .storeAcknowledge .. | .writeBackMerge ..
  | .missReissue .. | .plbFill .. | .tableWalk .. | .lateFault .. | .faultRecordWrite .. | .lateTrap ..
  | .siblingStop .. | .trapHandlerEntry .. | .rpcmdReplay .. | .rpcmdDrop .. | .combineDrainTimeout ..
  | .holdStall .. | .wayConvert .. | .directoryEviction .. | .engineRecall .. | .shootDown ..
  | .frameRelease .. | .keyInstall .. | .sccolWrite .. | .fabricPacketArrival .. | .fabricAcknowledge ..
  | .fabricRefusal .. | .linkDown .. | .linkKeyWarn .. | .keySwitchFlit .. | .linkKeyInstall ..
  | .linkKeyExhaust .. | .keyRequestFlit .. | .keyExpire .. | .plremapWrite .. | .plctlWrite ..
  | .fmpolWrite .. | .linkRetrain .. | .gossipRoundStart .. | .gossipSplit .. | .gossipMessageArrival ..
  | .gossipAck .. | .gossipRefusal .. | .gossipReconcile .. | .gsregWrite .. | .gsctlWrite .. | .placeTeam ..
  | .spawnBinFire .. | .refireBinFire .. | .teamEnd .. | .taskRetire .. | .tgctlEndGraph .. | .bwctlStart ..
  | .prectlGo .. | .preemptTakeEffect .. | .preemptBudgetExpiry .. | .contextSave .. | .saveFault ..
  | .svfallWrite .. | .prectlResume .. | .askill .. | .partcfgWrite .. | .pwrctlWrite .. | .powerInterval ..
  | .hostBar2Access .. | .hostAtomicOp .. | .hostCompletion .. | .getVersion .. | .getCapabilities ..
  | .negotiateAlgorithms .. | .getDigests .. | .getCertificate .. | .challenge .. | .getMeasurements ..
  | .keyExchange .. | .finish .. | .ideKm .. | .tdispRequest .. | .powerOn .. | .channelTrained ..
  | .clusterRelease .. | .registerWrite .. | .fabricLinkTrained .. | .cxlPortTrained .. => false
  | _ => true

end Sys2Proof
end

