-- ==== Sys2Proof/Decode.lean ====
section
/-! DEFINITION. The decoder and the encoder of instruction words (R34-R55, Tables 2.1-2.12, 8.2, 11.10, 14.1).
A word is read as a natural number below 2^64. `parse` takes a word apart, `encode` puts one together, and
`decode` accepts exactly the words that are well-formed and whose unused bits are zero (R55). -/

namespace Sys2Proof

/-- Why a word is no instruction; the machine raises ILLEGAL for each (R55). -/
inductive Reject where
  /-- An OP, FN, register, type or field code that no table assigns (R53, R54, Table 2.4). -/
  | unassigned
  /-- An operand, type or modifier that the instruction does not take (R55 items 2 to 4, 7). -/
  | illFormed
  /-- A non-zero bit in a field that the instruction does not use (R55 item 2). -/
  | reservedBits
deriving DecidableEq, Repr

/-! ### Codes of the fields -/

/-- Type codes (Table 2.3). -/
def Ty.code : Ty → Nat
  | .i8 => 0x00 | .i16 => 0x01 | .i32 => 0x02 | .i64 => 0x03
  | .n8 => 0x04 | .n16 => 0x05 | .n32 => 0x06 | .n64 => 0x07
  | .b8 => 0x08 | .b16 => 0x09 | .b32 => 0x0A | .b64 => 0x0B | .b128 => 0x0C
  | .f32 => 0x10 | .f16 => 0x11 | .bf16 => 0x12 | .e4m3 => 0x13 | .e5m2 => 0x14
  | .tf8 => 0x15 | .tf6 => 0x16 | .e8m0 => 0x17

def Ty.ofCode : Nat → Option Ty
  | 0x00 => some .i8 | 0x01 => some .i16 | 0x02 => some .i32 | 0x03 => some .i64
  | 0x04 => some .n8 | 0x05 => some .n16 | 0x06 => some .n32 | 0x07 => some .n64
  | 0x08 => some .b8 | 0x09 => some .b16 | 0x0A => some .b32 | 0x0B => some .b64 | 0x0C => some .b128
  | 0x10 => some .f32 | 0x11 => some .f16 | 0x12 => some .bf16 | 0x13 => some .e4m3 | 0x14 => some .e5m2
  | 0x15 => some .tf8 | 0x16 => some .tf6 | 0x17 => some .e8m0
  | _ => none

def Rm.code : Rm → Nat
  | .rne => 0 | .rz => 1 | .ru => 2 | .rd => 3

def Rm.ofCode : Nat → Rm
  | 0 => .rne | 1 => .rz | 2 => .ru | _ => .rd

/-- Conditions in FN order (R217). -/
def Cond.code : Cond → Nat
  | .eq => 0 | .ne => 1 | .lt => 2 | .le => 3 | .gt => 4 | .ge => 5

def Cond.ofCode : Nat → Option Cond
  | 0 => some .eq | 1 => some .ne | 2 => some .lt | 3 => some .le | 4 => some .gt | 5 => some .ge
  | _ => none

def Space.code : Space → Nat
  | .glb => 0 | .loc => 1 | .clu => 2

def Space.ofCode : Nat → Option Space
  | 0 => some .glb | 1 => some .loc | 2 => some .clu | _ => none

def MemOrder.code : MemOrder → Nat
  | .none => 0 | .acq => 1 | .rel => 2 | .ar => 3

def MemOrder.ofCode : Nat → MemOrder
  | 0 => .none | 1 => .acq | 2 => .rel | _ => .ar

def Scope.code : Scope → Nat
  | .grp => 0 | .team => 1 | .clu => 2 | .dev => 3 | .ten => 4 | .sys => 5

def Scope.ofCode : Nat → Option Scope
  | 0 => some .grp | 1 => some .team | 2 => some .clu | 3 => some .dev | 4 => some .ten | 5 => some .sys
  | _ => none

def Grade.code : Grade → Nat
  | .empty => 0 | .guess => 1 | .prov => 2 | .final => 3

def Grade.ofCode : Nat → Grade
  | 0 => .empty | 1 => .guess | 2 => .prov | _ => .final

def RedOp.code : RedOp → Nat
  | .add => 0 | .min => 1 | .max => 2 | .and => 3 | .or => 4 | .xor => 5

def RedOp.ofCode : Nat → Option RedOp
  | 0 => some .add | 1 => some .min | 2 => some .max | 3 => some .and | 4 => some .or | 5 => some .xor
  | _ => none

/-- Table 2.11. -/
def AtomFn.code : AtomFn → Nat
  | .add => 0 | .minS => 1 | .minU => 2 | .maxS => 3 | .maxU => 4 | .and => 5 | .or => 6 | .xor => 7
  | .exch => 8 | .cas => 9 | .maxk => 0xA | .fadd => 0xB

def AtomFn.ofCode : Nat → Option AtomFn
  | 0 => some .add | 1 => some .minS | 2 => some .minU | 3 => some .maxS | 4 => some .maxU | 5 => some .and
  | 6 => some .or | 7 => some .xor | 8 => some .exch | 9 => some .cas | 0xA => some .maxk | 0xB => some .fadd
  | _ => none

/-- Table 2.10. -/
def LsSize.code : LsSize → Nat
  | .u8 => 0 | .u16 => 1 | .w32 => 2 | .w64 => 3 | .w128 => 4 | .s8 => 5 | .s16 => 6

def LsSize.ofCode : Nat → Option LsSize
  | 0 => some .u8 | 1 => some .u16 | 2 => some .w32 | 3 => some .w64 | 4 => some .w128 | 5 => some .s8
  | 6 => some .s16 | _ => none

/-- Table 2.12. -/
def GWidth.code : GWidth → Nat
  | .w32 => 0 | .w64 => 1 | .w128 => 2

def GWidth.ofCode : Nat → Option GWidth
  | 0 => some .w32 | 1 => some .w64 | 2 => some .w128 | _ => none

/-- Source register codes (Table 1.1, Table 2.4). -/
def Src.code : Src → Nat
  | .v n => n.val
  | .o n => 768 + n.val
  | .l n => 776 + n.val
  | .k n => 784 + n.val
  | .s n => 832 + n.val

def Src.ofCode (c : Nat) : Option Src :=
  if h : c < 768 then some (.v ⟨c, h⟩)
  else if h : c - 768 < 8 then some (.o ⟨c - 768, h⟩)
  else if h : c - 776 < 2 then some (.l ⟨c - 776, h⟩)
  else if h : 784 ≤ c ∧ c < 800 then some (.k ⟨c - 784, by omega⟩)
  else if h : 832 ≤ c ∧ c < 896 then some (.s ⟨c - 832, by omega⟩)
  else none

/-- Destination register codes (Table 2.4). -/
def Dst.code : Dst → Nat
  | .v n => n.val
  | .o n => 768 + n.val
  | .l0 => 776
  | .s n => 832 + n.val

def Dst.ofCode (c : Nat) : Option Dst :=
  if h : c < 768 then some (.v ⟨c, h⟩)
  else if h : c - 768 < 8 then some (.o ⟨c - 768, h⟩)
  else if c = 776 then some .l0
  else if h : 832 ≤ c ∧ c < 896 then some (.s ⟨c - 832, by omega⟩)
  else none

/-- An index field: the code 1023 is no index (R36). -/
def idxCode : Option Src → Nat
  | none => 1023
  | some s => s.code

def idxOfCode (c : Nat) : Option (Option Src) :=
  if c = 1023 then some none else (Src.ofCode c).map some

/-- Special-register numbers (Table 9.4). -/
def Sr.code : Sr → Nat
  | .lane => 0x000 | .group => 0x001 | .team => 0x002 | .task => 0x003 | .core => 0x004 | .pair => 0x005
  | .cluster => 0x006 | .die => 0x007 | .chip => 0x008 | .gwidth => 0x009 | .active => 0x00A | .rejoinm => 0x00B
  | .awbase => 0x010 | .awlimit => 0x011 | .rowprog => 0x012 | .stackbase => 0x018 | .stacktop => 0x019
  | .gradefloor => 0x020 | .amdepth => 0x021 | .faultpc => 0x030 | .faultinfo => 0x031 | .skid => 0x032
  | .prebudget => 0x040 | .clock => 0x050

def Sr.ofCode : Nat → Option Sr
  | 0x000 => some .lane | 0x001 => some .group | 0x002 => some .team | 0x003 => some .task | 0x004 => some .core
  | 0x005 => some .pair | 0x006 => some .cluster | 0x007 => some .die | 0x008 => some .chip
  | 0x009 => some .gwidth | 0x00A => some .active | 0x00B => some .rejoinm | 0x010 => some .awbase
  | 0x011 => some .awlimit | 0x012 => some .rowprog | 0x018 => some .stackbase | 0x019 => some .stacktop
  | 0x020 => some .gradefloor | 0x021 => some .amdepth | 0x030 => some .faultpc | 0x031 => some .faultinfo
  | 0x032 => some .skid | 0x040 => some .prebudget | 0x050 => some .clock
  | _ => none

/-! ### The full form -/

/-- The fields of a full-form word below OP (Table 2.1); `low` is bits [26:0]. -/
structure Raw where
  fn : Nat
  pg : Nat
  pn : Nat
  x : Nat
  d : Nat
  a : Nat
  low : Nat
deriving DecidableEq, Repr

def Raw.pack (op : Nat) (r : Raw) : Nat :=
  ((((((op * 16 + r.fn) * 8 + r.pg) * 2 + r.pn) * 2 + r.x) * 1024 + r.d) * 1024 + r.a) * 134217728 + r.low

def Raw.unpack (w : Nat) : Raw where
  fn := w / 2 ^ 52 % 16
  pg := w / 2 ^ 49 % 8
  pn := w / 2 ^ 48 % 2
  x := w / 2 ^ 47 % 2
  d := w / 2 ^ 37 % 1024
  a := w / 2 ^ 27 % 1024
  low := w % 2 ^ 27

def Raw.op (w : Nat) : Nat := w / 2 ^ 56 % 128

/-- Bits [26:17]. -/
def Raw.b (r : Raw) : Nat := r.low / 131072 % 1024
/-- Bits [16:7]. -/
def Raw.c (r : Raw) : Nat := r.low / 128 % 1024
/-- Bits [6:2], the type code. -/
def Raw.tyc (r : Raw) : Nat := r.low / 4 % 32
/-- Bits [1:0]. -/
def Raw.rmc (r : Raw) : Nat := r.low % 4
/-- Bits [11:7], the second type code. -/
def Raw.ty2 (r : Raw) : Nat := r.low / 128 % 32
/-- Bit 12, `.sat`. -/
def Raw.sat (r : Raw) : Bool := r.low / 4096 % 2 == 1

def Raw.guard (r : Raw) : Guard := ⟨Fin.ofNat 8 r.pg, r.pn == 1⟩

def Raw.flag (r : Raw) : Bool := r.x == 1

/-- E-form fields (Table 2.2). -/
def Raw.scopeC (r : Raw) : Nat := r.low / 16384 % 8
def Raw.ordC (r : Raw) : Nat := r.low / 4096 % 4
def Raw.kindC (r : Raw) : Nat := r.low / 2048 % 2
def Raw.pdC (r : Raw) : Nat := r.low / 2048 % 8
def Raw.spaceC (r : Raw) : Nat := r.low / 512 % 4
def Raw.offC (r : Raw) : BitVec 9 := BitVec.ofNat 9 r.low

def bit (b : Bool) : Nat := if b then 1 else 0

/-- The guard and flag fields of a word, the rest zero. -/
def Guard.raw (g : Guard) (fn : Nat) (x : Bool) : Raw := ⟨fn, g.pg.val, bit g.pn, bit x, 0, 0, 0⟩

/-- The M extension and M of an A-form word. -/
def mField (sat : Bool) (ty2 : Nat) (ty rm : Nat) : Nat := bit sat * 4096 + ty2 * 128 + ty * 4 + rm

def F1.raw (x : F1) (fn ty2 : Nat) : Raw :=
  { x.g.raw fn false with
    d := x.d.code, a := x.a.code, low := mField x.sat ty2 x.ty.code x.rm.code }

def F1.parse (r : Raw) : Option F1 := do
  let ty ← Ty.ofCode r.tyc
  let d ← Dst.ofCode r.d
  let a ← Src.ofCode r.a
  some ⟨r.guard, ty, Rm.ofCode r.rmc, r.sat, d, a⟩

def F2.raw (x : F2) (fn : Nat) : Raw :=
  { x.g.raw fn false with
    d := x.d.code, a := x.a.code, low := x.b.code * 131072 + mField x.sat 0 x.ty.code x.rm.code }

def F2.parse (r : Raw) : Option F2 := do
  let ty ← Ty.ofCode r.tyc
  let d ← Dst.ofCode r.d
  let a ← Src.ofCode r.a
  let b ← Src.ofCode r.b
  some ⟨r.guard, ty, Rm.ofCode r.rmc, r.sat, d, a, b⟩

def F3.raw (x : F3) (fn : Nat) : Raw :=
  { x.g.raw fn false with
    d := x.d.code, a := x.a.code,
    low := x.b.code * 131072 + x.c.code * 128 + x.ty.code * 4 + x.rm.code }

def F3.parse (r : Raw) : Option F3 := do
  let ty ← Ty.ofCode r.tyc
  let d ← Dst.ofCode r.d
  let a ← Src.ofCode r.a
  let b ← Src.ofCode r.b
  let c ← Src.ofCode r.c
  some ⟨r.guard, ty, Rm.ofCode r.rmc, d, a, b, c⟩

/-- Immediate forms (R39): FN = 8 + 2 × i + w. -/
def CImm.raw (x : CImm) (i : Nat) : Raw :=
  { x.g.raw (8 + 2 * i + bit x.w) false with d := x.d.code, a := x.a.code, low := x.imm.toNat }

def CImm.parse (r : Raw) : Option CImm := do
  let d ← Dst.ofCode r.d
  let a ← Src.ofCode r.a
  some ⟨r.guard, r.fn % 2 == 1, d, a, BitVec.ofNat 27 r.low⟩

def BImm.raw (x : BImm) (i : Nat) : Raw :=
  { x.g.raw (8 + 2 * i + bit x.w) false with
    d := x.d.code, a := x.a.code, low := x.b.code * 131072 + x.imm.toNat }

def BImm.parse (r : Raw) : Option BImm := do
  let d ← Dst.ofCode r.d
  let a ← Src.ofCode r.a
  let b ← Src.ofCode r.b
  some ⟨r.guard, r.fn % 2 == 1, d, a, b, BitVec.ofNat 17 r.low⟩

def SetP.raw (x : SetP) : Raw :=
  { x.g.raw x.cond.code false with
    d := x.pd.val, a := x.a.code, low := x.b.code * 131072 + x.ty.code * 4 }

def SetP.parse (r : Raw) : Option SetP := do
  let cond ← Cond.ofCode r.fn
  let ty ← Ty.ofCode r.tyc
  let a ← Src.ofCode r.a
  let b ← Src.ofCode r.b
  some ⟨r.guard, cond, ty, Fin.ofNat 8 r.d, a, b⟩

def PredOp.raw (x : PredOp) (fn : Nat) : Raw :=
  { x.g.raw fn false with d := x.pd.val, a := x.pa.val, low := x.pb.val * 131072 }

def PredOp.parse (r : Raw) : PredOp := ⟨r.guard, Fin.ofNat 8 r.d, Fin.ofNat 8 r.a, Fin.ofNat 8 r.b⟩

def PredReg.raw (x : PredReg) (fn : Nat) : Raw :=
  { x.g.raw fn false with d := x.d.code, a := x.pa.val, low := x.ty.code * 4 }

def PredReg.parse (r : Raw) : Option PredReg := do
  let ty ← Ty.ofCode r.tyc
  let d ← Dst.ofCode r.d
  some ⟨r.guard, ty, d, Fin.ofNat 8 r.a⟩

/-- Words of the special-function queue: M[6:2] is 0x10 and M[1:0] the token (R237). -/
def Sfq.raw (x : Sfq) (fn : Nat) : Raw :=
  { x.g.raw fn false with
    d := x.d.code, a := x.a.code, low := x.b.code * 131072 + x.c.code * 128 + 0x10 * 4 + x.tok.val }

def Sfq.parse (r : Raw) : Option Sfq := do
  let d ← Dst.ofCode r.d
  let a ← Src.ofCode r.a
  let b ← Src.ofCode r.b
  let c ← Src.ofCode r.c
  some ⟨r.guard, Fin.ofNat 4 r.rmc, d, a, b, c⟩

def Red.raw (x : Red) (base : Nat) : Raw :=
  { x.g.raw (base + x.op.code) false with d := x.d.code, a := x.a.code, low := x.ty.code * 4 }

def Red.parse (r : Raw) (base : Nat) : Option Red := do
  let op ← RedOp.ofCode (r.fn - base)
  let ty ← Ty.ofCode r.tyc
  let d ← Dst.ofCode r.d
  let a ← Src.ofCode r.a
  some ⟨r.guard, op, ty, d, a⟩

def Reg3.raw (x : Reg3) (fn m : Nat) : Raw :=
  { x.g.raw fn false with a := x.a.code, low := x.b.code * 131072 + x.c.code * 128 + m }

def Reg3.parse (r : Raw) : Option Reg3 := do
  let a ← Src.ofCode r.a
  let b ← Src.ofCode r.b
  let c ← Src.ofCode r.c
  some ⟨r.guard, a, b, c⟩

/-! ### The E-form (Table 2.2, Table 8.2) -/

/-- Bits [26:0] of an E-form word. -/
def eLow (b scope ord kind space : Nat) (off : Nat) : Nat :=
  b * 131072 + scope * 16384 + ord * 4096 + kind * 2048 + space * 512 + off

/-- Bits [26:0] of a graded or gossip word, whose bits [13:11] hold PD or zero (R154). -/
def gLow (b pd space : Nat) (off : Nat) : Nat := b * 131072 + 3 * 16384 + pd * 2048 + space * 512 + off

def Raw.addr (r : Raw) : Option Addr := do
  let a ← Src.ofCode r.a
  let b ← idxOfCode r.b
  some ⟨a, b, r.offC⟩

def LdArgs.raw (x : LdArgs) : Raw :=
  { x.g.raw x.size.code x.fb with
    d := x.d.code, a := x.m.a.code,
    low := eLow (idxCode x.m.b) x.scope.code x.ord.code (bit x.strong) x.space.code x.m.off.toNat }

def LdArgs.parse (r : Raw) : Option LdArgs := do
  let size ← LsSize.ofCode r.fn
  let space ← Space.ofCode r.spaceC
  let scope ← Scope.ofCode r.scopeC
  let d ← Dst.ofCode r.d
  let m ← r.addr
  some ⟨r.guard, r.flag, size, space, r.kindC == 1, MemOrder.ofCode r.ordC, scope, d, m⟩

def StArgs.raw (x : StArgs) : Raw :=
  { x.g.raw x.size.code x.fb with
    d := x.d.code, a := x.m.a.code,
    low := eLow (idxCode x.m.b) x.scope.code x.ord.code (bit x.strong) x.space.code x.m.off.toNat }

def StArgs.parse (r : Raw) : Option StArgs := do
  let size ← LsSize.ofCode r.fn
  let space ← Space.ofCode r.spaceC
  let scope ← Scope.ofCode r.scopeC
  let d ← Src.ofCode r.d
  let m ← r.addr
  some ⟨r.guard, r.flag, size, space, r.kindC == 1, MemOrder.ofCode r.ordC, scope, d, m⟩

/-- `ATOM` and `FATOM` carry kind 1 (Table 8.2). -/
def AtomArgs.raw (x : AtomArgs) : Raw :=
  { x.g.raw x.fn.code x.fb with
    d := x.d.code, a := x.a.code,
    low := eLow x.b.code x.scope.code x.ord.code 1 x.space.code x.off.toNat }

def AtomArgs.parse (r : Raw) : Option AtomArgs := do
  let fn ← AtomFn.ofCode r.fn
  let space ← Space.ofCode r.spaceC
  let scope ← Scope.ofCode r.scopeC
  let d ← Dst.ofCode r.d
  let a ← Src.ofCode r.a
  let b ← Src.ofCode r.b
  some ⟨r.guard, r.flag, fn, space, MemOrder.ofCode r.ordC, scope, d, a, b, r.offC⟩

def FenceArgs.raw (x : FenceArgs) : Raw :=
  { x.g.raw 0 x.fb with a := x.a.code, low := eLow 0 x.scope.code x.ord.code 0 0 0 }

def FenceArgs.parse (r : Raw) : Option FenceArgs := do
  let scope ← Scope.ofCode r.scopeC
  let a ← Src.ofCode r.a
  some ⟨r.guard, r.flag, MemOrder.ofCode r.ordC, scope, a⟩

def CacheArgs.raw (x : CacheArgs) (fn : Nat) : Raw :=
  { x.g.raw fn x.fb with a := x.m.a.code, low := eLow (idxCode x.m.b) x.scope.code 0 0 0 x.m.off.toNat }

def CacheArgs.parse (r : Raw) : Option CacheArgs := do
  let scope ← Scope.ofCode r.scopeC
  let m ← r.addr
  some ⟨r.guard, r.flag, scope, m⟩

def RangeArgs.raw (x : RangeArgs) (fn : Nat) : Raw :=
  { x.g.raw fn x.fb with d := x.d.code, a := x.m.a.code, low := eLow (idxCode x.m.b) 3 0 0 0 x.m.off.toNat }

def RangeArgs.parse (r : Raw) : Option RangeArgs := do
  let d ← Src.ofCode r.d
  let m ← r.addr
  some ⟨r.guard, r.flag, d, m⟩

/-- `WAITA` carries kind 1 and ordering 1 (Table 8.2). -/
def WaitArgs.raw (x : WaitArgs) : Raw :=
  { x.g.raw 0 x.fb with
    d := x.d.code, a := x.a.code, low := eLow x.b.code x.scope.code 1 1 x.space.code x.off.toNat }

def WaitArgs.parse (r : Raw) : Option WaitArgs := do
  let space ← Space.ofCode r.spaceC
  let scope ← Scope.ofCode r.scopeC
  let d ← Dst.ofCode r.d
  let a ← Src.ofCode r.a
  let b ← Src.ofCode r.b
  some ⟨r.guard, r.flag, space, scope, d, a, b, r.offC⟩

def ReadArgs.raw (x : ReadArgs) (fn : Nat) : Raw :=
  { x.g.raw fn x.fb with
    d := x.d.code, a := x.m.a.code, low := eLow (idxCode x.m.b) 3 0 0 x.space.code x.m.off.toNat }

def ReadArgs.parse (r : Raw) : Option ReadArgs := do
  let space ← Space.ofCode r.spaceC
  let d ← Dst.ofCode r.d
  let m ← r.addr
  some ⟨r.guard, r.flag, space, d, m⟩

/-- A descriptor in scalars: A holds the code of `s`n (Table 8.2). -/
def DescArgs.raw (x : DescArgs) : Raw :=
  { x.g.raw 0 x.fb with a := 832 + x.sn.val, low := eLow 0 3 0 0 x.space.code 0 }

def DescArgs.parse (r : Raw) : Option DescArgs := do
  let space ← Space.ofCode r.spaceC
  match Src.ofCode r.a with
  | some (.s n) => some ⟨r.guard, r.flag, space, n⟩
  | _ => none

def LdgArgs.raw (x : LdgArgs) : Raw :=
  { x.g.raw (x.grade.code * 4 + x.width.code) x.fb with
    d := x.d.code, a := x.m.a.code, low := gLow (idxCode x.m.b) x.pd.val (bit x.nowait) x.m.off.toNat }

def LdgArgs.parse (r : Raw) : Option LdgArgs := do
  let width ← GWidth.ofCode (r.fn % 4)
  let d ← Dst.ofCode r.d
  let m ← r.addr
  some ⟨r.guard, r.flag, Grade.ofCode (r.fn / 4), width, r.low / 512 % 2 == 1, Fin.ofNat 8 r.pdC, d, m⟩

def StgArgs.raw (x : StgArgs) : Raw :=
  { x.g.raw (x.grade.code * 4 + x.width.code) x.fb with
    d := x.d.code, a := x.m.a.code, low := gLow (idxCode x.m.b) 0 0 x.m.off.toNat }

def StgArgs.parse (r : Raw) : Option StgArgs := do
  let width ← GWidth.ofCode (r.fn % 4)
  let d ← Src.ofCode r.d
  let m ← r.addr
  some ⟨r.guard, r.flag, Grade.ofCode (r.fn / 4), width, d, m⟩

def GopArgs.raw (x : GopArgs) (fn : Nat) : Raw :=
  { x.g.raw fn x.fb with d := x.d.code, a := x.m.a.code, low := gLow (idxCode x.m.b) 0 0 x.m.off.toNat }

def GopArgs.parse (r : Raw) : Option GopArgs := do
  let d ← Src.ofCode r.d
  let m ← r.addr
  some ⟨r.guard, r.flag, d, m⟩

def GreadArgs.raw (x : GreadArgs) : Raw :=
  { x.g.raw 0 x.fb with d := x.d.code, a := x.m.a.code, low := gLow (idxCode x.m.b) x.pd.val 0 x.m.off.toNat }

def GreadArgs.parse (r : Raw) : Option GreadArgs := do
  let d ← Dst.ofCode r.d
  let m ← r.addr
  some ⟨r.guard, r.flag, Fin.ofNat 8 r.pdC, d, m⟩

def GspreadArgs.raw (x : GspreadArgs) : Raw :=
  { x.g.raw 1 x.fb with d := x.d.code, a := x.a.code, low := gLow x.thr.code x.pd.val 0 x.off.toNat }

def GspreadArgs.parse (r : Raw) : Option GspreadArgs := do
  let d ← Dst.ofCode r.d
  let a ← Src.ofCode r.a
  let b ← Src.ofCode r.b
  some ⟨r.guard, r.flag, Fin.ofNat 8 r.pdC, d, a, b, r.offC⟩

def CountArgs.raw (x : CountArgs) : Raw := { x.g.raw 0 x.fb with low := eLow 0 3 0 0 0 x.n.val }

def CountArgs.parse (r : Raw) : CountArgs := ⟨r.guard, r.flag, Fin.ofNat 256 r.low⟩

def FlagArgs.raw (x : FlagArgs) (fn : Nat) : Raw := { x.g.raw fn x.fb with low := eLow 0 3 0 0 0 0 }

def FlagArgs.parse (r : Raw) : FlagArgs := ⟨r.guard, r.flag⟩

def AcsetArgs.raw (x : AcsetArgs) : Raw :=
  { x.g.raw 0 x.fb with a := x.a.code, low := eLow x.b.code 3 0 0 x.space.code x.off.toNat }

def AcsetArgs.parse (r : Raw) : Option AcsetArgs := do
  let space ← Space.ofCode r.spaceC
  let a ← Src.ofCode r.a
  let b ← Src.ofCode r.b
  some ⟨r.guard, r.flag, space, a, b, r.offC⟩

def MrowArgs.raw (x : MrowArgs) : Raw :=
  { x.g.raw 0 x.fb with
    d := x.d.code, a := x.m.a.code,
    low := eLow (idxCode x.m.b) x.scope.code 0 0 x.space.code x.m.off.toNat }

def MrowArgs.parse (r : Raw) : Option MrowArgs := do
  let space ← Space.ofCode r.spaceC
  let scope ← Scope.ofCode r.scopeC
  let d ← Src.ofCode r.d
  let m ← r.addr
  some ⟨r.guard, r.flag, space, scope, d, m⟩

/-! ### The D-form (Table 14.1) -/

def RelArgs.raw (x : RelArgs) : Raw := { x.g.raw 0 x.uni with low := x.disp.toNat }

def RelArgs.parse (r : Raw) : RelArgs := ⟨r.guard, r.flag, BitVec.ofNat 27 r.low⟩

def IndArgs.raw (x : IndArgs) : Raw := { x.g.raw 0 x.uni with a := x.a.code, low := x.n.toNat }

def IndArgs.parse (r : Raw) : Option IndArgs := do
  let a ← Src.ofCode r.a
  some ⟨r.guard, r.flag, a, BitVec.ofNat 27 r.low⟩

def BarArgs.raw (x : BarArgs) (fn : Nat) : Raw := { x.g.raw fn false with low := x.c.val * 16 + x.b.val }

def BarArgs.parse (r : Raw) : Option BarArgs :=
  if h : r.low / 16 % 32 < 17 then some ⟨r.guard, Fin.ofNat 16 r.low, ⟨r.low / 16 % 32, h⟩⟩ else none

def CodeArgs.raw (x : CodeArgs) : Raw := { x.g.raw 0 false with low := x.code.toNat }

def CodeArgs.parse (r : Raw) : CodeArgs := ⟨r.guard, BitVec.ofNat 16 r.low⟩

/-! ### The pair form (Tables 2.5 and 2.6) -/

def PairOp.code : PairOp → Nat
  | .iadd => 0x01 | .isub => 0x02 | .imul => 0x03 | .iminI32 => 0x04 | .imaxI32 => 0x05 | .iminN32 => 0x06
  | .imaxN32 => 0x07 | .and => 0x08 | .or => 0x09 | .xor => 0x0A | .andn => 0x0B | .shl => 0x0C | .shr => 0x0D
  | .sar => 0x0E | .mov => 0x0F | .movi => 0x10 | .fadd => 0x20 | .fsub => 0x21 | .fmul => 0x22
  | .fmin => 0x23 | .fmax => 0x24

def PairOp.ofCode : Nat → Option PairOp
  | 0x01 => some .iadd | 0x02 => some .isub | 0x03 => some .imul | 0x04 => some .iminI32
  | 0x05 => some .imaxI32 | 0x06 => some .iminN32 | 0x07 => some .imaxN32 | 0x08 => some .and
  | 0x09 => some .or | 0x0A => some .xor | 0x0B => some .andn | 0x0C => some .shl | 0x0D => some .shr
  | 0x0E => some .sar | 0x0F => some .mov | 0x10 => some .movi | 0x20 => some .fadd | 0x21 => some .fsub
  | 0x22 => some .fmul | 0x23 => some .fmin | 0x24 => some .fmax
  | _ => none

def PairSrc.code : PairSrc → Nat
  | .bank n => n.val
  | .o n => 256 + n.val
  | .l n => 264 + n.val
  | .k n => 266 + n.val
  | .s n => 320 + n.val

def PairSrc.ofCode (c : Nat) : Option PairSrc :=
  if h : c < 256 then some (.bank ⟨c, h⟩)
  else if h : c - 256 < 8 then some (.o ⟨c - 256, h⟩)
  else if h : c - 264 < 2 then some (.l ⟨c - 264, h⟩)
  else if h : c - 266 < 16 then some (.k ⟨c - 266, h⟩)
  else if h : 320 ≤ c ∧ c < 384 then some (.s ⟨c - 320, by omega⟩)
  else none

/-- The 31 bits of a slot. -/
def PairSlot.code (s : PairSlot) : Nat :=
  ((((s.op.code * 4 + s.x.guard.val) * 4 + s.x.bank.val) * 256 + s.x.d.val) * 512 + s.x.a.code) * 16 + s.x.imm.val

def PairSlot.parse (c : Nat) : Option PairSlot := do
  let op ← PairOp.ofCode (c / 2 ^ 25 % 64)
  let a ← PairSrc.ofCode (c / 16 % 512)
  if h : c / 2 ^ 21 % 4 < 3 then
    some ⟨op, ⟨Fin.ofNat 4 (c / 2 ^ 23), ⟨c / 2 ^ 21 % 4, h⟩, Fin.ofNat 256 (c / 2 ^ 13), a, Fin.ofNat 16 c⟩⟩
  else none

def pairCode (op : PairOp) (x : PairArgs) (y : PairSlot) : Nat :=
  2 ^ 63 + PairSlot.code ⟨op, x⟩ * 2 ^ 32 + y.code * 2

/-- The constructor of slot X's operation carries the whole word. -/
def pairInstr (s y : PairSlot) : Instr :=
  match s.op with
  | .iadd => .pairIadd s.x y
  | .isub => .pairIsub s.x y
  | .imul => .pairImul s.x y
  | .iminI32 => .pairIminI32 s.x y
  | .imaxI32 => .pairImaxI32 s.x y
  | .iminN32 => .pairIminN32 s.x y
  | .imaxN32 => .pairImaxN32 s.x y
  | .and => .pairAnd s.x y
  | .or => .pairOr s.x y
  | .xor => .pairXor s.x y
  | .andn => .pairAndn s.x y
  | .shl => .pairShl s.x y
  | .shr => .pairShr s.x y
  | .sar => .pairSar s.x y
  | .mov => .pairMov s.x y
  | .movi => .pairMovi s.x y
  | .fadd => .pairFadd s.x y
  | .fsub => .pairFsub s.x y
  | .fmul => .pairFmul s.x y
  | .fmin => .pairFmin s.x y
  | .fmax => .pairFmax s.x y

/-! ### Decoding -/

/-- Control words (OP 0x02-0x0E, Table 14.1). -/
def parseControl (op : Nat) (r : Raw) : Option Instr :=
  match op with
  | 0x02 => if r.fn = 0 then some (.nop r.guard) else none
  | 0x03 => if r.fn = 0 then some (.bra (.parse r)) else none
  | 0x04 => if r.fn = 0 then (IndArgs.parse r).map .brx else none
  | 0x05 => if r.fn = 0 then some (.call (.parse r)) else none
  | 0x06 => if r.fn = 0 then (IndArgs.parse r).map .callx else none
  | 0x07 => if r.fn = 0 then some (.ret r.guard r.flag) else none
  | 0x08 =>
    if r.fn = 0 then
      if r.low % 2 = 1 then (Src.ofCode r.a).map fun a => .rejoin r.guard (some a)
      else some (.rejoin r.guard none)
    else none
  | 0x09 => if r.fn = 0 then some (.exit r.guard) else none
  | 0x0A => if r.fn = 0 then (Src.ofCode r.a).map (.spawn r.guard (BitVec.ofNat 27 r.low)) else none
  | 0x0B =>
    match r.fn with
    | 0 => some (.yield r.guard)
    | 1 => some (.sleep r.guard (BitVec.ofNat 27 r.low))
    | _ => none
  | 0x0C =>
    match r.fn with
    | 0 => some (.wtok r.guard (BitVec.ofNat 4 r.low))
    | 1 => some (.wflag r.guard (BitVec.ofNat 12 r.low))
    | _ => none
  | 0x0D =>
    match r.fn with
    | 0 => (BarArgs.parse r).map .bar
    | 1 => (BarArgs.parse r).map .bara
    | 2 => some (.barw r.guard (Fin.ofNat 16 r.low))
    | _ => none
  | 0x0E =>
    match r.fn with
    | 0 => do
      let d ← Dst.ofCode r.d
      let a ← Src.ofCode r.a
      some (.tlaunch r.guard d a)
    | 1 => some (.tdone r.guard (Grade.ofCode (r.low % 4)))
    | 2 => (Dst.ofCode r.d).map (.twalk r.guard)
    | 3 => do
      let d ← Dst.ofCode r.d
      let a ← Src.ofCode r.a
      some (.tstat r.guard d a)
    | _ => none
  | _ => none

/-- Integer, logic, shift, move and predicate words (OP 0x10-0x1E). -/
def parseInt (op : Nat) (r : Raw) : Option Instr :=
  match op with
  | 0x10 =>
    match r.fn with
    | 0 => (F2.parse r).map .iadd
    | 1 => (F2.parse r).map .isub
    | 8 | 9 => (CImm.parse r).map .iaddImm
    | 10 | 11 => (CImm.parse r).map .isubImm
    | _ => none
  | 0x11 =>
    match r.fn with
    | 0 => (F2.parse r).map .imul
    | 1 => (F2.parse r).map .imulh
    | 8 | 9 => (CImm.parse r).map .imulImm
    | 10 | 11 => (CImm.parse r).map .imulhImm
    | _ => none
  | 0x12 =>
    match r.fn with
    | 0 => (F3.parse r).map .imad
    | 1 => (F3.parse r).map .imadw
    | 8 | 9 => (BImm.parse r).map .imadImm
    | 10 | 11 => (BImm.parse r).map .imadwImm
    | _ => none
  | 0x13 =>
    match r.fn with
    | 0 => (F1.parse r).map .ineg
    | 1 => (F1.parse r).map .iabs
    | _ => none
  | 0x14 =>
    match r.fn with
    | 0 => (F2.parse r).map .imin
    | 1 => (F2.parse r).map .imax
    | 8 | 9 => (CImm.parse r).map .iminImm
    | 10 | 11 => (CImm.parse r).map .imaxImm
    | _ => none
  | 0x15 =>
    match r.fn with
    | 0 => (F2.parse r).map .bitAnd
    | 1 => (F2.parse r).map .bitOr
    | 2 => (F2.parse r).map .bitXor
    | 3 => (F2.parse r).map .andn
    | 8 | 9 => (CImm.parse r).map .andImm
    | 10 | 11 => (CImm.parse r).map .orImm
    | 12 | 13 => (CImm.parse r).map .xorImm
    | 14 | 15 => (CImm.parse r).map .andnImm
    | _ => none
  | 0x16 =>
    match r.fn with
    | 0 => (F2.parse r).map .shl
    | 1 => (F2.parse r).map .shr
    | 2 => (F2.parse r).map .sar
    | 3 => (F2.parse r).map .rol
    | 8 | 9 => (CImm.parse r).map .shlImm
    | 10 | 11 => (CImm.parse r).map .shrImm
    | 12 | 13 => (CImm.parse r).map .sarImm
    | 14 | 15 => (CImm.parse r).map .rolImm
    | _ => none
  | 0x17 =>
    match r.fn with
    | 0 => (F1.parse r).map .bitNot
    | 1 => (F1.parse r).map .popc
    | 2 => (F1.parse r).map .clz
    | 3 => (F1.parse r).map .ctz
    | 4 => (F1.parse r).map .brev
    | _ => none
  | 0x18 =>
    match r.fn with
    | 0 => (F3.parse r).map .bfx
    | 1 => (F3.parse r).map .bfi
    | 8 | 9 => (BImm.parse r).map .bfxImm
    | 10 | 11 => (BImm.parse r).map .bfiImm
    | _ => none
  | 0x19 =>
    if r.fn < 8 then (SetP.parse r).map .isetp
    else do
      let cond ← Cond.ofCode (r.fn - 8)
      let a ← Src.ofCode r.a
      some (.isetpImm r.guard cond (r.low / 2 ^ 26 == 1) (Fin.ofNat 8 r.d) a (BitVec.ofNat 26 r.low))
  | 0x1A =>
    if r.fn = 0 then do
      let ty ← Ty.ofCode r.tyc
      let d ← Dst.ofCode r.d
      let a ← Src.ofCode r.a
      let b ← Src.ofCode r.b
      some (.sel r.guard ty d a b (Fin.ofNat 8 r.c))
    else none
  | 0x1B =>
    match r.fn with
    | 0 => (F1.parse r).map .mov
    | 1 => (Dst.ofCode r.d).map fun d => .movi r.guard d (BitVec.ofNat 27 r.low)
    | 2 => (Dst.ofCode r.d).map fun d => .moviHi r.guard d (BitVec.ofNat 16 r.low)
    | _ => none
  | 0x1C =>
    if h : r.fn < 5 then do
      let d ← Dst.ofCode r.d
      let a ← Src.ofCode r.a
      let b ← Src.ofCode r.b
      some (.lea r.guard ⟨r.fn, h⟩ d a b)
    else none
  | 0x1D => if r.fn = 0 then (F2.parse r).map .rhash else none
  | 0x1E =>
    match r.fn with
    | 0 => some (.pand (.parse r))
    | 1 => some (.por (.parse r))
    | 2 => some (.pxor (.parse r))
    | 3 => some (.pnot (.parse r))
    | _ => none
  | _ => none

/-- Floating-point and conversion words (OP 0x20-0x34). -/
def parseFloat (op : Nat) (r : Raw) : Option Instr :=
  match op with
  | 0x20 =>
    match r.fn with
    | 0 => (F2.parse r).map .fadd
    | 1 => (F2.parse r).map .fsub
    | 8 | 9 => (CImm.parse r).map .faddImm
    | 10 | 11 => (CImm.parse r).map .fsubImm
    | _ => none
  | 0x21 =>
    match r.fn with
    | 0 => (F2.parse r).map .fmul
    | 8 | 9 => (CImm.parse r).map .fmulImm
    | _ => none
  | 0x22 =>
    match r.fn with
    | 0 => (F3.parse r).map .ffma
    | 8 | 9 => (BImm.parse r).map .ffmaImm
    | _ => none
  | 0x23 =>
    match r.fn with
    | 0 => (F2.parse r).map .fmin
    | 1 => (F2.parse r).map .fmax
    | 8 | 9 => (CImm.parse r).map .fminImm
    | 10 | 11 => (CImm.parse r).map .fmaxImm
    | _ => none
  | 0x24 =>
    match r.fn with
    | 0 => (F1.parse r).map .fabs
    | 1 => (F1.parse r).map .fneg
    | _ => none
  | 0x25 =>
    if r.fn < 8 then (SetP.parse r).map .fsetp
    else do
      let cond ← Cond.ofCode (r.fn - 8)
      let a ← Src.ofCode r.a
      some (.fsetpImm r.guard cond (Fin.ofNat 8 r.d) a (BitVec.ofNat 27 r.low))
  | 0x26 => if r.fn = 0 then (F1.parse r).map .fclass else none
  | 0x27 => if r.fn = 0 then (F1.parse r).map .frnd else none
  | 0x28 => if r.fn = 0 then (F2.parse r).map .fscl else none
  | 0x29 => if r.fn = 0 then (F3.parse r).map .fdot2 else none
  | 0x30 =>
    if r.fn = 0 then do
      let x ← F1.parse r
      let sty ← Ty.ofCode r.ty2
      some (.cvt x sty)
    else none
  | 0x31 =>
    match r.fn with
    | 0 => (F3.parse r).map .pack
    | 1 => (F2.parse r).map .unpack
    | _ => none
  | 0x32 =>
    match r.fn with
    | 0 => (F1.parse r).map .okey
    | 1 => (F1.parse r).map .keyf
    | _ => none
  | 0x33 => if r.fn = 0 then (F2.parse r).map .qcvt else none
  | 0x34 => if r.fn = 0 then (F1.parse r).map .bscale else none
  | _ => none

/-- Special-function and cross-lane words (OP 0x38-0x45). -/
def parseCross (op : Nat) (r : Raw) : Option Instr :=
  match op with
  | 0x38 => do
    let x ← Sfq.parse r
    match r.fn with
    | 0 => some (.sfqRcp x)
    | 1 => some (.sfqRsq x)
    | 2 => some (.sfqSqrt x)
    | 3 => some (.sfqExp2 x)
    | 4 => some (.sfqLog2 x)
    | 5 => some (.sfqSin x)
    | 6 => some (.sfqCos x)
    | 7 => some (.sfqTanh x)
    | 8 => some (.sfqExp2s x)
    | 9 => some (.sfqGnoise x)
    | 10 => some (.sfqDiv x)
    | _ => none
  | 0x40 =>
    match r.fn with
    | 0 => (F2.parse r).map .xpull
    | 1 => (F2.parse r).map .xpush
    | _ => none
  | 0x41 =>
    match r.fn with
    | 0 => (F2.parse r).map .xbcast
    | 8 => do
      let d ← Dst.ofCode r.d
      let a ← Src.ofCode r.a
      some (.xbcastImm r.guard d a (Fin.ofNat 64 r.low))
    | _ => none
  | 0x42 =>
    match r.fn with
    | 0 => some (.vany (.parse r))
    | 1 => some (.vall (.parse r))
    | 2 => (PredReg.parse r).map .vbal
    | 3 => (PredReg.parse r).map .vfirst
    | 4 => (PredReg.parse r).map .vcount
    | _ => none
  | 0x43 => (Red.parse r 0).map .redg
  | 0x44 => if r.fn < 8 then (Red.parse r 0).map .scang else (Red.parse r 8).map .scangEx
  | 0x45 => if r.fn = 0 then (F1.parse r).map .matchLanes else none
  | _ => none

/-- Memory words (OP 0x50-0x5B). -/
def parseMemory (op : Nat) (r : Raw) : Option Instr :=
  match op with
  | 0x50 => (LdArgs.parse r).map .ld
  | 0x51 => (StArgs.parse r).map .st
  | 0x52 => (AtomArgs.parse r).map .atom32
  | 0x53 => (AtomArgs.parse r).map .atom64
  | 0x54 => if r.fn = 0 then (FenceArgs.parse r).map .fence else none
  | 0x55 => if r.fn = 0 then (FenceArgs.parse r).map .acqr else none
  | 0x56 =>
    match r.fn with
    | 0 => (CacheArgs.parse r).map .cflush
    | 1 => (CacheArgs.parse r).map .cinv
    | _ => none
  | 0x57 =>
    match r.fn with
    | 0 => (RangeArgs.parse r).map .seal
    | 1 => (RangeArgs.parse r).map .unseal
    | _ => none
  | 0x58 => if r.fn = 0 then some (.carve (.parse r)) else none
  | 0x59 => if r.fn = 0 then (WaitArgs.parse r).map .waita else none
  | 0x5A => if r.fn = 0 then (ReadArgs.parse r).map .probe else none
  | 0x5B => if r.fn = 0 then (DescArgs.parse r).map .tcopy else none
  | _ => none

/-- Graded, gossip and fabric words (OP 0x60-0x6D). -/
def parseGraded (op : Nat) (r : Raw) : Option Instr :=
  match op with
  | 0x60 => (LdgArgs.parse r).map .ldg
  | 0x61 => (StgArgs.parse r).map .stg
  | 0x62 => (StgArgs.parse r).map .amend
  | 0x63 => if r.fn = 0 then (ReadArgs.parse r).map .grd else none
  | 0x64 =>
    match r.fn with
    | 0 => (GopArgs.parse r).map .ginit
    | 1 => (GopArgs.parse r).map .gadd
    | _ => none
  | 0x65 =>
    match r.fn with
    | 0 => (GreadArgs.parse r).map .gread
    | 1 => (GspreadArgs.parse r).map .gspread
    | _ => none
  | 0x66 =>
    match r.fn with
    | 0 => some (.gfence (.parse r))
    | 1 => some (.gstep (.parse r))
    | _ => none
  | 0x68 => if r.fn = 0 then (DescArgs.parse r).map .fput else none
  | 0x69 => if r.fn = 0 then (DescArgs.parse r).map .fget else none
  | 0x6A => (AtomArgs.parse r).map .fatom32
  | 0x6B => (AtomArgs.parse r).map .fatom64
  | 0x6C => if r.fn = 0 then some (.ffence (.parse r)) else none
  | 0x6D =>
    match r.fn with
    | 0 => (AcsetArgs.parse r).map .acset
    | 1 => (ReadArgs.parse r).map .acwait
    | _ => none
  | _ => none

/-- Matrix, trap and special-register words (OP 0x70-0x7E). -/
def parseSystem (op : Nat) (r : Raw) : Option Instr :=
  match op with
  | 0x70 =>
    match r.fn with
    | 0 => (F2.parse r).map .obres
    | 1 => (Src.ofCode r.a).map (.obrel r.guard)
    | _ => none
  | 0x71 => if r.fn = 0 then (MrowArgs.parse r).map .mload else none
  | 0x72 => if r.fn = 0 then (Reg3.parse r).map (if r.low % 2 = 1 then .mmaAll else .mma) else none
  | 0x73 => if r.fn = 0 then (Src.ofCode r.a).map (.mzero r.guard) else none
  | 0x74 =>
    match r.fn with
    | 0 => do
      let d ← Dst.ofCode r.d
      let a ← Src.ofCode r.a
      let b ← Src.ofCode r.b
      some (.mread r.guard d a b)
    | 1 => (Reg3.parse r).map .mwrite
    | _ => none
  | 0x75 => if r.fn = 0 then (MrowArgs.parse r).map .mstore else none
  | 0x76 => if r.fn = 0 then (Reg3.parse r).map .awset else none
  | 0x78 => if r.fn = 0 then some (.trap (.parse r)) else none
  | 0x79 =>
    if r.fn = 0 then (if r.low % 2 = 1 then some (.hretKill r.guard) else some (.hret r.guard)) else none
  | 0x7A => if r.fn = 0 then some (.pret r.guard) else none
  | 0x7B => if r.fn = 0 then some (.brk (.parse r)) else none
  | 0x7C => if r.fn = 0 then some (.sysc (.parse r)) else none
  | 0x7D =>
    match r.fn with
    | 0 => do
      let d ← Dst.ofCode r.d
      let sr ← Sr.ofCode (r.low % 4096)
      some (.mfs r.guard d sr)
    | 1 => do
      let a ← Src.ofCode r.a
      let sr ← Sr.ofCode (r.low % 4096)
      some (.mts r.guard sr a)
    | _ => none
  | 0x7E => if r.fn = 0 then (RangeArgs.parse r).map .harvest else none
  | _ => none

/-- A full-form word by its OP (Table 2.8). -/
def parseFull (op : Nat) (r : Raw) : Option Instr :=
  if op = 0 then some .ill
  else if op < 0x10 then parseControl op r
  else if op < 0x20 then parseInt op r
  else if op < 0x38 then parseFloat op r
  else if op < 0x50 then parseCross op r
  else if op < 0x60 then parseMemory op r
  else if op < 0x70 then parseGraded op r
  else parseSystem op r

def parsePair (w : Nat) : Option Instr := do
  let x ← PairSlot.parse (w / 2 ^ 32 % 2 ^ 31)
  let y ← PairSlot.parse (w / 2 % 2 ^ 31)
  some (pairInstr x y)

/-- Take a word apart by the tables, without the checks of R55. -/
def parse (w : Nat) : Option Instr :=
  if w / 2 ^ 63 % 2 = 1 then parsePair w else parseFull (Raw.op w) (Raw.unpack w)

/-! ### Encoding -/

/-- OP and the remaining fields of a full-form word; the steps that are no words, and pair words, have none. -/
def Instr.fields : Instr → Nat × Raw
  | .ill => (0x00, ⟨0, 0, 0, 0, 0, 0, 0⟩)
  | .nop g => (0x02, g.raw 0 false)
  | .bra x => (0x03, x.raw)
  | .brx x => (0x04, x.raw)
  | .call x => (0x05, x.raw)
  | .callx x => (0x06, x.raw)
  | .ret g uni => (0x07, g.raw 0 uni)
  | .rejoin g none => (0x08, g.raw 0 false)
  | .rejoin g (some a) => (0x08, { g.raw 0 false with a := a.code, low := 1 })
  | .exit g => (0x09, g.raw 0 false)
  | .spawn g disp a => (0x0A, { g.raw 0 false with a := a.code, low := disp.toNat })
  | .yield g => (0x0B, g.raw 0 false)
  | .sleep g n => (0x0B, { g.raw 1 false with low := n.toNat })
  | .wtok g m => (0x0C, { g.raw 0 false with low := m.toNat })
  | .wflag g m => (0x0C, { g.raw 1 false with low := m.toNat })
  | .bar x => (0x0D, x.raw 0)
  | .bara x => (0x0D, x.raw 1)
  | .barw g b => (0x0D, { g.raw 2 false with low := b.val })
  | .tlaunch g d a => (0x0E, { g.raw 0 false with d := d.code, a := a.code })
  | .tdone g gr => (0x0E, { g.raw 1 false with low := gr.code })
  | .twalk g d => (0x0E, { g.raw 2 false with d := d.code })
  | .tstat g d a => (0x0E, { g.raw 3 false with d := d.code, a := a.code })
  | .trap x => (0x78, x.raw)
  | .brk x => (0x7B, x.raw)
  | .sysc x => (0x7C, x.raw)
  | .hret g => (0x79, g.raw 0 false)
  | .hretKill g => (0x79, { g.raw 0 false with low := 1 })
  | .pret g => (0x7A, g.raw 0 false)
  | .mfs g d r => (0x7D, { g.raw 0 false with d := d.code, low := r.code })
  | .mts g r a => (0x7D, { g.raw 1 false with a := a.code, low := r.code })
  | .harvest x => (0x7E, x.raw 0)
  | .iadd x => (0x10, x.raw 0)
  | .iaddImm x => (0x10, x.raw 0)
  | .isub x => (0x10, x.raw 1)
  | .isubImm x => (0x10, x.raw 1)
  | .imul x => (0x11, x.raw 0)
  | .imulImm x => (0x11, x.raw 0)
  | .imulh x => (0x11, x.raw 1)
  | .imulhImm x => (0x11, x.raw 1)
  | .imad x => (0x12, x.raw 0)
  | .imadImm x => (0x12, x.raw 0)
  | .imadw x => (0x12, x.raw 1)
  | .imadwImm x => (0x12, x.raw 1)
  | .ineg x => (0x13, x.raw 0 0)
  | .iabs x => (0x13, x.raw 1 0)
  | .imin x => (0x14, x.raw 0)
  | .iminImm x => (0x14, x.raw 0)
  | .imax x => (0x14, x.raw 1)
  | .imaxImm x => (0x14, x.raw 1)
  | .bitAnd x => (0x15, x.raw 0)
  | .andImm x => (0x15, x.raw 0)
  | .bitOr x => (0x15, x.raw 1)
  | .orImm x => (0x15, x.raw 1)
  | .bitXor x => (0x15, x.raw 2)
  | .xorImm x => (0x15, x.raw 2)
  | .andn x => (0x15, x.raw 3)
  | .andnImm x => (0x15, x.raw 3)
  | .bitNot x => (0x17, x.raw 0 0)
  | .shl x => (0x16, x.raw 0)
  | .shlImm x => (0x16, x.raw 0)
  | .shr x => (0x16, x.raw 1)
  | .shrImm x => (0x16, x.raw 1)
  | .sar x => (0x16, x.raw 2)
  | .sarImm x => (0x16, x.raw 2)
  | .rol x => (0x16, x.raw 3)
  | .rolImm x => (0x16, x.raw 3)
  | .popc x => (0x17, x.raw 1 0)
  | .clz x => (0x17, x.raw 2 0)
  | .ctz x => (0x17, x.raw 3 0)
  | .brev x => (0x17, x.raw 4 0)
  | .bfx x => (0x18, x.raw 0)
  | .bfxImm x => (0x18, x.raw 0)
  | .bfi x => (0x18, x.raw 1)
  | .bfiImm x => (0x18, x.raw 1)
  | .isetp x => (0x19, x.raw)
  | .isetpImm g cond uns pd a imm =>
    (0x19, { g.raw (8 + cond.code) false with d := pd.val, a := a.code, low := bit uns * 67108864 + imm.toNat })
  | .sel g ty d a b pc =>
    (0x1A, { g.raw 0 false with
      d := d.code, a := a.code, low := b.code * 131072 + pc.val * 128 + ty.code * 4 })
  | .mov x => (0x1B, x.raw 0 0)
  | .movi g d imm => (0x1B, { g.raw 1 false with d := d.code, low := imm.toNat })
  | .moviHi g d imm => (0x1B, { g.raw 2 false with d := d.code, low := imm.toNat })
  | .lea g sc d a b => (0x1C, { g.raw sc.val false with d := d.code, a := a.code, low := b.code * 131072 })
  | .rhash x => (0x1D, x.raw 0)
  | .pand x => (0x1E, x.raw 0)
  | .por x => (0x1E, x.raw 1)
  | .pxor x => (0x1E, x.raw 2)
  | .pnot x => (0x1E, x.raw 3)
  | .fadd x => (0x20, x.raw 0)
  | .faddImm x => (0x20, x.raw 0)
  | .fsub x => (0x20, x.raw 1)
  | .fsubImm x => (0x20, x.raw 1)
  | .fmul x => (0x21, x.raw 0)
  | .fmulImm x => (0x21, x.raw 0)
  | .ffma x => (0x22, x.raw 0)
  | .ffmaImm x => (0x22, x.raw 0)
  | .fmin x => (0x23, x.raw 0)
  | .fminImm x => (0x23, x.raw 0)
  | .fmax x => (0x23, x.raw 1)
  | .fmaxImm x => (0x23, x.raw 1)
  | .fabs x => (0x24, x.raw 0 0)
  | .fneg x => (0x24, x.raw 1 0)
  | .fsetp x => (0x25, x.raw)
  | .fsetpImm g cond pd a imm =>
    (0x25, { g.raw (8 + cond.code) false with d := pd.val, a := a.code, low := imm.toNat })
  | .fclass x => (0x26, x.raw 0 0)
  | .frnd x => (0x27, x.raw 0 0)
  | .fscl x => (0x28, x.raw 0)
  | .fdot2 x => (0x29, x.raw 0)
  | .cvt x sty => (0x30, x.raw 0 sty.code)
  | .pack x => (0x31, x.raw 0)
  | .unpack x => (0x31, x.raw 1)
  | .okey x => (0x32, x.raw 0 0)
  | .keyf x => (0x32, x.raw 1 0)
  | .qcvt x => (0x33, x.raw 0)
  | .bscale x => (0x34, x.raw 0 0)
  | .sfqRcp x => (0x38, x.raw 0)
  | .sfqRsq x => (0x38, x.raw 1)
  | .sfqSqrt x => (0x38, x.raw 2)
  | .sfqExp2 x => (0x38, x.raw 3)
  | .sfqLog2 x => (0x38, x.raw 4)
  | .sfqSin x => (0x38, x.raw 5)
  | .sfqCos x => (0x38, x.raw 6)
  | .sfqTanh x => (0x38, x.raw 7)
  | .sfqExp2s x => (0x38, x.raw 8)
  | .sfqGnoise x => (0x38, x.raw 9)
  | .sfqDiv x => (0x38, x.raw 10)
  | .xpull x => (0x40, x.raw 0)
  | .xpush x => (0x40, x.raw 1)
  | .xbcast x => (0x41, x.raw 0)
  | .xbcastImm g d a lane => (0x41, { g.raw 8 false with d := d.code, a := a.code, low := lane.val })
  | .vany x => (0x42, x.raw 0)
  | .vall x => (0x42, x.raw 1)
  | .vbal x => (0x42, x.raw 2)
  | .vfirst x => (0x42, x.raw 3)
  | .vcount x => (0x42, x.raw 4)
  | .redg x => (0x43, x.raw 0)
  | .scang x => (0x44, x.raw 0)
  | .scangEx x => (0x44, x.raw 8)
  | .matchLanes x => (0x45, x.raw 0 0)
  | .ld x => (0x50, x.raw)
  | .st x => (0x51, x.raw)
  | .atom32 x => (0x52, x.raw)
  | .atom64 x => (0x53, x.raw)
  | .fence x => (0x54, x.raw)
  | .acqr x => (0x55, x.raw)
  | .cflush x => (0x56, x.raw 0)
  | .cinv x => (0x56, x.raw 1)
  | .seal x => (0x57, x.raw 0)
  | .unseal x => (0x57, x.raw 1)
  | .carve x => (0x58, x.raw)
  | .waita x => (0x59, x.raw)
  | .probe x => (0x5A, x.raw 0)
  | .tcopy x => (0x5B, x.raw)
  | .ldg x => (0x60, x.raw)
  | .stg x => (0x61, x.raw)
  | .amend x => (0x62, x.raw)
  | .grd x => (0x63, x.raw 0)
  | .ginit x => (0x64, x.raw 0)
  | .gadd x => (0x64, x.raw 1)
  | .gread x => (0x65, x.raw)
  | .gspread x => (0x65, x.raw)
  | .gfence x => (0x66, x.raw)
  | .gstep x => (0x66, x.raw 1)
  | .fput x => (0x68, x.raw)
  | .fget x => (0x69, x.raw)
  | .fatom32 x => (0x6A, x.raw)
  | .fatom64 x => (0x6B, x.raw)
  | .ffence x => (0x6C, x.raw 0)
  | .acset x => (0x6D, x.raw)
  | .acwait x => (0x6D, x.raw 1)
  | .obres x => (0x70, x.raw 0)
  | .obrel g a => (0x70, { g.raw 1 false with a := a.code })
  | .mload x => (0x71, x.raw)
  | .mma x => (0x72, x.raw 0 0)
  | .mmaAll x => (0x72, x.raw 0 1)
  | .mzero g a => (0x73, { g.raw 0 false with a := a.code })
  | .mread g d a b => (0x74, { g.raw 0 false with d := d.code, a := a.code, low := b.code * 131072 })
  | .mwrite x => (0x74, x.raw 1 0)
  | .mstore x => (0x75, x.raw)
  | .awset x => (0x76, x.raw 0 0)
  | _ => (0x00, ⟨0, 0, 0, 0, 0, 0, 0⟩)

/-- The pair words, as their two slots. -/
def Instr.pair? : Instr → Option (PairSlot × PairSlot)
  | .pairIadd x y => some (⟨.iadd, x⟩, y)
  | .pairIsub x y => some (⟨.isub, x⟩, y)
  | .pairImul x y => some (⟨.imul, x⟩, y)
  | .pairIminI32 x y => some (⟨.iminI32, x⟩, y)
  | .pairImaxI32 x y => some (⟨.imaxI32, x⟩, y)
  | .pairIminN32 x y => some (⟨.iminN32, x⟩, y)
  | .pairImaxN32 x y => some (⟨.imaxN32, x⟩, y)
  | .pairAnd x y => some (⟨.and, x⟩, y)
  | .pairOr x y => some (⟨.or, x⟩, y)
  | .pairXor x y => some (⟨.xor, x⟩, y)
  | .pairAndn x y => some (⟨.andn, x⟩, y)
  | .pairShl x y => some (⟨.shl, x⟩, y)
  | .pairShr x y => some (⟨.shr, x⟩, y)
  | .pairSar x y => some (⟨.sar, x⟩, y)
  | .pairMov x y => some (⟨.mov, x⟩, y)
  | .pairMovi x y => some (⟨.movi, x⟩, y)
  | .pairFadd x y => some (⟨.fadd, x⟩, y)
  | .pairFsub x y => some (⟨.fsub, x⟩, y)
  | .pairFmul x y => some (⟨.fmul, x⟩, y)
  | .pairFmin x y => some (⟨.fmin, x⟩, y)
  | .pairFmax x y => some (⟨.fmax, x⟩, y)
  | _ => none

/-- The word of an instruction. The steps of the device that are no instruction words have none; the
all-zero word stands for them here and decodes to `ill`. -/
def encode (i : Instr) : Nat :=
  match i.pair? with
  | some (x, y) => pairCode x.op x.x y
  | none => Raw.pack i.fields.1 i.fields.2

/-- Decode a word (R34-R55). OP 0x00 is `ILL` whatever its other bits (R53); every other word is accepted
if it is well-formed and no bit stands in a field that its instruction does not use. -/
def decode (w : Nat) : Except Reject Instr :=
  match parse w with
  | none => .error .unassigned
  | some .ill => .ok .ill
  | some i =>
    if i.wf then
      if encode i = w then .ok i else .error .reservedBits
    else .error .illFormed

/-! ### Clause headers (R47) -/

def setFlagCode : Option (Fin 12) → Nat
  | none => 15
  | some n => n.val

def setFlagOfCode (c : Nat) : Option (Option (Fin 12)) :=
  if c = 15 then some none else if h : c < 12 then some (some ⟨c, h⟩) else none

def Header.encode (h : Header) : Nat :=
  (((0x01 * 16 + h.len.val) * 4096 + h.wait.toNat) * 16 + setFlagCode h.sfa) * 2 ^ 36 +
    setFlagCode h.sfb * 2 ^ 32

/-- Decode a header word; `none` for every word that is no legal header (R47). -/
def decodeHeader (w : Nat) : Option Header := do
  let sfa ← setFlagOfCode (w / 2 ^ 36 % 16)
  let sfb ← setFlagOfCode (w / 2 ^ 32 % 16)
  if w / 2 ^ 56 = 1 ∧ w / 2 ^ 52 % 16 ≠ 0 ∧ w % 2 ^ 32 = 0 ∧ (sfb = none ∨ sfa ≠ sfb) then
    some ⟨Fin.ofNat 16 (w / 2 ^ 52), BitVec.ofNat 12 (w / 2 ^ 40), sfa, sfb⟩
  else none

/-- The terminators (R48). -/
def Instr.terminator : Instr → Bool
  | .bra _ | .brx _ | .call _ | .callx _ | .ret .. | .rejoin .. | .exit _ | .yield _ | .sleep .. | .trap _
  | .sysc _ | .brk _ | .hret _ | .hretKill _ | .pret _ => true
  | _ => false

/-- What the decoder reads from a table row's bits (the instruction word is bits [63:0]). -/
def decodeTableWord (_nbits w : Nat) : Option Instr :=
  match decode (w % 2 ^ 64) with
  | .ok i => some i
  | .error _ => none

end Sys2Proof
end

