-- ==== Sys2Proof/Config.lean ====
section
/-! DEFINITION. What the chip fixes (Table 0.1 and the limits of the chapters), and the values the spec leaves
open. An open value is an opaque constant applied to the counter `free` of the state or to the operands
it may depend on; nothing can be proved of it (log entries 5, 6, 7). -/

namespace Sys2Proof.Config

/-- An unspecified value (R9, R52, R257, R272 ...): the state's counter, and which value of the step. -/
opaque freeWord : Nat → Nat → Word

/-- An unspecified choice between two values (R52, R238). -/
opaque freeBit : Nat → Nat → Bool

/-- Which candidate an order that is not architectural takes, below `n` (R304). -/
opaque freeChoice : Nat → Nat → Nat

/-- Where an `SFQ` result lies within its error bound (Table 10.7): a pure function of the function's number
and its operands' bits (R239). The machine keeps it inside the bound. -/
opaque sfqPick : Nat → Nat → Nat → Nat → Nat

/-- The ASID that a partition's dispatch team runs under, less 1; the spec names none (log entry 8). -/
opaque dispatchAsid : Nat → Fin 4095

/-- Bytes of CXL memory attached behind a port (R61): a property of the board. -/
opaque cxlBytes : Nat → Nat

/-- The port, of the nine of a plane, on the fixed path to a chip (R123): a property of the switch network. -/
opaque pathPort : Nat → Nat → Nat

/-- Hashes that are not architectural or that the spec does not give: the bank of a shared cache and the set in it (R115,
R121), the set of a directory and of a translation lookaside buffer (R69, R116) of a line or page. -/
opaque bankHash : Nat → Nat
opaque cacheSet : Nat → Nat
opaque directorySet : Nat → Nat
opaque tlbSet : Nat → Nat

/-- How the context engine packs a team's groups, ways and shares, and its barriers, into its entry of a save slot (R365). -/
opaque saveShares : Nat → Nat → List Nat → Word
opaque saveBarriers : List Nat → List Nat → Nat → Word

/-- Whether a fabric port is connected to a switch (R381): a property of the board. -/
opaque connected : Nat → Bool

/-- What the host reads of a die's certificate chain, a digest of it, and the measurements that no message changes
(R378, R379): boot ROM, security-processor firmware and fuses. -/
opaque certificate : Nat → Nat → Nat
opaque certDigest : Nat → Nat → Nat
opaque bootRom : Nat → Nat
opaque spFirmware : Nat → Nat
opaque fuses : Nat → Nat

/-- A signature of a die with the key of a slot over the fields of a message; the responder's share of a key exchange;
capabilities and algorithms it offers (R378, R379). -/
opaque signature : Nat → Nat → List Nat → Nat
opaque keyShare : Nat → Nat → Nat
opaque spdmCapabilities : Nat → List Nat
opaque spdmAlgorithms : Nat → List Nat

def clusters : Nat := 48
def coresPerCluster : Nat := 96
def cores : Nat := 4608
def wayBytes : Nat := 32768
def sectorBytes : Nat := 64
def lineBytes : Nat := 256
def pageBytes : Nat := 65536
def slots : Nat := 16
def tableEntries : Nat := 32
def storeBuffer : Nat := 128
def plbEntries : Nat := 128
def tlbSets : Nat := 2048
def tlbWays : Nat := 8
def walkers : Nat := 32
def walkQueue : Nat := 2048
def l1Sets : Nat := 128
def cacheSets : Nat := 384
def cacheWays : Nat := 16
def directorySets : Nat := 65536
def directoryWays : Nat := 16
def relieveAt : Nat := 16
def missEntries : Nat := 64
def agedEntries : Nat := 16
def operandLog : Nat := 16
def fabricLeaves : Nat := 4096
def combineEntries : Nat := 32
def parkEntries : Nat := 4096
def holdEntries : Nat := 1024
def watches : Nat := 64
def spawnBins : Nat := 32
def refireBins : Nat := 64
def drayQueue : Nat := 32
def oxQueue : Nat := 16
def taskSlots : Nat := 1024
def faultRing : Nat := 4096

end Sys2Proof.Config
end

