-- ==== Sys2Proof/Machine/Maps.lean ====
section
/-! DEFINITION. Finite maps as lists sorted by key, and byte memory over them. Reading and writing a map are
the only operations; every wider access is built from single bytes here, so byte order (R7) is decided once. -/

namespace Sys2Proof.Machine

/-- A finite map from natural numbers. -/
abbrev AMap (α : Type) := List (Nat × α)

namespace AMap

def find? {α : Type} : AMap α → Nat → Option α
  | [], _ => none
  | (a, v) :: t, k => if a = k then some v else find? t k

/-- The value at a key, or `d` where the map lists none. -/
def get {α : Type} (m : AMap α) (k : Nat) (d : α) : α := (find? m k).getD d

/-- Set the value at a key, keeping the keys in rising order. -/
def put {α : Type} : AMap α → Nat → α → AMap α
  | [], k, v => [(k, v)]
  | (a, w) :: t, k, v =>
    if k < a then (k, v) :: (a, w) :: t
    else if k = a then (k, v) :: t
    else (a, w) :: put t k v

def del {α : Type} (m : AMap α) (k : Nat) : AMap α := m.filter fun x => x.1 != k

/-- The keys are strictly rising. -/
def rising {α : Type} : AMap α → Bool
  | [] => true
  | [_] => true
  | (a, _) :: (b, w) :: t => decide (a < b) && rising ((b, w) :: t)

end AMap

/-- Byte memory (R59): what an unlisted address reads as is 0 (log entry 2). -/
abbrev Memory := List Host.Cell

namespace Memory

def dflt : Byte := 0

def read (m : Memory) (a : Nat) : Byte := AMap.get m a dflt

/-- Write one byte; writing what an unlisted address reads as removes the entry. -/
def write (m : Memory) (a : Nat) (b : Byte) : Memory :=
  if b = dflt then AMap.del m a else AMap.put m a b

/-- The canonical form: addresses strictly rising, no entry equal to what an unlisted address reads as. -/
def wf (m : Memory) : Bool := AMap.rising m && m.all fun c => c.2 != dflt

/-- `n` bytes at `a`, little-endian (R7). -/
def readN (m : Memory) (a : Nat) : Nat → Nat
  | 0 => 0
  | n + 1 => (read m a).toNat + 256 * readN m (a + 1) n

/-- Write the low `n` bytes of `v` at `a`, little-endian. -/
def writeN (m : Memory) (a : Nat) : Nat → Nat → Memory
  | 0, _ => m
  | n + 1, v => writeN (write m a (BitVec.ofNat 8 v)) (a + 1) n (v / 256)

def read64 (m : Memory) (a : Nat) : Word := BitVec.ofNat 64 (readN m a 8)

end Memory

/-- Replace the bytes of `old` named by the byte mask (R111). -/
def mergeBytes (n : Nat) (old new mask : Nat) : Nat :=
  match n with
  | 0 => 0
  | k + 1 =>
    (if mask % 2 = 1 then new % 256 else old % 256) + 256 * mergeBytes k (old / 256) (new / 256) (mask / 2)

/-- Bit `i` of a natural number. -/
def nbit (x i : Nat) : Bool := x / 2 ^ i % 2 == 1

/-- Bits `[hi:lo]` of a word, as a number. -/
def bits (w : Word) (hi lo : Nat) : Nat := w.toNat / 2 ^ lo % 2 ^ (hi + 1 - lo)

/-- Replace bits `[hi:lo]` of a word. -/
def setBits (w : Word) (hi lo v : Nat) : Word :=
  let n := hi + 1 - lo
  BitVec.ofNat 64 (w.toNat - bits w hi lo * 2 ^ lo + v % 2 ^ n * 2 ^ lo)

/-- Lanes named by a mask, ascending. -/
def lanesOf (m : Mask) : List Nat := (List.range 64).filter fun i => m.getLsbD i

def maskOf (p : Nat → Bool) : Mask :=
  (List.range 64).foldl (fun m i => if p i then m ||| (1#64 <<< i) else m) 0

end Sys2Proof.Machine
end

