-- ==== Sys2Proof/Machine/State.lean ====
section
/-! DEFINITION. The state of the device as plain data, the reasons a step can stop, and the state at power-on.
INVENTORY.md lists every piece with the rule that names it. A field that is the model's own, and not the spec's,
says so in its comment. -/

namespace Sys2Proof.Machine

/-- Why a step stops with a fault. -/
inductive Fault where
  /-- Raised by every instruction word when no gang is issuing it: only the issue stage executes words (R281), so a
  word on the schedule with no gang chosen has no thread to act in. Safe: no word runs. -/
  | noIssue
deriving DecidableEq, Repr

/-- Why a step is refused. -/
inductive Refusal where
  /-- Raised by the arms of `exec` whose instruction has no meaning yet. Safe: the machine does not go on. -/
  | notModelled (mnemonic : String)
deriving DecidableEq, Repr

/-! ### Threads and groups -/

/-- Thread states (R283). `held` of Table 12.3 is a class whose word is held at issue; it is no state of a thread
here. `fill` is a thread held on a return-stack fill (R287). -/
inductive ThrSt where
  | ready
  | bar (b : Nat)
  | rejoin
  | yield (others : List Nat) (due : Word)
  | sleep (due : Word)
  | mem (req : Nat)
  | fill (req : Nat)
  | exited
deriving DecidableEq, Repr

/-- A thread (R275). `hdr` is the clause it stands in the middle of, with `pc` its next word; with `hdr = none` it
waits at the header `pc`; `len` is the clause's length. `arr` is the clock of its arrival there (R281). `rbad` gives for each
entry of the return stack 1 where it is poisoned, 2 where that has been consumed (R309); `cw` lists the registers that flag-counted words of the clause it stands in write (R52); `astray` says that its
`STACKBASE` was written while entries were spilled (R286). -/
structure Thread where
  pc : Word := 0
  hdr : Option Word := none
  len : Nat := 0
  st : ThrSt := .ready
  rstack : List Word := []
  rbad : List Nat := []
  cw : List Nat := []
  base : Word := 0
  top : Word := 0
  astray : Bool := false
  arr : Nat := 0
deriving DecidableEq, Repr

/-- A register that a long-latency word will write (R52, R238). `dup` says that what it holds now comes from another word
that had not completed, or came later, so that the arriving value may be dropped for it; `alt` is the value that has
arrived of a word that has not completed. -/
structure Pend where
  key : Nat
  req : Option Nat
  tok : Option Nat
  arrived : Bool
  dup : Bool
  alt : Option Word := none
deriving DecidableEq, Repr

/-- Group modes (Table 16.4). -/
inductive Mode where
  | normal | trap | psave | psaveDone | prest
deriving DecidableEq, Repr

/-- What is kept aside while a group runs a handler (R355), where its threads stood, and the mode it came from. -/
structure Shadow where
  mode : Mode := .normal
  hflags : AMap Nat := []
  vo : AMap Reg32 := []
  l : AMap Word := []
  preds : AMap Mask := []
  sc : AMap Word := []
  poison : AMap Nat := []
  thr : AMap Thread := []
  spawned : Mask := 0
deriving DecidableEq, Repr

/-- A group's share of a barrier (R318): completions it has waited for, marked arrivals, and the count its marking
words named. -/
structure GroupBar where
  gs : BitVec 16 := 0
  marks : Mask := 0
  count : Nat := 0
deriving DecidableEq, Repr

/-- How far a group has come to a halt (R353): running, a sibling in its skid, stopped. -/
inductive Halt where
  | running
  | skid (count : Nat)
  | stopped
deriving DecidableEq, Repr

/-- A group (R275, R277). `vo` holds `v` and `o` registers by `lane * 1024 + code`, `l` by `lane * 2 + n`. `gid` is
the model's number of this group instance, `kern` identifies its kernel. `atFault` names the threads that stood at the
word that trapped; `resumeNext` says that they resume at PC + 8 (R325). `gadds` lists the gossip regions the group has
added to since its last `GFENCE` (R151), `spawned` the lanes of a held word that have taken their effect: those that a `SPAWN`
has spawned (R315), or the half of a memory word or a group instruction that has issued (R282). `stalled` is the
store, as (request, access), at which the group stalls on a full hold buffer (R101); `written` the values it has written
to scalar registers (R32). `prepc` keeps the pc at which a pre-emption
found the group, for FAULTPC after a trap in PREST (R362). -/
structure Group where
  gid : Nat := 0
  run : Nat := 0
  part : Nat := 0
  asid : Nat := 0
  num : Nat := 0
  width : Nat := 16
  pos : Nat := 0
  regs : Nat := 1
  kern : Nat := 0
  thr : AMap Thread := []
  vo : AMap Reg32 := []
  l : AMap Word := []
  preds : AMap Mask := []
  sc : AMap Word := []
  poison : AMap Nat := []
  pend : List Pend := []
  flags : AMap Nat := []
  hflags : AMap Nat := []
  toks : AMap Nat := []
  rejoinm : Mask := 0
  awbase : Nat := 0
  awlimit : Nat := 0
  seq : BitVec 16 := 0
  prepc : Word := 0
  faultpc : Word := 0
  faultinfo : Word := 0
  skid : BitVec 32 := 0
  mode : Mode := .normal
  shadow : List Shadow := []
  atFault : Mask := 0
  resumeNext : Bool := false
  halt : Halt := .running
  lateTrap : Option (Nat × Nat × Nat × Nat) := none
  stalled : Option (Nat × Nat) := none
  bars : AMap GroupBar := []
  hbars : AMap GroupBar := []
  gadds : List Nat := []
  written : List Word := []
  spawned : Mask := 0
deriving DecidableEq, Repr

/-! ### Requests -/

/-- Who issued a request (R87). -/
structure Ident where
  part : Nat := 0
  asid : Nat := 0
  run : Nat := 0
  gid : Nat := 0
  task : Nat := 0
  team : Nat := 0
  group : Nat := 0
  core : Nat := 0
  slot : Nat := 0
  disp : Bool := false
deriving DecidableEq, Repr

/-- How far one access of a request has come. `miss` holds a miss entry, `rejected` waits for one, `aged` waits in the
aged queue (R120); `sent` is out on the host link or the fabric under that number; `comb` waits in the combining
buffer (R132); `l1` has been written into the L1 and waits for its write-back (R111); `port` has merged, and a CXL port has still to
acknowledge it (R159); `held` lies in the hold buffer
(R100); `parked` waits at the home, `refused` for a place there (R90); `watching` waits on a watch (R171); `logged` and `withdrawn` lie
in the operand log (R85, R161). -/
inductive AccSt where
  | waiting | miss | rejected (n : Nat) | aged | sent (id : Nat) | comb | l1 | port | held | parked | refused | watching
  | logged | withdrawn | done | dropped
deriving DecidableEq, Repr

/-- One access of a request: a lane's, or one sector's of a store (R84). A scratchpad access has its place in `va` as
device core * 2^18 + offset; `got` says that the bytes of a copy have been read. `home` numbers its arrival at a home that
could not serve it at once (R116), 0 for none; `replay` says that it has been issued again from the operand log (R86);
`rejects` counts the rejections and refusals before it last took a miss entry (R120); `wrote` gives for a store the bytes of each lane
that wrote in the sector (R133), none saying that all are of `lane`. -/
structure Acc where
  lane : Nat := 0
  space : Space := .glb
  va : Nat := 0
  size : Nat := 0
  mask : Mask := 0
  data : Sector := 0
  cmp : Word := 0
  got : Bool := false
  home : Nat := 0
  replay : Bool := false
  rejects : Nat := 0
  wrote : List (Nat × Mask) := []
  st : AccSt := .waiting
deriving DecidableEq, Repr

/-- What a request does. -/
inductive ReqKind where
  | ld | st | atom | fatom | fence | acqr | cflush | cinv | seal | unseal | harvest | carve | waita | probe | tcopy
  | ldg | stg | amend | grd | ginit | gadd | gread | gspread | gfence | gstep | fput | fget | ffence | acset | acwait
  | mload | mstore | spill | fill | record
deriving DecidableEq, Repr

/-- An outstanding instruction (R49, R84). `flag` is the counter to decrement, `hdepth` is 0 in normal code, else the depth of the
handler whose flag it is (R355). `floor`, `gen`, `depth`, `limit`, `refire` are the team's at issue (R92, R94, R100). `words` is a descriptor
(R173, R181), `n` a count or a resume point, `rounds` the rounds a GFENCE still waits for, `mask` the active lanes. -/
structure Req where
  id : Nat := 0
  idn : Ident := {}
  pc : Word := 0
  seq : BitVec 16 := 0
  flag : Option Nat := none
  hdepth : Nat := 0
  kind : ReqKind := .ld
  size : Nat := 4
  sx : Bool := false
  dst : Option Dst := none
  pd : Nat := 7
  strong : Bool := false
  ord : MemOrder := .none
  scope : Scope := .dev
  space : Space := .glb
  grade : Grade := .empty
  nowait : Bool := false
  fn : AtomFn := .add
  floor : Nat := 3
  gen : Nat := 0
  depth : Nat := 0
  limit : Nat := 8
  refire : Bool := false
  n : Nat := 0
  words : List Word := []
  rounds : List (Nat × Nat × Nat) := []
  started : Bool := false
  mask : Mask := 0
  accs : List Acc := []
deriving DecidableEq, Repr

/-! ### Cores -/

/-- A gang in the middle of a clause (R48, R281); `two` marks a 64-thread group that issues each word as two gangs
(R282). `held` is the clock in which the gang's next word was held at its last try: it is not tried again in that clock. -/
structure Gang where
  pc : Word := 0
  len : Nat := 1
  idx : Nat := 0
  sfa : Option Nat := none
  sfb : Option Nat := none
  members : List (Nat × Mask) := []
  two : Bool := false
  held : Option Nat := none
deriving DecidableEq, Repr

/-- An entry of the PC table (R280); `last` is when it last issued, 0 for never, and `ended` says that its gang has just ended
its clause. -/
structure Entry where
  kern : Nat := 0
  hdr : Word := 0
  last : Nat := 0
  ended : Bool := false
  gang : Option Gang := none
deriving DecidableEq, Repr

/-- A sector's grade record (R88). -/
structure Rec where
  grade : Grade := .empty
  gen : Nat := 0
  depth : Nat := 0
deriving DecidableEq, Repr

/-- A sector of the L1 (R107, R111). `full` says that every byte is valid; else only the dirty ones are. `first` and
`last` are the core's narrow-release epochs of its oldest and newest dirty bytes, `age` orders the sectors by their oldest
dirty bytes (R111), `home` numbers the arrival at its home of a write-back that could not be granted at once, 0 for none (R116). The
sectors of one line share its `way`. -/
structure L1Sec where
  way : Nat := 0
  data : Sector := 0
  dirty : Mask := 0
  full : Bool := false
  sealed : Bool := false
  record : Rec := {}
  poison : Bool := false
  first : Nat := 0
  last : Nat := 0
  age : Nat := 0
  home : Nat := 0
deriving DecidableEq, Repr

/-- A permission entry (R71). -/
structure PlbEnt where
  r : Bool := false
  w : Bool := false
  x : Bool := false
  cls : Nat := 0
  sealed : Bool := false
deriving DecidableEq, Repr

/-- A PLB fill (R72): asked for, or answered with a precise cause, or fatal (R368). -/
inductive FillSt where
  | asked | bad (cause : Nat) | fatal
deriving DecidableEq, Repr

/-- A combining entry (R132); `byThr` lists the (group instance, lane) pairs that wrote it with the bytes of each, `who` the
(request, access) pairs it holds. -/
structure CombEnt where
  part : Nat := 0
  easid : Nat := 0
  line : Nat := 0
  mask : BitVec 256 := 0
  data : BitVec 2048 := 0
  byThr : List (Nat × Nat × BitVec 256) := []
  who : List (Nat × Nat) := []
deriving DecidableEq, Repr

/-- A queued quarter-MMA (R256, R265): accumulator row, counted lanes, operand words, issuing group. -/
structure Quarter where
  run : Nat := 0
  row0 : Nat := 0
  lanes : List Nat := []
  aw : BitVec 32 := 0
  bw : BitVec 32 := 0
deriving DecidableEq, Repr

/-- An `SFQ` gang-issue in the queue (R238): its results by lane. -/
structure SfqJob where
  id : Nat := 0
  slot : Nat := 0
  gid : Nat := 0
  tok : Nat := 0
  dst : Dst := .l0
  res : List (Nat × Reg32) := []
deriving DecidableEq, Repr

/-- The context engine's copy of a saved core (R365): the part of the record whose form is the engine's own. `ways` is the
scratchpad of its teams as it is now, `landed` the bytes that have landed there since the save (R161), `teams` the run of each
team entry of the slot, none for one that was complete. -/
structure SaveImg where
  kind : Nat := 0
  infall : Bool := false
  t0 : Word := 0
  carve : Nat := 4
  groups : AMap Group := []
  holders : AMap Nat := []
  teams : List (Option Nat) := []
  ways : Memory := []
  landed : AMap Nat := []
  acc : AMap Reg32 := []
  accPoison : AMap Bool := []
deriving DecidableEq, Repr

/-- A core. `reqs` holds the outstanding requests in issue order: with their accesses they are the store buffer (R84),
the operand logs (R85), the miss entries (R120) and the watches (R171). `ways` is the scratchpad by
`way * 32768 + offset`, `ob` the operand buffer by byte, but for the ranges of `obBlank`, whose contents are unspecified, as (first
byte, length, number of the values there), `acc` the accumulator by `row * 64 + column`; `obPoison` lists
poisoned words of the one, `accPoison` poisoned elements of the other, each with whether it has been consumed. `tick` counts
issue choices, `corrected` the register-file errors that have been corrected (R194), `epoch` narrow releases, `dirtied` the sectors that have become dirty, all the model's own. `pass` is the length of the running pass (R258).
`t0` is when the pre-emption budget began (R363), `ended` the (task, team) of the teams that have ended since. -/
structure Core where
  groups : AMap Group := []
  table : AMap Entry := []
  equeue : List (Nat × Word) := []
  tick : Nat := 1
  corrected : Nat := 0
  carve : Nat := 4
  target : Nat := 4
  holders : AMap Nat := []
  ways : Memory := []
  l1 : AMap L1Sec := []
  epoch : Nat := 0
  dirtied : Nat := 0
  plb : AMap PlbEnt := []
  fills : AMap FillSt := []
  reqs : List Req := []
  aged : List (Nat × Nat) := []
  comb : List CombEnt := []
  ob : Memory := []
  obBlank : List (Nat × Nat × Nat) := []
  obPoison : AMap Bool := []
  acc : AMap Reg32 := []
  accPoison : AMap Bool := []
  oxq : List Quarter := []
  pass : Option Nat := none
  sfq : List SfqJob := []
  t0 : Option Word := none
  forcing : Bool := false
  ended : List (Nat × Nat) := []
  save : Option SaveImg := none
deriving DecidableEq, Repr

/-! ### Runs, tasks and partitions -/

/-- A named barrier (R318). -/
structure Barrier where
  bc : BitVec 16 := 0
  arr : Nat := 0
  exp : Option Nat := none
  z : Bool := false
deriving DecidableEq, Repr

/-- A reservation record (Table 11.1); `v = false` is not live. -/
structure Resv where
  v : Bool := false
  lost : Bool := false
  fmt : Ty := .f32
  sc : Bool := false
  base : Nat := 0
  soff : Nat := 0
  ksteps : Nat := 0
  rowsm1 : Nat := 0
deriving DecidableEq, Repr

/-- A team's halt (R353): the trapping group, and whether it has entered its handler. -/
structure TeamHalt where
  core : Nat := 0
  slot : Nat := 0
  entered : Bool := false
deriving DecidableEq, Repr

/-- A team run (R275). `cores` lists its cores, two for a paired team; `ob`, `accs` give its shares by core as
(first unit, units) (R252); `resv` its reservations by core * 16 + slot; `ways` its scratchpad as (core, way) in
`.loc` order (R108). `completed` says that the run has recorded a completion (R292); `killed` that it ends without
one (R326); `begun` that a gang of it has formed, so that its entry has been fetched (R311). -/
structure Run where
  part : Nat := 0
  asid : Nat := 0
  task : Nat := 0
  team : Nat := 0
  disp : Bool := false
  spawned : Bool := false
  paired : Bool := false
  ngroups : Nat := 1
  ended : Nat := 0
  cores : List Nat := []
  ways : List (Nat × Nat) := []
  ob : AMap (Nat × Nat) := []
  accs : AMap (Nat × Nat) := []
  resv : AMap Resv := []
  floor : Nat := 3
  gen : Nat := 0
  refire : Bool := false
  limit : Nat := 8
  depth : Nat := 0
  bars : AMap Barrier := []
  hbars : AMap Barrier := []
  taken : List Nat := []
  walkn : Nat := 0
  completed : Bool := false
  killed : Bool := false
  begun : Bool := false
  halt : Option TeamHalt := none
deriving DecidableEq, Repr

/-- Team states (Table 13.4). -/
inductive TeamSt where
  | idle | elig | run | done | refq | stale
deriving DecidableEq, Repr

/-- A completion entry (Table 13.3). -/
structure Comp where
  grade : Nat := 0
  gen : Nat := 0
  depth : Nat := 0
  st : TeamSt := .idle
  pend : Bool := false
deriving DecidableEq, Repr

/-- A dependence (Table 13.2). `np` is the producer's team count; `past` keeps its last completions once it has retired
and its slot may serve another task. -/
structure Dep where
  map : Nat := 0
  accept : Nat := 3
  producer : Nat := 0
  mul : Nat := 0
  div : Nat := 1
  off : Int := 0
  span : Nat := 0
  np : Nat := 0
  past : Option (AMap Comp) := none
deriving DecidableEq, Repr

/-- A task record with its fields resolved (Table 13.1, R296). -/
structure TaskRec where
  entry : Word := 0
  width : Nat := 16
  groups : Nat := 1
  paired : Bool := false
  regs : Nat := 1
  nteams : Nat := 1
  graph : Nat := 0
  limit : Nat := 8
  spways : Nat := 0
  obunits : Nat := 0
  accu : Nat := 0
  carve : Nat := 0
  walkn : Nat := 0
  doneva : Word := 0
  doneval : Word := 0
  deps : List Dep := []
  params : List Word := []
deriving DecidableEq, Repr

/-- A live task (R295). `ran` gives the generation of each team's latest completion or started run (R97), `trig` that of
the producer completion that last re-fired it (R400), `hist` the scalar values its ended groups have written (R32). -/
structure Task where
  desc : TaskRec := {}
  asid : Nat := 0
  entries : AMap Comp := []
  ran : AMap Nat := []
  trig : AMap Nat := []
  hist : List Word := []
deriving DecidableEq, Repr

/-- Where a request came from (R87); `bell` says that it is a store of the task unit (R303, R358). -/
structure Origin where
  idn : Ident := {}
  pc : Word := 0
  seq : BitVec 16 := 0
  lane : Nat := 0
  bell : Bool := false
deriving DecidableEq, Repr

/-- An entry of the outward hold buffer (R101). `freed` marks one that has been released and has still to leave. -/
structure Held where
  org : Origin := {}
  gen : Nat := 0
  easid : Nat := 0
  va : Nat := 0
  op : PacketOp := .grd
  freed : Bool := false
deriving DecidableEq, Repr

/-- A fault record waiting for room in the fault queue (R358), its words 0 to 5 without PHASE. `late` carries what a
late trap needs (R357). -/
structure FaultRec where
  org : Origin := {}
  cause : Nat := 0
  exited : Bool := false
  dropped : Bool := false
  halted : Bool := false
  bell : Bool := false
  consumed : Bool := false
  va : Nat := 0
  easid : Nat := 0
  detail : Nat := 0
  aux : Word := 0
  owner : Word := 0
deriving DecidableEq, Repr

/-- A spawn bin (R288), or a re-fire bin with team numbers in `items` (R300). -/
structure SpawnBin where
  part : Nat := 0
  task : Nat := 0
  entry : Word := 0
  fired : Bool := false
  start : Word := 0
  run : Nat := 0
  asid : Nat := 0
  team : Nat := 0
  width : Nat := 16
  regs : Nat := 1
  kern : Nat := 0
  gen : Nat := 0
  refire : Bool := false
  items : List Word := []
deriving DecidableEq, Repr

structure RefireBin where
  task : Nat := 0
  start : Word := 0
  items : List Nat := []
deriving DecidableEq, Repr

/-- The start of the dispatch team (R294): its record is being read, or the team waits for a place. -/
inductive Starting where
  | idle
  | reading
  | placing (words : List Word)
deriving DecidableEq, Repr

/-- TDI states (R376). -/
inductive TdiSt where
  | unlocked | locked | run | error
deriving DecidableEq, Repr

/-- A partition's state outside the cores. `spillOwed` lists the (task slot, team) whose spilled entries have still to be
written to memory, `spillLost` those whose write failed outside the device's memory and `spillTold` those whose read has been
reported to fault (R298, R303), `launching` the records of `TLAUNCH`s that wait for a task slot, by request (R295). `regs` holds its management registers by offset; what is not listed reads
as its reset value (`partReset`). `fired` lists the teams of a re-fire bin that has fired whose test waits (R299, R303), `killing` address spaces being torn down (R368), `ending` graphs (R303). `stepNext` is
the value that `GSCTL`.STEP takes when no round is in progress (R148), `resuming` the clock at which the save that is being
restored began (R364). -/
structure Part where
  regs : AMap Word := []
  prebudget : Nat := 16384
  clock : Word := 0
  hold : List Held := []
  records : List FaultRec := []
  slots : AMap Task := []
  queue : List (Nat × Nat × Nat) := []
  head : Option (Nat × Nat) := none
  refire : List RefireBin := []
  refireWait : List (Nat × Nat) := []
  fired : List (Nat × Nat) := []
  dispatch : Option Nat := none
  starting : Starting := .idle
  launching : AMap TaskRec := []
  dispHist : List Word := []
  spillOwed : List (Nat × Nat) := []
  spillLost : List (Nat × Nat) := []
  spillTold : List (Nat × Nat) := []
  ending : List Nat := []
  killing : List Nat := []
  preempting : Bool := false
  inEffect : Bool := false
  tdi : TdiSt := .unlocked
  stepNext : Option Bool := none
  resuming : Option Word := none
deriving DecidableEq, Repr

/-! ### Memory, fabric, gossip, host -/

/-- Metadata of a DRAM line (R80). `key` is the key the line was written under; it is no metadata the controller
reads, and serves only to tell a recycled epoch (R83). -/
structure LineMeta where
  recs : AMap Rec := []
  slot : Nat := 0
  epoch : Nat := 0
  key : Nat := 0
  poison : Bool := false
deriving DecidableEq, Repr

/-- A translation at its home (R69, R77). -/
structure TlbEnt where
  leaf : Word := 0
  dirty : Bool := false
deriving DecidableEq, Repr

/-- States of a sector in a shared cache or an engine (R115, R118). -/
inductive Mesi where
  | m | e | s | sealed
deriving DecidableEq, Repr

/-- A copy of a sector. Holders 0-7 are the shared caches of the C-dies, 8-55 the Drays, 56-63 the Ox load pipes,
64-65 the fabric ports, 66-67 the Ganders, 68-75 the context engines (R116, R117). `way` is the way of a shared cache that
its line lies in (R115), `slot` the key slot of its page and `pa` its place in memory, which the home knows. -/
structure SecCopy where
  holder : Nat := 0
  way : Nat := 0
  slot : Nat := 0
  pa : Nat := 0
  st : Mesi := .s
  data : Sector := 0
  record : Rec := {}
  poison : Bool := false
deriving DecidableEq, Repr

/-- A key slot (R82). -/
structure KeySlot where
  key : Nat := 0
  epoch : Nat := 0
deriving DecidableEq, Repr

/-- A request sent, or waiting to be sent, on the fabric (R124, R126, R137), and the accesses that it answers to, as
(core, request, access); a released held store answers to none. `fpid` is the sender's fabric partition ID (R127); `landed`
says that it has looped back to its own chip (R125). -/
structure OutReq where
  id : Nat := 0
  fpid : Nat := 0
  landed : Bool := false
  part : Nat := 0
  easid : Nat := 0
  va : Nat := 0
  ifa : Word := 0
  sent : Bool := false
  lost : Bool := false
  op : PacketOp := .grd
  who : List (Nat × Nat × Nat) := []
  org : Origin := {}
deriving DecidableEq, Repr

/-- A request packet that waits at this chip, its target (R124, R127): for a sector or a grade. `tag` is the sector at which
an `LDG` parks, 0 for none, `val` the value and record that a write has left there for it (R89). `home` numbers its arrival at the home of a sector that
could not be granted at once, 0 for none, and `wants` lists the tags of the sectors it waits for (R116). -/
structure InPacket where
  pkt : Packet
  tag : Nat := 0
  val : Option (Sector × Nat) := none
  home : Nat := 0
  wants : List Nat := []
deriving DecidableEq, Repr

/-- A request sent to host memory (R375). -/
structure HostReq where
  id : Nat := 0
  part : Nat := 0
  easid : Nat := 0
  va : Nat := 0
  addr : Word := 0
  op : PacketOp := .grd
  who : List (Nat × Nat × Nat) := []
  org : Origin := {}
  secure : Bool := false
deriving DecidableEq, Repr

/-- A message of the Gander in flight (R146); `va` is the address of its line, `fpid` the partition's fabric partition ID, with
which it is stamped (R143). -/
structure Flight where
  seq : BitVec 32 := 0
  region : Nat := 0
  line : Nat := 0
  va : Nat := 0
  sent : List Word := []
  sentw : Word := 0
  round : Nat := 0
  lost : Bool := false
  fpid : Nat := 0
deriving DecidableEq, Repr

/-- One neighbour of a partition's Gander, by part * 8 + entry: the last sequence number used, the messages in flight,
the lines already split in the round in progress, by its region, and the rounds started of each region. `stopped` lists the
regions whose round ends unfinished once no message of it is in flight (R141), `aborted` the rounds that have ended so. -/
structure Gander where
  seq : BitVec 32 := 0
  flight : List Flight := []
  active : AMap (List Nat) := []
  counts : AMap Nat := []
  stopped : List Nat := []
  aborted : AMap (List Nat) := []
deriving DecidableEq, Repr

/-- A sector of a shadow slot that a Gander has still to write (R117, R142). -/
structure ShadowWrite where
  part : Nat := 0
  holder : Nat := 0
  va : Nat := 0
  mask : Mask := 0
  data : Sector := 0
deriving DecidableEq, Repr

/-- A fabric link (R134-R136). -/
structure Link where
  key : Option (Nat × Nat) := none
  standby : Option (Nat × Nat) := none
  trained : Bool := false
deriving DecidableEq, Repr

/-- A die at boot and as an SPDM responder (R378-R381). -/
structure Die where
  held : Bool := true
  version : Nat := 0
  minVersion : Nat := 0
  digest : Nat := 0
  channels : List Nat := []
  attested : Bool := false
  sessions : List (Nat × Bool) := []
deriving DecidableEq, Repr

/-- Interrupts and reports raised outside the fault queues. -/
inductive Irq where
  | linkKeyWarn (link : Nat)
  | linkKeyExhaust (link : Nat)
  | planeDown (plane : Nat)
  | keyRequest (link : Nat) (ctr : Nat)
  | saveFault (part core : Nat)
deriving DecidableEq, Repr

/-- What the device answers to a host or management request: completions (R374), SPDM and TDISP messages (R376-R379),
and answers to fabric packets and gossip messages (R127, R145). -/
inductive Answer where
  | completed (data : BitVec 32768)
  | unsupportedRequest
  | completerAbort
  | spdmError (die : Nat)
  | spdm (die code : Nat) (fields : List Nat)
  | packetDone (src id : Nat) (data : BitVec 2048) (record : Nat)
  | packetRefused (src id cause detail : Nat)
  | gossipAck (src : Nat) (seq : BitVec 32)
  | gossipRefused (src : Nat) (seq : BitVec 32)
deriving DecidableEq, Repr

/-- An answer to another chip that waits for the link of a plane code to send its flits (R124, R136). -/
structure Reply where
  code : Nat
  chip : Nat
  flits : Nat
  answer : Answer
deriving DecidableEq, Repr

/-- The word being issued: its core and PC-table entry. -/
structure Issue where
  core : Nat
  entry : Nat
deriving DecidableEq, Repr

/-- The device. `agenda` is the schedule of steps to come, oldest first, `issue` the word the issue stage is about to
execute, `free` the counter of unspecified values, `next` the next request or run number: these four are the model's
own (log entries 1 and 5). `steps` is the queue of `GSTEP`s as (core, request), `stepPlan` the (neighbour, region) rounds that
the first has still to start (R148), `shades` what the Ganders have still to write of the shadows (R142). `cached` holds the copies of each sector by tag (R106), `tlb` the translations by page
tag, `walks` the pages for which fills wait at each home, in arrival order (R69), `rmap` the reverse maps by frame number
in the layout of R75, `lmeta` the line metadata by PA / 256, `softErrors` counts the errors that the controllers have
corrected, `errorLog` lists the poisoned lines that accesses have met without consuming them (R81),
`ideKeys` the keys of the selective IDE streams (0 the physical function's, p + 1 partition p's) and of link IDE (17).
`replies` lists answers to other chips that wait for a link (R136), `full` says that words obey full service, `fullPending` that FULL has been set in this clock (R382). -/
structure State where
  agenda : List Instr := []
  issue : Option Issue := none
  free : Nat := 0
  next : Nat := 1
  cores : AMap Core := []
  runs : AMap Run := []
  parts : AMap Part := []
  hregs : AMap Word := []
  mem : Memory := []
  lmeta : AMap LineMeta := []
  rmap : AMap Word := []
  softErrors : Nat := 0
  errorLog : List Nat := []
  tlb : AMap TlbEnt := []
  walks : AMap (List Nat) := []
  cached : AMap (List SecCopy) := []
  keys : AMap KeySlot := []
  bins : AMap (List SpawnBin) := []
  net : List OutReq := []
  inbox : List InPacket := []
  host : List HostReq := []
  gander : AMap Gander := []
  applied : AMap (BitVec 32) := []
  steps : List (Nat × Nat) := []
  stepPlan : List (Nat × Nat) := []
  shades : List ShadowWrite := []
  fmmu : AMap Word := []
  links : AMap Link := []
  dies : AMap Die := []
  cxl : List Nat := []
  ideKeys : AMap Nat := []
  hostUp : Bool := false
  full : Bool := false
  fullPending : Bool := false
  irqs : List Irq := []
  answers : List Answer := []
  replies : List Reply := []
deriving DecidableEq, Repr

/-- The device at power-on (R381): every register at the reset value of its table, every core's carve count 4 (R107),
memory with nothing listed, nothing live, nothing verified or trained. -/
def State.reset : State := {}

/-- The lane's key of an `l` register; of a `v` or `o` register by its code. -/
def lkey (lane n : Nat) : Nat := lane * 2 + n
def rkey (lane code : Nat) : Nat := lane * 1024 + code

end Sys2Proof.Machine
end

