-- ==== Sys2Proof/Machine/Ops.lean ====
section
/-! DEFINITION. Named operations over the state: its parts, the management registers, the end of threads, groups and
teams, barriers and the rejoin test, taking a precise exception (R352-R356) and returning from one (R326, R355, R362). -/

namespace Sys2Proof.Machine

/-! ### Parts of the state -/

/-- Change the value at a key that is listed. -/
def AMap.upd {α : Type} (m : AMap α) (k : Nat) (f : α → α) : AMap α :=
  m.map fun x => if x.1 = k then (x.1, f x.2) else x

def State.core (s : State) (c : Nat) : Core := AMap.get s.cores c {}
def State.setCore (s : State) (c : Nat) (k : Core) : State := { s with cores := AMap.put s.cores c k }
def State.modCore (s : State) (c : Nat) (f : Core → Core) : State := s.setCore c (f (s.core c))

def State.group? (s : State) (c slot : Nat) : Option Group := AMap.find? (s.core c).groups slot
def State.setGroup (s : State) (c slot : Nat) (g : Group) : State :=
  s.modCore c fun k => { k with groups := AMap.put k.groups slot g }
def State.modGroup (s : State) (c slot : Nat) (f : Group → Group) : State :=
  match s.group? c slot with
  | none => s
  | some g => s.setGroup c slot (f g)

def State.run (s : State) (r : Nat) : Run := AMap.get s.runs r {}
def State.setRun (s : State) (r : Nat) (x : Run) : State := { s with runs := AMap.put s.runs r x }
def State.modRun (s : State) (r : Nat) (f : Run → Run) : State := s.setRun r (f (s.run r))

def State.part (s : State) (p : Nat) : Part := AMap.get s.parts p {}
def State.setPart (s : State) (p : Nat) (x : Part) : State := { s with parts := AMap.put s.parts p x }
def State.modPart (s : State) (p : Nat) (f : Part → Part) : State := s.setPart p (f (s.part p))

/-- The request of a number in a core. -/
def Core.req? (k : Core) (id : Nat) : Option Req := k.reqs.find? fun r => r.id == id
def State.modReq (s : State) (c id : Nat) (f : Req → Req) : State :=
  s.modCore c fun k => { k with reqs := k.reqs.map fun r => if r.id = id then f r else r }

/-- A fresh number for a request, a run or a group. -/
def State.bump (s : State) : State := { s with next := s.next + 1 }

/-- Spend one unspecified value. -/
def State.spend (s : State) : State := { s with free := s.free + 1 }

/-! ### Management registers -/

/-- Reset values of the partition's registers; 0 where not named (Tables 3.6 to 17.4). -/
def partReset (off : Nat) : Word :=
  if off = 0x2300 then 0x8000003E8
  else if off = 0x2500 then 2048
  else if off = 0x2800 then 1800
  else 0

/-- Reset values of the hypervisor's registers (Tables 5.4, 6.3, 16.6, 17.1, 17.5). -/
def hyperReset (off : Nat) : Word :=
  if 0x400 ≤ off ∧ off < 0x480 then 0xFFFF
  else if 0x480 ≤ off ∧ off < 0x500 then 0xFF
  else if 0x500 ≤ off ∧ off < 0x580 then 300
  else if off = 0x700 then 0xFFFAC688
  else if off = 0x708 then 0x10000
  else 0

def State.preg (s : State) (p off : Nat) : Word := AMap.get (s.part p).regs off (partReset off)
def State.setPreg (s : State) (p off : Nat) (v : Word) : State :=
  s.modPart p fun x => { x with regs := AMap.put x.regs off v }
def State.hreg (s : State) (off : Nat) : Word := AMap.get s.hregs off (hyperReset off)
def State.setHreg (s : State) (off : Nat) (v : Word) : State := { s with hregs := AMap.put s.hregs off v }

/-! ### Places -/

def clusterOf (c : Nat) : Nat := c / Config.coresPerCluster
def coreIn (c : Nat) : Nat := c % Config.coresPerCluster
def dieOf (c : Nat) : Nat := clusterOf c / 6

/-- Lowest and highest cluster of a partition (Table 17.1). -/
def State.base (s : State) (p : Nat) : Nat := bits (s.hreg (0x300 + 8 * p)) 5 0
def State.limit (s : State) (p : Nat) : Nat := bits (s.hreg (0x300 + 8 * p)) 11 6
def State.enabled (s : State) (p : Nat) : Bool := (s.hreg (0x300 + 8 * p)).getLsbD 63

/-- Whether a partition's function takes requests: it is enabled (R370), and its interface is not in ERROR (R377). -/
def State.serves (s : State) (p : Nat) : Bool := s.enabled p && (s.part p).tdi != .error

/-- A request is answered. -/
def State.answer (s : State) (a : Answer) : State := { s with answers := s.answers ++ [a] }

/-- A command that partition `p`'s own function writes; while the function does not serve, it is refused (R370, R377). -/
def State.asFunction (s : State) (p : Nat) (f : State → State) : Host.Outcome State Fault Refusal :=
  .next (if decide (p < 16) && s.serves p then f s else s.answer .unsupportedRequest)

def State.inPart (s : State) (p c : Nat) : Bool :=
  s.enabled p && decide (s.base p ≤ clusterOf c) && decide (clusterOf c ≤ s.limit p)

/-- Cores of a partition, ascending. -/
def State.partCores (s : State) (p : Nat) : List Nat :=
  if s.enabled p then
    (List.range ((s.limit p + 1 - s.base p) * Config.coresPerCluster)).map (· + s.base p * Config.coresPerCluster)
  else []

/-- The clock of a partition, by which arrivals and ages are told (R281). -/
def State.now (s : State) (p : Nat) : Nat := (s.part p).clock.toNat

/-- The core that runs the partition's Bellwether (R293). -/
def State.bellwether (s : State) (p : Nat) : Nat := s.base p * Config.coresPerCluster

/-- Groups of a team run, as (core, slot). -/
def State.groupsOf (s : State) (r : Nat) : List (Nat × Nat) :=
  (s.run r).cores.flatMap fun c =>
    (s.core c).groups.filterMap fun x => if x.2.run = r then some (c, x.1) else none

/-- Resident groups of a partition, as (core, slot). -/
def State.residents (s : State) (p : Nat) : List (Nat × Nat) :=
  s.cores.flatMap fun x => x.2.groups.filterMap fun y => if y.2.part = p then some (x.1, y.1) else none

/-! ### Identity and fault records -/

def Group.live (g : Group) : List Nat := (g.thr.filter fun x => x.2.st != .exited).map (·.1)
def Group.thread (g : Group) (l : Nat) : Thread := AMap.get g.thr l { st := .exited }
def Group.handler (g : Group) : Bool := g.mode != .normal

def State.identOf (s : State) (c slot : Nat) : Ident :=
  match s.group? c slot with
  | none => {}
  | some g =>
    let r := s.run g.run
    { part := g.part, asid := g.asid, run := g.run, gid := g.gid, task := r.task, team := r.team, group := g.num,
      core := c, slot := slot, disp := r.disp }

/-- Whether the group that made a request still runs. -/
def State.alive (s : State) (i : Ident) : Bool :=
  match s.group? i.core i.slot with
  | none => false
  | some g => g.gid == i.gid

/-- Whether the group that made a request still runs, or lies in a save. -/
def State.lives (s : State) (i : Ident) : Bool :=
  s.alive i || (match (s.core i.core).save with
    | none => false
    | some x => x.groups.any fun g => g.2.gid == i.gid)

/-- Change a group on its core, or in the save that holds it. -/
def State.modLiving (s : State) (i : Ident) (f : Group → Group) : State :=
  if s.alive i then s.modGroup i.core i.slot f
  else s.modCore i.core fun k =>
    { k with save := k.save.map fun x =>
        { x with groups := x.groups.map fun g => if g.2.gid = i.gid then (g.1, f g.2) else g } }

/-! ### Records of faults (R358) -/

def isLarge (va : Nat) : Bool := nbit va 54
/-- Whether two addresses lie in one page, of 2 MiB in the large-page part (R58). -/
def samePage (a b : Nat) : Bool := if isLarge a then a / 2 ^ 21 == b / 2 ^ 21 else a / 2 ^ 16 == b / 2 ^ 16

/-- Whether a sequence number comes after another, modulo 2^16 (R86). -/
def seqAfter (a b : BitVec 16) : Bool := decide (1 ≤ (a - b).toNat) && decide ((a - b).toNat < 2 ^ 15)

/-- Whether a waiting record is of the same group and page as another, and of a later instruction. -/
def FaultRec.behind (x r : FaultRec) : Bool :=
  r.org.idn.gid != 0 && x.org.idn.gid == r.org.idn.gid && x.easid == r.easid && samePage x.va r.va && seqAfter x.org.seq r.org.seq

/-- A record waits at its source until the queue has room, the records of one group about one page in SEQ order. -/
def State.record (s : State) (p : Nat) (r : FaultRec) : State :=
  s.modPart p fun x =>
    { x with records := x.records.takeWhile (fun y => !y.behind r) ++ [r] ++ x.records.dropWhile fun y => !y.behind r }


/-! ### Barriers (R318) and the rejoin test (R284) -/

/-- A group's share of a barrier, or of a handler barrier. -/
def Group.barOf (g : Group) (handler : Bool) (b : Nat) : GroupBar := AMap.get (if handler then g.hbars else g.bars) b {}
def Group.setBarOf (g : Group) (handler : Bool) (b : Nat) (x : GroupBar) : Group :=
  if handler then { g with hbars := AMap.put g.hbars b x } else { g with bars := AMap.put g.bars b x }

/-- The one that the group's words act on. -/
def Group.bar (g : Group) (b : Nat) : GroupBar := g.barOf g.handler b
def Group.setBar (g : Group) (b : Nat) (x : GroupBar) : Group := g.setBarOf g.handler b x

/-- The team's barrier that a group acts on: a handler barrier in handler mode (R355). -/
def Run.bar (r : Run) (handler : Bool) (b : Nat) : Barrier := AMap.get (if handler then r.hbars else r.bars) b {}
def Run.setBar (r : Run) (handler : Bool) (b : Nat) (x : Barrier) : Run :=
  if handler then { r with hbars := AMap.put r.hbars b x } else { r with bars := AMap.put r.bars b x }

def Barrier.complete (x : Barrier) : Barrier := { x with bc := x.bc + 1, arr := 0, exp := none }

/-- Threads of a group that sleep on a barrier wake in one clock when BC and GS differ. -/
def Group.wakeBar (g : Group) (b : Nat) (bc : BitVec 16) (now : Nat) : Group :=
  let x := g.bar b
  if x.gs != bc && g.thr.any (fun t => t.2.st == .bar b) then
    { (g.setBar b { x with gs := x.gs + 1 }) with
      thr := g.thr.map fun t => if t.2.st = .bar b then (t.1, { t.2 with st := .ready, arr := now }) else t }
  else g

/-- An acquire drops every clean L1 line that is not sealed; dirty bytes stay (R113). -/
def Core.dropClean (k : Core) : Core :=
  { k with
    l1 := (k.l1.filter fun x => x.2.sealed || x.2.dirty != 0).map fun x =>
      if x.2.sealed then x else (x.1, { x.2 with full := false }) }

/-- Wake the waiters of one barrier; a waking thread of a paired team acquires past its L1 (R319). -/
def State.wakeBarrier (s : State) (r : Nat) (handler : Bool) (b : Nat) : State :=
  (s.groupsOf r).foldl (fun s x =>
    match s.group? x.1 x.2 with
    | none => s
    | some g =>
      if g.handler = handler then
        let g' := g.wakeBar b ((s.run r).bar handler b).bc (s.now g.part)
        if g' = g then s
        else
          let s := s.setGroup x.1 x.2 g'
          if (s.run r).paired then s.modCore x.1 Core.dropClean else s
      else s) s

/-- One arrival of a group (R318). `live` is the number of the team's groups that have not ended. -/
def Barrier.arrive (x : Barrier) (c live : Nat) : Barrier :=
  let x := if x.exp.isNone then { x with exp := some (if c = 0 then live else c), z := c == 0 } else x
  let x := { x with arr := x.arr + 1 }
  if some x.arr = x.exp then x.complete else x

/-- Count a group's arrival at a barrier, or at a handler barrier, when each of its live threads is marked. -/
def State.tryArrive (s : State) (c slot : Nat) (handler : Bool) (b : Nat) : State :=
  match s.group? c slot with
  | none => s
  | some g =>
    let x := g.barOf handler b
    if x.marks != 0 && g.live.all (fun l => x.marks.getLsbD l) then
      let r := s.run g.run
      let s := s.setGroup c slot (g.setBarOf handler b { x with marks := 0 })
      let s := s.setRun g.run (r.setBar handler b ((r.bar handler b).arrive x.count (r.ngroups - r.ended)))
      s.wakeBarrier g.run handler b
    else s

/-- Release the threads that sleep at a `REJOIN` and are no longer awaited, or whose set is complete (R284, R312).
A sleeping thread's `pc` is the header after its `REJOIN`, so threads of one `REJOIN` share it. -/
def Group.rejoinTest (g : Group) (now : Nat) : Group :=
  let awaited := g.live.filter fun l => g.rejoinm.getLsbD l
  let done (pc : Word) : Bool := awaited.all fun l => (g.thread l).st == .rejoin && (g.thread l).pc == pc
  { g with
    thr := g.thr.map fun (t : Nat × Thread) =>
      if t.2.st = .rejoin ∧ (g.rejoinm.getLsbD t.1 = false ∨ done t.2.pc) then
        (t.1, { t.2 with st := .ready, arr := now })
      else t }

/-! ### The end of threads, groups and teams (R292, R313) -/

/-- The partition that a core belongs to. -/
def State.partOf (s : State) (c : Nat) : Option Nat := (List.range 16).find? fun p => s.inPart p c

/-- The clock of a core's partition. -/
def State.coreNow (s : State) (c : Nat) : Nat := s.now ((s.partOf c).getD 0)

/-- Take lanes of a group out of every gang of its core. -/
def Core.leaveGang (k : Core) (slot : Nat) (m : Mask) : Core :=
  { k with
    table := k.table.map fun e =>
      match e.2.gang with
      | none => e
      | some ga =>
        let ms := (ga.members.map fun x => if x.1 = slot then (x.1, x.2 &&& ~~~m) else x).filter fun x => x.2 != 0
        (e.1, { e.2 with gang := if ms = [] then none else some { ga with members := ms } }) }

/-- A barrier whose expected count came from c = 0 lowers it when a group of the team ends. -/
def Barrier.lower (x : Barrier) : Barrier :=
  match x.exp with
  | none => x
  | some e =>
    if x.z then
      let x := { x with exp := some (e - 1) }
      if some x.arr = x.exp then x.complete else x
    else x

/-- The scalar values of an ended group may turn up in later groups of its task, or of the dispatch team (R32). -/
def State.keepWritten (s : State) (g : Group) : State :=
  let r := s.run g.run
  s.modPart g.part fun p =>
    if r.disp then { p with dispHist := (p.dispHist ++ g.written).eraseDups }
    else { p with slots := AMap.upd p.slots r.task fun t => { t with hist := (t.hist ++ g.written).eraseDups } }

/-- A group ends: its slot is freed, and its registers with it. -/
def State.endGroup (s : State) (c slot : Nat) : State :=
  match s.group? c slot with
  | none => s
  | some g =>
    let s := (s.keepWritten g).modCore c fun k =>
      let k := k.leaveGang slot (BitVec.allOnes 64)
      { k with groups := AMap.del k.groups slot }
    let low (m : AMap Barrier) := m.map fun x => (x.1, x.2.lower)
    let s := s.modRun g.run fun r => { r with ended := r.ended + 1, bars := low r.bars, hbars := low r.hbars }
    (List.range 16).foldl (fun s b => (s.wakeBarrier g.run false b).wakeBarrier g.run true b) s

/-- End every group of a run (`HRET.kill`, NOHANDLER, DOUBLE): it records no completion (R326). -/
def State.killTeam (s : State) (r : Nat) : State :=
  let s := (s.groupsOf r).foldl (fun s x => s.endGroup x.1 x.2) s
  s.modRun r fun x => { x with killed := true, halt := none }

/-- Lanes of a group exit; the exit re-tests every rejoin and arrival, of the handler and of the normal code, and ends the
group with its last thread. -/
def State.exitLanes (s : State) (c slot : Nat) (m : Mask) : State :=
  match s.group? c slot with
  | none => s
  | some g =>
    let g := { g with
      thr := g.thr.map fun (t : Nat × Thread) => if m.getLsbD t.1 then (t.1, { t.2 with st := .exited }) else t }
    let s := (s.setGroup c slot (g.rejoinTest (s.now g.part))).modCore c fun k => k.leaveGang slot m
    if g.live = [] then s.endGroup c slot
    else (List.range 16).foldl (fun s b => (s.tryArrive c slot false b).tryArrive c slot true b) s

/-! ### Taking a precise exception -/

/-- Why a word traps: cause (Table 16.1), lowest failing lane, code of `TRAP`, `BRK` or `SYSC`, whether the fetch of the
next header failed, and the register that was consumed with poison, with the mask of its poisoned halves. -/
structure TrapInfo where
  cause : Nat
  lane : Nat := 0
  code : Nat := 0
  fetch : Bool := false
  reg : Option (Nat × Nat) := none
deriving DecidableEq, Repr

def TrapInfo.word (t : TrapInfo) : Word :=
  BitVec.ofNat 64 (t.cause * 2 ^ 56 + (if t.fetch then 2 ^ 54 else 0) + t.lane % 64 * 2 ^ 48 + t.code % 65536 * 2 ^ 32)

/-- Resume point of a group: the PC of its lowest-numbered thread that has not exited (R353). -/
def Group.resumePc (g : Group) : Word :=
  match g.live with
  | [] => 0
  | l :: _ => (g.thread l).pc

/-- A sibling stops at a word boundary (R353). -/
def State.stopSibling (s : State) (c slot : Nat) : State :=
  match s.group? c slot with
  | none => s
  | some g =>
    match g.halt with
    | .skid n =>
      let r := s.run g.run
      let tg := match r.halt with
        | none => 0
        | some h => match s.group? h.core h.slot with
          | none => 0
          | some t => t.num
      (s.setGroup c slot
        { g with halt := .stopped, faultpc := if g.mode = .normal then g.resumePc else g.faultpc, skid := BitVec.ofNat 32 (tg * 2 ^ 28 + 2 ^ 8 + n) }).modCore c
        fun k => k.leaveGang slot (BitVec.allOnes 64)
    | _ => s

/-- The halt reaches a group: it runs on into its skid, but stops at once when none of its threads can issue. -/
def State.reachHalt (s : State) (c slot : Nat) : State :=
  match s.group? c slot with
  | none => s
  | some g =>
    if g.halt = .running then
      let s := s.setGroup c slot { g with halt := .skid 0 }
      if g.thr.any fun t => t.2.st == .ready then s else s.stopSibling c slot
    else s

/-- Origin of a record about the word at `pc`. -/
def State.originOf (s : State) (c slot : Nat) (pc : Word) (lane : Nat) : Origin :=
  { idn := s.identOf c slot, pc := pc, seq := match s.group? c slot with | none => 0 | some g => g.seq, lane := lane }

/-- A group traps at the word at `pc` with `info` (R352, R353). In normal code and in PREST the team halts and the
group waits for its handler; in a trap handler the team ends with a DOUBLE record (R356); in PSAVE, with pre-emption in
effect, the forced save starts (R363); and in the skid of another group's halt the word simply does not issue. The threads in `lanes` stood at
the word; `next` says that they resume behind it (R325). -/
def State.takeTrap (s : State) (c slot : Nat) (info : Word) (pc : Word) (lanes : Mask) (next : Bool) : State :=
  match s.group? c slot with
  | none => s
  | some g =>
    match g.halt with
    | .skid _ => s.stopSibling c slot
    | _ =>
      match g.mode, (s.part g.part).inEffect with
      | .trap, _ =>
        let o := s.originOf c slot pc (bits info 53 48)
        let s := s.record g.part { org := o, cause := 0x31, easid := g.asid, detail := bits info 63 56 }
        s.killTeam g.run
      | .psave, true | .psaveDone, true =>
        ((s.modCore c fun k => { k.leaveGang slot (BitVec.allOnes 64) with forcing := true }).modGroup c slot
          fun g => { g with halt := .stopped })
      | _, _ =>
        let g := { g with
          faultpc := pc, faultinfo := info, skid := BitVec.ofNat 32 (g.num * 2 ^ 28), halt := .stopped,
          atFault := lanes, resumeNext := next,
          thr := if next then
              g.thr.map fun t => if lanes.getLsbD t.1 then (t.1, { t.2 with pc := pc + 8, hdr := none, arr := s.now g.part }) else t
            else g.thr }
        let s := (s.setGroup c slot g).modCore c fun k => k.leaveGang slot (BitVec.allOnes 64)
        let s := s.modRun g.run fun r => { r with halt := some { core := c, slot := slot } }
        (s.groupsOf g.run).foldl (fun s x => if x = (c, slot) then s else s.reachHalt x.1 x.2) s

/-- Keys of `TrapInfo.reg` from here on name accumulator elements, by `row * 64 + column`. -/
def accKeyBase : Nat := 2 ^ 20

/-- The key of an entry of a lane's return stack. -/
def stackKey (lane entry : Nat) : Nat := lane * 1024 + 784 + entry

/-- The register code and the lane of a register by its key (Table 16.3); a scalar has no lane, and an entry of the return
stack no code: it is given as code 1023. -/
def keyDetail (key : Nat) : Nat :=
  if 65536 ≤ key then 832 + key % 64
  else (if 784 ≤ key % 1024 then 1023 else key % 1024) + key / 1024 % 64 * 2 ^ 16

/-- Mark poisoned halves or an accumulator element as consumed; the first consumption of a half writes a second record
(R194, R360). Bits [3:0] of a register's entry name its poisoned halves, bits [7:4] those that have been consumed. -/
def State.consume (s : State) (c slot : Nat) (pc : Word) (t : TrapInfo) : State :=
  match t.reg, s.group? c slot with
  | some (key, halves), some g =>
    let rec_ (detail : Nat) (s : State) : State :=
      s.record g.part { org := s.originOf c slot pc t.lane, cause := 0x2A, consumed := true, easid := g.asid, detail := detail }
    if accKeyBase ≤ key then
      let e := key - accKeyBase
      if AMap.find? (s.core c).accPoison e = some false then
        rec_ (2 ^ 31 + e / 64) (s.modCore c fun k => { k with accPoison := AMap.put k.accPoison e true })
      else s
    else if key < 65536 ∧ 784 ≤ key % 1024 then
      let i := key % 1024 - 784
      if (g.thread (key / 1024)).rbad.getD i 0 = 1 then
        rec_ (keyDetail key) (s.setGroup c slot { g with
          thr := AMap.upd g.thr (key / 1024) fun t => { t with rbad := t.rbad.set i 2 } })
      else s
    else
      let v := AMap.get g.poison key 0
      let fresh := halves % 16 &&& (15 - v / 16 % 16)
      if fresh ≠ 0 then rec_ (keyDetail key) (s.setGroup c slot { g with poison := AMap.put g.poison key (v + 16 * fresh) })
      else s
  | _, _ => s

/-- Taking a precise exception. -/
def State.raisePrecise (s : State) (c slot : Nat) (t : TrapInfo) (pc : Word) (lanes : Mask) (next : Bool) : State :=
  let skid := match s.group? c slot with
    | none => false
    | some g => match g.halt with
      | .skid _ => true
      | _ => false
  (if skid then s else s.consume c slot pc t).takeTrap c slot t.word pc lanes next

/-! ### Handlers (R354, R355, R362) -/

def shadowCode (key : Nat) : Bool := decide (768 ≤ key % 1024)

/-- Keep the shadow set aside and start every live thread at the handler as one class. -/
def Group.enterHandler (g : Group) (m : Mode) (vec : Word) (now : Nat) : Group :=
  let sh : Shadow :=
    { mode := g.mode, hflags := g.hflags, vo := g.vo.filter fun x => shadowCode x.1, l := g.l, preds := g.preds,
      sc := g.sc.filter fun x => decide (56 ≤ x.1),
      poison := g.poison.filter fun x => if x.1 < 65536 then shadowCode x.1 else decide (65592 ≤ x.1), thr := g.thr,
      spawned := g.spawned }
  { g with
    shadow := sh :: g.shadow, mode := m, hflags := [], hbars := [], halt := .running, spawned := 0,
    thr := g.thr.map fun t =>
      if t.2.st = .exited then t else (t.1, { t.2 with pc := vec, hdr := none, st := .ready, arr := now }) }

/-- Put the shadow set back (R355). A thread that exited in the handler stays exited. -/
def Group.leaveHandler (g : Group) : Group :=
  match g.shadow with
  | [] => { g with mode := .normal }
  | sh :: rest =>
    let main (x : Nat × Reg32) : Bool := !shadowCode x.1
    { g with
      shadow := rest, mode := sh.mode, hflags := sh.hflags, l := sh.l, preds := sh.preds, spawned := sh.spawned,
      vo := sh.vo.foldl (fun m x => AMap.put m x.1 x.2) (g.vo.filter main),
      sc := sh.sc.foldl (fun m x => AMap.put m x.1 x.2) (g.sc.filter fun x => decide (x.1 < 56)),
      poison := sh.poison.foldl (fun m x => AMap.put m x.1 x.2)
        (g.poison.filter fun x => if x.1 < 65536 then !shadowCode x.1 else decide (x.1 < 65592)),
      thr := g.thr.map fun t =>
        if t.2.st = .exited then t
        else
          let o := AMap.get sh.thr t.1 t.2
          (t.1, { t.2 with pc := o.pc, hdr := o.hdr, len := o.len, st := o.st, arr := o.arr, cw := o.cw }) }

/-- Requests withdrawn from the code that a group is back in are issued again (R355). -/
def State.reissue (s : State) (c slot : Nat) : State :=
  match s.group? c slot with
  | none => s
  | some g =>
    let d := if g.handler then g.shadow.length else 0
    s.modCore c fun k =>
      { k with
        reqs := k.reqs.map fun r =>
          if r.idn.gid = g.gid ∧ r.hdepth = d then
            { r with
              started := if r.kind = .gfence then false else r.started,
              accs := if r.kind = .gfence then []
                else r.accs.map fun a => if a.st = .withdrawn then { a with st := .waiting } else a }
          else r }

/-- The threads that stood at the faulting word resume at `FAULTPC` (R326): in the clause they stood in while that
address lies in it, else at a header, where they arrive anew (R281). At another word than that one, none of them has taken effect. -/
def Group.resumeFault (g : Group) (now : Nat) : Group :=
  let past := maskOf fun l => g.atFault.getLsbD l && (g.resumeNext || (g.thread l).pc != g.faultpc)
  let g := { g with spawned := g.spawned &&& ~~~past }
  if g.resumeNext then g
  else
    { g with
      thr := g.thr.map fun t =>
        if g.atFault.getLsbD t.1 ∧ t.2.st ≠ .exited then
          let inside := match t.2.hdr with
            | none => false
            | some h => decide (h < g.faultpc) && decide (g.faultpc.toNat ≤ h.toNat + 8 * t.2.len)
          (t.1, { t.2 with pc := g.faultpc, hdr := if inside then t.2.hdr else none,
                           arr := if t.2.pc = g.faultpc then t.2.arr else now })
        else t }

/-- The conditions that sleeping threads wait for are tested again on resuming (R353). -/
def State.retest (s : State) (c slot : Nat) : State :=
  match s.group? c slot with
  | none => s
  | some g =>
    let s := s.setGroup c slot (g.rejoinTest (s.now g.part))
    (List.range 16).foldl (fun s b => s.wakeBarrier g.run g.handler b) s

/-- In a pre-emption mode `FAULTINFO` reads PREEMPT, and `FAULTPC` the group's resume point (R362). -/
def Group.preempted (g : Group) : Group := { g with faultpc := g.prepc, faultinfo := 0x3000000000000000 }

/-- A stopped group enters the pre-emption handler, or is done at once where there is none (Table 16.4); it then has no
shadow set, and goes on in normal code when it is restored. -/
def State.enterPsave (s : State) (c slot : Nat) : State :=
  match s.group? c slot with
  | none => s
  | some g =>
    let v := s.preg g.part 0x2708
    let g := { g with prepc := g.resumePc }.preempted
    if v.getLsbD 63 then
      (s.setGroup c slot (g.enterHandler .psave (v &&& 0x00FFFFFFFFFFFFF8) (s.now g.part))).modRun g.run
        fun r => { r with hbars := [] }
    else s.setGroup c slot { g with mode := .psaveDone, halt := .stopped }

/-- Returning from a trap handler (R326): the shadow set is put back, withdrawn requests are issued again, and every
group of the team resumes, or, while pre-emption is in effect, stays stopped and goes on to PSAVE (Table 16.4). -/
def State.returnTrap (s : State) (c slot : Nat) : State :=
  match s.group? c slot with
  | none => s
  | some g =>
    let g' := g.leaveHandler.resumeFault (s.now g.part)
    let g' := if g'.mode = .psave ∨ g'.mode = .prest then g'.preempted else g'
    let s := s.setGroup c slot g'
    let pre := (s.part g.part).inEffect
    let s := if pre && g'.mode == .normal then s else s.reissue c slot
    let s := s.modCore c fun k => k.leaveGang slot (BitVec.allOnes 64)
    let s := s.modRun g.run fun r => { r with halt := none }
    (s.groupsOf g.run).foldl (fun s x =>
      match s.group? x.1 x.2 with
      | none => s
      | some h =>
        if pre && h.mode == .normal then s.setGroup x.1 x.2 { h with halt := .stopped }
        else (s.setGroup x.1 x.2 { h with halt := .running }).retest x.1 x.2) s

end Sys2Proof.Machine
end

