-- ==== Sys2Proof/Machine/Copies.lean ====
section
/-! DEFINITION. The names and places of memory (R56-R63, R74, R106), DRAM with its metadata and keys (R80-R83), the
copies of sectors that shared caches and engines hold, and their recall (R115-R117). -/

namespace Sys2Proof.Machine

/-! ### Tags (R57, R106) -/

def easidOf (asid va : Nat) : Nat := if nbit va 55 then 0 else asid
def isCanonical (va : Nat) : Bool := decide (va < 2 ^ 56)


/-- Tag of a 64 KiB page. -/
def pageTag (part easid va : Nat) : Nat := (part * 4096 + easid) * 2 ^ 40 + va / 2 ^ 16 % 2 ^ 40

/-- Tag of a 64-byte sector. -/
def sectorTag (part easid va : Nat) : Nat := (part * 4096 + easid) * 2 ^ 50 + va / 64 % 2 ^ 50

/-- Partition, effective ASID and address of a sector tag. -/
def tagPart (t : Nat) : Nat := t / 2 ^ 62
def tagEasid (t : Nat) : Nat := t / 2 ^ 50 % 4096
def tagVa (t : Nat) : Nat := t % 2 ^ 50 * 64

/-- The bytes of one access, as they stand in its sector. -/
def byteMask (va size : Nat) : Mask := BitVec.ofNat 64 ((2 ^ size - 1) * 2 ^ (va % 64))
def placeBytes (va size v : Nat) : Sector := BitVec.ofNat 512 (v % 2 ^ (8 * size) * 2 ^ (8 * (va % 64)))

/-! ### Homes (R61-R62, R375) -/

/-- The home of an address: a memory controller, a CXL proxy, or the host proxy. -/
inductive Home where
  | ctrl (n : Nat)
  | cxl (n : Nat)
  | host
deriving DecidableEq, Repr

/-- The hash of R62. -/
def homeHash (part easid va : Nat) : Nat :=
  let x := va / 2 ^ 16 % 2 ^ 40
  let x := if isLarge va then x / 32 * 32 else x
  let z := (x ^^^ (easid * 2 ^ 28) ^^^ (part * 2 ^ 24)) % 2 ^ 40
  (z / 2 ^ 20 ^^^ z % 2 ^ 20) % 48

/-- Whether an address lies in a window given in 2 MiB units: base in [58:24], size in [23:0] (Tables 3.6, 17.4). -/
def inWindow (w : Word) (va : Nat) : Bool :=
  w.getLsbD 63 && decide (bits w 58 24 ≤ va / 2 ^ 21) && decide (va / 2 ^ 21 < bits w 58 24 + bits w 23 0)

def State.hostWindow (s : State) (p va : Nat) : Bool := inWindow (s.preg p 0x2808) va

/-- The CXL window that holds an address; the lowest-numbered wins. -/
def State.cxlWindow (s : State) (p va : Nat) : Option Nat :=
  (List.range 4).find? fun n => inWindow (s.preg p (0x2020 + 8 * n)) va

/-- The home of an address. -/
def State.home (s : State) (p easid va : Nat) : Home :=
  if s.hostWindow p va then .host
  else match s.cxlWindow p va with
    | some n => .cxl n
    | none => .ctrl (homeHash p easid va)

/-! ### Physical memory (R59, R60) -/

/-- Which memory a physical address names: a data frame of controller `c`, or CXL memory behind port `n`. -/
def paHome (pa : Nat) : Option Home :=
  if pa < 2 ^ 41 then
    if pa / 2 ^ 35 < 48 ∧ pa / 2 ^ 16 % 2 ^ 19 < 491520 then some (.ctrl (pa / 2 ^ 35)) else none
  else if 2 ^ 51 ≤ pa ∧ pa < 2 ^ 51 + 2 ^ 44 then some (.cxl (pa / 2 ^ 42 % 4))
  else none

/-- A key slot. -/
def State.slot (s : State) (n : Nat) : KeySlot := AMap.get s.keys n {}

/-! ### Leaves (Table 3.4) and the places they name -/

def leafClass (e : Word) : Nat := bits e 62 61
def leafF (e : Word) : Bool := e.getLsbD 9
def leafKey (e : Word) : Nat := bits e 15 10

/-- The physical address that a leaf of an on-device page gives. -/
def leafPa (e : Word) (va : Nat) : Nat :=
  if isLarge va then bits e 51 21 * 2 ^ 21 + va % 2 ^ 21 else bits e 51 16 * 2 ^ 16 + va % 2 ^ 16

/-- The fabric address that a window leaf gives (R125). -/
def leafIfa (e : Word) (va : Nat) : Word :=
  BitVec.ofNat 64 (bits e 51 40 * 2 ^ 52 +
    (if isLarge va then bits e 39 21 * 2 ^ 21 + va % 2 ^ 21 else bits e 39 16 * 2 ^ 16 + va % 2 ^ 16))

/-- A sector of on-device memory: its name, its place, the key slot it is read and written under, and its class. -/
structure Loc where
  p : Nat
  easid : Nat
  va : Nat
  pa : Nat
  slot : Nat
  cls : Nat
deriving DecidableEq, Repr

def Loc.tag (l : Loc) : Nat := sectorTag l.p l.easid l.va
/-- Whether the sectors of the page keep records (R88). -/
def Loc.graded (l : Loc) : Bool := l.cls == 1 || l.cls == 3

def leafLoc (p easid va : Nat) (e : Word) : Loc :=
  { p := p, easid := easid, va := va / 64 * 64, pa := leafPa e (va / 64 * 64), slot := leafKey e, cls := leafClass e }

/-- The reverse-map entry of an owner (R75). -/
def rmapEntry (p easid va : Nat) : Word :=
  BitVec.ofNat 64 (2 ^ 63 + p % 16 * 2 ^ 59 + easid % 4096 * 2 ^ 47 + va / 2 ^ 16 % 2 ^ 40 * 2 ^ 7)

/-- The tag of the sector at a physical address under its frame's owner, of which `e` is the reverse-map entry. -/
def ownerTag (e : Word) (pa : Nat) : Nat :=
  sectorTag (bits e 62 59) (bits e 58 47) (bits e 46 7 * 2 ^ 16 + pa % 2 ^ 16)

/-! ### DRAM (R80-R83) -/

/-- A sector of unspecified bytes: of a line that was written under an earlier key of the same epoch (R83), of a shadow slot
that a program has written (R142). -/
def State.garbled (s : State) (pa : Nat) : Sector :=
  (List.range 8).foldl (fun d j =>
    d ||| ((Config.freeWord s.free (pa / 64 * 8 + j)).setWidth 512 <<< (64 * j))) 0

/-- A sector as it is read from DRAM under a key slot (R83), with its record and whether its line is poisoned: zeros and an
empty record where the line carries another tag, an unspecified value where the epoch has come round to another key. -/
def State.dramSector (s : State) (pa slot : Nat) : Sector × Rec × Bool :=
  let m := AMap.get s.lmeta (pa / 256) {}
  let k := s.slot slot
  if m.slot ≠ slot ∨ m.epoch ≠ k.epoch then (0, {}, m.poison)
  else
    (if m.key = k.key then BitVec.ofNat 512 (Memory.readN s.mem (pa / 64 * 64) 64) else s.garbled pa,
      AMap.get m.recs (pa / 64 % 4) {}, m.poison)

/-- The tag of a line before it is written under a key slot (R83): a line of another tag is first taken as zeros, one of
an earlier key of the same epoch as what it reads as. -/
def State.retag (s : State) (pa slot : Nat) : State :=
  let m := AMap.get s.lmeta (pa / 256) {}
  let k := s.slot slot
  let base := pa / 256 * 256
  if m.slot ≠ slot ∨ m.epoch ≠ k.epoch then
    { s with
      mem := Memory.writeN s.mem base 256 0,
      lmeta := AMap.put s.lmeta (pa / 256) { slot := slot, epoch := k.epoch, key := k.key } }
  else if m.key ≠ k.key then
    { s with
      mem := (List.range 4).foldl (fun v i => Memory.writeN v (base + 64 * i) 64 (s.garbled (base + 64 * i)).toNat) s.mem,
      lmeta := AMap.put s.lmeta (pa / 256) { m with key := k.key } }
  else s

/-- Write a sector and its record (R80, R88); the record of an ordinary page is zero. A poisoned line stays poisoned until
its tag changes (log entry 99). -/
def State.writeDram (s : State) (l : Loc) (d : Sector) (r : Rec) (poison : Bool) : State :=
  let s := s.retag l.pa l.slot
  let m := AMap.get s.lmeta (l.pa / 256) {}
  { s with
    mem := Memory.writeN s.mem (l.pa / 64 * 64) 64 d.toNat,
    lmeta := AMap.put s.lmeta (l.pa / 256)
      { m with recs := AMap.put m.recs (l.pa / 64 % 4) (if l.graded then r else {}), poison := m.poison || poison } }

/-! ### Copies and their recall (R115-R117) -/

def State.copies (s : State) (t : Nat) : List SecCopy := AMap.get s.cached t []
def State.setCopies (s : State) (t : Nat) (cs : List SecCopy) : State :=
  { s with cached := if cs = [] then AMap.del s.cached t else AMap.put s.cached t cs }

/-- The copy that holds the newest bytes of a sector, if a cache or an engine owns it. -/
def State.ownerCopy (s : State) (t : Nat) : Option SecCopy := (s.copies t).find? fun c => c.st == .m || c.st == .e

/-- An engine that has taken a sector and not yet written it answers no recall (R117). -/
def State.claimed (s : State) (t : Nat) : Bool := (s.copies t).any fun c => c.st == .e && decide (8 ≤ c.holder)

/-- Write every dirty copy of a sector to its memory, leaving shared copies in the shared caches; engines give theirs up. -/
def State.cleanSector (s : State) (t : Nat) : State :=
  match s.ownerCopy t with
  | none => s
  | some c =>
    let s := if c.st = .m then
        s.writeDram { p := tagPart t, easid := tagEasid t, va := tagVa t, pa := c.pa, slot := c.slot, cls := 1 }
          c.data c.record c.poison
      else s
    s.setCopies t ((s.copies t).filterMap fun x =>
      if x.st = .m ∨ x.st = .e then (if x.holder < 8 then some { x with st := .s } else none) else some x)

/-- Recall every copy of a sector: dirty data goes to memory. -/
def State.recall (s : State) (t : Nat) : State := (s.cleanSector t).setCopies t []

/-- Whether a read at a physical address must wait: an engine has taken the sector under the owner's address, and answers no
recall before it has written it (R70, R117). -/
def State.tableBusy (s : State) (pa : Nat) : Bool :=
  let e := AMap.get s.rmap (pa / 2 ^ 16) 0
  e.getLsbD 63 && s.claimed (ownerTag e pa)

/-- Eight bytes at a physical address, read coherently under a key slot (R70): a copy that a cache or an engine holds
under the owner's address is recalled first. A poisoned line is logged (R81, log entry 99). -/
def State.readTable (s : State) (pa slot : Nat) : State × Word :=
  let e := AMap.get s.rmap (pa / 2 ^ 16) 0
  let s := if e.getLsbD 63 && !s.claimed (ownerTag e pa) then s.recall (ownerTag e pa) else s
  let d := s.dramSector pa slot
  (if d.2.2 then { s with errorLog := s.errorLog ++ [pa / 256] } else s,
    BitVec.ofNat 64 (d.1.toNat / 2 ^ (8 * (pa % 64))))

/-- The key slot that a line carries. The tables that the spec names no slot for are read under it (log entry 19). -/
def State.ownSlot (s : State) (pa : Nat) : Nat := (AMap.get s.lmeta (pa / 256) {}).slot

end Sys2Proof.Machine
end

