-- ==== Sys2Proof/Machine/Kinds.lean ====
section
/-! DEFINITION. What requests are (R84, R330, R354): their kinds, how far an access has come, the descriptor of a tile copy (R173),
the sectors that a copy has still to write (R117), and the addresses that an access has still to translate. -/

namespace Sys2Proof.Machine

/-! ### Kinds and states -/

/-- Requests that hold store-buffer entries (R84). -/
def ReqKind.store : ReqKind → Bool
  | .st | .stg | .amend | .ginit | .gadd | .acset | .mstore | .spill => true
  | _ => false

/-- Load-type requests, which a trap and a pre-emption wait for or withdraw (R161, R354). -/
def ReqKind.load : ReqKind → Bool
  | .ld | .atom | .fatom | .ldg | .grd | .gread | .gspread | .probe | .waita | .acwait | .fget | .mload | .fill => true
  | _ => false

/-- Operations of the Dray, the Ox load pipes and the fabric port, and page-range operations: their accesses are the
engine's events, not the thread's, so the group's order does not hold for them (R330, R337). -/
def ReqKind.engine : ReqKind → Bool
  | .tcopy | .fput | .fget | .mload | .seal | .unseal | .harvest | .carve => true
  | _ => false

def Acc.finished (a : Acc) : Bool :=
  match a.st with
  | .done | .dropped | .held => true
  | _ => false

def Acc.pending (a : Acc) : Bool :=
  match a.st with
  | .waiting | .miss | .rejected _ | .aged => true
  | _ => false

/-- An access that goes on: it has neither finished nor lies in the operand log. -/
def Acc.going (a : Acc) : Bool := !a.finished && a.st != .logged && a.st != .withdrawn

/-! ### The descriptor (Table 8.9) -/

/-- A tile copy as its descriptor gives it. -/
structure Tile where
  src : Nat
  dst : Nat
  sstr : Int
  dstr : Nat
  toMem : Bool
  rows : Nat
  rowb : Nat
  silent : Bool
  naddr : Nat
  nval : Word
deriving DecidableEq, Repr

def tileOf (ws : List Word) : Tile :=
  let w (i : Nat) : Word := ws.getD i 0
  { src := (w 0).toNat, dst := (w 1).toNat, sstr := (BitVec.ofNat 32 (bits (w 2) 63 32)).toInt, dstr := bits (w 2) 31 0,
    toMem := (w 3).getLsbD 63, rows := bits (w 3) 43 32 + 1, rowb := bits (w 3) 16 0, silent := (w 4).getLsbD 63,
    naddr := bits (w 4) 31 0, nval := w 5 }

/-- The limits of R173; the scratchpad side's upper half is part of its form. -/
def tileBad (ws : List Word) : Bool :=
  let w (i : Nat) : Word := ws.getD i 0
  let t := tileOf ws
  t.src % 32 != 0 || t.dst % 32 != 0 || t.sstr % 32 != 0 || t.dstr % 32 != 0 || t.rowb % 32 != 0 || decide (t.rowb < 32) ||
    decide (65536 < t.rowb) || decide (t.dstr < t.rowb) || bits (w 3) 62 44 != 0 || bits (w 3) 31 17 != 0 ||
    bits (w 4) 62 32 != 0 || (!t.silent && t.naddr % 8 != 0) ||
    decide (2 ^ 32 ≤ if t.toMem then t.src else t.dst)

def Tile.pieces (t : Tile) : Nat := t.rows * (t.rowb / 32)

/-- Source and destination of the `n`-th piece in the order of the loop of R174. -/
def Tile.from_ (t : Tile) (n : Nat) : Nat :=
  let per := t.rowb / 32
  (((t.src : Int) + (n / per : Nat) * t.sstr + (32 * (n % per) : Nat)) % (2 ^ (if t.toMem then 32 else 64) : Nat)).toNat
def Tile.dest (t : Tile) (n : Nat) : Nat :=
  let per := t.rowb / 32
  (t.dst + n / per * t.dstr + 32 * (n % per)) % 2 ^ (if t.toMem then 64 else 32)

/-- The memory side of a piece. -/
def Tile.mem (t : Tile) (n : Nat) : Nat := if t.toMem then t.dest n else t.from_ n
/-- The scratchpad side. -/
def Tile.pad (t : Tile) (n : Nat) : Nat := if t.toMem then t.from_ n else t.dest n

/-! ### Sectors to write -/

/-- The Dray of a core's cluster as an agent. -/
def drayOf (c : Nat) : Nat := 8 + clusterOf c

/-- Sectors of memory that a copy has still to write. -/
def Tile.sectors (t : Tile) (n : Nat) : List Nat :=
  if t.toMem then ((List.range (t.pieces - n)).map fun i => t.dest (n + i) / 64 * 64).eraseDups else []

/-- Sectors of memory that an `FGET` has still to write, with their ports. -/
def Req.fgetSectors (q : Req) : List Nat :=
  (q.accs.filterMap fun a => if a.space = .glb ∧ a.going = true then some (a.va / 64 * 64) else none).eraseDups

/-- Tags of the sectors of memory that a copy, of the Dray or an `FGET`, goes on to write. -/
def Req.copyTags (q : Req) : List Nat :=
  (match q.kind with
    | .tcopy => if q.accs.any Acc.going then (tileOf q.words).sectors q.n else []
    | .fget => q.fgetSectors
    | _ => []).map fun va => sectorTag q.idn.part (easidOf q.idn.asid va) va

/-! ### Addresses -/

/-- A stretch of memory or scratchpad, cut where a page or a way ends. -/
def blocks (va len unit : Nat) : List Nat :=
  va :: ((List.range ((va % unit + len - 1) / unit)).map fun i => (va / unit + i + 1) * unit)

/-- The address whose translation an access waits for: the source of a copy until its bytes have been read, the piece at which
a row of an `MLOAD` has faulted (R263). -/
def Req.needs (q : Req) (a : Acc) : Nat :=
  if (q.kind = .fput ∨ q.kind = .fget) ∧ a.got = false then a.cmp.toNat
  else if q.kind = .mload ∧ a.got = false ∧ a.data ≠ 0 then a.data.toNat
  else a.va

/-- Whether an access translates an address of memory: of an `FPUT` or `FGET` its source, one being a window at any time. -/
def Req.touchesGlb (q : Req) (a : Acc) : Bool := a.space == .glb || q.kind == .fput || q.kind == .fget

/-- The addresses of memory whose translations an access needs when it is tried. -/
def Req.pagesOf (q : Req) (a : Acc) : List Nat :=
  let glb (sp : Space) (l : List Nat) : List Nat := if sp = .glb then l else []
  (match q.kind with
    | .tcopy =>
      let t := tileOf q.words
      if t.toMem then [t.dest q.n] else if a.got then [] else [t.from_ q.n]
    | .fput => (if a.got then [] else glb q.space [a.cmp.toNat]) ++ [a.va]
    | .fget => (if a.got then [] else [a.cmp.toNat]) ++ glb a.space [a.va]
    | .mload => glb a.space (blocks a.va (max 1 a.size) 65536)
    | _ => glb a.space [a.va]).filter isCanonical

end Sys2Proof.Machine
end

