-- ==== Sys2Proof/Machine/Translate.lean ====
section
/-! DEFINITION. Table walks and translations (R64-R70, R72, R74, R77), permission entries (R71, R72), and the fetch of
instruction words. -/

namespace Sys2Proof.Machine

/-! ### Walks (R64-R67) -/

/-- What a walk finds: no mapping, a malformed entry, the leaf and its place, or a table's sector in an engine's hands, for which
it waits (R70). -/
inductive WalkRes where
  | unmapped
  | bad
  | busy
  | leaf (e : Word) (pa : Nat)
deriving DecidableEq, Repr

/-- A non-leaf entry: the next table, which must be aligned to its size. -/
def nextTable (e : Word) (align : Nat) : Option Nat :=
  let pa := bits e 51 8 * 256
  if bits e 62 52 = 0 ∧ bits e 7 0 = 0 ∧ pa % align = 0 ∧ (paHome pa).isSome then some pa else none

/-- Read one entry, and go on with it where V is set. -/
def State.walkEntry (s : State) (slot table idx : Nat) (k : State → Word → State × WalkRes) : State × WalkRes :=
  let r := s.readTable (table + 8 * idx) slot
  if s.tableBusy (table + 8 * idx) then (s, .busy)
  else if r.2.getLsbD 63 then k r.1 r.2 else (r.1, .unmapped)

/-- The last entry of a walk, whatever it holds. -/
def State.walkLast (s : State) (slot table idx : Nat) : State × WalkRes :=
  let r := s.readTable (table + 8 * idx) slot
  if s.tableBusy (table + 8 * idx) then (s, .busy) else (r.1, .leaf r.2 (table + 8 * idx))

/-- A walk down to the entry of a page's leaf, which is given whatever it holds. With `EN` of `ASTB` clear there is no
descriptor table, and no address is mapped (log entry 100). -/
def State.reach (s : State) (p easid va : Nat) : State × WalkRes :=
  let astb := s.preg p 0x2000
  if !astb.getLsbD 63 then (s, .unmapped)
  else
    let dpa := bits astb 51 16 * 2 ^ 16 + 16 * easid
    let r0 := s.readTable dpa (s.ownSlot dpa)
    let r1 := r0.1.readTable (dpa + 8) (s.ownSlot dpa)
    let busy := s.tableBusy dpa
    let s := r1.1
    let d0 := r0.2
    if busy then (s, .busy)
    else if !d0.getLsbD 63 || bits d0 62 52 != 0 || bits d0 11 6 != 0 || r1.2 != 0 then (s, .unmapped)
    else
      let slot := bits d0 5 0
      let l4 := bits d0 51 12 * 4096
      if (paHome l4).isNone then (s, .bad)
      else
        s.walkEntry slot l4 (va / 2 ^ 47 % 512) fun s e4 =>
          match nextTable e4 65536 with
          | none => (s, .bad)
          | some l3 =>
            s.walkEntry slot l3 (va / 2 ^ 34 % 8192) fun s e3 =>
              match nextTable e3 65536 with
              | none => (s, .bad)
              | some l2 =>
                if isLarge va then s.walkLast slot l2 (va / 2 ^ 21 % 8192)
                else
                  s.walkEntry slot l2 (va / 2 ^ 21 % 8192) fun s e2 =>
                    match nextTable e2 256 with
                    | none => (s, .bad)
                    | some l1 => s.walkLast slot l1 (va / 2 ^ 16 % 32)

/-- The leaf bits that are checked at the fill (Table 3.5). -/
def leafPrecise (e : Word) : Bool := e.getLsbD 8 && !(e.getLsbD 57 && !e.getLsbD 56)

def leafCheck : WalkRes → WalkRes
  | .leaf e pa => if !e.getLsbD 63 then .unmapped else if leafPrecise e then .leaf e pa else .bad
  | r => r

def State.walk (s : State) (p easid va : Nat) : WalkRes := leafCheck (s.reach p easid va).2

/-- A host-window page's permissions as a leaf: R, W, P and LF (R375). -/
def hostLeaf : Word := 0x8310000000000100

/-- What the home knows of a page: its TLB entry, or a walk. -/
def State.leafOf (s : State) (p easid va : Nat) : WalkRes :=
  if s.hostWindow p va then .leaf hostLeaf 0
  else match AMap.find? s.tlb (pageTag p easid va) with
    | some t => .leaf t.leaf 0
    | none => s.walk p easid va

/-- A frame that a leaf may name: valid and not reserved, for a controller's reverse map (R60) or, `domain` saying that
the CXL port lies in the graded domain, for the metadata in the top 1/16 of its memory (R61). -/
def paMappable (domain : Bool) (pa : Nat) : Bool :=
  match paHome pa with
  | none => false
  | some (.cxl n) => !domain || decide (16 * (pa % 2 ^ 42 / 65536 + 1) * 65536 ≤ 15 * Config.cxlBytes n)
  | some _ => decide (64 ≤ pa / 2 ^ 16 % 2 ^ 19)

/-- Whether an address lies in a CXL window, and whether that window's port lies in the graded domain. -/
def State.cxlDomain (s : State) (p va : Nat) : Option Bool :=
  (s.cxlWindow p va).map fun n => (s.preg p (0x2020 + 8 * n)).getLsbD 62

/-- Whether a page is sealed: no write to it performs until it is unsealed (R345). -/
def State.isSealed (s : State) (p easid va : Nat) : Bool :=
  match s.leafOf p easid va with
  | .leaf e _ => e.getLsbD 60
  | _ => false

/-- The first late condition of a request (R72), `windowBad` saying that the instruction may not use such a page. A graded
or gossip leaf in a window outside the graded domain is a malformed leaf of the late kind (R61, log entry 101). -/
def State.lateCause (s : State) (p easid va : Nat) (e : Word) (windowBad : Bool) : Option Nat :=
  if s.hostWindow p va then (if windowBad then some 0x1D else none)
  else
    let pa := leafPa e va
    let domain := s.cxlDomain p va
    let bad := bits e 55 53 != 0 || bits e 7 0 != 0 || (isLarge va && bits e 20 16 != 0) ||
      (leafF e && leafClass e == 2) || (domain == some false && leafClass e != 0)
    if bad then some 0x08
    else if windowBad then some 0x1D
    else if !leafF e && !(s.preg p 0x2040).getLsbD (leafKey e) then some 0x1C
    else if !e.getLsbD 52 then some 0x18
    else if leafF e then none
    else if !paMappable (domain == some true) pa then some 0x19
    else if paHome pa ≠ some (s.home p easid va) then some 0x1A
    else
      let o := AMap.get s.rmap (pa / 2 ^ 16) 0
      if o.getLsbD 63 && o != rmapEntry p easid va then some 0x1B else none

/-- Write eight bytes of a table entry coherently, under the slot of its line. -/
def State.poke64 (s : State) (pa : Nat) (v : Word) : State :=
  let e := AMap.get s.rmap (pa / 2 ^ 16) 0
  let s := if e.getLsbD 63 then s.recall (ownerTag e pa) else s
  { s with mem := Memory.writeN s.mem pa 8 v.toNat }

/-- A dirty bit reaches a page's leaf, mapped or not (R78). -/
def State.setD (s : State) (p easid va : Nat) : State :=
  match s.reach p easid va with
  | (s, .leaf e pa) => s.poke64 pa (e ||| (1#64 <<< 59))
  | (s, _) => s

/-! ### Translations at their homes (R69, R74, R77) -/

def tagOfPage (t : Nat) : Nat × Nat × Nat := (t / 2 ^ 40 / 4096, t / 2 ^ 40 % 4096, t % 2 ^ 40 * 65536)

def State.pageHome (s : State) (t : Nat) : Home :=
  s.home (tagOfPage t).1 (tagOfPage t).2.1 (tagOfPage t).2.2

/-- Make room for a translation in its set of its home's TLB. The entry that goes is one whose page is not dirty; where all
are, its dirty bit reaches the leaf first (log entry 102). -/
def State.tlbRoom (s : State) (t : Nat) : State :=
  if s.tlb.length < Config.tlbWays then s
  else
    let peers := s.tlb.filter fun x => Config.tlbSet x.1 % Config.tlbSets == Config.tlbSet t % Config.tlbSets &&
      s.pageHome x.1 == s.pageHome t
    if peers.length < Config.tlbWays then s
    else
      let clean := peers.filter fun x => !x.2.dirty
      let from_ := if clean = [] then peers else clean
      match from_[Config.freeChoice s.free t % from_.length]? with
      | none => s
      | some v =>
        let y := tagOfPage v.1
        let s := if v.2.dirty then s.setD y.1 y.2.1 y.2.2 else s
        { s with tlb := AMap.del s.tlb v.1 }

/-! ### Walks in their order (R69) -/

def Home.number : Home → Nat
  | .ctrl n => n
  | .cxl n => 48 + n
  | .host => 52

/-- Pages whose walks a home has to make, in order of arrival; it makes the first 32 at once (log entry 15). -/
def State.walkList (s : State) (home : Nat) : List Nat := AMap.get s.walks home []

/-- Whether a page's walk is among those that its home makes now, or would be. -/
def State.walkTurn (s : State) (t : Nat) : Bool :=
  let l := s.walkList (s.pageHome t).number
  if l.contains t then decide (l.idxOf t < Config.walkers) else decide (l.length < Config.walkers)

/-- A page that no translation is there for joins its home's queue, unless it waits there already. -/
def State.queueWalk (s : State) (t : Nat) : State :=
  let h := (s.pageHome t).number
  let l := s.walkList h
  if (AMap.find? s.tlb t).isSome || l.contains t then s else { s with walks := AMap.put s.walks h (l ++ [t]) }

/-- A walk has ended. -/
def State.walked (s : State) (t : Nat) : State :=
  let h := (s.pageHome t).number
  { s with walks := AMap.upd s.walks h fun l => l.filter (· != t) }

/-- Whether a walk waits for an engine that has a table's sector. -/
def State.walkBusy (s : State) (p easid va : Nat) : Bool := (s.reach p easid va).2 == .busy

/-- Whether the translations of some pages, as (EASID, address), are there or can be walked for now; the first that cannot joins
its home's queue. -/
def State.walkPages (p : Nat) : List (Nat × Nat) → State → State × Bool
  | [], s => (s, true)
  | y :: l, s =>
    let t := pageTag p y.1 y.2
    if s.hostWindow p y.2 || (AMap.find? s.tlb t).isSome || (s.walkTurn t && !s.walkBusy p y.1 y.2) then State.walkPages p l s
    else (s.queueWalk t, false)

/-- Install the translation of a page and record its owner (R74, R77); nothing where it could not be used. -/
def State.installTlb (s : State) (p easid va : Nat) : State :=
  let t := pageTag p easid va
  if s.hostWindow p va || (AMap.find? s.tlb t).isSome then s
  else
    let r := s.reach p easid va
    let s := r.1.walked t
    match leafCheck r.2 with
    | .leaf e _ =>
      if s.lateCause p easid va e false = none then
        let s := s.tlbRoom t
        let s := { s with tlb := AMap.put s.tlb t { leaf := e } }
        if leafF e then s
        else { s with rmap := AMap.put s.rmap (leafPa e va / 2 ^ 16) (rmapEntry p easid va) }
      else s
    | _ => s

/-! ### Late faults (R160) -/

/-- A late fault that an access has met (R160): its cause, and what its record carries (R358). `trap` marks a late trap
(R357). -/
structure Late where
  cause : Nat
  detail : Nat := 0
  aux : Word := 0
  owner : Word := 0
  trap : Bool := false
deriving DecidableEq, Repr

/-- What a translation fault's record carries: for SYNONYM the frame and its owner (R74). -/
def State.lateOf (s : State) (p asid va cause : Nat) : Late :=
  let e := easidOf asid va
  if cause = 0x1B then
    match s.leafOf p e va with
    | .leaf w _ =>
      { cause := cause, aux := BitVec.ofNat 64 (leafPa w va / 2 ^ 16 * 2 ^ 16),
        owner := AMap.get s.rmap (leafPa w va / 2 ^ 16) 0 }
    | _ => { cause := cause }
  else { cause := cause }

/-! ### Permission entries (R71, R72) -/

inductive PlbRes where
  | hit (e : PlbEnt)
  | miss
  | bad (cause : Nat)
  | fatal
deriving DecidableEq, Repr

def plbOf (e : Word) : PlbEnt :=
  { r := e.getLsbD 56, w := e.getLsbD 57, x := e.getLsbD 58, cls := leafClass e, sealed := e.getLsbD 60 }

/-- A core's permission for a page: its PLB entry, or the answer to the fill it asked for. -/
def State.plbAt (s : State) (c p easid va : Nat) : PlbRes :=
  let t := pageTag p easid va
  match AMap.find? (s.core c).plb t with
  | some e => .hit e
  | none =>
    match AMap.find? (s.core c).fills t with
    | some (.bad n) => .bad n
    | some .fatal => .fatal
    | _ => .miss

/-- Ask for the fills of pages. -/
def Core.askFills (k : Core) (tags : List Nat) : Core :=
  { k with
    fills := tags.foldl (fun m t => if (AMap.find? m t).isSome then m else AMap.put m t .asked) k.fills }

/-- A filled entry takes the place of another where all are in use; which is not architectural (R71). -/
def Core.fillPlb (k : Core) (t : Nat) (e : PlbEnt) (free : Nat) : Core :=
  let plb := if k.plb.length < Config.plbEntries ∨ (AMap.find? k.plb t).isSome then k.plb
    else k.plb.eraseIdx (Config.freeChoice free t % k.plb.length)
  { k with plb := AMap.put plb t e, fills := AMap.del k.fills t }

/-- Answered fills are consumed by the word that meets their fault. -/
def Core.dropAnswers (k : Core) : Core := { k with fills := k.fills.filter fun x => x.2 == .asked }

/-- The home's answer to a fill. A torn-down address space answers fatal (R368). -/
def State.fillAnswer (s : State) (p easid va : Nat) : FillSt ⊕ PlbEnt :=
  if (s.part p).killing.contains easid then .inl .fatal
  else match s.leafOf p easid va with
    | .busy => .inl .asked
    | .unmapped => .inl (.bad 0x07)
    | .bad => .inl (.bad 0x08)
    | .leaf e _ => .inr (plbOf e)

/-! ### Instruction fetch (R34, R309) -/

inductive FetchRes where
  | ok (w : Word)
  | bad (cause : Nat)
  | miss (tag : Nat)
  | fatal
deriving DecidableEq, Repr

/-- The instruction word at an address whose page the core may execute: read coherently at the home. A fetch never faults
late, so that a poisoned line raises MEM_POISON there (R81, R309). -/
def State.readWord (s : State) (p easid va : Nat) : FetchRes :=
  match s.leafOf p easid va with
  | .busy => .miss (pageTag p easid va)
  | .unmapped => .bad 0x07
  | .bad => .bad 0x08
  | .leaf e _ =>
    if s.hostWindow p va then .bad 0x09
    else if leafF e then .bad 0x1D
    else match s.lateCause p easid va e false with
      | some c => .bad c
      | none =>
        let pa := leafPa e va
        let r := s.readTable pa (leafKey e)
        if s.tableBusy pa then .miss (pageTag p easid va)
        else if (r.1.dramSector pa (leafKey e)).2.2 then .bad 0x29
        else .ok r.2

/-- Fetch the word at a transfer target (R309); a thread of a torn-down address space finds its group ended (R368). -/
def State.fetch (s : State) (c p asid : Nat) (pc : Word) : FetchRes :=
  let va := pc.toNat
  if (s.part p).killing.contains asid then .fatal
  else if va % 8 ≠ 0 then .bad 0x01
  else if !isCanonical va then .bad 0x04
  else
    let e := easidOf asid va
    match s.plbAt c p e va with
    | .fatal => .fatal
    | .bad n => .bad n
    | .miss => .miss (pageTag p e va)
    | .hit h =>
      match s.readWord p e va with
      | .ok w => if h.x then .ok w else .bad 0x09
      | r => r

end Sys2Proof.Machine
end

