-- ==== Sys2Proof/Machine/Coherence.lean ====
section
/-! DEFINITION. The shared caches and the directory (R106, R115, R116, R121), who may be granted a sector (R116, R117), the
operand log's hold on a page (R85), and the L1 with its write-back order (R107-R114). -/

namespace Sys2Proof.Machine

/-! ### The shared caches (R115, R121) -/

/-- The sector as the home gives it: the owner's copy, else any tracked or sealed copy, else DRAM. -/
def State.sector (s : State) (l : Loc) : SecCopy :=
  match s.ownerCopy l.tag with
  | some c => c
  | none =>
    match s.copies l.tag with
    | c :: _ => c
    | [] =>
      let d := s.dramSector l.pa l.slot
      { holder := 0, st := .s, slot := l.slot, pa := l.pa / 64 * 64, data := d.1, record := if l.graded then d.2.1 else {}, poison := d.2.2 }

/-- The bank of a line within the partition's colours, and its set there. -/
def State.bankSet (s : State) (p line : Nat) : Nat × Nat :=
  let c := bits (s.hreg (0x480 + 8 * p)) 7 0
  let colours := (List.range 8).filter fun i => nbit (if c = 0 then 1 else c) i
  let banks := colours.flatMap fun i => (List.range 8).map fun j => 8 * i + j
  (banks.getD (Config.bankHash line % banks.length) 0, Config.cacheSet line % Config.cacheSets)

/-- Lines that a shared cache holds, each with its way. -/
def State.linesOf (s : State) (holder : Nat) : List (Nat × Nat) :=
  (s.cached.flatMap fun x => (x.2.filter fun c => c.holder == holder).map fun c => (x.1 / 4, c.way)).eraseDups

/-- A line leaves a shared cache: dirty sectors go to memory first. -/
def State.evictLine (s : State) (holder line : Nat) : State :=
  (List.range 4).foldl (fun s i =>
    let t := 4 * line + i
    let owned := (s.copies t).any fun c => c.holder == holder && (c.st == .m || c.st == .e)
    let s := if owned then s.cleanSector t else s
    s.setCopies t ((s.copies t).filter fun c => c.holder != holder)) s

/-- The way of a shared cache that a line takes, one that the function may allocate into, at the cost of the line there;
`none` where it may allocate into none (R121). Which line goes is not architectural. -/
def State.cacheRoom (s : State) (holder p t : Nat) : State × Option Nat :=
  let mask := bits (s.hreg (0x400 + 8 * p)) 15 0
  let ways := (List.range Config.cacheWays).filter fun w => nbit mask w
  let lines := s.linesOf holder
  match lines.find? fun x => x.1 == t / 4 with
  | some x => (s, some x.2)
  | none =>
    match ways.find? fun w => !(lines.any fun x => x.2 == w) with
    | some w => (s, some w)
    | none =>
      let here := lines.filter fun x => s.bankSet (tagPart (4 * x.1)) x.1 == s.bankSet p (t / 4)
      match ways.find? fun w => !(here.any fun x => x.2 == w) with
      | some w => (s, some w)
      | none =>
        match ways[Config.freeChoice s.free t % ways.length]? with
        | none => (s, none)
        | some w => ((here.filter fun x => x.2 == w).foldl (fun s x => s.evictLine holder x.1) s, some w)

/-! ### The directory (R116) -/

def lineHome (s : State) (line : Nat) : Home := s.home (tagPart (4 * line)) (tagEasid (4 * line)) (tagVa (4 * line))

/-- Lines that have a directory entry. -/
def State.tracked (s : State) : List Nat :=
  (s.cached.filterMap fun x => if x.2.any fun c => c.st != .sealed then some (x.1 / 4) else none).eraseDups

/-- Make room for a line's entry in its set of its home's directory: another entry is evicted, and with it every copy of its
line. An engine's unwritten sector holds its entry. -/
def State.directoryRoom (s : State) (t : Nat) : State :=
  if s.cached.length < Config.directoryWays then s
  else
    let all := s.tracked
    let set (n : Nat) : Nat := Config.directorySet n % Config.directorySets
    let peers := all.filter fun n => set n == set (t / 4) && lineHome s n == lineHome s (t / 4)
    if all.contains (t / 4) || peers.length < Config.directoryWays then s
    else
      let loose := peers.filter fun n => (List.range 4).all fun i => !s.claimed (4 * n + i)
      match loose[Config.freeChoice s.free t % loose.length]? with
      | none => s
      | some n => (List.range 4).foldl (fun s i => s.recall (4 * n + i)) s

/-! ### Reads and write grants -/

/-- Read a sector into a shared cache: an owner elsewhere is downgraded (R116). A function whose way mask is 0
allocates nothing (R121). -/
def State.readShared (s : State) (holder : Nat) (l : Loc) : State × SecCopy :=
  let c := s.sector l
  if (s.copies l.tag).any fun x => x.holder == holder then (s, c)
  else
    let s := s.cleanSector l.tag
    match s.cacheRoom holder l.p l.tag with
    | (s, none) => (s, c)
    | (s, some w) =>
      let s := s.directoryRoom l.tag
      (s.setCopies l.tag (s.copies l.tag ++ [{ c with holder := holder, way := w, st := .s }]), c)

/-- D is set in the home's translation at a write grant (R77). -/
def State.markDirty (s : State) (l : Loc) : State :=
  { s with tlb := AMap.upd s.tlb (pageTag l.p l.easid l.va) fun t => { t with dirty := true } }

/-- A shared cache, else an engine, becomes a sector's only holder, with its new bytes and record. -/
def State.own (s : State) (holder : Nat) (l : Loc) (d : Sector) (r : Rec) (poison : Bool) : State :=
  let put (s : State) (w : Nat) : State :=
    (s.directoryRoom l.tag).setCopies l.tag
      [{ holder := holder, way := w, slot := l.slot, pa := l.pa / 64 * 64, st := .m, data := d, record := r, poison := poison }]
  if 8 ≤ holder then put s 0
  else
    match s.cacheRoom holder l.p l.tag with
    | (s, none) => (s.setCopies l.tag []).writeDram l d r poison
    | (s, some w) => put s w

/-! ### Gossip regions and their shadows (R141, R142) -/

def State.gsreg (s : State) (p n word : Nat) : Word := s.preg p (0x2400 + 32 * n + 8 * word)
def State.regionOn (s : State) (p n : Nat) : Bool := (s.gsreg p n 0).getLsbD 63
def State.regionBase (s : State) (p n : Nat) : Nat := bits (s.gsreg p n 0) 55 8 * 256
def State.regionLines (s : State) (p n : Nat) : Nat := bits (s.gsreg p n 2) 23 0 + 1
def State.regionExp (s : State) (p n : Nat) : Int := ((s.gsreg p n 0).setWidth 8).toInt
def State.regionShadow (s : State) (p n : Nat) : Nat := bits (s.gsreg p n 1) 55 10 * 1024

/-- Whether an address lies in the shadow of a region; one whose BASE could not be enabled has none (log entry 6). -/
def State.inShadow (s : State) (p easid va : Nat) : Bool :=
  easid == 0 && (List.range 8).any fun n =>
    (s.gsreg p n 0).getLsbD 55 && decide (s.regionShadow p n ≤ va) &&
      decide (va < s.regionShadow p n + 1024 * s.regionLines p n)

/-- Write a sector under a write grant of `holder`: its copy becomes the only one (R93, R116). One of a shadow that
another than a Gander writes leaves its slot of 128 bytes unspecified (R142, log entry 6). -/
def State.writeOwned (s : State) (holder : Nat) (l : Loc) (d : Sector) (r : Rec) (poison : Bool) : State :=
  let s := s.markDirty l
  if holder = 66 ∨ holder = 67 ∨ s.inShadow l.p l.easid l.va = false then
    s.own holder l d (if l.graded then r else {}) poison
  else
    let other := { l with va := l.va ^^^ 64, pa := l.pa ^^^ 64 }
    let t := s.own holder l (s.garbled l.pa) {} poison
    (if t.claimed other.tag then t else t.own holder other (s.garbled other.pa) {} false).spend

/-- An engine takes E on a sector that it will write (R117). -/
def State.claim (s : State) (holder : Nat) (l : Loc) : State :=
  let c := s.sector l
  let s := ((s.recall l.tag).directoryRoom l.tag).markDirty l
  s.setCopies l.tag [{ c with holder := holder, st := .e }]

def mergeSector (old new : Sector) (mask : Mask) : Sector :=
  BitVec.ofNat 512 (mergeBytes 64 old.toNat new.toNat mask.toNat)

/-- An access meets a poisoned line that it does not consume (R81). -/
def State.logError (s : State) (l : Loc) (poison : Bool) : State :=
  if poison then { s with errorLog := s.errorLog ++ [l.pa / 256] } else s

/-- Whether a sector stays poisoned under a write of the masked bytes. -/
def stillPoisoned (poison : Bool) (mask : Mask) : Bool := poison && mask != BitVec.allOnes 64

/-- Merge bytes into a sector under a write grant. -/
def State.mergeOwned (s : State) (holder : Nat) (l : Loc) (mask : Mask) (d : Sector) : State :=
  let c := s.sector l
  (s.logError l c.poison).writeOwned holder l (mergeSector c.data d mask) c.record (stillPoisoned c.poison mask)

/-! ### Grants that must wait (R116, R117, R121) -/

/-- The tag of the sector that an access of a request touches. -/
def accTag (p : Nat) (r : Req) (a : Acc) : Nat := sectorTag p (easidOf r.idn.asid a.va) a.va

def Req.mapAccs (r : Req) (p : Acc → Bool) (f : Acc → Acc) : Req :=
  { r with accs := r.accs.map fun a => if p a then f a else a }

/-- The number under which an engine's copy came to the homes of the sectors that it writes, 0 before it did. -/
def Req.homeNo (r : Req) : Nat := r.accs.foldl (fun n a => if n = 0 then a.home else n) 0

def Req.turn (r : Req) : Nat := if r.homeNo = 0 then r.id else r.homeNo

/-- Whether something that came to the home before `n` waits there for a sector: an access, a copy that has not been able to
take it, a write-back, or a packet. -/
def State.waitsBefore (s : State) (t n : Nat) : Bool :=
  let before (m : Nat) : Bool := m != 0 && decide (m < n)
  (s.cores.any fun k =>
    (k.2.reqs.any fun r =>
      (before r.homeNo && r.copyTags.contains t) || r.accs.any fun a =>
        before a.home && !r.kind.engine && a.pending && a.space == .glb && accTag r.idn.part r a == t) ||
      k.2.l1.any fun x => x.1 == t && before x.2.home) ||
    s.inbox.any fun x => before x.home && x.wants.contains t

/-- Whether a request that came to the home at `n`, 0 for now, cannot be granted a sector at once: an engine has it
unwritten, an earlier request waits for it, or the partition's colours change. -/
def State.noGrant (s : State) (t n : Nat) : Bool :=
  s.claimed t || s.waitsBefore t (if n = 0 then s.next else n) || (s.hreg (0x480 + 8 * tagPart t)).getLsbD 63

/-- An access has come to the home and waits there in its turn. -/
def State.waitHome (s : State) (c id idx : Nat) : State :=
  (s.modReq c id fun r => { r with accs := r.accs.mapIdx fun i a =>
    if i = idx ∧ a.home = 0 then { a with home := s.next } else a }).bump

def Core.l1Sec (k : Core) (t : Nat) : L1Sec := AMap.get k.l1 t {}

/-- A write-back has come to the home and waits there in its turn. -/
def State.waitL1 (s : State) (c t : Nat) : State :=
  if ((s.core c).l1Sec t).dirty = 0 ∨ ((s.core c).l1Sec t).home ≠ 0 then s
  else (s.modCore c fun k => { k with l1 := AMap.upd k.l1 t fun x => { x with home := s.next } }).bump

/-! ### The operand log's hold on a page (R85) -/

/-- The addresses at which a request has faulted: of a matrix load or store that of its resume point alone, since the rows
above it go into the log with it and have met no fault (R263, R269). -/
def Req.faultedAt (r : Req) : List Nat :=
  let l := (r.accs.filter fun b => b.st == .logged && r.touchesGlb b).map r.needs
  if r.kind = .mload ∨ r.kind = .mstore then l.take 1 else l

/-- Whether an earlier request of the group to the same page lies faulted in its operand log. -/
def Core.pageLogged (k : Core) (q : Req) (a : Acc) : Bool :=
  k.reqs.any fun r => r.idn.gid == q.idn.gid && decide (r.id ≤ q.id) &&
    r.faultedAt.any fun va => (q.pagesOf a).any fun v => samePage va v

/-! ### The L1 (R107, R110-R114) -/

/-- Whether an access finds its bytes in the L1, where it may look there. -/
def Core.l1Hit (k : Core) (t va size : Nat) : Bool :=
  (k.l1Sec t).full || byteMask va size &&& ~~~(k.l1Sec t).dirty == 0

/-- Ways of the L1 that take lines: those that stay (R110). -/
def Core.l1Ways (k : Core) : Nat := min k.carve k.target

/-- A weak store's bytes go into the L1 sector, in a way of its line. -/
def Core.l1Store (k : Core) (t way : Nat) (mask : Mask) (d : Sector) : Core :=
  let x := k.l1Sec t
  let fresh := x.dirty == 0
  { k with
    dirtied := if fresh then k.dirtied + 1 else k.dirtied,
    l1 := AMap.put k.l1 t
      { x with
        way := way, data := mergeSector x.data d mask, dirty := x.dirty ||| mask,
        first := if fresh then k.epoch else x.first, last := k.epoch, age := if fresh then k.dirtied else x.age } }

/-- Everything that must leave the L1 no later than a sector whose newest dirty bytes are of epoch `n` (R111): the
sectors with older dirty bytes, and whatever must leave with those. -/
def l1Bound (l1 : AMap L1Sec) : Nat → Nat → Nat
  | 0, n => n
  | f + 1, n =>
    let m := l1.foldl (fun m x => if x.2.dirty ≠ 0 ∧ x.2.first < n then max m x.2.last else m) n
    if m = n then n else l1Bound l1 f m

/-- Dirty sectors of an L1 that a condition names, the oldest first. -/
def Core.dirtySectors (k : Core) (p : Nat → L1Sec → Bool) : List Nat :=
  ((k.l1.filter fun y => y.2.dirty != 0 && p y.1 y.2).mergeSort fun a b => decide (a.2.age ≤ b.2.age)).map (·.1)

/-- The dirty sectors that a write-back of `t` takes along. -/
def Core.l1Before (k : Core) (t : Nat) : List Nat :=
  let n := l1Bound k.l1 k.l1.length (k.l1Sec t).last
  k.dirtySectors fun u x => decide (x.first < n) || u == t

/-- The stores that lie in an L1 sector. -/
def l1Acc (t : Nat) (r : Req) (a : Acc) : Bool := a.st == .l1 && accTag r.idn.part r a == t

/-- A late fault found when an L1 sector is written back: its stores lie in the operand log, and their bytes stay in the L1 for
the replay, which writes them back (R85, R350). `got` marks a store in the log whose bytes lie in the L1. -/
def State.logL1 (s : State) (c : Nat) (t cause : Nat) : State :=
  let rs := (s.core c).reqs.filter fun r => r.accs.any (l1Acc t r)
  let s := s.modCore c fun k =>
    { k with reqs := k.reqs.map fun r => r.mapAccs (l1Acc t r) fun a => { a with st := .logged, got := true } }
  rs.foldl (fun s r =>
    match r.accs.find? (l1Acc t r) with
    | none => s
    | some a =>
      let f := s.lateOf r.idn.part r.idn.asid a.va cause
      s.record r.idn.part
        { org := { idn := r.idn, pc := r.pc, seq := r.seq, lane := a.lane }, cause := cause, va := a.va,
          easid := easidOf r.idn.asid a.va, exited := !s.lives r.idn, aux := f.aux, owner := f.owner }) s

/-- A store whose bytes lie in an L1 sector, one in the operand log too. -/
def bytesIn (t : Nat) (r : Req) (a : Acc) : Bool :=
  r.kind.store && (a.st == .l1 || (a.st == .logged && a.got)) && accTag r.idn.part r a == t

/-- Whether an L1 sector may not be written back: a store in it has faulted, or comes behind one of its group to the page that
has (R85). -/
def Core.l1Held (k : Core) (t : Nat) : Bool :=
  k.reqs.any fun r => r.accs.any fun a => bytesIn t r a && (a.st == .logged || k.pageLogged r a)

/-- The bytes of a store in the L1 that is dropped go; those of the others stay. -/
def Core.dropL1 (k : Core) (t : Nat) (out : Req → Acc → Bool) : Core :=
  let accs := k.reqs.flatMap fun r => r.accs.filterMap fun a => if bytesIn t r a then some (out r a, a) else none
  let gone := (accs.filter (·.1)).foldl (fun m x => m ||| x.2.mask) (0 : Mask)
  let x := k.l1Sec t
  let x := (accs.filter fun y => !y.1).foldl (fun (x : L1Sec) y =>
    { x with data := mergeSector x.data y.2.data y.2.mask, dirty := x.dirty ||| y.2.mask })
    { x with dirty := x.dirty &&& ~~~gone, full := false }
  { k with l1 := if x.dirty = 0 then AMap.del k.l1 t else AMap.put k.l1 t x }

/-- Stores that the L1 took before their page turned out to be no memory of the device go the way of such a page. -/
def State.unL1 (s : State) (c t : Nat) : State :=
  s.modCore c fun k =>
    { k with
      l1 := AMap.del k.l1 t,
      reqs := k.reqs.map fun r => r.mapAccs (l1Acc t r) fun a => { a with st := .waiting } }

/-- Whether an address lies in CXL memory outside the graded domain, where stores are outward (R61, R100). -/
def State.outwardMem (s : State) (p va : Nat) : Bool := s.cxlDomain p va == some false

/-- A store to CXL memory has merged, and its port has still to acknowledge it for a `.sys` scope (R159). -/
def State.mergedSt (s : State) (l : Loc) : AccSt :=
  match s.home l.p l.easid l.va with
  | .cxl _ => .port
  | _ => .done

/-- Write one dirty sector of an L1 back to the shared cache under a write grant, freeing its stores (R84, R111); a late
fault logs its stores. -/
def State.writeBack (s : State) (c t : Nat) : State :=
  let x := (s.core c).l1Sec t
  let p := tagPart t
  let va := tagVa t
  if x.dirty = 0 then s
  else
    match State.walkPages p [(tagEasid t, va)] s with
    | (s, false) => s
    | (s, true) =>
      let s := s.installTlb p (tagEasid t) va
      match s.leafOf p (tagEasid t) va with
      | .leaf e _ =>
        match s.lateCause p (tagEasid t) va e false with
        | some n => s.logL1 c t n
        | none =>
          if leafF e || s.hostWindow p va then s.unL1 c t
          else
          let l := leafLoc p (tagEasid t) va e
          let s := s.mergeOwned (dieOf c) l x.dirty x.data
          let st := s.mergedSt l
          s.modCore c fun k =>
            { k with
              l1 := if x.full then AMap.put k.l1 t { x with dirty := 0, home := 0 } else AMap.del k.l1 t,
              reqs := k.reqs.map fun r => r.mapAccs (l1Acc t r) fun a => { a with st := st } }
      | .busy => s
      | _ => s.logL1 c t 0x08

/-- Write sectors back in order, up to the first that cannot be. -/
def writeBackList (c : Nat) : List Nat → State → State
  | [], s => s
  | t :: ts, s =>
    let s := s.writeBack c t
    if ((s.core c).l1Sec t).dirty = 0 then writeBackList c ts s else s

/-- Whether an L1 sector cannot be written back now. -/
def State.l1Stuck (s : State) (c t : Nat) : Bool := s.noGrant t ((s.core c).l1Sec t).home || (s.core c).l1Held t

/-- Write a sector back together with whatever must leave no later (R111); nothing moves while one of these waits, in its turn at
its home. -/
def State.writeBackInOrder (s : State) (c t : Nat) : State :=
  let l := (s.core c).l1Before t
  if l.any (s.l1Stuck c) then
    (l.filter fun u => s.noGrant u ((s.core c).l1Sec u).home).foldl (fun s u => s.waitL1 c u) s
  else writeBackList c l s

/-- Write back the dirty sectors that a condition names, oldest first. -/
def State.flushWhere (s : State) (c : Nat) (p : Nat → L1Sec → Bool) : State :=
  ((s.core c).dirtySectors p).foldl (fun s t => s.writeBackInOrder c t) s

/-- Write back every dirty sector of a core's L1 (R113). -/
def State.flushL1 (s : State) (c : Nat) : State := s.flushWhere c fun _ _ => true

/-- Nothing of a core's L1 waits for its write-back. -/
def Core.l1Clean (k : Core) : Bool := k.l1.all fun x => x.2.dirty == 0

/-- The sectors of a line leave the L1; `false` while a dirty one cannot. -/
def State.l1Drop (s : State) (c line : Nat) : State × Bool :=
  let s := s.flushWhere c fun t _ => t / 4 == line
  if (s.core c).l1.any fun x => x.1 / 4 == line && x.2.dirty != 0 then (s, false)
  else (s.modCore c fun k => { k with l1 := k.l1.filter fun x => x.1 / 4 != line }, true)

/-- An access that hits a line in a way that leaves the L1 waits until the line has been written back, then misses
(R110); `false` while it waits. -/
def State.l1Leave (s : State) (c t : Nat) : State × Bool :=
  let k := s.core c
  if k.l1.any fun x => x.1 / 4 == t / 4 && decide (k.l1Ways ≤ x.2.way) then s.l1Drop c (t / 4) else (s, true)

/-- The way of the L1 that a line takes in its set, VA[14:8] (R107), at the cost of another line where all are in use;
which is not architectural. `none` while that line cannot be written back. -/
def State.l1Room (s : State) (c t : Nat) : State × Option Nat :=
  let k := s.core c
  let lines := (k.l1.map fun x => (x.1 / 4, x.2.way)).filter fun x => x.1 % Config.l1Sets == t / 4 % Config.l1Sets
  match lines.find? fun x => x.1 == t / 4 with
  | some x => (s, some x.2)
  | none =>
    match (List.range k.l1Ways).find? fun w => !(lines.any fun x => x.2 == w) with
    | some w => (s, some w)
    | none =>
      let w := Config.freeChoice s.free t % k.l1Ways
      match lines.find? fun x => x.2 == w with
      | none => (s, some w)
      | some x =>
        match s.l1Drop c x.1 with
        | (s, true) => (s, some w)
        | (s, false) => (s, none)

/-- A weak store, or a narrow atomic, writes its bytes into the L1 (R111); `none` while the L1 has no room for its line. -/
def State.l1Put (s : State) (c t : Nat) (mask : Mask) (d : Sector) : State × Bool :=
  match s.l1Leave c t with
  | (s, false) => (s, false)
  | (s, true) =>
    match s.l1Room c t with
    | (s, none) => (s, false)
    | (s, some w) => (s.modCore c fun k => k.l1Store t w mask d, true)

/-- Before a strong access of wide scope, the core's dirty bytes of the sector go out and its copy goes (Table 5.2);
`false` while they cannot. -/
def State.l1Bypass (s : State) (c t : Nat) : State × Bool :=
  let s := s.writeBackInOrder c t
  if ((s.core c).l1Sec t).dirty ≠ 0 then (s, false)
  else
    (s.modCore c fun k => if (k.l1Sec t).sealed then k else { k with l1 := AMap.del k.l1 t }, true)

/-- An acquire of wide scope invalidates the core's clean L1 lines (R113). -/
def State.acquireL1 (s : State) (c : Nat) : State := s.modCore c Core.dropClean

/-- A narrow release orders the write-backs of the L1 (R111). -/
def State.narrowRelease (s : State) (c : Nat) : State := s.modCore c fun k => { k with epoch := k.epoch + 1 }

/-- Fill a sector of the L1: the core's dirty bytes over the shared cache's copy, kept as a full sector where the L1 has
room for its line. -/
def State.l1Fill (s : State) (c : Nat) (l : Loc) : State × L1Sec :=
  let r := s.readShared (dieOf c) l
  let isSealed := (r.1.copies l.tag).any fun y => y.st == .sealed
  let room := r.1.l1Room c l.tag
  let x := (room.1.core c).l1Sec l.tag
  let x := { x with
    data := mergeSector r.2.data x.data x.dirty, full := true, sealed := isSealed, record := r.2.record,
    poison := r.2.poison }
  match room.2 with
  | none => (room.1, x)
  | some w => (room.1.modCore c fun k => { k with l1 := AMap.put k.l1 l.tag { x with way := w } }, x)

end Sys2Proof.Machine
end

