-- ==== Sys2Proof/Machine/Numbers.lean ====
section
/-! DEFINITION. The number formats (R195-R202), exact arithmetic on their values, and rounding (R198, R201). A value
is an exact dyadic number; a code is a natural number in the low bits of a register. Every operation computes the
exact result and rounds once. -/

namespace Sys2Proof.Machine

/-- A finite value `(-1)^neg * m * 2^e`; `m = 0` is a zero of that sign. -/
structure Dy where
  neg : Bool
  m : Nat
  e : Int
deriving DecidableEq, Repr

inductive FVal where
  | nan
  | inf (neg : Bool)
  | num (d : Dy)
deriving DecidableEq, Repr

/-- Layout of a binary format (Table 9.5): exponent and fraction bits, bias, whether it has infinities. -/
structure FFmt where
  w : Nat
  mb : Nat
  bias : Nat
  hasInf : Bool

def ffmt : Ty → FFmt
  | .f16 => ⟨5, 10, 15, true⟩
  | .bf16 => ⟨8, 7, 127, true⟩
  | .e5m2 => ⟨5, 2, 15, true⟩
  | .e4m3 => ⟨4, 3, 7, false⟩
  | _ => ⟨8, 23, 127, true⟩

/-- Sign-bit position of a floating format. -/
def signBit : Ty → Nat
  | .f16 | .bf16 => 15
  | .e4m3 | .e5m2 | .tf8 => 7
  | .tf6 => 5
  | _ => 31

/-! ### The tapered formats (R199, R200) -/

/-- Length of the run of bits equal to `b` from bit `i - 1` downward. -/
def runLen (m : Nat) (b : Bool) : Nat → Nat
  | 0 => 0
  | i + 1 => if nbit m i == b then 1 + runLen m b i else 0

/-- The magnitude of a nonzero TF8 magnitude code (R199). -/
def tf8Mag (m : Nat) : Nat × Int :=
  let b := nbit m 6
  let n := runLen m b 7
  let k : Int := if b then (n : Int) - 1 else -(n : Int)
  let r := 7 - n - 1
  let e : Nat := if r ≥ 1 then m / 2 ^ (r - 1) % 2 else 0
  let fw := r - 1
  (2 ^ fw + m % 2 ^ fw, 2 * k + e - fw)

/-- The magnitude of a nonzero TF6 magnitude code (R200). -/
def tf6Mag (m : Nat) : Nat × Int :=
  let b := nbit m 4
  let n := runLen m b 5
  let k : Int := if b then (n : Int) - 1 else -(n : Int)
  let r := 5 - n - 1
  (2 ^ r + m % 2 ^ r, k - r)

def tfMag (ty : Ty) (m : Nat) : Nat × Int := if ty = .tf8 then tf8Mag m else tf6Mag m

def decodeTf (ty : Ty) (c : Nat) : FVal :=
  let sb := signBit ty
  let s := nbit c sb
  let m := c % 2 ^ sb
  if m = 0 then (if s then .nan else .num ⟨false, 0, 0⟩)
  else
    let v := tfMag ty m
    .num ⟨s, v.1, v.2⟩

/-! ### Decoding (R196) -/

def decodeIeee (f : FFmt) (c : Nat) : FVal :=
  let s := nbit c (f.w + f.mb)
  let ex := c / 2 ^ f.mb % 2 ^ f.w
  let fr := c % 2 ^ f.mb
  let top := ex = 2 ^ f.w - 1
  if top ∧ f.hasInf then (if fr = 0 then .inf s else .nan)
  else if top ∧ fr = 2 ^ f.mb - 1 then .nan
  else if ex = 0 then .num ⟨s, fr, 1 - f.bias - f.mb⟩
  else .num ⟨s, 2 ^ f.mb + fr, (ex : Int) - f.bias - f.mb⟩

/-- The value of a code of a floating format. -/
def decodeF (ty : Ty) (c : Nat) : FVal :=
  match ty with
  | .tf8 | .tf6 => decodeTf ty c
  | _ => decodeIeee (ffmt ty) c

/-- Canonical NaN or NaR (Table 9.5, R201). -/
def nanCode : Ty → Nat
  | .f16 => 0x7E00
  | .bf16 => 0x7FC0
  | .e5m2 => 0x7E
  | .e4m3 => 0x7F
  | .tf8 => 0x80
  | .tf6 => 0x20
  | _ => 0x7FC00000

/-- Largest finite magnitude code. -/
def maxCode : Ty → Nat
  | .f16 => 0x7BFF
  | .bf16 => 0x7F7F
  | .e5m2 => 0x7B
  | .e4m3 => 0x7E
  | .tf8 => 0x7F
  | .tf6 => 0x1F
  | _ => 0x7F7FFFFF

def signed (ty : Ty) (neg : Bool) (mag : Nat) : Nat := if neg then 2 ^ signBit ty + mag else mag

/-- What an infinity becomes: itself, or the canonical NaN of a format without infinity (R201). -/
def infCode (ty : Ty) (neg : Bool) : Nat :=
  match ty with
  | .e4m3 | .tf8 | .tf6 => nanCode ty
  | _ => signed ty neg (maxCode ty + 1)

/-! ### Rounding (R198, R201) -/

/-- Whether a discarded part rounds the magnitude up: `cmp` compares it with a half unit, `inexact` says it is not
zero, `odd` that the kept part is odd. -/
def roundsUp (rm : Rm) (neg inexact odd : Bool) (cmp : Ordering) : Bool :=
  match rm with
  | .rne => cmp == .gt || (cmp == .eq && odd)
  | .rz => false
  | .ru => inexact && !neg
  | .rd => inexact && neg

/-- `m / 2^sh` rounded to an integer; `sticky` says that the exact value lies a little above `m`. -/
def roundShift (rm : Rm) (neg : Bool) (m sh : Nat) (sticky : Bool) : Nat :=
  let q := m / 2 ^ sh
  let r := m % 2 ^ sh
  let cmp : Ordering :=
    match compare (2 * r) (2 ^ sh) with
    | .eq => if sticky then .gt else .eq
    | o => o
  let cmp := if sh = 0 then (if sticky then .lt else cmp) else cmp
  q + (if roundsUp rm neg (r != 0 || sticky) (q % 2 == 1) cmp then 1 else 0)

/-- Overflow in the formats with infinity (Table 9.6). -/
def overflowIeee (ty : Ty) (rm : Rm) (neg : Bool) : Nat :=
  match rm with
  | .rne => infCode ty neg
  | .rz => signed ty neg (maxCode ty)
  | .ru => if neg then signed ty neg (maxCode ty) else infCode ty neg
  | .rd => if neg then infCode ty neg else signed ty neg (maxCode ty)

/-- The magnitude code before the overflow test. The codes of a format rise with the magnitude, so one formula gives
normal and subnormal results, and a carry out of the fraction moves to the next exponent. -/
def ieeeMag (f : FFmt) (rm : Rm) (neg : Bool) (m : Nat) (e : Int) (sticky : Bool) : Nat :=
  let lo : Int := 1 - f.bias - f.mb
  let top : Int := e + Nat.log2 m - f.mb
  let q : Int := max top lo
  let sig := if q ≤ e then m * 2 ^ (e - q).toNat else roundShift rm neg m (q - e).toNat sticky
  (q - lo).toNat * 2 ^ f.mb + sig

/-- Round `(-1)^neg * m * 2^e` (a little more in magnitude when `sticky`) to a format with a bias (R198). With
`sticky` the significand must have more bits than the format keeps. -/
def roundIeee (ty : Ty) (rm : Rm) (neg : Bool) (m : Nat) (e : Int) (sticky : Bool) : Nat :=
  if m = 0 ∧ sticky = false then signed ty neg 0
  else
    let c := ieeeMag (ffmt ty) rm neg m e sticky
    if c ≤ maxCode ty then signed ty neg c
    else if (ffmt ty).hasInf then overflowIeee ty rm neg
    else signed ty neg (maxCode ty)

/-- Compare `m * 2^e` (a little more when `sticky`) with `n * 2^f`. -/
def cmpDy (m : Nat) (e : Int) (sticky : Bool) (n : Nat) (f : Int) : Ordering :=
  let d := min e f
  match compare (m * 2 ^ (e - d).toNat) (n * 2 ^ (f - d).toNat) with
  | .eq => if sticky then .gt else .eq
  | o => o

/-- The largest magnitude code, at most `k`, whose value does not exceed `m * 2^e`; 0 if none. -/
def tfFloor (ty : Ty) (m : Nat) (e : Int) : Nat → Nat
  | 0 => 0
  | k + 1 =>
    let v := tfMag ty (k + 1)
    if cmpDy m e false v.1 v.2 != .lt then k + 1 else tfFloor ty m e k

/-- Round to TF8 or TF6 (R201). -/
def roundTf (ty : Ty) (rm : Rm) (neg : Bool) (m : Nat) (e : Int) (sticky : Bool) : Nat :=
  if m = 0 ∧ sticky = false then 0
  else
    let top := maxCode ty
    let c := tfFloor ty m e top
    let mag :=
      if c = 0 then
        match rm with
        | .rne => 1
        | .rz => 0
        | .ru => if neg then 0 else 1
        | .rd => if neg then 1 else 0
      else if c = top then top
      else
        let a := tfMag ty c
        let b := tfMag ty (c + 1)
        let d := min a.2 b.2
        let mid := a.1 * 2 ^ (a.2 - d).toNat + b.1 * 2 ^ (b.2 - d).toNat
        let inexact := sticky || cmpDy m e false a.1 a.2 == .gt
        if roundsUp rm neg inexact (c % 2 == 1) (cmpDy m e sticky mid (d - 1)) then c + 1 else c
    if mag = 0 then 0 else signed ty neg mag

def roundMag (ty : Ty) (rm : Rm) (neg : Bool) (m : Nat) (e : Int) (sticky : Bool) : Nat :=
  match ty with
  | .tf8 | .tf6 => roundTf ty rm neg m e sticky
  | _ => roundIeee ty rm neg m e sticky

/-- `round_to` of an exact value (R198). -/
def roundF (ty : Ty) (rm : Rm) (v : FVal) : Nat :=
  match v with
  | .nan => nanCode ty
  | .inf neg => infCode ty neg
  | .num d => roundMag ty rm d.neg d.m d.e false

/-- `.sat` of a conversion: a code of infinity becomes the largest finite value (R232, R235). -/
def roundSat (ty : Ty) (rm : Rm) (v : FVal) : Nat :=
  let c := roundF ty rm v
  match decodeF ty c with
  | .inf neg => signed ty neg (maxCode ty)
  | _ => c

/-! ### Exact arithmetic -/

def Dy.int (d : Dy) : Int := if d.neg then -(d.m : Int) else d.m

/-- The exact sum of a list of dyadic numbers, as an integer and an exponent. -/
def sumDy (l : List Dy) : Int × Int :=
  let e := l.foldl (fun e d => min e d.e) 0
  (l.foldl (fun s d => s + d.int * 2 ^ (d.e - e).toNat) 0, e)

/-- A value from an exact sum; an exact zero takes the sign `zneg`. -/
def ofSum (s : Int × Int) (zneg : Bool) : Dy :=
  if s.1 = 0 then ⟨zneg, 0, 0⟩ else ⟨decide (s.1 < 0), s.1.natAbs, s.2⟩

/-- The exact sum of two values (R197): every exact zero is -0 under RD, +0 in the other modes but for (-0) + (-0). -/
def addV (rm : Rm) (a b : FVal) : FVal :=
  match a, b with
  | .nan, _ | _, .nan => .nan
  | .inf x, .inf y => if x = y then .inf x else .nan
  | .inf x, .num _ => .inf x
  | .num _, .inf y => .inf y
  | .num x, .num y =>
    let zneg := (x.m == 0 && y.m == 0 && x.neg && y.neg) || rm == .rd
    .num (ofSum (sumDy [x, y]) zneg)

def negV : FVal → FVal
  | .nan => .nan
  | .inf s => .inf !s
  | .num d => .num { d with neg := !d.neg }

def mulV (a b : FVal) : FVal :=
  match a, b with
  | .nan, _ | _, .nan => .nan
  | .inf x, .inf y => .inf (x != y)
  | .inf x, .num d | .num d, .inf x => if d.m = 0 then .nan else .inf (x != d.neg)
  | .num x, .num y => .num ⟨x.neg != y.neg, x.m * y.m, x.e + y.e⟩

/-- `a * b + c` with the product as the first addend (R224). -/
def fmaV (rm : Rm) (a b c : FVal) : FVal := addV rm (mulV a b) c

/-- The exact sum of several terms: an infinity of one sign wins, a NaN or infinities of both signs give NaN, an exact
zero is -0 only when every term is -0 (R204, R231). -/
def sumV (l : List FVal) : FVal :=
  if l.any (· == .nan) then .nan
  else
    let pos := l.any (· == .inf false)
    let neg := l.any (· == .inf true)
    if pos && neg then .nan
    else if pos then .inf false
    else if neg then .inf true
    else
      let ds := l.filterMap fun v => match v with | .num d => some d | _ => none
      .num (ofSum (sumDy ds) (ds.all fun d => d.neg && d.m == 0))

/-- Multiply by 2^n exactly. -/
def sclV (v : FVal) (n : Int) : FVal :=
  match v with
  | .num d => .num { d with e := d.e + n }
  | v => v

/-- The value of an integer. -/
def intV (i : Int) : FVal := .num ⟨decide (i < 0), i.natAbs, 0⟩

/-- Round a finite value to an integer in a mode. -/
def roundInt (rm : Rm) (d : Dy) : Int :=
  let mag : Nat := if 0 ≤ d.e then d.m * 2 ^ d.e.toNat else roundShift rm d.neg d.m (-d.e).toNat false
  if d.neg then -(mag : Int) else mag

def clampInt (i lo hi : Int) : Int := max lo (min i hi)

/-- Range of an integer type (R195). -/
def Ty.lo (ty : Ty) : Int := if ty.signed then -(2 ^ (ty.bits - 1) : Nat) else 0
def Ty.hi (ty : Ty) : Int := if ty.signed then (2 ^ (ty.bits - 1) : Nat) - 1 else (2 ^ ty.bits : Nat) - 1

/-- Low `n` bits of an integer in two's complement. -/
def intCode (n : Nat) (i : Int) : Nat := (i % (2 ^ n : Nat)).toNat

/-- The integer that a code of an integer type stands for. -/
def codeInt (ty : Ty) (c : Nat) : Int :=
  let c := c % 2 ^ ty.bits
  if ty.signed && nbit c (ty.bits - 1) then (c : Int) - (2 ^ ty.bits : Nat) else c

/-! ### Order, classes and keys -/

/-- Order key of a code that is no NaN: -0 stands below +0 (R225). -/
def orderKey (ty : Ty) (c : Nat) : Int :=
  let sb := signBit ty
  let mag := c % 2 ^ sb
  if nbit c sb then -(mag : Int) - 1 else mag

def isNan (ty : Ty) (c : Nat) : Bool := decodeF ty c == .nan

/-- `FMIN`, `FMAX` (R225): bit for bit the lesser or greater operand. -/
def fminCode (ty : Ty) (isMax : Bool) (a b : Nat) : Nat :=
  if isNan ty a then (if isNan ty b then nanCode ty else b)
  else if isNan ty b then a
  else if (orderKey ty a < orderKey ty b) != isMax then a else b

/-- Compare two codes; `none` when unordered, and -0 equals +0 (R227). -/
def fcmp (ty : Ty) (a b : Nat) : Option Ordering :=
  if isNan ty a || isNan ty b then none
  else
    let sb := signBit ty
    let v (c : Nat) : Int := if nbit c sb then -((c % 2 ^ sb : Nat) : Int) else (c % 2 ^ sb : Nat)
    some (compare (v a) (v b))

/-- The truth of a condition on two ordered operands. -/
def Cond.holds (c : Cond) (o : Ordering) : Bool :=
  match c with
  | .eq => o == .eq
  | .ne => o != .eq
  | .lt => o == .lt
  | .le => o != .gt
  | .gt => o == .gt
  | .ge => o != .lt

/-- On unordered operands only NE is true (R227). -/
def Cond.fholds (c : Cond) (o : Option Ordering) : Bool :=
  match o with
  | some o => Cond.holds c o
  | none => c == .ne

/-- `FCLASS` (Table 10.5). -/
def fclassMask (ty : Ty) (c : Nat) : Nat :=
  match decodeF ty c with
  | .nan => 2 ^ 8
  | .inf true => 2 ^ 0
  | .inf false => 2 ^ 7
  | .num d =>
    if d.m = 0 then (if d.neg then 2 ^ 3 else 2 ^ 4)
    else
      let sub : Bool := match ty with
        | .tf8 | .tf6 => false
        | _ => c / 2 ^ (ffmt ty).mb % 2 ^ (ffmt ty).w == 0
      match sub, d.neg with
      | false, true => 2 ^ 1
      | true, true => 2 ^ 2
      | true, false => 2 ^ 5
      | false, false => 2 ^ 6

/-- `FABS` and `FNEG` move the sign bit, but for the zero and NaR codes of TF (R226). -/
def fabsCode (ty : Ty) (c : Nat) : Nat :=
  let sb := signBit ty
  let c := c % 2 ^ (sb + 1)
  match ty with
  | .tf8 | .tf6 => if c % 2 ^ sb = 0 then c else c % 2 ^ sb
  | _ => c % 2 ^ sb

def fnegCode (ty : Ty) (c : Nat) : Nat :=
  let sb := signBit ty
  let c := c % 2 ^ (sb + 1)
  let flipped := if nbit c sb then c - 2 ^ sb else c + 2 ^ sb
  match ty with
  | .tf8 | .tf6 => if c % 2 ^ sb = 0 then c else flipped
  | _ => flipped

/-- `OKEY` (R234). -/
def okeyCode (ty : Ty) (a : Nat) : Nat :=
  let sb := signBit ty
  let h := 2 ^ sb
  let ones := 2 ^ (sb + 1) - 1
  if isNan ty a then 0
  else
    let x := if a = h then 0 else a
    if nbit x sb then ones - x else x + h

/-- `KEYF` (R234). -/
def keyfCode (ty : Ty) (a : Nat) : Nat :=
  let sb := signBit ty
  let h := 2 ^ sb
  let ones := 2 ^ (sb + 1) - 1
  let k := a % 2 ^ (sb + 1)
  if nbit k sb then k - h
  else if isNan ty (ones - k) then nanCode ty
  else ones - k

/-- The `.sat` clamp to [+0, 1] (R223). -/
def clamp01 (ty : Ty) (c : Nat) : Nat :=
  match decodeF ty c with
  | .nan => 0
  | .inf neg => if neg then 0 else roundF ty .rne (intV 1)
  | .num d =>
    if d.neg || d.m == 0 then 0
    else if cmpDy d.m d.e false 1 0 == .gt then roundF ty .rne (intV 1)
    else c

def satIf (sat : Bool) (ty : Ty) (c : Nat) : Nat := if sat then clamp01 ty c else c

/-- Round to an integral value of the same format (R229). -/
def frndCode (ty : Ty) (rm : Rm) (c : Nat) : Nat :=
  match decodeF ty c with
  | .nan => nanCode ty
  | .inf _ => c
  | .num d =>
    if d.m = 0 then c
    else roundMag ty .rne d.neg (roundInt rm d).natAbs 0 false

/-- `BSCALE` (R236). -/
def bscaleEmax : Ty → Int
  | .e4m3 => 8
  | .e5m2 | .f16 => 15
  | .tf8 => 12
  | .tf6 => 4
  | _ => 127

def bscaleCode (ty : Ty) (a : Nat) : Nat :=
  match decodeF .f32 a with
  | .nan | .inf _ => 0xFF
  | .num d =>
    if d.m = 0 then 0x7F
    else (clampInt (d.e + Nat.log2 d.m - bscaleEmax ty + 127) 0 254).toNat

/-- `QCVT` (R235). -/
def qcvtCode (ty : Ty) (sat : Bool) (rm : Rm) (a c : Nat) : Nat :=
  if c = 0xFF then nanCode ty
  else
    let v := sclV (decodeF .f32 a) (127 - (c : Int))
    if sat then roundSat ty rm v else roundF ty rm v

/-- `CVT` (Table 10.6). With `.sat` an infinity gives the largest finite value in every format, also in those that have
no infinity. -/
def cvtCode (dty sty : Ty) (sat : Bool) (rm : Rm) (a : Nat) : Nat :=
  if sty.cvtInt then
    let i := codeInt sty a
    if dty.cvtInt then intCode dty.bits (if sat then clampInt i (Ty.lo dty) (Ty.hi dty) else i)
    else roundF dty rm (intV i)
  else
    let v := decodeF sty a
    if dty.cvtInt then
      match v with
      | .nan => 0
      | .inf neg => intCode dty.bits (if neg then Ty.lo dty else Ty.hi dty)
      | .num d => intCode dty.bits (clampInt (roundInt rm d) (Ty.lo dty) (Ty.hi dty))
    else
      match v with
      | .inf neg => if sat then signed dty neg (maxCode dty) else infCode dty neg
      | _ => if sat then roundSat dty rm v else roundF dty rm v

/-- The FP32 patterns of the constant table (Table 9.3). -/
def constTable : List Nat :=
  [0x00000000, 0x3F800000, 0xBF800000, 0x3F000000, 0x40000000, 0x3FB8AA3B, 0x3F317218, 0x40490FDB,
   0x7F800000, 0xFF800000, 0x7FC00000, 0x00000001, 0xFFFFFFFF, 0x80000000, 0x7FFFFFFF, 0x7F7FFFFF]

/-- A constant at a type (R190). -/
def constAt (ty : Ty) (n : Nat) : Nat :=
  let c := constTable.getD n 0
  match ty with
  | .f16 | .bf16 | .e4m3 | .e5m2 | .tf8 | .tf6 => roundF ty .rne (decodeF .f32 c)
  | _ => c % 2 ^ ty.bits

end Sys2Proof.Machine
end

