-- ==== Sys2Proof/Machine/Operands.lean ====
section
/-! DEFINITION. Reading and writing registers (R186-R192), the last-result file (R188), register poison (R194), and the
registers whose value is unspecified (R52, R238). -/

namespace Sys2Proof.Machine

/-- What a word sees when a gang issues it for one of its groups: where it stands, the lanes of the group in the issue
and those of them that are active, the clause's set-flags, the counter of unspecified values, and the clock. -/
structure Ctx where
  core : Nat
  entry : Nat
  slot : Nat
  pc : Word
  hdr : Word
  len : Nat
  last : Bool
  lanes : Mask
  act : Mask
  two : Bool
  sfa : Option Nat
  sfb : Option Nat
  cw : List Nat
  fr : Nat
  now : Nat
deriving DecidableEq, Repr

/-- Active lanes, ascending. -/
def Ctx.active (x : Ctx) : List Nat := lanesOf x.act

/-- The halves in which the word issues: two for a 64-thread group that issues as two gangs (R282), as masks of active
lanes; a half without an active lane counts nothing (R49). -/
def Ctx.parts (x : Ctx) : List Mask :=
  (if x.two then [x.act &&& 0xFFFFFFFF#64, x.act &&& 0xFFFFFFFF00000000#64] else [x.act]).filter (· != 0)

/-! ### Keys -/

/-- A register half's owner: `v`, `o` and `l` by lane, scalars above them. -/
def srcKey (lane : Nat) : Src → Option Nat
  | .v n => some (rkey lane n.val)
  | .o n => some (rkey lane (768 + n.val))
  | .l n => some (rkey lane (776 + n.val))
  | .k _ => none
  | .s n => some (65536 + n.val)

def dstSrc : Dst → Src
  | .v n => .v n
  | .o n => .o n
  | .l0 => .l 0
  | .s n => .s n

/-- Registers of a value of `w` bits: 32-bit registers in `v` and `o`, 64-bit ones in `l` and `s`. -/
def srcCount (w : Nat) : Src → Nat
  | .v _ | .o _ => (w + 31) / 32
  | .l _ | .k _ => 1
  | .s _ => (w + 63) / 64

/-- Keys of the registers that a value of `w` bits occupies, with the mask of their 16-bit halves it reads. -/
def srcKeys (w lane : Nat) (a : Src) : List (Nat × Nat) :=
  match srcKey lane a with
  | none => []
  | some k =>
    let per := match a with | .v _ | .o _ => 32 | _ => 64
    (List.range (srcCount w a)).map fun i => (k + i, 2 ^ (min per w / 16 + (if w % 16 = 0 then 0 else 1)) - 1)

/-! ### Reading -/

def Group.vo32 (g : Group) (lane code : Nat) : Nat := (AMap.get g.vo (rkey lane code) 0).toNat

/-- `k` consecutive 32-bit registers, lowest in the low bits. -/
def Group.join32 (g : Group) (lane code : Nat) : Nat → Nat
  | 0 => 0
  | k + 1 => g.vo32 lane code + 2 ^ 32 * g.join32 lane (code + 1) k

/-- The low `w` bits that a register operand holds (R187). -/
def Group.value (g : Group) (w lane : Nat) (a : Src) : Nat :=
  (match a with
    | .v n => g.join32 lane n.val ((w + 31) / 32)
    | .o n => g.join32 lane (768 + n.val) ((w + 31) / 32)
    | .l n => (AMap.get g.l (lkey lane n.val) 0).toNat
    | .k n => constTable.getD n.val 0
    | .s n => (AMap.get g.sc n.val 0).toNat + 2 ^ 64 * (AMap.get g.sc (n.val + 1) 0).toNat) % 2 ^ w

/-- Whether a register's value is unspecified for this word: written by a flag-counted word of the same clause, or by
an `SFQ` word whose token has not been awaited. -/
def Ctx.open (x : Ctx) (g : Group) (key : Nat) : Bool :=
  x.cw.contains key || g.pend.any fun p => p.key == key && p.tok.isSome

/-- The value of an operand at a width, for one lane; of a register in doubt among those it takes, that part alone is
unspecified. -/
def Ctx.value (x : Ctx) (g : Group) (w lane : Nat) (a : Src) : Nat :=
  let ks := srcKeys w lane a
  if ks.any fun k => x.open g k.1 then
    let per := match a with
      | .v _ | .o _ => 32
      | _ => 64
    (ks.zipIdx.foldl (fun n y =>
      let part := if x.open g y.1.1 then (Config.freeWord x.fr y.1.1).toNat else g.value w lane a / 2 ^ (per * y.2)
      n + part % 2 ^ per * 2 ^ (per * y.2)) 0) % 2 ^ w
  else g.value w lane a

/-- The value of an operand at a type; a `k` operand converts its constant (R190). -/
def Ctx.val (x : Ctx) (g : Group) (ty : Ty) (lane : Nat) (a : Src) : Nat :=
  match a with
  | .k n => constAt ty n.val
  | _ => x.value g ty.bits lane a

/-! ### Poison -/

/-- The first poisoned register among the sources of a lane, with those of its poisoned halves that are read. -/
def Group.poisonAt (g : Group) (lane : Nat) : List (Nat × Src) → Option (Nat × Nat)
  | [] => none
  | (w, a) :: t =>
    match (srcKeys w lane a).find? fun k => AMap.get g.poison k.1 0 % 16 &&& k.2 != 0 with
    | some k => some (k.1, AMap.get g.poison k.1 0 % 16 &&& k.2)
    | none => g.poisonAt lane t

/-- RF_POISON for the lowest lane that consumes a poisoned half (R194, R156). -/
def Group.poisonTrap (g : Group) (lanes : List Nat) (srcs : List (Nat × Src)) : Option TrapInfo :=
  lanes.findSome? fun l => (g.poisonAt l srcs).map fun k => { cause := 0x02, lane := l, reg := some k }

/-! ### Writing -/

/-- Extend a result of a type to `n` bits (R187): signed for `.i8`, `.i16` and `.i32`, else with zeros. -/
def extend (ty : Ty) (n v : Nat) : Nat :=
  if ty.signed then intCode n (codeInt ty v) else v % 2 ^ ty.bits

/-- A write clears the poison of the register, and leaves two values in doubt where a long-latency result is still to
come, or has come and is not awaited (R52, R238). -/
def Group.wrote (g : Group) (key : Nat) : Group :=
  { g with
    poison := AMap.del g.poison key,
    pend := g.pend.map fun p => if p.key = key then { p with dup := true } else p }

def Group.put32 (g : Group) (lane code v : Nat) : Group :=
  { g.wrote (rkey lane code) with vo := AMap.put g.vo (rkey lane code) (BitVec.ofNat 32 v) }

/-- `k` consecutive 32-bit registers from the low bits up. -/
def Group.split32 (g : Group) (lane code v : Nat) : Nat → Group
  | 0 => g
  | k + 1 => (g.put32 lane code v).split32 lane (code + 1) (v / 2 ^ 32) k

/-- The last-result shift of one lane (R188); the poison of `l0` moves to `l1` with its value (log entry 120). -/
def Group.shiftLast (g : Group) (lane v : Nat) : Group :=
  let old := AMap.get g.l (lkey lane 0) 0
  let po := AMap.get g.poison (rkey lane 776) 0
  let g := { g with
    l := AMap.put (AMap.put g.l (lkey lane 1) old) (lkey lane 0) (BitVec.ofNat 64 v) }
  let g := (g.wrote (rkey lane 776)).wrote (rkey lane 777)
  if po = 0 then g else { g with poison := AMap.put g.poison (rkey lane 777) po }

def Group.putScalar (g : Group) (n v : Nat) : Group :=
  let w := BitVec.ofNat 64 v
  { g.wrote (65536 + n) with
    sc := AMap.put g.sc n w, written := if g.written.contains w then g.written else g.written ++ [w] }

/-- Write a result of a type to a lane's destination; a 128-bit result takes its full set of registers. -/
def Group.writeDst (g : Group) (ty : Ty) (lane : Nat) (d : Dst) (v : Nat) : Group :=
  match d with
  | .v n => g.split32 lane n.val (extend ty (max 32 ty.bits) v) ((ty.bits + 31) / 32)
  | .o n => g.split32 lane (768 + n.val) (extend ty (max 32 ty.bits) v) ((ty.bits + 31) / 32)
  | .l0 => g.shiftLast lane (extend ty 64 v)
  | .s n =>
    let g := g.putScalar n.val (extend ty 64 v)
    if ty.bits = 128 then g.putScalar (n.val + 1) (v / 2 ^ 64) else g

/-- One lane's share of a word's result: the destination of a lane's own file, and the last-result shift where the
word updates that file. -/
def Group.laneResult (g : Group) (ty : Ty) (d : Dst) (last : Bool) (lane v : Nat) : Group :=
  let g := match d with
    | .l0 | .s _ => g
    | _ => g.writeDst ty lane d v
  if d = .l0 ∨ (last ∧ ty.bits ≤ 64) then g.shiftLast lane (extend ty 64 v) else g

/-- The result of a word in its active lanes (R188, R191): a scalar destination takes the lowest active lane's. -/
def Ctx.result (x : Ctx) (g : Group) (ty : Ty) (d : Dst) (last : Bool) (f : Nat → Nat) : Group :=
  let g1 := x.active.foldl (fun h l => h.laneResult ty d last l (f l)) g
  match d, x.active with
  | .s _, l :: _ => g1.writeDst ty l d (f l)
  | _, _ => g1

/-! ### Predicates (R192) -/

/-- The mask of a predicate; `p7` is true everywhere. -/
def Group.pred (g : Group) (p : Nat) : Mask := if p = 7 then BitVec.allOnes 64 else AMap.get g.preds p 0

/-- The number under which a lane's predicate stands among the registers in flight. -/
def predKey (lane p : Nat) : Nat := 131072 + 8 * lane + p % 8

/-- The lanes of a mask whose predicate of some number a key names. -/
def predKeyIn (act : Mask) (p key : Nat) : Bool :=
  decide (131072 ≤ key) && (key - 131072) % 8 == p && act.getLsbD ((key - 131072) / 8)

/-- Write a predicate in the lanes of a mask; where the result of a flag-counted word is still to come, either may remain (R52). -/
def Group.putPred (g : Group) (act : Mask) (p : Nat) (f : Nat → Bool) : Group :=
  { g with
    preds := AMap.put g.preds p ((g.pred p &&& ~~~act) ||| (act &&& maskOf f)),
    pend := g.pend.map fun y => if predKeyIn act p y.key ∧ y.arrived = false then { y with dup := true } else y }

/-- The lanes in which a predicate is unspecified for this word (R52). -/
def Ctx.predOpen (x : Ctx) (g : Group) (p : Nat) : Mask :=
  if p = 7 then 0 else maskOf fun l => x.open g (predKey l p)

/-- A predicate as a word reads it. -/
def Ctx.pred (x : Ctx) (g : Group) (p : Nat) : Mask :=
  let m := x.predOpen g p
  if m = 0 then g.pred p
  else (g.pred p &&& ~~~m) ||| (m &&& maskOf fun l => Config.freeBit x.fr (predKey l p))

/-- The guard of a word, as a mask (R42). -/
def Ctx.guard (x : Ctx) (g : Group) (gd : Guard) : Mask :=
  if gd.pn then ~~~(x.pred g gd.pg.val) else x.pred g gd.pg.val

end Sys2Proof.Machine
end

