-- ==== Sys2Proof/Machine/Flags.lean ====
section
/-! DEFINITION. Completion flags (R49), tokens (R238), and the marks of registers that a long-latency word writes (R52). -/

namespace Sys2Proof.Machine

/-- The counters that the group's own words count on: handler flags in handler mode (R355). -/
def Group.flagMap (g : Group) : AMap Nat := if g.handler then g.hflags else g.flags
def Group.flag (g : Group) (f : Nat) : Nat := AMap.get g.flagMap f 0
def Group.setFlagMap (g : Group) (m : AMap Nat) : Group :=
  if g.handler then { g with hflags := m } else { g with flags := m }

/-- The handler depth that a word issued now belongs to. -/
def Group.depth (g : Group) : Nat := if g.handler then g.shadow.length else 0

/-- The set-flag that a flag-counted word counts on (R43). -/
def Ctx.setFlag (x : Ctx) (fb : Bool) : Option Nat := if fb then x.sfb else x.sfa

/-- Count `n` issues on a flag; `none` where the counter would pass 63, so that the word stalls. -/
def Group.count (g : Group) (f : Option Nat) (n : Nat) : Option Group :=
  match f with
  | none => some g
  | some f => if g.flag f + n ≤ 63 then some (g.setFlagMap (AMap.put g.flagMap f (g.flag f + n))) else none

def decAt (m : AMap Nat) (f : Nat) : AMap Nat := AMap.put m f (AMap.get m f 0 - 1)

/-- Decrement the counter that a request named, in the flags of the handler depth it belongs to. -/
def Group.uncount (g : Group) (depth f : Nat) : Group :=
  if depth = 0 then { g with flags := decAt g.flags f }
  else if depth = g.shadow.length then { g with hflags := decAt g.hflags f }
  else
    { g with
      shadow := g.shadow.mapIdx fun i sh =>
        if i + 1 + depth = g.shadow.length then { sh with hflags := decAt sh.hflags f } else sh }

/-- All counters of a header's wait mask are zero (R50). -/
def Group.waits (g : Group) (mask : BitVec 12) : Bool :=
  (List.range 12).all fun f => !mask.getLsbD f || g.flag f == 0

/-- Whether a destination is a scalar, which takes one lane's result for the group (R191). -/
def toScalar : Option Dst → Bool
  | some (.s _) => true
  | _ => false

def lowest (m : Mask) : Nat := ((lanesOf m).head?).getD 0

/-! ### Tokens -/

def Group.tok (g : Group) (t : Nat) : Nat := AMap.get g.toks t 0

/-! ### Registers in flight -/

/-- Keys of a destination in the lanes of a mask. -/
def dstKeys (d : Dst) (w : Nat) (m : Mask) : List Nat :=
  match d with
  | .s _ => (srcKeys w 0 (dstSrc d)).map (·.1)
  | _ => (lanesOf m).flatMap fun l => (srcKeys w l (dstSrc d)).map (·.1)

/-- Note that a request or a token will write the keys. -/
def Group.await (g : Group) (keys : List Nat) (req tok : Option Nat) : Group :=
  { g with pend := g.pend ++ keys.map fun k => { key := k, req := req, tok := tok, arrived := false, dup := false } }

/-- Whether the value that arrives for a key is the one to keep: where another word has written the register in the
meantime, either value may remain (R52). What arrives is in doubt for those that are still to come. -/
def Group.keeps (g : Group) (fr : Nat) (req tok : Option Nat) (key : Nat) : Bool :=
  match g.pend.find? fun p => p.key == key && p.req == req && p.tok == tok && !p.arrived with
  | some p => !p.dup || Config.freeBit fr key
  | none => true

/-- The value of a register by its key. -/
def Group.keyVal (g : Group) (key : Nat) : Word :=
  if 131072 ≤ key then if (g.pred ((key - 131072) % 8)).getLsbD ((key - 131072) / 8) then 1 else 0
  else if 65536 ≤ key then AMap.get g.sc (key - 65536) 0
  else if 776 ≤ key % 1024 then AMap.get g.l (lkey (key / 1024) (key % 1024 - 776)) 0
  else (AMap.get g.vo key 0).setWidth 64

def Group.setKey (g : Group) (key : Nat) (v : Word) : Group :=
  if 131072 ≤ key then g.putPred (1#64 <<< ((key - 131072) / 8)) ((key - 131072) % 8) fun _ => v == 1
  else if 65536 ≤ key then g.putScalar (key - 65536) v.toNat
  else if 776 ≤ key % 1024 then g
  else g.put32 (key / 1024) (key % 1024) v.toNat

/-- What has arrived on the keys of a word is kept as its value, and puts the other words that write them in doubt. -/
def Group.markArrived (g : Group) (req tok : Option Nat) (keys : List Nat) (pend : List Pend) : Group :=
  { g with
    pend := pend.map fun p =>
      if !keys.contains p.key then p
      else if p.req = req ∧ p.tok = tok then { p with dup := false, alt := some (g.keyVal p.key) }
      else { p with dup := true } }

/-- A register of a result whose value does not remain holds what it held, poison and all. -/
def Group.restoreKey (h g : Group) (key : Nat) : Group :=
  let h := h.setKey key (g.keyVal key)
  { h with poison := match AMap.find? g.poison key with
      | some v => AMap.put h.poison key v
      | none => h.poison }

/-- One lane of a long-latency result arrives, in the last-result file only where the destination is `l0` (R188); each register
of a wide destination keeps it or not for itself. -/
def Group.arrive (g : Group) (fr : Nat) (req tok : Option Nat) (ty : Ty) (lane : Nat) (d : Dst) (v : Nat) : Group :=
  let keys := dstKeys d ty.bits (1#64 <<< lane)
  if d = .l0 then g.shiftLast lane (extend ty 64 v)
  else
    let lost := keys.filter fun k => !g.keeps fr req tok k
    let h := lost.foldl (fun h k => h.restoreKey g k) (g.writeDst ty lane d v)
    h.markArrived req tok (keys.filter fun k => !lost.contains k) g.pend

/-- A predicate of a long-latency word arrives for one lane. -/
def Group.arrivePred (g : Group) (fr : Nat) (req : Nat) (lane p : Nat) (b : Bool) : Group :=
  let k := predKey lane p
  if g.keeps fr (some req) none k then
    (g.putPred (1#64 <<< lane) p fun _ => b).markArrived (some req) none [k] g.pend
  else g

/-- Marks end; a register that has been written since its value came holds either (R52, R238). -/
def Group.endMarks (g : Group) (fr : Nat) (f : Pend → Bool) : Group :=
  let g' := g.pend.foldl (fun (h : Group) p =>
    match p.alt with
    | none => h
    | some v => if f p = true ∧ p.dup = true ∧ Config.freeBit fr p.key = true then h.setKey p.key v else h) g
  { g' with pend := g.pend.filter fun p => !f p }

/-- A request's marks end when it completes. -/
def Group.settled (g : Group) (fr req : Nat) : Group := g.endMarks fr fun p => p.req == some req

/-- Those on the tokens of a mask end when a `WTOK` has awaited them. -/
def Group.awaited (g : Group) (fr : Nat) (m : BitVec 4) : Group := g.endMarks fr fun p => (p.tok.map fun t => m.getLsbD t).getD false

/-- The destination keys of a flag-counted word are unspecified for the rest of its clause (R52): a lane's own registers to
that lane, scalars to every lane of the issue. -/
def State.noteClause (s : State) (x : Ctx) (keys : List Nat) : State :=
  s.modGroup x.core x.slot fun g =>
    { g with
      thr := g.thr.map fun t =>
        if x.lanes.getLsbD t.1 then
          (t.1, { t.2 with cw := t.2.cw ++ keys.filter fun k =>
            if 131072 ≤ k then (k - 131072) / 8 == t.1 else decide (65536 ≤ k) || k / 1024 == t.1 })
        else t }

end Sys2Proof.Machine
end

