-- ==== Sys2Proof/Machine/Issue.lean ====
section
/-! DEFINITION. How a word of a gang takes effect (R48, R52, R156, R281, R352): for each group of the gang in turn, the
word acts in the group's active lanes, is held, or traps; a word that is held for one group is held for the gang. -/

namespace Sys2Proof.Machine

/-- What a word does for one group of its gang. `hold` leaves everything as it was, but for the fills it asks for;
`part` keeps what the word has done so far, and
leaves its lanes at the word; `fatal` is the answer of a torn-down address space (R368). -/
inductive WRes where
  | ok (s : State)
  | hold (asks : List Nat)
  | part (s : State)
  | trap (t : TrapInfo)
  | fatal

/-- The gang whose word is being issued. -/
def State.gang? (s : State) : Option (Nat × Nat × Word × Gang) :=
  match s.issue with
  | none => none
  | some i =>
    match AMap.find? (s.core i.core).table i.entry with
    | none => none
    | some e => e.gang.map fun ga => (i.core, i.entry, e.hdr, ga)

def mkCtx (c e : Nat) (hdr : Word) (ga : Gang) (g : Group) (gd : Guard) (slot : Nat) (lanes : Mask)
    (free now : Nat) : Ctx :=
  let x : Ctx :=
    { core := c, entry := e, slot := slot, pc := ga.pc, hdr := hdr, len := ga.len, last := decide (ga.idx + 1 = ga.len),
      lanes := lanes, act := 0, two := ga.two, sfa := ga.sfa, sfb := ga.sfb,
      cw := (lanesOf lanes).flatMap fun l => (g.thread l).cw,
      fr := free * 16 + slot, now := now }
  { x with act := lanes &&& x.guard g gd }

/-- Change the threads of a set of lanes. -/
def Group.threads (g : Group) (m : Mask) (f : Nat → Thread → Thread) : Group :=
  { g with thr := g.thr.map fun t => if m.getLsbD t.1 then (t.1, f t.1 t.2) else t }

/-- Lanes go on behind the word: to its clause's next word, or to the header that follows the clause. -/
def Group.advance (g : Group) (x : Ctx) (m : Mask) : Group :=
  g.threads m fun _ t =>
    if x.last then { t with pc := x.pc + 8, hdr := none, arr := x.now }
    else { t with pc := x.pc + 8, hdr := some x.hdr, len := x.len }

/-- One word more of a sibling's skid (R353). -/
def State.countSkid (s : State) (c slot : Nat) : State :=
  match s.group? c slot with
  | none => s
  | some g =>
    match g.halt with
    | .skid n =>
      let s := s.setGroup c slot { g with halt := .skid (n + 1) }
      if 16 ≤ n + 1 then s.stopSibling c slot else s
    | _ => s

/-- Words that a pre-emption lets run on once they have been held at issue (Table 14.6). -/
def Instr.runsOn : Instr → Bool
  | .tlaunch _ _ _ | .tdone _ _ | .twalk _ _ | .tstat _ _ _ => true
  | _ => false

/-- A group whose word is outstanding as a pre-emption finds it, and runs on (R329). -/
def State.runsOn (s : State) (c slot : Nat) (g : Group) : Bool :=
  (s.part g.part).inEffect && (s.core c).table.any fun e => match e.2.gang with
    | none => false
    | some ga => ga.held.isSome && (ga.members.any fun m => m.1 == slot) &&
      (match s.fetch c g.part g.asid ga.pc with
        | .ok w => (match decode w.toNat with
          | .ok i => Instr.runsOn i
          | .error _ => false)
        | _ => false)

/-- The members of a gang that are in their skid as the word issues; a halt in this very clock has not reached the others. -/
def State.skidding (s : State) (c : Nat) (ga : Gang) : List Nat :=
  (ga.members.filter fun m => match s.group? c m.1 with
    | none => false
    | some g => g.halt != .running).map (·.1)

/-- The word for one group of the gang, `sk` listing the members in their skid. `fall` says that it is no terminator: its lanes go on to the next word, and at
the end of the clause the next header is fetched, a fault of which is raised at this word (R309); a word there that is no header
is ILLEGAL at itself (R48), once a gang forms at it. -/
def memberStep (gd : Guard) (fall : Bool) (f : Ctx → State → WRes) (c e : Nat) (hdr : Word) (ga : Gang)
    (sk : List Nat) (slot : Nat) (lanes : Mask) (s : State) : Except (List Nat) State :=
  match s.group? c slot with
  | none => .ok s
  | some g =>
    let x := mkCtx c e hdr ga g gd slot lanes s.free (s.now g.part)
    let traps (t : TrapInfo) : Except (List Nat) State :=
      .ok ((s.modCore c Core.dropAnswers).raisePrecise c slot t ga.pc lanes false)
    let fatal : Except (List Nat) State := .ok ((s.modCore c Core.dropAnswers).endGroup c slot)
    let count (t : State) : State := if sk.contains slot then t.countSkid c slot else t
    match f x s with
    | .hold a => .error a
    | .trap t => traps t
    | .fatal => fatal
    | .part s' =>
      let s' := (s'.modGroup c slot fun g =>
        g.threads lanes fun _ t => { t with hdr := some x.hdr, len := x.len }).modCore c fun k => k.leaveGang slot lanes
      .ok (match g.halt with
        | .skid _ => if s'.runsOn c slot g then s' else s'.stopSibling c slot
        | _ => s')
    | .ok s' =>
      if fall then
        let go : Except (List Nat) State :=
          .ok (count (s'.modGroup c slot fun g => g.advance x lanes))
        if x.last then
          match s.fetch c g.part g.asid (ga.pc + 8) with
          | .miss t => .error [t]
          | .fatal => fatal
          | .bad n => traps { cause := n, lane := ((lanesOf lanes).head?).getD 0, fetch := true }
          | .ok _ => go
        else go
      else .ok (count s')

def runMembers (gd : Guard) (fall : Bool) (f : Ctx → State → WRes) (c e : Nat) (hdr : Word) (ga : Gang)
    (sk : List Nat) : List (Nat × Mask) → State → Except (List Nat) State
  | [], s => .ok s
  | m :: ms, s =>
    match memberStep gd fall f c e hdr ga sk m.1 m.2 s with
    | .error a => .error a
    | .ok s' => runMembers gd fall f c e hdr ga sk ms s'

/-- The gang after its word: at the next word, or ended with its clause. -/
def Gang.after (ga : Gang) : Option Gang :=
  if ga.idx + 1 < ga.len ∧ ga.members ≠ [] then some { ga with pc := ga.pc + 8, idx := ga.idx + 1, held := none }
  else none

/-- The word has issued: its entry has issued most recently. -/
def State.finishWord (s : State) (c e : Nat) : State :=
  let s := s.modCore c fun k =>
    { k with
      tick := k.tick + 1,
      table := k.table.map fun (y : Nat × Entry) =>
        if y.1 = e then
          (y.1, { y.2 with last := k.tick, gang := y.2.gang.bind Gang.after, ended := (y.2.gang.bind Gang.after).isNone })
        else y }
  ({ s with issue := none } : State).spend

/-- The word is held: the fills it waits for are asked, and siblings in their skid stop (R353). -/
def State.holdWord (s : State) (c e : Nat) (ga : Gang) (asks : List Nat) : State :=
  let s := s.modCore c fun k =>
    { (k.askFills asks) with
      table := AMap.upd k.table e fun y => { y with gang := y.gang.map fun ga => { ga with held := some (s.coreNow c) } } }
  ga.members.foldl (fun s m =>
    match s.group? c m.1 with
    | none => s
    | some g => match g.halt with
      | .skid _ => if s.runsOn c m.1 g then s else s.stopSibling c m.1
      | _ => s) { s with issue := none }

/-- The issue of one word of a gang. -/
def issueWord (gd : Guard) (fall : Bool) (f : Ctx → State → WRes) (s : State) : Host.Outcome State Fault Refusal :=
  match s.gang? with
  | none => .fault .noIssue
  | some (c, e, hdr, ga) =>
    match runMembers gd fall f c e hdr ga (s.skidding c ga) ga.members s with
    | .error asks => .next (s.holdWord c e ga asks)
    | .ok s' => .next (s'.finishWord c e)

/-- The guard of a word that has none. -/
def always : Guard := { pg := 7, pn := false }

/-- A word that changes only its group's own registers. -/
def groupWord (gd : Guard) (f : Ctx → Group → Except TrapInfo Group) : State → Host.Outcome State Fault Refusal :=
  issueWord gd true fun x s =>
    match s.group? x.core x.slot with
    | none => .ok s
    | some g =>
      match f x g with
      | .ok g' => .ok (s.setGroup x.core x.slot g')
      | .error t => .trap t

/-- Check the sources of the active lanes for poison, then go on. -/
def checked (x : Ctx) (g : Group) (srcs : List (Nat × Src)) (r : Group) : Except TrapInfo Group :=
  match g.poisonTrap x.active srcs with
  | some t => .error t
  | none => .ok r

/-- A word that computes one result of type `ty` for each active lane from the lane's operands, which `f` reads by type;
`srcs` lists them with their widths. It updates the last-result file (R188). -/
def laneWord (gd : Guard) (srcs : List (Nat × Src)) (d : Dst) (ty : Ty) (f : (Ty → Src → Nat) → Nat) :
    State → Host.Outcome State Fault Refusal :=
  groupWord gd fun x g => checked x g srcs (x.result g ty d true fun l => f fun t a => x.val g t l a)

/-- A word that sets a predicate in each active lane. -/
def predWord (gd : Guard) (srcs : List (Nat × Src)) (pd : Fin 8) (f : Ctx → Group → Nat → Bool) :
    State → Host.Outcome State Fault Refusal :=
  groupWord gd fun x g => checked x g srcs (g.putPred x.act pd.val (f x g))

end Sys2Proof.Machine
end

