-- ==== Sys2Proof/Machine/Requests.lean ====
section
/-! DEFINITION. Outstanding requests (R49, R84-R87, R159, R161): how they are issued, when their accesses count as
performed at a scope, and how they complete. -/

namespace Sys2Proof.Machine

/-! ### Kinds -/

/-- Requests that keep later memory instructions of their group from issuing until they have performed (R159). -/
def Req.acquires (r : Req) : Bool :=
  !(r.accs.any fun a => a.st == .withdrawn) &&
  match r.kind with
  | .fence | .acqr | .waita | .ffence | .acwait => true
  | .ld | .atom | .fatom => r.ord == .acq || r.ord == .ar
  | _ => false

/-! ### Performed (Table 8.4) -/

def Scope.rank : Scope → Nat
  | .grp => 0
  | .team => 1
  | .clu => 2
  | .dev => 3
  | .ten => 4
  | .sys => 5

/-- Whether a scope is wide for a core's L1: `.clu` and wider, and `.team` of a paired team (R112). -/
def wideScope (paired : Bool) (s : Scope) : Bool := decide (2 ≤ Scope.rank s) || (paired && Scope.rank s == 1)

/-- How wide a scope is for the accesses of a core (Table 8.4): inside its L1, at the shared cache, or `.sys`, at which a
CXL port has acknowledged as well. -/
inductive Reach where
  | narrow | wide | sys
deriving DecidableEq, Repr

def reachOf (paired : Bool) (s : Scope) : Reach :=
  if s = .sys then .sys else if wideScope paired s then .wide else .narrow

/-- Whether an access counts as performed. A withdrawn one counts as issued only when it is issued again. -/
def Acc.performed (a : Acc) (w : Reach) : Bool :=
  a.finished || a.st == .withdrawn || (w != .sys && a.st == .port) || (w == .narrow && a.st == .l1)

/-- Every earlier access of a group has performed at a scope. A fence or wait has no accesses of its own; those of an engine
are events of the engine (R330), but for an `MLOAD`'s, which are its thread's (Table 15.1). -/
def Core.performed (k : Core) (gid before : Nat) (w : Reach) : Bool :=
  k.reqs.all fun r => r.idn.gid != gid || decide (before ≤ r.id) || (r.kind.engine && r.kind != .mload) ||
    r.accs.all fun a => a.performed w

/-- A release writes back every dirty sector of the core's L1 where its scope is wide, and waits until all have merged
(R113). -/
def State.flushFor (s : State) (c : Nat) (w : Reach) : State × Bool :=
  if w = .narrow then (s, true)
  else
    let s := s.flushL1 c
    (s, (s.core c).l1Clean)

/-! ### The operand log and the store buffer (R84, R85) -/

/-- Store-buffer entries of some accesses of a request: one for each sector that they touch (R84), which the lanes on it share. -/
def Req.entries (r : Req) (p : Acc → Bool) : Nat :=
  if r.kind.store then (((r.accs.filter p).map fun a => a.va / 64).eraseDups).length else 0

/-- Entries of a group's operand log in use. -/
def Core.logged (k : Core) (gid : Nat) : Nat :=
  k.reqs.foldl (fun n r =>
    if r.idn.gid ≠ gid then n
    else
      let p (a : Acc) : Bool := a.st == .logged || a.st == .withdrawn
      n + (if r.kind.store then r.entries p else min 1 (r.accs.filter p).length)) 0

/-- Store-buffer entries in use: those of accesses that have neither merged nor been acknowledged. -/
def sbUsed (k : Core) : Nat :=
  k.reqs.foldl (fun n r => n + r.entries fun a => !(a.performed .wide || a.st == .logged)) 0

def Core.roomFor (k : Core) (entries : Nat) : Bool :=
  entries == 0 || decide (sbUsed k + entries ≤ Config.storeBuffer)

/-- Whether the group may issue a memory instruction now: none of its acquires is open, and its log has room (R85, R159). -/
def Core.mayIssue (k : Core) (gid : Nat) : Bool :=
  !(k.reqs.any fun r => r.idn.gid == gid && r.acquires) && decide (k.logged gid < Config.operandLog)

/-! ### Issuing -/

/-- The team's values that a request carries from issue (R92, R94, R100). -/
def Run.stamp (r : Run) (q : Req) : Req :=
  { q with floor := r.floor, gen := r.gen, depth := r.depth, limit := r.limit, refire := r.refire }

/-- Append a request of the group in a slot; it takes the group's next sequence number (R84). -/
def State.pushReq (s : State) (x : Ctx) (q : Req) (seq : BitVec 16) : State :=
  match s.group? x.core x.slot with
  | none => s
  | some g =>
    let q := (s.run g.run).stamp
      { q with id := s.next, idn := s.identOf x.core x.slot, pc := x.pc, seq := seq, hdepth := g.depth }
    (s.modCore x.core fun k => { k with reqs := k.reqs ++ [q] }).bump

/-- The predicates that a request will write, `p7` being none. -/
def Req.predKeys (q : Req) : List Nat := if q.pd = 7 then [] else (lanesOf q.mask).map fun l => predKey l q.pd

/-- The request of one half of a flag-counted word: counted on its flag, its destination registers in flight. -/
def State.countReq (s : State) (x : Ctx) (fb : Bool) (q : Req) (keys : List Nat) (seq : BitVec 16) : Option State :=
  match s.group? x.core x.slot with
  | none => some s
  | some g =>
    match g.count (x.setFlag fb) 1 with
    | none => none
    | some g =>
      let keys := keys ++ q.predKeys
      let s1 := s.setGroup x.core x.slot (g.await keys (some s.next) none)
      some ((s1.pushReq x { q with flag := x.setFlag fb } seq).noteClause x keys)

/-- One half of a flag-counted word: `q` is its request, `keys` the registers it will write. A scalar takes the result of
the word's lowest active lane, so the second of two halves has none to write (R191). -/
def State.countHalf (s : State) (x : Ctx) (fb : Bool) (m : Mask) (q : Req) (keys : List Nat) : Option State :=
  match s.group? x.core x.slot with
  | none => some s
  | some g =>
    let y := { q with mask := m }
    if toScalar y.dst && !m.getLsbD (lowest x.act) then s.countReq x fb { y with dst := none } [] g.seq
    else s.countReq x fb y keys g.seq

/-- A word has issued whole: its sequence number is used up (R84), and no half of it waits any more. -/
def State.closeWord (s : State) (x : Ctx) : State :=
  if x.act = 0 then s
  else s.modGroup x.core x.slot fun g => { g with seq := g.seq + 1, spawned := g.spawned &&& ~~~x.act }


/-! ### Completion -/

/-- Every access of the request has performed at `.grp`, so that its flag falls (R163). -/
def Req.flagDone (r : Req) : Bool := r.accs.all fun a => a.performed .narrow
def Req.allFinished (r : Req) : Bool := r.accs.all Acc.finished

/-- A flag falls, the registers of the request are settled, and threads that slept on it wake. -/
def Group.released (g : Group) (fr now : Nat) (q : Req) : Group :=
  let g := match q.flag with
    | none => g
    | some f => g.uncount q.hdepth f
  let wake (t : Thread) : Thread := if t.st = .mem q.id then { t with st := .ready, arr := now } else t
  { g.settled fr q.id with
    thr := g.thr.map fun t => (t.1, wake t.2),
    shadow := g.shadow.map fun sh => { sh with thr := sh.thr.map fun t => (t.1, wake t.2) } }

/-- The decrement of a group that has been saved is applied to its saved counter (R161). -/
def State.release (s : State) (c : Nat) (q : Req) : State :=
  s.modLiving { q.idn with core := c } fun g => g.released s.free (s.now q.idn.part) q

/-- A request without accesses left is gone (its completion point, R49). -/
def State.complete (s : State) (c id : Nat) : State :=
  match (s.core c).req? id with
  | none => s
  | some q =>
    (s.modCore c fun k => { k with reqs := k.reqs.filter fun r => r.id != id }).release c q

/-- After an access has changed: the flag falls when the request has performed at `.grp`, and the request goes when
every access has finished. -/
def State.afterAcc (s : State) (c id : Nat) : State :=
  match (s.core c).req? id with
  | none => s
  | some q =>
    if q.allFinished then s.complete c id
    else if q.kind.store && q.flagDone && q.flag.isSome then
      (s.release c q).modReq c id fun r => { r with flag := none }
    else s

def Req.setAcc (r : Req) (idx : Nat) (f : Acc → Acc) : Req :=
  { r with accs := r.accs.mapIdx fun i a => if i = idx then f a else a }

/-- An access changes its state; one that is no longer to be performed leaves its place at the home. -/
def Acc.to (a : Acc) (st : AccSt) : Acc :=
  let b := { a with st := st }
  if b.pending then b else { b with home := 0 }

def State.setAccSt (s : State) (c id idx : Nat) (st : AccSt) : State :=
  s.modReq c id fun r => r.setAcc idx fun a => a.to st

/-- An access has finished. -/
def State.finishAcc (s : State) (c id idx : Nat) (st : AccSt) : State := (s.setAccSt c id idx st).afterAcc c id

/-- Write a loaded value to a lane's destination, unless its thread has gone (R162, R191, R313). A scalar takes the
lowest active lane's value. -/
def State.deliver (s : State) (c : Nat) (q : Req) (ty : Ty) (lane v : Nat) : State :=
  match q.dst with
  | none => s
  | some d =>
    if !s.alive q.idn then s
    else
      s.modGroup c q.idn.slot fun g =>
        let own := match d with
          | .s _ => (lanesOf q.mask).head? == some lane
          | _ => true
        if own && (g.thread lane).st != .exited then g.arrive s.free (some q.id) none ty lane d v else g

end Sys2Proof.Machine
end

