-- ==== Sys2Proof/Machine/Schedule.lean ====
section
/-! DEFINITION. Classes, the PC table and gangs (R279-R283): which pairs of kernel and header wait on a core, which of
them are ready, and the gang that an entry forms. -/

namespace Sys2Proof.Machine

/-- A group that may issue: neither stopped nor done with its pre-emption handler, with no late trap to take (R357), and
not stalled on a full hold buffer (R101). -/
def Group.canIssue (g : Group) : Bool :=
  g.halt != .stopped && g.mode != .psaveDone && g.lateTrap.isNone && g.stalled.isNone

/-- A thread asleep on a barrier. -/
def ThrSt.onBar : ThrSt → Bool
  | .bar _ => true
  | _ => false

/-- Lanes of a group that wait at a header. -/
def Group.atHeader (g : Group) (h : Word) : Mask :=
  maskOf fun l => (g.thr.any fun t => t.1 == l && t.2.st == .ready && t.2.hdr == none && t.2.pc == h)

/-- Lanes of a group that stand at a word in the middle of a clause. -/
def Group.inClause (g : Group) (h pc : Word) : Mask :=
  maskOf fun l => (g.thr.any fun t => t.1 == l && t.2.st == .ready && t.2.hdr == some h && t.2.pc == pc)

/-- Lanes of a core's groups that are members of a gang already. -/
def Core.inGang (k : Core) (slot : Nat) : Mask :=
  k.table.foldl (fun m e =>
    match e.2.gang with
    | none => m
    | some ga => ga.members.foldl (fun m x => if x.1 = slot then m ||| x.2 else m) m) 0

/-- The (kernel, header) pairs that have waiting threads, each once, in slot and lane order. -/
def Core.pairs (k : Core) : List (Nat × Word) :=
  (k.groups.flatMap fun g =>
    if g.2.canIssue then
      let busy := k.inGang g.1
      g.2.thr.filterMap fun t =>
        if t.2.st = .ready ∧ busy.getLsbD t.1 = false then some (g.2.kern, t.2.hdr.getD t.2.pc) else none
    else []).eraseDups

/-- When the first of the threads that wait at a pair arrived there. -/
def Core.pairSince (k : Core) (p : Nat × Word) : Nat :=
  let l := k.groups.flatMap fun g => g.2.thr.filterMap fun t =>
    if t.2.st = .ready ∧ (g.2.kern, t.2.hdr.getD t.2.pc) = p then some t.2.arr else none
  l.foldl min (l.headD 0)

/-- A group's threads that could join a gang at a pair: at the header, or inside the clause. -/
structure Cand where
  slot : Nat
  g : Group
  lanes : Mask
  pc : Option Word

def firstInClause (g : Group) (busy : Mask) (h : Word) : Option Word :=
  (List.find? (fun (t : Nat × Thread) => t.2.st == .ready && t.2.hdr == some h && !busy.getLsbD t.1) g.thr).map
    fun t => t.2.pc

/-- Groups with threads at a pair, those inside the clause under their own word. -/
def Core.cands (k : Core) (kern : Nat) (h : Word) : List Cand :=
  k.groups.flatMap fun x =>
    if x.2.canIssue && x.2.kern == kern then
      let busy := k.inGang x.1
      let m := x.2.atHeader h &&& ~~~busy
      (if m = 0 then [] else [⟨x.1, x.2, m, none⟩]) ++
      (match firstInClause x.2 busy h with
        | none => []
        | some pc => [⟨x.1, x.2, x.2.inClause h pc &&& ~~~busy, some pc⟩])
    else []

/-- The header of a pair, as the group fetches it. -/
def State.headerAt (s : State) (c : Nat) (g : Group) (h : Word) : FetchRes := s.fetch c g.part g.asid h

/-- A class is ready when its header's wait holds (R50), when it stands inside the clause (R51), or when its header
cannot be had, so that forming the gang raises the fault. A class inside the clause waits for those of its threads that sleep on a
barrier there (R279). -/
def State.candReady (s : State) (c : Nat) (h : Word) (x : Cand) : Bool :=
  match x.pc with
  | some pc => !(x.g.thr.any fun t => t.2.hdr == some h && t.2.pc == pc && t.2.st.onBar)
  | none =>
    match s.headerAt c x.g h with
    | .ok w => (match decodeHeader w.toNat with
      | some hd => x.g.waits hd.wait
      | none => true)
    | .miss _ => false
    | _ => true

/-- A gang's next word may issue: it was not held in this clock, and none of its threads sleeps on a barrier, for a gang keeps its
members up to the next header (R48, R279). -/
def State.gangReady (s : State) (c : Nat) (ga : Gang) : Bool :=
  ga.held != some (s.coreNow c) && !(ga.members.any fun m =>
    match s.group? c m.1 with
    | none => false
    | some g => g.thr.any fun t => m.2.getLsbD t.1 && t.2.st.onBar)

/-- An entry is ready when its gang's next word is not held, or one of its classes is ready. -/
def State.entryReady (s : State) (c : Nat) (e : Entry) : Bool :=
  match e.gang with
  | some ga => s.gangReady c ga
  | none => ((s.core c).cands e.kern e.hdr).any (s.candReady c e.hdr)

/-- A group that issues on: it has a thread in a gang whose word is not held, or in a ready class. -/
def State.groupReady (s : State) (c slot : Nat) (g : Group) : Bool :=
  ((s.core c).table.any fun e => match e.2.gang with
    | none => false
    | some ga => (ga.members.any fun m => m.1 == slot) && s.gangReady c ga) ||
  g.thr.any fun t => ((s.core c).cands g.kern (t.2.hdr.getD t.2.pc)).any fun x =>
    x.slot == slot && s.candReady c (t.2.hdr.getD t.2.pc) x

/-- Siblings in their skid that are held stop (R353). -/
def State.stopHeld (s : State) (c : Nat) : State :=
  (s.core c).groups.foldl (fun s x => match x.2.halt with
    | .skid _ => if s.groupReady c x.1 x.2 || s.runsOn c x.1 x.2 then s else s.stopSibling c x.1
    | _ => s) s

/-- Entries of a core that are ready, by index. -/
def State.readyEntries (s : State) (c : Nat) : List Nat :=
  ((s.core c).table.filter fun e => s.entryReady c e.2).map (·.1)

/-- Entries pass between pairs (R280): an entry without waiting threads is free, new pairs take free entries or join the queue in
the order in which they arrived, and an entry whose gang has just ended its clause or that has no ready class goes to the head
of the queue. -/
def State.refreshTable (s : State) (c : Nat) : State :=
  let k := s.core c
  let ps := k.pairs
  let queue := k.equeue.filter fun q => ps.contains q
  let table := k.table.filter fun e => e.2.gang.isSome || ps.contains (e.2.kern, e.2.hdr)
  let fresh := (ps.filter fun p => !(table.any fun e => (e.2.kern, e.2.hdr) == p) && !queue.contains p).mergeSort
    fun a b => decide (k.pairSince a ≤ k.pairSince b)
  let r := (queue ++ fresh).foldl (fun (r : AMap Entry × List (Nat × Word)) p =>
    match (List.range Config.tableEntries).find? fun i => (AMap.find? r.1 i).isNone with
    | some i => (AMap.put r.1 i { kern := p.1, hdr := p.2 }, r.2)
    | none => (r.1, r.2 ++ [p])) (table, [])
  let r := r.1.foldl (fun (r : List (Nat × Entry) × List (Nat × Word)) e =>
    let e : Nat × Entry := (e.1, { e.2 with ended := false })
    match r.2 with
    | q :: rest =>
      if e.2.gang.isNone && ((AMap.get table e.1 {}).ended || !s.entryReady c e.2) then
        (r.1 ++ [(e.1, { kern := q.1, hdr := q.2 })], rest ++ [(e.2.kern, e.2.hdr)])
      else (r.1 ++ [e], r.2)
    | [] => (r.1 ++ [e], r.2)) ([], r.2)
  s.setCore c { k with table := r.1, equeue := r.2 }

/-! ### Forming a gang (R281, R282) -/

/-- A slice of a class: its position, the lanes it brings, and when the first of them arrived. -/
structure Slice where
  slot : Nat
  pos : Nat
  lanes : Mask
  arr : Nat
  whole : Bool

/-- A 64-thread group that issues as two gangs: one class holds every live thread, and each half has one. -/
def Cand.two (x : Cand) : Bool :=
  x.g.width == 64 && x.g.live.all (fun l => x.lanes.getLsbD l) &&
    (x.lanes &&& 0xFFFFFFFF#64 != 0) && (x.lanes &&& 0xFFFFFFFF00000000#64 != 0)

def minArr (g : Group) (ls : List Nat) : Nat :=
  ls.foldl (fun m l => min m (g.thread l).arr) ((ls.head?.map fun l => (g.thread l).arr).getD 0)

def Cand.slices (x : Cand) : List Slice :=
  (List.range 16).filterMap fun j =>
    let ls := (lanesOf x.lanes).filter fun l => l / 4 == j
    if ls = [] then none
    else some ⟨x.slot, (x.g.pos + 4 * j) / 4, maskOf fun l => ls.contains l, minArr x.g ls, x.two⟩

/-- Take slices, the longest-waiting first, at most 8 and at distinct positions. -/
def takeSlices : List Slice → List Slice → List Slice
  | [], acc => acc
  | x :: t, acc =>
    if acc.length < 8 && !x.whole && !(acc.any fun y => y.pos == x.pos) then takeSlices t (acc ++ [x])
    else takeSlices t acc

def sliceMembers (l : List Slice) : AMap Mask :=
  l.foldl (fun (m : AMap Mask) x => AMap.put m x.slot (AMap.get m x.slot 0 ||| x.lanes)) []

/-- Members in the order of their group numbers, in which their faults in one clock count (R353). -/
def byNumber (xs : List Cand) (ms : List (Nat × Mask)) : List (Nat × Mask) :=
  let num (slot : Nat) : Nat := ((xs.find? fun y => y.slot == slot).map fun y => y.g.num).getD 0
  ms.mergeSort fun a b => decide (num a.1 ≤ num b.1)

/-- The members of a gang over the candidates that share a word, and whether it is a group issuing as two gangs. -/
def gangMembers (xs : List Cand) : List (Nat × Mask) × Bool :=
  let sl := (xs.flatMap Cand.slices).mergeSort fun a b => decide (a.arr < b.arr ∨ (a.arr = b.arr ∧ a.pos ≤ b.pos))
  match sl with
  | [] => ([], false)
  | x :: _ =>
    if x.whole then
      (((xs.filter fun y => y.slot == x.slot).map fun y => (y.slot, y.lanes)).take 1, true)
    else (byNumber xs (sliceMembers (takeSlices sl [])), false)

end Sys2Proof.Machine
end

