-- ==== Sys2Proof/Machine/Control.lean ====
section
/-! DEFINITION. Control words (R306-R320, R325-R327): transfers, rejoin and exit, spawning, sleeping and waiting, named
barriers, traps and handlers, and special registers. -/

namespace Sys2Proof.Machine

/-- A word over its group's record; nothing where the group has gone. -/
def onGroup (x : Ctx) (s : State) (f : Group → WRes) : WRes :=
  match s.group? x.core x.slot with
  | none => .ok s
  | some g => f g

def illegal (x : Ctx) : WRes := .trap { cause := 0x01, lane := ((lanesOf x.lanes).head?).getD 0 }

/-! ### Transfers (R308-R310) -/

/-- `PC + 8 * sext(IMM27)`. -/
def codeTarget (pc : Word) (disp : BitVec 27) : Word := pc + disp.signExtend 64 * 8

/-- The first fault among the fetches of the distinct targets, lowest lane first, or the fills that are still to come; a fault
behind a fill that has not come is not known to be the first (R309). A fault of the fetch itself is marked as a fetch fault
(R352), as is every fault of the word behind the clause, where the lanes outside `act` go on. -/
def State.checkTargets (s : State) (c : Nat) (g : Group) (act : Mask) : List (Nat × Word) → List Nat → WRes ⊕ List Nat
  | [], miss => .inr miss
  | (l, pc) :: t, miss =>
    let bad (n : Nat) (fetch : Bool) : WRes ⊕ List Nat :=
      if miss = [] then .inl (.trap { cause := n, lane := l, fetch := fetch }) else .inr miss
    match s.fetch c g.part g.asid pc with
    | .miss tag => s.checkTargets c g act t (miss ++ [tag])
    | .fatal => .inl .fatal
    | .bad n => bad n (!act.getLsbD l || (n != 0x01 && n != 0x04))
    | .ok w => if bits w 63 56 = 1 then s.checkTargets c g act t miss else bad 0x01 false

/-- Each target once, with the lowest lane that goes there. -/
def distinctTargets (l : List (Nat × Word)) : List (Nat × Word) :=
  l.foldl (fun acc x => if acc.any fun y => y.2 == x.2 then acc else acc ++ [x]) []

/-- Check the targets, then go on. -/
def State.withTargets (s : State) (c : Nat) (g : Group) (act : Mask) (next : List (Nat × Word)) (k : WRes) : WRes :=
  match s.checkTargets c g act (distinctTargets next) [] with
  | .inl r => r
  | .inr [] => k
  | .inr miss => .hold miss

/-- Uniformity (R285): the lowest lane that disagrees with the lowest lane of the issue. -/
def disagree (next : List (Nat × Word)) : Option Nat :=
  match next with
  | [] => none
  | (_, pc) :: t => (t.find? fun x => x.2 != pc).map (·.1)

/-- Lanes arrive at their next headers. -/
def Group.moveTo (g : Group) (next : List (Nat × Word)) (tick : Nat) : Group :=
  { g with
    thr := g.thr.map fun (t : Nat × Thread) =>
      match next.find? fun n => n.1 == t.1 with
      | none => t
      | some n => (t.1, { t.2 with pc := n.2, hdr := none, arr := tick, st := .ready }) }

/-- The check of a return-stack spill or fill (R287): a page that grants the access, an ordinary one for a spill and one of
a class that a weak load may read (R157) for a fill; and the late causes of its translation, which are precise here (R351).
`STACKTOP` is always canonical. The number is the step of R156 that fails, 0 where an answer is not there, 10 for a late
cause. -/
def State.checkStack (s : State) (c : Nat) (g : Group) (va : Nat) (write : Bool) : Option (Nat × WRes) :=
  let e := easidOf g.asid va
  match s.plbAt c g.part e va with
  | .miss => some (0, .hold [pageTag g.part e va])
  | .fatal => some (0, .fatal)
  | .bad n => some (7, .trap { cause := n })
  | .hit h =>
    if !h.r || (write && (!h.w || h.sealed)) then some (8, .trap { cause := 0x09 })
    else if h.cls ≠ 0 ∧ (write = true ∨ h.cls = 2) then some (9, .trap { cause := 0x0A })
    else
      match s.leafOf g.part e va with
      | .busy => some (0, .hold [])
      | .leaf w _ => (s.lateCause g.part e va w false).map fun n => (10, .trap { cause := n })
      | _ => some (10, .trap { cause := 0x08 })

/-- The first step that some lane fails, raised for the lowest lane that fails it (R156). -/
def firstStack (l : List (Nat × Option (Nat × WRes))) : Option WRes :=
  [0, 7, 8, 9, 10].findSome? fun n =>
    l.findSome? fun x =>
      match x.2 with
      | none => none
      | some (m, r) =>
        if m ≠ n then none
        else
          match r with
          | .trap t => some (.trap { t with lane := x.1 })
          | r => some r

/-- Push the return address; the oldest of four entries is first spilled at `STACKTOP` (R286). -/
def Thread.push (t : Thread) (ret : Word) : Thread :=
  let bad := if t.rbad = [] then [] else 0 :: t.rbad.take 3
  if t.rstack.length < 4 then { t with rstack := ret :: t.rstack, rbad := bad }
  else { t with rstack := ret :: t.rstack.take 3, rbad := bad, top := (t.top + 8) &&& 0x00FFFFFFFFFFFFF8 }

/-- Where the last spilled entry lies, with [63:56] and [2:0] zero (Table 12.7). -/
def Thread.below (t : Thread) : Word := (t.top - 8) &&& 0x00FFFFFFFFFFFFF8

/-- RF_POISON on the return-stack entry that each lane reads (R309). -/
def Group.stackTrap (g : Group) (lanes : List Nat) (entry : Thread → Nat) : Option TrapInfo :=
  (lanes.find? fun l => (g.thread l).rbad.getD (entry (g.thread l)) 0 != 0).map fun l =>
    { cause := 0x02, lane := l, reg := some (stackKey l (entry (g.thread l)), 15) }

/-- The store of a spilled entry (R287): weak, of `.grp` scope, not flag-counted. -/
def spillReq (g : Group) (lanes : List Nat) : Req :=
  { kind := .spill, size := 8, scope := .grp,
    accs := lanes.map fun l =>
      let t := g.thread l
      let va := t.top.toNat
      { lane := l, va := va, size := 8, mask := byteMask va 8,
        data := placeBytes va 8 ((t.rstack.getLast?).getD 0).toNat } }

/-- The fetch of the header behind the clause for lanes that go on there; a fault is raised at this word (R309), and a word
there that is no header is ILLEGAL at itself (R48). -/
def State.fallThrough (s : State) (x : Ctx) (g : Group) (m : Mask) (k : WRes) : WRes :=
  if m = 0 then k
  else
    match s.fetch x.core g.part g.asid (x.pc + 8) with
    | .miss t => .hold [t]
    | .fatal => .fatal
    | .bad n => .trap { cause := n, lane := lowest m, fetch := true }
    | .ok _ => k

/-- A transfer whose targets are known: poison, uniformity, spills, the fetches, and then the move (R308, R309). -/
def State.transfer (s : State) (x : Ctx) (g : Group) (uni call : Bool) (next : List (Nat × Word)) : WRes :=
  let spills := if call then x.active.filter fun l => decide (4 ≤ (g.thread l).rstack.length) else []
  match g.stackTrap spills fun _ => 3 with
  | some t => .trap t
  | none =>
  match (if uni then disagree next else none) with
  | some l => .trap { cause := 0x0C, lane := l }
  | none =>
    match firstStack (spills.map fun l => (l, s.checkStack x.core g (g.thread l).top.toNat true)) with
    | some r => r
    | none =>
      if spills ≠ [] ∧ sbUsed (s.core x.core) + spills.length > Config.storeBuffer then .hold []
      else
        s.withTargets x.core g x.act next <|
          let s := if spills = [] then s
            else (s.pushReq x (spillReq g spills) g.seq).modGroup x.core x.slot fun g => { g with seq := g.seq + 1 }
          .ok (s.modGroup x.core x.slot fun g =>
            let g := if call then g.threads x.act fun _ t => t.push (x.pc + 8) else g
            g.moveTo next x.now)

/-- Next header of each lane of the issue: `f` for the active ones, PC + 8 for the others. -/
def nextOf (x : Ctx) (f : Nat → Word) : List (Nat × Word) :=
  (lanesOf x.lanes).map fun l => (l, if x.act.getLsbD l then f l else x.pc + 8)

def relWord (r : RelArgs) (call : Bool) : State → Host.Outcome State Fault Refusal :=
  issueWord r.g false fun x s => onGroup x s fun g =>
    s.transfer x g r.uni call (nextOf x fun _ => codeTarget x.pc r.disp)

def indWord (r : IndArgs) (call : Bool) : State → Host.Outcome State Fault Refusal :=
  issueWord r.g false fun x s => onGroup x s fun g =>
    match g.poisonTrap x.active [(64, r.a)] with
    | some t => .trap t
    | none =>
      s.transfer x g r.uni call
        (nextOf x fun l => BitVec.ofNat 64 (x.value g 64 l r.a) + r.n.signExtend 64 * 8)

def execBra (x : RelArgs) := relWord x false
def execBrx (x : IndArgs) := indWord x false
def execCall (x : RelArgs) := relWord x true
def execCallx (x : IndArgs) := indWord x true

/-- The threads of a `RET` that have a spilled entry to read. -/
def needsFill (g : Group) (l : Nat) : Bool := (g.thread l).rstack == [] && (g.thread l).top != (g.thread l).base

/-- The address that a lane returns to, `filled` giving those read from memory; it is unspecified for a thread whose
`STACKBASE` was written while entries were spilled (R286). -/
def returnTo (fr : Nat) (g : Group) (filled : List (Nat × Word)) (l : Nat) : Word :=
  if (g.thread l).astray then Config.freeWord fr (stackKey l 0)
  else match filled.find? fun f => f.1 == l with
    | some f => f.2
    | none => ((g.thread l).rstack.head?).getD 0

/-- The transfer of a `RET` whose entries are known. -/
def State.retTo (s : State) (x : Ctx) (g : Group) (uni : Bool) (filled : List (Nat × Word)) : WRes :=
  let next := nextOf x (returnTo x.fr g filled)
  match s.transfer x g uni false next with
  | .ok s =>
    .ok (s.modGroup x.core x.slot fun g => g.threads x.act fun l t =>
      if filled.any fun f => f.1 == l then { t with top := t.below }
      else { t with rstack := t.rstack.drop 1, rbad := t.rbad.drop 1 })
  | r => r

/-- `RET`: pops the hardware stack; a lane whose stack is empty reads its spilled entry, and the lanes of the issue are
held until every such read has returned (R286, R309). -/
def execRet (gd : Guard) (uni : Bool) : State → Host.Outcome State Fault Refusal :=
  issueWord gd false fun x s => onGroup x s fun g =>
    let empty := x.active.find? fun l => (g.thread l).rstack == [] && (g.thread l).top == (g.thread l).base
    match g.stackTrap (x.active.filter fun l => (g.thread l).rstack != []) fun _ => 0, empty with
    | some t, _ => .trap t
    | none, some l => .trap { cause := 0x0D, lane := l }
    | none, none =>
      let fills := x.active.filter (needsFill g)
      if fills = [] then s.retTo x g uni []
      else
        let va (l : Nat) : Nat := (g.thread l).below.toNat
        match firstStack (fills.map fun l => (l, s.checkStack x.core g (va l) false)) with
        | some r => r
        | none =>
          let q : Req :=
            { kind := .fill, size := 8, scope := .grp, sx := uni, mask := x.act,
              accs := fills.map fun l =>
                { lane := l, va := va l, size := 8,
                  st := if (s.core x.core).l1Hit (sectorTag g.part (easidOf g.asid (va l)) (va l)) (va l) 8 then .waiting
                    else .rejected 0 } }
          let id := s.next
          let s := (s.pushReq x q g.seq).modGroup x.core x.slot fun g =>
            { (g.threads x.lanes fun _ t =>
                { t with st := .fill id, pc := x.pc, hdr := some x.hdr, len := x.len }) with seq := g.seq + 1 }
          .ok s

/-! ### Lanes that go on behind a terminator (R307) -/

/-- A terminator that sends its active lanes to the next header in a state of their own. -/
def parkWord (gd : Guard) (st : State → Ctx → Group → ThrSt) : State → Host.Outcome State Fault Refusal :=
  issueWord gd false fun x s => onGroup x s fun g =>
    s.fallThrough x g x.lanes <|
      .ok (s.modGroup x.core x.slot fun g =>
        (g.advance x x.lanes).threads x.act fun _ t => { t with st := st s x g })

def execNop (gd : Guard) : State → Host.Outcome State Fault Refusal := groupWord gd fun _ g => .ok g

/-- `ILL` is always illegal (R306). -/
def execIll : State → Host.Outcome State Fault Refusal := issueWord always false fun x _ => illegal x

/-- `REJOIN` (R284, R312). -/
def execRejoin (gd : Guard) (a : Option Src) : State → Host.Outcome State Fault Refusal :=
  issueWord gd false fun x s => onGroup x s fun g =>
    match a with
    | some r =>
      (match g.poisonTrap (x.active.take 1) [(64, r)] with
        | some t => .trap t
        | none => s.fallThrough x g x.lanes (go x s g (some r)))
    | none => s.fallThrough x g x.lanes (go x s g none)
where
  go (x : Ctx) (s : State) (g : Group) (a : Option Src) : WRes :=
    let g := match a, x.active with
      | some r, l :: _ =>
        { g with rejoinm := BitVec.ofNat 64 (x.value g 64 l r % 2 ^ g.width) }
      | _, _ => g
    let g := (g.advance x x.lanes).threads x.act fun l t =>
      if g.rejoinm.getLsbD l then { t with st := .rejoin } else t
    .ok (s.setGroup x.core x.slot (g.rejoinTest x.now))

/-- `EXIT` (R313). In the skid of a pre-emption it does not issue: the group stops before it (R314, R353). -/
def execExit (gd : Guard) : State → Host.Outcome State Fault Refusal :=
  issueWord gd false fun x s => onGroup x s fun g =>
    let rest := x.lanes &&& ~~~x.act
    if x.act ≠ 0 ∧ g.halt ≠ .running ∧ (s.part g.part).inEffect = true then .trap { cause := 0 } else
    s.fallThrough x g rest <|
      let s := s.modGroup x.core x.slot fun g => g.advance x rest
      .ok (if x.act = 0 then s else s.exitLanes x.core x.slot x.act)

/-! ### Spawning (R288, R315) -/

def State.clock (s : State) (p : Nat) : Word := (s.part p).clock

/-- One thread enters the bin of its key, or begins a new content where a bin is free; `none` where none is. -/
def enterBin (bins : List SpawnBin) (key : SpawnBin) (arg : Word) : Option (List SpawnBin) :=
  let same (b : SpawnBin) : Bool :=
    b.part == key.part && b.task == key.task && b.entry == key.entry && decide (b.items.length < b.width) && !b.fired
  match bins.findIdx? same with
  | some i => some (bins.mapIdx fun j b => if j = i then { b with items := b.items ++ [arg] } else b)
  | none => if bins.length < Config.spawnBins then some (bins ++ [{ key with items := [arg] }]) else none

/-- Lanes enter in ascending order; the lanes that found a place. -/
def enterLanes (key : SpawnBin) (arg : Nat → Word) : List Nat → List SpawnBin × Mask → List SpawnBin × Mask
  | [], r => r
  | l :: t, r =>
    match enterBin r.1 key (arg l) with
    | none => r
    | some b => enterLanes key arg t (b, r.2 ||| (1#64 <<< l))

/-- `SPAWN`: lanes that find no bin leave the word held with them not yet spawned. In the dispatch team it raises DESC
(R294). -/
def execSpawn (gd : Guard) (disp : BitVec 27) (a : Src) : State → Host.Outcome State Fault Refusal :=
  issueWord gd true fun x s => onGroup x s fun g =>
    if x.act = 0 then .ok s
    else
      match g.poisonTrap x.active [(64, a)] with
      | some t => .trap t
      | none =>
        if (s.run g.run).disp then .trap { cause := 0x0B, lane := lowest x.act }
        else
        let entry := codeTarget x.pc disp
        s.withTargets x.core g x.act [(lowest x.act, entry)] <|
          let r := s.run g.run
          let key : SpawnBin :=
            { part := g.part, task := r.task, entry := entry, start := s.clock g.part, run := g.run, asid := g.asid,
              team := r.team, width := g.width, regs := g.regs, kern := g.kern, gen := r.gen, refire := r.refire }
          let todo := x.active.filter fun l => !g.spawned.getLsbD l
          let cl := clusterOf x.core
          let out := enterLanes key (fun l => BitVec.ofNat 64 (x.value g 64 l a)) todo (AMap.get s.bins cl [], 0)
          let s1 : State := { s with bins := AMap.put s.bins cl out.1 }
          if todo.all fun l => out.2.getLsbD l then
            .ok (s1.modGroup x.core x.slot fun g => { g with spawned := g.spawned &&& ~~~x.act })
          else if out.2 = 0 then .hold []
          else .part (s1.modGroup x.core x.slot fun g => { g with spawned := g.spawned ||| out.2 })

/-! ### Yielding and sleeping (R316) -/

def execYield (gd : Guard) : State → Host.Outcome State Fault Refusal :=
  parkWord gd fun s x g =>
    .yield ((s.readyEntries x.core).filter (· != x.entry)) (s.clock g.part + 256)

def execSleep (gd : Guard) (n : BitVec 27) : State → Host.Outcome State Fault Refusal :=
  parkWord gd fun s _ g => .sleep (s.clock g.part + n.setWidth 64)

/-- Wake the class of a lane, the threads of its group that sleep with it behind one word, where `p` holds of its state. -/
def State.wakeThreads (s : State) (c slot lane : Nat) (p : Group → ThrSt → Bool) : State :=
  s.modGroup c slot fun g =>
    { g with
      thr := g.thr.map fun t =>
        if t.2.st = (g.thread lane).st ∧ t.2.pc = (g.thread lane).pc ∧ p g t.2.st = true then
          (t.1, { t.2 with st := .ready, arr := s.now g.part })
        else t }

/-- A yielding class wakes when every other ready entry has been chosen once, or after 256 clocks. -/
def execYieldWake (core slot lane : Nat) (s : State) : Host.Outcome State Fault Refusal :=
  .next (s.wakeThreads core slot lane fun g st =>
    match st with
    | .yield others due => others == [] || decide (due ≤ s.clock g.part)
    | _ => false)

/-- A sleeping class wakes once `CLOCK` has reached its time. -/
def execSleepWake (core slot lane : Nat) (s : State) : Host.Outcome State Fault Refusal :=
  .next (s.wakeThreads core slot lane fun g st =>
    match st with
    | .sleep due => decide (due ≤ s.clock g.part)
    | _ => false)

/-! ### Tokens and flags (R317) -/

/-- `WTOK` is held until each named token's count is zero; registers written on those tokens may then be read. -/
def execWtok (gd : Guard) (m : BitVec 4) : State → Host.Outcome State Fault Refusal :=
  issueWord gd true fun x s => onGroup x s fun g =>
    if x.act = 0 then .ok s
    else if (List.range 4).all fun t => !m.getLsbD t || g.tok t == 0 then
      .ok (s.setGroup x.core x.slot (g.awaited x.fr m)).spend
    else .hold []

def execWflag (gd : Guard) (m : BitVec 12) : State → Host.Outcome State Fault Refusal :=
  issueWord gd true fun x s => onGroup x s fun g =>
    if x.act = 0 || g.waits m then .ok s else .hold []

/-! ### Named barriers (R318-R320) -/

/-- The checks of a barrier word that names a count (R320). -/
def barrierBad (r : Run) (handler : Bool) (b c : Nat) : Bool :=
  decide (r.ngroups < c) ||
    (match (r.bar handler b).exp with
      | none => false
      | some e => if (r.bar handler b).z then c != 0 else c != e)

/-- Put lanes to sleep on a barrier, then pass it where its phase is over already. -/
def State.waitBar (s : State) (x : Ctx) (b : Nat) : State :=
  let s := s.modGroup x.core x.slot fun g => g.threads x.act fun _ t => { t with st := .bar b }
  match s.group? x.core x.slot with
  | none => s
  | some g => s.wakeBarrier g.run g.handler b

/-- `BAR` and `BARA`: the word holds its threads until every earlier access of the group has performed at `.team`
(R319), then marks them, and the group arrives with its last mark. -/
def barWord (y : BarArgs) (wait : Bool) : State → Host.Outcome State Fault Refusal :=
  issueWord y.g true fun x s => onGroup x s fun g =>
    let r := s.run g.run
    let b := y.b.val
    if x.act = 0 then .ok s
    else if barrierBad r g.handler b y.c.val then .trap { cause := 0x0E, lane := lowest x.act }
    else
      let w := reachOf r.paired .team
      let f := s.flushFor x.core w
      let s1 := f.1
      if !f.2 || !(s1.core x.core).performed g.gid s1.next w then .hold []
      else
        let gb := g.bar b
        let s1 := s1.modGroup x.core x.slot fun g =>
          g.setBar b { gb with marks := gb.marks ||| x.act, count := y.c.val }
        let s1 := if wait then s1.modGroup x.core x.slot fun g => g.threads x.act fun _ t => { t with st := .bar b } else s1
        let s1 := s1.tryArrive x.core x.slot g.handler b
        .ok (if wait then s1.wakeBarrier g.run g.handler b else s1)

def execBar (y : BarArgs) := barWord y true
def execBara (y : BarArgs) := barWord y false

def execBarw (gd : Guard) (b : Fin 16) : State → Host.Outcome State Fault Refusal :=
  issueWord gd true fun x s =>
    if x.act = 0 then .ok s else .ok (s.waitBar x b.val)

/-! ### Traps and handlers (R325, R326, R362) -/

/-- `TRAP`, `BRK` and `SYSC` take effect with an active lane; the lanes of the issue resume at PC + 8. -/
def trapWord (y : CodeArgs) (cause : Nat) : State → Host.Outcome State Fault Refusal :=
  issueWord y.g false fun x s => onGroup x s fun g =>
    if x.act = 0 then
      s.fallThrough x g x.lanes (.ok (s.modGroup x.core x.slot fun g => g.advance x x.lanes))
    else
      .ok (s.raisePrecise x.core x.slot { cause := cause, lane := lowest x.act, code := y.code.toNat } x.pc x.lanes true)

def execTrap (y : CodeArgs) := trapWord y 0x11
def execBrk (y : CodeArgs) := trapWord y 0x12
def execSysc (y : CodeArgs) := trapWord y 0x13

/-- Every flag-counted instruction issued in handler mode has completed, whatever it counts on (R355). -/
def Core.handlerQuiet (k : Core) (g : Group) : Bool :=
  g.hflags.all (fun f => f.2 == 0) && k.reqs.all fun q =>
    q.idn.gid != g.gid || q.hdepth != g.depth || (q.kind.store && q.flagDone)

def execHret (gd : Guard) : State → Host.Outcome State Fault Refusal :=
  issueWord gd false fun x s => onGroup x s fun g =>
    if g.mode ≠ .trap then illegal x
    else if !(s.core x.core).handlerQuiet g then .hold []
    else .ok (s.returnTrap x.core x.slot)

def execHretKill (gd : Guard) : State → Host.Outcome State Fault Refusal :=
  issueWord gd false fun x s => onGroup x s fun g =>
    if g.mode ≠ .trap then illegal x else .ok (s.killTeam g.run)

/-- Leaving PREST: the trapped code goes on at its recorded PCs, or the group enters PSAVE again (Table 16.4). -/
def State.returnPrest (s : State) (c slot : Nat) (g : Group) : State :=
  let g := { g.leaveHandler with mode := .normal, halt := .running }
  let s := (s.setGroup c slot g).modCore c fun k => k.leaveGang slot (BitVec.allOnes 64)
  if (s.part g.part).inEffect then s.enterPsave c slot
  else (s.reissue c slot).retest c slot

/-- `PRET` (Table 16.4). -/
def execPret (gd : Guard) : State → Host.Outcome State Fault Refusal :=
  issueWord gd false fun x s => onGroup x s fun g =>
    match g.mode with
    | .psave =>
      if !(s.core x.core).handlerQuiet g then .hold []
      else
        let g := g.advance x x.lanes
        if (s.part g.part).inEffect then
          .ok ((s.setGroup x.core x.slot { g with mode := .psaveDone, halt := .stopped }).modCore x.core
            fun k => k.leaveGang x.slot (BitVec.allOnes 64))
        else .ok (s.setGroup x.core x.slot { g with mode := .prest })
    | .prest => if !(s.core x.core).handlerQuiet g then .hold [] else .ok (s.returnPrest x.core x.slot g)
    | _ => illegal x

/-! ### Special registers (R193, R327) -/

def mask56 (v : Word) : Word := v &&& 0x00FFFFFFFFFFFFFF
def stackAddr (v : Word) : Word := v &&& 0x00FFFFFFFFFFFFF8

/-- `GRADEFLOOR` and `AMDEPTH` (Tables 4.4, 4.5). -/
def amdepth (r : Run) : Word :=
  BitVec.ofNat 64 (r.gen % 64 * 1024 + (if r.refire then 512 else 0) + r.limit % 16 * 16 + r.depth % 16)

/-- `ROWPROG` (Table 11.6): the group's oldest `MLOAD` or `MSTORE` with requests in the operand log, its resume lane and
that lane's row. -/
def rowprog (k : Core) (gid : Nat) : Nat :=
  let logged (a : Acc) : Bool := a.st == .logged || a.st == .withdrawn
  match k.reqs.find? fun r => r.idn.gid == gid && (r.kind == .mload || r.kind == .mstore) && r.accs.any logged with
  | none => 0
  | some r =>
    match r.accs.find? logged with
    | none => 0
    | some a =>
      let row := if r.kind = .mload then a.cmp.toNat / 65536 % 65536 else a.cmp.toNat % 256
      2 ^ 31 + (if r.kind = .mstore then 2 ^ 30 else 0) + a.lane % 64 * 65536 + row

/-- What `MFS` reads for a lane. -/
def sregRead (s : State) (x : Ctx) (g : Group) (lane : Nat) (r : Sr) : Nat :=
  let run := s.run g.run
  match r with
  | .lane => lane
  | .group => g.num
  | .team => run.team
  | .task => if run.disp then 0xFFFFFFFF else run.task
  | .core => coreIn x.core
  | .pair => (if run.paired then 2 else 0) + (if run.paired ∧ run.cores.head? ≠ some x.core then 1 else 0)
  | .cluster => clusterOf x.core
  | .die => dieOf x.core
  | .chip => bits (s.hreg 0x710) 11 0
  | .gwidth => g.width
  | .active => x.act.toNat
  | .rejoinm => g.rejoinm.toNat
  | .awbase => g.awbase
  | .awlimit => g.awlimit
  | .rowprog => rowprog (s.core x.core) g.gid
  | .stackbase => (g.thread lane).base.toNat
  | .stacktop => (g.thread lane).top.toNat
  | .gradefloor => run.floor
  | .amdepth => (amdepth run).toNat
  | .faultpc => g.faultpc.toNat
  | .faultinfo => g.faultinfo.toNat
  | .skid => g.skid.toNat
  | .prebudget => (s.part g.part).prebudget
  | .clock => (s.clock g.part).toNat

def execMfs (gd : Guard) (d : Dst) (r : Sr) : State → Host.Outcome State Fault Refusal :=
  issueWord gd true fun x s => onGroup x s fun g =>
    let ty : Ty := if r.bits = 64 then .b64 else .n32
    .ok (s.setGroup x.core x.slot (x.result g ty d true fun l => sregRead s x g l r))

def windowTrap (x : Ctx) : WRes := .trap { cause := 0x0F, lane := lowest x.act }

/-- `MTS`: a thread register in each active lane, any other from the lowest. -/
def sregWrite (s : State) (x : Ctx) (g : Group) (r : Sr) (val : Nat → Nat) : WRes :=
  let v := val (lowest x.act)
  let put (g : Group) : WRes := .ok (s.setGroup x.core x.slot g)
  match r with
  | .rejoinm =>
    .ok (s.setGroup x.core x.slot
      (({ g with rejoinm := BitVec.ofNat 64 (v % 2 ^ g.width) } : Group).rejoinTest x.now))
  | .awbase =>
    if v % 8 = 0 ∧ g.awbase ≤ v ∧ v ≤ g.awlimit then put { g with awbase := v } else windowTrap x
  | .awlimit =>
    if v % 8 = 0 ∧ g.awbase ≤ v ∧ v ≤ g.awlimit then put { g with awlimit := v } else windowTrap x
  | .stackbase =>
    put (g.threads x.act fun l t =>
      { t with base := stackAddr (BitVec.ofNat 64 (val l)), top := stackAddr (BitVec.ofNat 64 (val l)),
               astray := t.astray || t.top != t.base })
  | .stacktop => put (g.threads x.act fun l t => { t with top := stackAddr (BitVec.ofNat 64 (val l)) })
  | .gradefloor => .ok (s.modRun g.run fun q => { q with floor := min q.floor (v % 4) })
  | .amdepth =>
    let d := v % 16
    if (s.run g.run).limit < d then .trap { cause := 0x22, lane := lowest x.act }
    else .ok (s.modRun g.run fun q => { q with depth := max q.depth d })
  | .faultpc => if g.mode = .trap then put { g with faultpc := mask56 (BitVec.ofNat 64 v) } else illegal x
  | .faultinfo =>
    if g.mode = .trap then put { g with faultinfo := BitVec.ofNat 64 v &&& 0xFFFFFFFFFFFF0FFF } else illegal x
  | .skid => if g.mode = .trap then put { g with skid := BitVec.ofNat 32 v &&& 0xF000011F } else illegal x
  | .prebudget =>
    if s.bellwether g.part = x.core then
      .ok (s.modPart g.part fun p => { p with prebudget := max 1024 (min 1048576 (v % 2 ^ 32)) })
    else illegal x
  | _ => illegal x

def execMts (gd : Guard) (r : Sr) (a : Src) : State → Host.Outcome State Fault Refusal :=
  issueWord gd true fun x s => onGroup x s fun g =>
    let handlerOnly : Bool := match r with
      | .faultpc | .faultinfo | .skid => g.mode != .trap
      | .prebudget => s.bellwether g.part != x.core
      | _ => false
    if handlerOnly then illegal x
    else if x.act = 0 then .ok s
    else
      let lanes := match r with
        | .stackbase | .stacktop => x.active
        | _ => x.active.take 1
      match g.poisonTrap lanes [(r.bits, a)] with
      | some t => .trap t
      | none => sregWrite s x g r fun l => x.value g r.bits l a

end Sys2Proof.Machine
end

