-- ==== Sys2Proof/Machine/Access.lean ====
section
/-! DEFINITION. Addresses of memory words (R152), their precise checks (R153, R156-R158), scratchpad places (R108,
R109), what an address names at its home (R72, R125, R158, R375), outward destinations (R100), and requests that leave
the chip (R101, R124, R126, R132, R137). -/

namespace Sys2Proof.Machine

/-! ### Addresses (R152) -/

/-- Registers that an address reads, with their widths. -/
def addrSrcs (sp : Space) (m : Addr) : List (Nat × Src) :=
  (sp.baseBits, m.a) :: (match m.b with | none => [] | some b => [(32, b)])

/-- `a + b + sext(OFF9) * size` of a lane. -/
def Ctx.ea (x : Ctx) (g : Group) (sp : Space) (m : Addr) (size lane : Nat) : Nat :=
  let a : Int := (x.value g sp.baseBits lane m.a : Nat)
  let b : Int := match m.b with
    | none => 0
    | some b => match sp with
      | .glb => (BitVec.ofNat 32 (x.value g 32 lane b)).toInt
      | _ => (x.value g 32 lane b : Nat)
  ((a + b + m.off.toInt * size) % (2 ^ sp.baseBits : Nat)).toNat

/-! ### Scratchpad places (R108, R109) -/

/-- A place is device core * 2^18 + way * 32768 + byte. -/
def placeCore (pl : Nat) : Nat := pl / 2 ^ 18
def placeKey (pl : Nat) : Nat := pl % 2 ^ 18

/-- A team's `.loc` offset: whole inside the team's scratchpad. -/
def Run.locPlace (r : Run) (off size : Nat) : Option Nat :=
  match r.ways[off / Config.wayBytes]? with
  | none => none
  | some w =>
    if (off + size - 1) / Config.wayBytes < r.ways.length then
      some (w.1 * 2 ^ 18 + w.2 * Config.wayBytes + off % Config.wayBytes)
    else none

/-- A `.clu` address as a task sees it: a scratchpad way of the cluster that a team of the same task holds. -/
def State.cluPlace (s : State) (cl : Nat) (part asid task : Nat) (disp : Bool) (ea : Nat) : Option Nat :=
  let c := ea / 2 ^ 18
  if c < Config.coresPerCluster then
    let k := s.core (cl * Config.coresPerCluster + c)
    let way := ea % 2 ^ 18 / Config.wayBytes
    match AMap.find? k.holders way with
    | some h =>
      let r := s.run h
      if k.carve ≤ way ∧ r.part = part ∧ r.asid = asid ∧ r.task = task ∧ r.disp = disp then
        some (cl * Config.coresPerCluster * 2 ^ 18 + ea)
      else none
    | none => none
  else none

/-- The place of a group's scratchpad access. -/
def State.place (s : State) (c : Nat) (g : Group) (sp : Space) (ea size : Nat) : Option Nat :=
  let r := s.run g.run
  match sp with
  | .loc => r.locPlace ea size
  | _ => s.cluPlace (clusterOf c) r.part r.asid r.task r.disp ea

/-! ### Precise checks (R156) -/

/-- One access that a word is about to make: `r` and `w` say what it needs of its page, `store` that it writes data
there, `cls` which classes it accepts. -/
structure Touch where
  lane : Nat
  space : Space
  va : Nat
  size : Nat
  r : Bool
  w : Bool
  cls : Nat → Bool
  store : Bool := true

def firstBad (ts : List Touch) (p : Touch → Bool) (cause : Nat) : Option TrapInfo :=
  (ts.find? p).map fun t => { cause := cause, lane := t.lane }

/-- The scopes wider than `.dev` that `SCOPEPOL` allows: bit 0 `.ten`, bit 1 `.sys` (R371). -/
def State.scopeOk (s : State) (p : Nat) (sc : Scope) : Bool :=
  match sc with
  | .ten => (s.hreg (0x380 + 8 * p)).getLsbD 0
  | .sys => (s.hreg (0x380 + 8 * p)).getLsbD 1
  | _ => true

/-- The PLB's answers for the global accesses of a word. -/
def State.plbFor (s : State) (c : Nat) (g : Group) (t : Touch) : PlbRes :=
  s.plbAt c g.part (easidOf g.asid t.va) t.va

/-- Steps 3 to 10 of R156 over the accesses of a word, in lane order; `desc` is the lane of a broken descriptor. -/
def State.check (s : State) (x : Ctx) (g : Group) (sc : Scope) (ts : List Touch) (desc : Option Nat) : Option WRes :=
  let glb := ts.filter fun t => t.space == .glb
  let early : Option TrapInfo :=
    (if s.scopeOk g.part sc then none else some { cause := 0x03, lane := lowest x.act })
      <|> firstBad glb (fun t => !isCanonical t.va) 0x04
      <|> firstBad ts (fun t => t.va % t.size != 0) 0x05
      <|> firstBad ts (fun t => t.space != .glb && (s.place x.core g t.space t.va t.size).isNone) 0x06
  match early with
  | some t => some (.trap t)
  | none =>
    let miss := glb.filterMap fun t =>
      match s.plbFor x.core g t with
      | .miss => some (pageTag g.part (easidOf g.asid t.va) t.va)
      | _ => none
    if glb.any fun t => (match s.plbFor x.core g t with | .fatal => true | _ => false) then some .fatal
    else if miss ≠ [] then some (.hold miss.eraseDups)
    else
      let fill := glb.findSome? fun t =>
        match s.plbFor x.core g t with
        | .bad n => some { cause := n, lane := t.lane : TrapInfo }
        | _ => none
      let perm (t : Touch) : Bool :=
        match s.plbFor x.core g t with
        | .hit e => (t.r && !e.r) || (t.w && (!e.w || (t.store && e.sealed)))
        | _ => false
      let cls (t : Touch) : Bool :=
        match s.plbFor x.core g t with
        | .hit e => !t.cls e.cls
        | _ => false
      let late : Option TrapInfo :=
        fill <|> firstBad glb perm 0x09 <|> firstBad glb cls 0x0A <|> desc.map fun l => { cause := 0x0B, lane := l }
      late.map .trap

/-- Table 8.3 by instruction. -/
def clsOrdinary (n : Nat) : Bool := n == 0
def clsGraded (n : Nat) : Bool := n == 1 || n == 3
def clsLoad (n : Nat) : Bool := n != 2
def clsGossip (n : Nat) : Bool := n == 2
def clsSeal (n : Nat) : Bool := n == 0 || n == 1

/-! ### What an address names -/

/-- Where a request is performed. `window` carries the IFA and the class of the leaf. -/
inductive Dest where
  | mem (l : Loc)
  | host (addr : Word)
  | window (ifa : Word) (cls : Nat)
deriving DecidableEq, Repr

/-- Which of a page's kinds an instruction may not use (R158): windows, or everything but windows. -/
inductive Kindly where
  | either | noWindow | onlyWindow
deriving DecidableEq, Repr

def Kindly.bad (k : Kindly) (f : Bool) : Bool :=
  match k with
  | .either => false
  | .noWindow => f
  | .onlyWindow => !f

/-- The address that the host proxy sends out (R375). -/
def State.hostAddr (s : State) (p va : Nat) : Word :=
  let b := bits (s.preg p 0x2808) 58 24 * 2 ^ 21
  BitVec.ofNat 64 (bits (s.preg p 0x2810) 63 21 * 2 ^ 21 + (va - b))

/-- The translation of a request at its home, or its first late cause (R72); cause 0 says that the walk waits for an engine that has
a table's sector (R70). -/
def State.resolve (s : State) (p asid va : Nat) (k : Kindly) : Except Nat Dest :=
  let e := easidOf asid va
  match s.leafOf p e va with
  | .leaf w _ =>
    let host := s.hostWindow p va
    match s.lateCause p e va w (k.bad (leafF w && !host)) with
    | some n => .error n
    | none =>
      if host then .ok (.host (s.hostAddr p va))
      else if leafF w then .ok (.window (leafIfa w va) (leafClass w))
      else .ok (.mem (leafLoc p e va w))
  | .busy => .error 0
  | _ => .error 0x08

def chipOf (ifa : Word) : Nat := ifa.toNat / 2 ^ 52

/-- Whether a chip lies in a partition's graded domain (R130). -/
def State.inDomain (s : State) (p t : Nat) : Bool :=
  let d := s.preg p 0x2200
  t == bits (s.hreg 0x710) 11 0 || (decide (bits d 63 52 ≤ t) && decide (t ≤ bits d 51 40))

/-- Outward destinations (R100). -/
def State.outward (s : State) (p va : Nat) (d : Dest) : Bool :=
  match d with
  | .host _ => true
  | .window ifa _ => !s.inDomain p (chipOf ifa)
  | .mem _ => s.outwardMem p va

/-! ### Sectors in an engine's hands (R117) -/

/-- Whether an engine's operation that came to the homes as number `n` must wait for a sector: another engine has taken it and not
written it yet, or something that came to the home before waits there and the engine has not taken the sector. -/
def State.claimedByOther (s : State) (holder n t : Nat) : Bool :=
  if (s.copies t).any fun c => c.st == .e && decide (8 ≤ c.holder) then
    (s.copies t).any fun c => c.st == .e && decide (8 ≤ c.holder) && c.holder != holder
  else s.waitsBefore t n

/-- Take E on sectors in the order of a list, up to the first that is not free for an operation of number `n`. -/
def claimList (holder : Nat → Nat) (p asid n : Nat) : List Nat → State → State
  | [], s => s
  | va :: vas, s =>
    match s.resolve p asid va .noWindow with
    | .ok (.mem l) =>
      if (s.copies l.tag).any fun c => c.st == .e && c.holder == holder va then claimList holder p asid n vas s
      else if s.claimed l.tag || s.waitsBefore l.tag n then s
      else claimList holder p asid n vas ((s.installTlb p l.easid va).claim (holder va) l)
    | _ => claimList holder p asid n vas s

/-- Take E on the memory sectors that an operation has still to write, each for the agent that writes it, in ascending order as
far as they can be had (R117). For the one that is not free, and for those above it, the operation waits at their homes in its turn
(R116). -/
def claimAll (holder : Nat → Nat) (p asid n : Nat) (vas : List Nat) (s : State) : State :=
  claimList holder p asid n (vas.mergeSort (· ≤ ·)) s

/-- An operation that stops gives up the sectors that it has taken: a recall is answered with what they hold. -/
def State.unclaim (s : State) (holder p asid : Nat) (vas : List Nat) : State :=
  vas.foldl (fun s va =>
    let t := sectorTag p (easidOf asid va) va
    s.setCopies t ((s.copies t).map fun c => if c.holder = holder ∧ c.st = .e then { c with st := .m } else c)) s

/-- Land bytes in a memory sector; the engine keeps E while it has more to write there. -/
def State.landSector (s : State) (holder : Nat) (l : Loc) (mask : Mask) (d : Sector) (more : Bool) : State :=
  let s := s.mergeOwned holder l mask d
  if more then
    s.setCopies l.tag ((s.copies l.tag).map fun c => if c.holder = holder ∧ c.st = .m then { c with st := .e } else c)
  else s

def State.land32 (s : State) (holder : Nat) (l : Loc) (va v : Nat) (more : Bool) : State :=
  s.landSector holder l (byteMask va 32) (placeBytes va 32 v) more

/-! ### Requests that leave the chip -/

def codeOf (ifa : Word) : Nat := bits ifa 10 8

/-- The plane of a code (R124) and whether it lives (R137). -/
def State.planeOf (s : State) (code : Nat) : Nat := bits (s.hreg 0x700) (3 * code + 2) (3 * code)
def State.planeLive (s : State) (plane : Nat) : Bool := (s.hreg 0x700).getLsbD (24 + plane)
def State.codeHeld (s : State) (code : Nat) : Bool := (s.hreg 0x708).getLsbD code

def lkstat (n : Nat) : Nat := 0x1000 + 8 * n

def State.link (s : State) (n : Nat) : Link := AMap.get s.links n {}
def State.setLink (s : State) (n : Nat) (l : Link) : State := { s with links := AMap.put s.links n l }
def State.setCtr (s : State) (n v : Nat) : State := s.setHreg (lkstat n) (setBits (s.hreg (lkstat n)) 63 16 v)
def State.linkBit (s : State) (n b : Nat) (v : Bool) : State :=
  s.setHreg (lkstat n) (setBits (s.hreg (lkstat n)) b b (if v then 1 else 0))
def State.irq (s : State) (i : Irq) : State := { s with irqs := s.irqs ++ [i] }

/-- The link by which a request of a code leaves for a chip (R123). -/
def State.linkFor (s : State) (code chip : Nat) : Nat :=
  let plane := s.planeOf code
  9 * plane + Config.pathPort plane chip % 9

/-- Traffic waits at the source while its code is held (R138), or its link has stopped for want of a key (R136). -/
def State.netWaits (s : State) (ifa : Word) : Bool :=
  s.codeHeld (codeOf ifa) || (s.hreg (lkstat (s.linkFor (codeOf ifa) (chipOf ifa)))).getLsbD 1

/-- Flits of a packet: its header, and its payload at 64 bytes each (R122). -/
def payloadFlits (bytes : Nat) : Nat := 1 + (bytes + 63) / 64
def opFlits : PacketOp → Nat
  | .store m _ | .stg m _ _ _ _ _ | .amend m _ _ _ _ | .exportStore m _ _ _ _ _ | .bulk m _ _ =>
    payloadFlits ((List.range 256).filter m.getLsbD).length
  | .atom .. => 2
  | _ => 1

def State.ctr (s : State) (link : Nat) : Nat := bits (s.hreg (lkstat link)) 63 16

/-- The counter moves on; WARN comes with 2^47 (R136). -/
def State.countFlits (s : State) (link n : Nat) : State :=
  let c := s.ctr link
  let s := s.setCtr link (c + n)
  if c < 2 ^ 47 ∧ 2 ^ 47 ≤ c + n then (s.linkBit link 2 true).irq (.linkKeyWarn link) else s

/-- The link uses its standby key, with the counter at 0 (R135). -/
def State.switchKey (s : State) (link : Nat) (k : Nat × Nat) : State :=
  (((s.setLink link { s.link link with key := some k, standby := none }).setCtr link 0).linkBit link 1 false)

/-- The counter is at its end and no key stands by: data stops, and KEYREQ is set (R136). -/
def State.stopLink (s : State) (link : Nat) : State :=
  ((s.setCtr link (2 ^ 48 - 2)).linkBit link 1 true).irq (.linkKeyExhaust link)

/-- Each flit that a keyed link sends uses the next counter value, and none twice (R134). A packet for which too few values are
left goes under the standby key, or waits with the link (R136, log entry 104). -/
def State.useFlits (s : State) (link n : Nat) : State × Bool :=
  let l := s.link link
  if l.key.isNone then (s, true)
  else
    match l.standby with
    | some k =>
      if s.ctr link + n ≤ 2 ^ 48 - 2 then (s.countFlits link n, true) else ((s.switchKey link k).countFlits link n, true)
    | none =>
      if s.ctr link + n < 2 ^ 48 - 2 then (s.countFlits link n, true)
      else if s.ctr link + n = 2 ^ 48 - 2 then ((s.countFlits link n).stopLink link, true)
      else (s.stopLink link, false)

/-- A request goes out, where its link can send it; one on a dead plane is lost (R137). -/
def State.launchNet (s : State) (r : OutReq) : State × OutReq :=
  let c := codeOf r.ifa
  if s.planeLive (s.planeOf c) then
    let x := s.useFlits (s.linkFor c (chipOf r.ifa)) (opFlits r.op)
    (x.1, { r with sent := x.2 })
  else (s, { r with sent := true, lost := true })

/-- Answers to other chips that wait for a link go out where theirs can send (R136). -/
def State.sendReplies (s : State) : State :=
  s.replies.foldl (fun (s : State) r =>
    let link := s.linkFor r.code r.chip
    if !s.planeLive (s.planeOf r.code) || (s.hreg (lkstat link)).getLsbD 1 then { s with replies := s.replies ++ [r] }
    else
      match s.useFlits link r.flits with
      | (s, true) => { s with answers := s.answers ++ [r.answer] }
      | (s, false) => { s with replies := s.replies ++ [r] }) { s with replies := [] }

/-- An answer to a packet of another chip, on the packet's plane (R124). -/
def State.reply (s : State) (code chip flits : Nat) (a : Answer) : State :=
  ({ s with replies := s.replies ++ [{ code := code, chip := chip, flits := flits, answer := a }] } : State).sendReplies

/-- Send a request on the fabric, or queue it at the source. -/
def State.sendNet (s : State) (r : OutReq) : State :=
  let r := { r with id := s.next, fpid := bits (s.hreg (0x600 + 8 * r.part)) 15 0 }
  let x := if s.netWaits r.ifa then (s, r) else s.launchNet r
  ({ x.1 with net := x.1.net ++ [x.2] } : State).bump

/-- Queued requests that nothing holds any more go out, in order. -/
def State.releaseNet (s : State) : State :=
  s.net.foldl (fun s r =>
    if r.sent || s.netWaits r.ifa then s
    else
      let x := s.launchNet r
      { x.1 with net := x.1.net.map fun y => if y.id = r.id then x.2 else y }) s

/-- A request to host memory goes out; in RUN it carries the T bit on the function's own stream (R376). -/
def State.sendHost (s : State) (r : HostReq) : State :=
  ({ s with host := s.host ++ [{ r with id := s.next, secure := (s.part r.part).tdi == .run }] } : State).bump

/-- Whether stores of a group that the hold buffer has released are still draining (R102). They answer to no access. -/
def State.draining (s : State) (p gid : Nat) : Bool :=
  ((s.part p).hold.any fun h => h.freed && h.org.idn.gid == gid) ||
    (s.net.any fun r => r.who == [] && r.part == p && r.org.idn.gid == gid) ||
    s.host.any fun r => r.who == [] && r.part == p && r.org.idn.gid == gid

def Req.origin (q : Req) (lane : Nat) : Origin := { idn := q.idn, pc := q.pc, seq := q.seq, lane := lane }

/-- A byte mask of a sector as a mask of its line, and likewise its data. -/
def lineMask (va : Nat) (m : Mask) : BitVec 256 := m.setWidth 256 <<< (va / 64 % 4 * 64)
def lineData (va : Nat) (d : Sector) : BitVec 2048 := d.setWidth 2048 <<< (va / 64 % 4 * 512)

/-- The lanes whose bytes a store's access carries. -/
def Acc.writers (a : Acc) : List (Nat × Mask) := if a.wrote = [] then [(a.lane, a.mask)] else a.wrote

/-- Drain a combining entry: one packet of its masked bytes (R132). -/
def State.drainEntry (s : State) (c : Nat) (e : CombEnt) : State :=
  let s := s.modCore c fun k => { k with comb := k.comb.filter fun x => x != e }
  let va := e.line * 256
  match s.resolve e.part e.easid va .either with
  | .ok (.window ifa _) =>
    let id := s.next
    let org : Origin := match e.who.head? with
      | none => {}
      | some w => match (s.core c).req? w.1 with
        | none => {}
        | some q => q.origin 0
    let s := s.sendNet { part := e.part, easid := e.easid, va := va, ifa := ifa, op := .store e.mask e.data,
                         who := e.who.map fun w => (c, w.1, w.2), org := org }
    e.who.foldl (fun s w => s.modReq c w.1 fun r => r.setAcc w.2 fun a => { a with st := .sent id }) s
  | _ => e.who.foldl (fun s w => s.modReq c w.1 fun r => r.setAcc w.2 fun a => { a with st := .waiting }) s

/-- Whether an address is an outward destination now. -/
def State.outwardVa (s : State) (p asid va : Nat) : Bool :=
  match s.resolve p asid va .either with
  | .ok d => s.outward p va d
  | .error _ => false

/-- An entry drains; outward stores that lie in older entries go before those of an outward one (R347). -/
def State.drainInOrder (s : State) (c : Nat) (e : CombEnt) : State :=
  let out (x : CombEnt) : Bool := s.outwardVa x.part x.easid (x.line * 256)
  let before := if out e then ((s.core c).comb.takeWhile (· != e)).filter out else []
  (before ++ [e]).foldl (fun s x => s.drainEntry c x) s

def State.drainWhere (s : State) (c : Nat) (p : CombEnt → Bool) : State :=
  ((s.core c).comb.filter p).foldl (fun s e => if (s.core c).comb.contains e then s.drainInOrder c e else s) s

/-- Entries that hold stores of a group. -/
def CombEnt.has (e : CombEnt) (gid : Nat) : Bool := e.byThr.any fun w => w.1 == gid

/-- The outward stores of a group that still lie in the buffer, other than those to the line of its next one, leave before it
(R347). -/
def State.drainOutward (s : State) (c : Nat) (q : Req) (line : Nat) : State :=
  s.drainWhere c fun e => e.has q.idn.gid && e.line != line && s.outwardVa e.part e.easid (e.line * 256)

/-- Merge a weak store into the combining buffer; the oldest of 32 entries makes room, and a full entry drains. -/
def State.combine (s : State) (c : Nat) (q : Req) (idx : Nat) (a : Acc) : State :=
  let p := q.idn.part
  let e := easidOf q.idn.asid a.va
  let line := a.va / 256
  let same (x : CombEnt) : Bool := x.part == p && x.easid == e && x.line == line
  let k := s.core c
  let s := match k.comb.find? same, k.comb with
    | none, oldest :: _ => if Config.combineEntries ≤ k.comb.length then s.drainInOrder c oldest else s
    | _, _ => s
  let k := s.core c
  let x := (k.comb.find? same).getD { part := p, easid := e, line := line }
  let m := lineMask a.va a.mask
  let x' := { x with
    mask := x.mask ||| m,
    data := BitVec.ofNat 2048 (mergeBytes 256 x.data.toNat (lineData a.va a.data).toNat m.toNat),
    byThr := x.byThr ++ a.writers.map fun w => (q.idn.gid, w.1, lineMask a.va w.2), who := x.who ++ [(q.id, idx)] }
  let s := s.setCore c
    { k with comb := if k.comb.any same then k.comb.map fun y => if same y then x' else y else k.comb ++ [x'] }
  let s := s.setAccSt c q.id idx .comb
  if x'.mask = BitVec.allOnes 256 then s.drainInOrder c x' else s

/-! ### The outward hold buffer (R101) -/

/-- Place a store in the hold buffer, where it counts as performed; nothing where it is full. -/
def State.holdStore (s : State) (q : Req) (a : Acc) (gen : Nat) (op : PacketOp) : Option State :=
  let p := q.idn.part
  if (s.part p).hold.length < Config.holdEntries then
    some (s.modPart p fun x =>
      { x with hold := x.hold ++
          [{ org := q.origin a.lane, gen := gen, easid := easidOf q.idn.asid a.va, va := a.va, op := op }] })
  else none

end Sys2Proof.Machine
end

