-- ==== Sys2Proof/Machine/Engines.lean ====
section
/-! DEFINITION. The accesses of a group that come before the operations of the Dray, the Ox load pipes and the fabric port that it
issues later (R337). -/

namespace Sys2Proof.Machine

/-- Whether an address lies in a window: what is done there performs at a target chip or at the host proxy. -/
def State.inWindowPage (s : State) (p asid va : Nat) : Bool :=
  s.hostWindow p va || (match s.leafOf p (easidOf asid va) va with
    | .leaf w _ => leafF w
    | _ => false)

/-- Whether an access of a group comes before the operations that the group issues later: one to a scratchpad, the reads of an
`MLOAD` there among them, and a strong one that performs at a shared cache, at a home or at a target chip. -/
def State.ordersEngines (s : State) (r : Req) (a : Acc) : Bool :=
  let out := decide (1 ≤ Scope.rank r.scope) || s.inWindowPage r.idn.part r.idn.asid a.va
  a.space != .glb ||
    match r.kind with
    | .ld | .st => r.strong && out
    | .atom | .fatom => out
    | .ldg | .grd | .stg | .amend | .ginit | .gadd | .gread | .gspread => true
    | _ => false

/-- Whether the accesses that come before an operation have performed. Fences, which hold back the words behind them, have
performed by the time that it issues; a test that an `ACWAIT` still makes is an acquire to come. -/
def State.engineReady (s : State) (c : Nat) (q : Req) : Bool :=
  (s.core c).reqs.all fun r => r.idn.gid != q.idn.gid || decide (q.id ≤ r.id) || (r.kind.engine && r.kind != .mload) ||
    r.accs.all fun a => a.performed .narrow || !s.ordersEngines r a

end Sys2Proof.Machine
end

