-- ==== Sys2Proof/Machine/Perform.lean ====
section
/-! DEFINITION. How one access of a request performs (R109-R113, R133, R159-R168, R171, R172): loads, stores, atomics,
watches, probes and cache operations, each where Table 5.2 puts it. -/

namespace Sys2Proof.Machine

/-- What trying to perform an access comes to: it must wait, it faults late, or it has performed. -/
inductive Outc where
  | wait (s : State)
  | late (f : Late) (s : State)
  | done (s : State)

/-! ### Order among a group's accesses (R85, R109, R149, R164) -/

/-- Where an access falls: a global sector, or a scratchpad way (R109). -/
def Acc.spot (p asid : Nat) (a : Acc) : Nat × Nat :=
  match a.space with
  | .glb => (0, sectorTag p (easidOf asid a.va) a.va)
  | _ => (1, a.va / Config.wayBytes)

/-- Words whose lanes act on whole gossip lines (R149, R150). -/
def ReqKind.line : ReqKind → Bool
  | .ginit | .gadd | .gread | .gspread => true
  | _ => false

/-- The place at which an access of a request stands in order: for a gossip word the first sector of its line. -/
def Req.spot (r : Req) (a : Acc) : Nat × Nat :=
  (if r.kind.line then { a with va := a.va / 256 * 256 } else a).spot r.idn.part r.idn.asid

/-- A source that has still to be read: of an `FPUT`, which reads at issue (R181), or of a row of an `MLOAD`, whose reads are
its thread's (Table 15.1). A later access of the group to the place is not to come between. -/
def Req.unread (r : Req) (b : Acc) (q : Req) (a : Acc) : Bool :=
  b.pending &&
    match r.kind with
    | .fput =>
      !b.got &&
        ({ b with space := r.space, va := b.cmp.toNat } : Acc).spot r.idn.part r.idn.asid == a.spot q.idn.part q.idn.asid
    | .mload => (q.kind.store || q.kind == .atom) && (b.space == .glb) == (a.space == .glb) &&
        (b.space != .glb || (decide (b.va / 64 ≤ a.va / 64) && decide (a.va < b.va + b.size)))
    | _ => false

/-- A sector that an earlier copy of the group will write and has not taken: the group's later accesses to it come behind the
copy (R344). -/
def State.untaken (s : State) (r q : Req) (a : Acc) : Bool :=
  let t := accTag q.idn.part q a
  a.space == .glb && r.copyTags.contains t && !s.claimed t

/-- An `LDG` that waits for its grade: a later access to the sector by its own lane comes behind it (R340). -/
def Acc.parks (b a : Acc) : Bool :=
  (b.st == .parked && !b.got || b.st == .refused) && a.writers.any fun w => w.1 == b.lane

/-- Whether an earlier access of the group to the same place has still to perform. The lanes of one load that read one
sector read it together (R164); the rows of an `MSTORE` go in ascending order (R269), and the requests of a page that come
from the operand log go in the order of its instructions and lanes (R86). -/
def State.blocked (s : State) (c : Nat) (q : Req) (idx : Nat) (a : Acc) : Bool :=
  let spot := q.spot a
  !q.kind.engine && (s.core c).reqs.any fun r => r.idn.gid == q.idn.gid && decide (r.id ≤ q.id) &&
    if r.kind.engine then decide (r.id < q.id) && ((r.accs.any fun b => r.unread b q a) || s.untaken r q a)
    else
      r.accs.zipIdx.any fun b =>
        let first := decide (r.id < q.id) || decide (b.2 < idx)
        (decide (r.id < q.id) && b.1.parks a && r.spot b.1 == spot) || b.1.pending &&
          (((decide (r.id < q.id) || (q.kind != .ld && first)) &&
              (r.spot b.1 == spot || (r.id == q.id && q.kind == .mstore))) ||
            (first && b.1.replay && b.1.space == .glb && a.space == .glb && samePage b.1.va a.va &&
              !(r.id == q.id && q.kind == .ld && r.spot b.1 == spot)))

/-! ### Miss entries (R120) -/

/-- Sectors that hold a miss entry of the core. -/
def Core.missTags (k : Core) : List (Nat × Nat) :=
  (k.reqs.flatMap fun r => r.accs.filterMap fun a =>
    if a.st = .miss then some (a.spot r.idn.part r.idn.asid) else none).eraseDups

/-- Freed entries go to the head of the aged queue. -/
def State.feedAged : Nat → State → Nat → State
  | 0, s, _ => s
  | n + 1, s, c =>
    let k := s.core c
    match k.aged with
    | [] => s
    | (id, idx) :: rest =>
      let st := ((k.req? id).bind fun q => q.accs[idx]?).map Acc.st
      if st ≠ some .aged then (s.modCore c fun k => { k with aged := rest }).feedAged n c
      else if k.missTags.length < Config.missEntries then
        ((s.setAccSt c id idx .miss).modCore c fun k => { k with aged := rest }).feedAged n c
      else s

/-- Rejections and refusals of an access so far. -/
def Acc.rejections (a : Acc) : Nat :=
  match a.st with
  | .rejected n => n
  | _ => a.rejects

/-- An L1 miss takes a miss entry, or is rejected once more; at its sixteenth rejection it is aged. The first 16 of `aged`
are the aged queue, the others wait in the order of their age for places there. Misses of one sector share an entry (log
entry 116). -/
def State.takeMiss (s : State) (c id idx : Nat) : State :=
  let s := s.feedAged Config.agedEntries c
  let k := s.core c
  match (k.req? id).bind fun q => (q.accs[idx]?).map fun a => (q, a) with
  | none => s
  | some (q, a) =>
    let n := a.rejections
    if k.missTags.contains (a.spot q.idn.part q.idn.asid) ∨
        (k.missTags.length < Config.missEntries ∧ k.aged = []) then
      s.modReq c id fun r => r.setAcc idx fun a => { a.to .miss with rejects := n }
    else if 16 ≤ n + 1 then
      (s.setAccSt c id idx .aged).modCore c fun k => { k with aged := k.aged ++ [(id, idx)] }
    else s.setAccSt c id idx (.rejected (n + 1))

/-! ### Values -/

/-- The type in which a loaded value is written (Table 2.10). -/
def loadTy (size : Nat) (sx : Bool) : Ty :=
  match size with
  | 1 => if sx then .i8 else .n8
  | 2 => if sx then .i16 else .n16
  | 8 => .b64
  | 16 => .b128
  | _ => .b32

def sectorValue (d : Sector) (va size : Nat) : Nat := d.toNat / 2 ^ (8 * (va % 64)) % 2 ^ (8 * size)

/-- `op` of an atomic (Table 8.7) at width `w`. -/
def atomOp (fn : AtomFn) (w old b cmp : Nat) : Nat :=
  let sg (v : Nat) : Int := (BitVec.ofNat w v).toInt
  match fn with
  | .add => (old + b) % 2 ^ w
  | .minS => if sg b < sg old then b else old
  | .maxS => if sg old < sg b then b else old
  | .minU => min old b
  | .maxU | .maxk => max old b
  | .and => Nat.land old b
  | .or => Nat.lor old b
  | .xor => Nat.xor old b
  | .exch => b
  | .cas => if old = cmp then b else old
  | .fadd => roundF .f32 .rne (addV .rne (decodeF .f32 old) (decodeF .f32 b))

def recWord (r : Rec) : Nat := r.grade.code + r.gen % 64 * 4 + r.depth % 16 * 256

/-! ### The team's floor and depth (R91, R94) -/

/-- Count a read of a graded sector; a read that would push DEPTH above LIMIT raises AMEND_DEPTH. -/
def State.countRead (s : State) (q : Req) (cls : Nat) (r : Rec) : Except Late State :=
  if cls ≠ 1 ∧ cls ≠ 3 then .ok s
  else
    match AMap.find? s.runs q.idn.run with
    | none => .ok s
    | some run =>
      let d := max run.depth (r.depth + if run.refire then 1 else 0)
      if run.limit < d then .error { cause := 0x22, detail := recWord r, trap := true }
      else .ok (s.setRun q.idn.run { run with floor := min run.floor r.grade.code, depth := d })

/-! ### Places -/

def Req.paired (q : Req) (s : State) : Bool := (s.run q.idn.run).paired
def Req.wide (q : Req) (s : State) : Bool := wideScope (q.paired s) q.scope
def Req.reach (q : Req) (s : State) : Reach := reachOf (q.paired s) q.scope

/-- A sector that the home can grant, else its place in the home's order: what `f` does with it, or the wait. -/
def State.granted (s : State) (c : Nat) (q : Req) (idx : Nat) (a : Acc) (l : Loc) (f : Unit → Outc) : Outc :=
  if s.noGrant l.tag a.home then .wait (s.waitHome c q.id idx) else f ()

/-- A sector read where Table 5.2 puts it, with its record and poison, for the bytes of `mask`: `f` goes on with it; it waits
for a write-back, for a line that leaves the L1, or at the home. -/
def State.readAt (s : State) (c : Nat) (q : Req) (idx : Nat) (a : Acc) (l : Loc) (mask : Mask) (bypass : Bool)
    (f : State → Sector → Rec → Bool → Outc) : Outc :=
  if bypass then
    match (if a.home = 0 then s.l1Bypass c l.tag else (s, true)) with
    | (s, false) => .wait s
    | (s, true) =>
      s.granted c q idx a l fun _ =>
        let r := s.readShared (dieOf c) l
        f r.1 r.2.data r.2.record r.2.poison
  else
    match s.l1Leave c l.tag with
    | (s, false) => .wait s
    | (s, true) =>
      let x := (s.core c).l1Sec l.tag
      if x.full ∨ mask &&& ~~~x.dirty = 0 then f s x.data x.record x.poison
      else
        s.granted c q idx a l fun _ =>
          let r := s.l1Fill c l
          f r.1 r.2.data r.2.record r.2.poison

/-- A release waits until every earlier access of the group has performed at its scope, having first written the L1 back
and drained the combining buffer where the scope asks for it (R113, R132, R159). -/
def State.readyRelease (s : State) (c : Nat) (q : Req) : State × Bool :=
  if q.ord = .rel ∨ q.ord = .ar then
    let f := s.flushFor c (q.reach s)
    let s := if 3 ≤ Scope.rank q.scope then f.1.drainWhere c (fun _ => true) else f.1
    (s, f.2 && (s.core c).performed q.idn.gid q.id (q.reach s))
  else (s, true)

/-- The ordering effects of an access that has performed: a narrow release orders the write-backs behind it, a wide
acquire drops the L1's clean lines. -/
def State.acquired (s : State) (c : Nat) (q : Req) : State :=
  if (q.ord = .acq ∨ q.ord = .ar) ∧ q.wide s = true then s.acquireL1 c else s

def State.released (s : State) (c : Nat) (q : Req) : State :=
  if (q.ord = .rel ∨ q.ord = .ar) ∧ q.wide s = false then s.narrowRelease c else s

/-- Write the masked bytes of a sector into a scratchpad way. -/
def wayWrite (m : Memory) (key : Nat) (mask : Mask) (d : Sector) : Memory :=
  (lanesOf mask).foldl (fun m i => Memory.write m (key + i) (BitVec.ofNat 8 (d.toNat / 2 ^ (8 * i)))) m

/-- A core's scratchpad, with its teams in a save the saved one (R161). -/
def Core.pad (k : Core) : Memory :=
  match k.save with
  | none => k.ways
  | some i => i.ways

/-- Write the masked bytes of a scratchpad sector. -/
def Core.padWrite (k : Core) (key : Nat) (mask : Mask) (d : Sector) : Core :=
  match k.save with
  | none => { k with ways := wayWrite k.ways key mask d }
  | some i =>
    { k with save := some { i with
        ways := wayWrite i.ways key mask d,
        landed := (lanesOf mask).foldl (fun m b => AMap.put m (key + b) (d.toNat / 2 ^ (8 * b) % 256)) i.landed } }

def State.wayRead (s : State) (pl n : Nat) : Nat := Memory.readN (s.core (placeCore pl)).pad (placeKey pl) n
def State.wayPut (s : State) (pl n v : Nat) : State :=
  s.modCore (placeCore pl) fun k => k.padWrite (placeKey (pl / 64 * 64)) (byteMask pl n) (placeBytes pl n v)

/-! ### Loads (R162) -/

/-- The accesses of a load that read the sector of one of them, all at the same point (R164). -/
def Req.together (q : Req) (idx : Nat) (a : Acc) : List (Nat × Acc) :=
  let spot := a.spot q.idn.part q.idn.asid
  (q.accs.zipIdx.map fun x => (x.2, x.1)).filter fun x =>
    x.1 == idx || (x.2.pending && x.2.space == a.space && x.2.spot q.idn.part q.idn.asid == spot && x.2.va / 64 == a.va / 64)

/-- The read of a spilled return address is over; the access keeps what it gives (R287). -/
def State.filled (s : State) (c : Nat) (q : Req) (idx v : Nat) : State :=
  s.modReq c q.id fun r => r.setAcc idx fun a => { a with st := .done, cmp := BitVec.ofNat 64 v }

/-- Deliver one sector's bytes to the lanes that read it. -/
def State.finishLoads (s : State) (c : Nat) (q : Req) (l : List (Nat × Acc)) (d : Sector) : State :=
  if q.kind = .fill then l.foldl (fun s x => s.filled c q x.1 (sectorValue d x.2.va 8)) s
  else
    let s := l.foldl (fun s x => s.deliver c q (loadTy q.size q.sx) x.2.lane (sectorValue d x.2.va q.size)) s
    l.foldl (fun s x => s.finishAcc c q.id x.1 .done) s

/-- The accesses that one request sent out for an access serves, its first byte, and what it asks for: the lanes of an `LD`
that read one sector share a request. -/
def Req.bundle (q : Req) (idx : Nat) (a : Acc) : List (Nat × Acc) := if q.kind = .ld then q.together idx a else [(idx, a)]
def bundleVa (l : List (Nat × Acc)) (a : Acc) : Nat := l.foldl (fun n x => min n x.2.va) a.va
def bundleOp (q : Req) (l : List (Nat × Acc)) (a : Acc) (op : PacketOp) : PacketOp :=
  if q.kind = .ld then .load (l.foldl (fun n x => max n (x.2.va + q.size)) (a.va + q.size) - bundleVa l a) else op

/-- Accesses wait for the answer to one request. -/
def State.setSent (s : State) (c id : Nat) (l : List (Nat × Acc)) (n : Nat) : State :=
  l.foldl (fun s x => s.setAccSt c id x.1 (.sent n)) s

def isStoreOp : PacketOp → Bool
  | .load _ | .fetch _ | .ldg .. | .grd | .atom .. => false
  | _ => true

/-- A store of the core's group to a line that has left its combining buffer and has not been acknowledged. -/
def State.drainedOut (s : State) (c : Nat) (q : Req) (e va : Nat) : Bool :=
  s.net.any fun r => r.part == q.idn.part && r.easid == e && r.va / 256 == va / 256 && !r.lost && isStoreOp r.op &&
    r.who.any fun w => w.1 == c && (match (s.core c).req? w.2.1 with
      | some x => x.idn.gid == q.idn.gid
      | none => false)

/-- A load through a window: from the thread's own undrained bytes where they cover it, else behind the drained packet
at the target. Another thread of the core may be given either (R133). The lanes of an `LD` that read one sector read it at one
point (R164): all from the buffer, or all at the target. -/
def State.windowLoad (s : State) (c : Nat) (q : Req) (idx : Nat) (a : Acc) (ifa : Word) (op : PacketOp) : Outc :=
  let p := q.idn.part
  let e := easidOf q.idn.asid a.va
  let all := q.bundle idx a
  let n := if q.kind = .fill then 8 else q.size
  let send : Outc :=
    if s.drainedOut c q e a.va then .wait s
    else
      let va := bundleVa all a
      .wait ((s.sendNet { part := p, easid := e, va := va, ifa := ifa + BitVec.ofNat 64 va - BitVec.ofNat 64 a.va,
                          op := bundleOp q all a op, who := all.map fun x => (c, q.id, x.1),
                          org := q.origin a.lane }).setSent c q.id all s.next)
  match (s.core c).comb.find? fun x => x.part == p && x.easid == e && x.line == a.va / 256 with
  | none => send
  | some x =>
    let reads (b : Acc) : BitVec 256 := lineMask b.va (byteMask b.va n)
    let mine (b : Acc) : Bool := x.byThr.any fun w => w.1 == q.idn.gid && w.2.1 == b.lane && reads b &&& w.2.2 != 0
    let covered := all.all fun y => reads y.2 &&& ~~~x.mask == 0
    if !covered && all.any fun y => mine y.2 then .wait (s.drainInOrder c x)
    else if covered && (Config.freeBit s.free idx || all.any fun y => mine y.2) then
      .done (s.finishLoads c q all (BitVec.ofNat 512 (x.data.toNat / 2 ^ (512 * (a.va / 64 % 4)))))
    else send

def State.hostLoad (s : State) (c : Nat) (q : Req) (idx : Nat) (a : Acc) (addr : Word) (op : PacketOp) : Outc :=
  let l := q.bundle idx a
  let va := bundleVa l a
  .wait ((s.sendHost { part := q.idn.part, easid := easidOf q.idn.asid a.va, va := va,
                       addr := addr + BitVec.ofNat 64 va - BitVec.ofNat 64 a.va, op := bundleOp q l a op,
                       who := l.map fun x => (c, q.id, x.1), org := q.origin a.lane }).setSent c q.id l s.next)

def State.ldAcc (s : State) (c : Nat) (q : Req) (idx : Nat) (a : Acc) : Outc :=
  let l := q.together idx a
  match a.space with
  | .glb =>
    match s.resolve q.idn.part q.idn.asid a.va .either with
    | .error n => .late (s.lateOf q.idn.part q.idn.asid a.va n) s
    | .ok (.host addr) => s.hostLoad c q idx a addr (.load q.size)
    | .ok (.window ifa _) => s.windowLoad c q idx a ifa (.load q.size)
    | .ok (.mem loc) =>
      let s := s.installTlb q.idn.part (easidOf q.idn.asid a.va) a.va
      let mask := l.foldl (fun (m : Mask) x => m ||| byteMask x.2.va q.size) 0
      s.readAt c q idx a loc mask (q.strong && q.wide s) fun s d r poison =>
        if poison then .late { cause := 0x29, trap := true } s
        else
          match s.countRead q loc.cls r with
          | .error f => .late f s
          | .ok s => .done (((s.finishLoads c q l d).acquired c q).feedAged Config.agedEntries c)
  | _ =>
    let d : Sector := BitVec.ofNat 512 (s.wayRead (a.va / 64 * 64) 64)
    .done ((s.finishLoads c q l d).acquired c q)

/-! ### Stores (R163, R164) -/

/-- A group that had stalled at a request goes on; one stalls at an access of a request (R101). -/
def State.unstall (s : State) (c : Nat) (q : Req) : State :=
  s.modGroup c q.idn.slot fun g =>
    if g.gid = q.idn.gid ∧ g.stalled.map (·.1) = some q.id then { g with stalled := none } else g
def State.stall (s : State) (c : Nat) (q : Req) (idx : Nat) : State :=
  s.modGroup c q.idn.slot fun g =>
    if g.gid = q.idn.gid ∧ g.stalled = none then { g with stalled := some (q.id, idx) } else g

/-- A store that the hold buffer takes, or that stalls its group at the store while the buffer is full (R101). -/
def State.toHold (s : State) (c : Nat) (q : Req) (idx : Nat) (a : Acc) (op : PacketOp) : Outc :=
  match s.holdStore q a q.gen op with
  | some s => .done ((s.unstall c q).finishAcc c q.id idx .held)
  | none => .wait (s.stall c q idx)

/-- Whether an outward store of a group that is not held must wait: for the group's released stores (R102), and for its earlier outward
stores that have not left, so that the destination receives them in program order (R347). One that goes into the L1 itself does not
wait for those there. -/
def State.outwardWaits (s : State) (c : Nat) (q : Req) (idx : Nat) (inL1 : Bool) : Bool :=
  let p := q.idn.part
  s.draining p q.idn.gid ||
    (s.net.any fun r => !r.sent && r.part == p && r.org.idn.gid == q.idn.gid && isStoreOp r.op) ||
    (s.core c).reqs.any fun r => r.idn.gid == q.idn.gid && r.kind.store && decide (r.id ≤ q.id) &&
      r.accs.zipIdx.any fun b => (decide (r.id < q.id) || decide (b.2 < idx)) && (b.1.pending || (b.1.st == .l1 && !inL1)) &&
        b.1.space == .glb && s.outwardVa p r.idn.asid b.1.va

/-- A store that leaves the chip: sent behind the group's released stores, once they have drained (R102). -/
def State.sendStore (s : State) (c : Nat) (q : Req) (idx : Nat) (a : Acc) (d : Dest) (op : PacketOp) : Outc :=
  let p := q.idn.part
  let e := easidOf q.idn.asid a.va
  let id := s.next
  if s.outward p a.va d && s.draining p q.idn.gid then .wait s
  else
    match d with
    | .host addr =>
      .wait ((s.sendHost { part := p, easid := e, va := a.va, addr := addr, op := op, who := [(c, q.id, idx)],
                           org := q.origin a.lane }).setAccSt c q.id idx (.sent id))
    | .window ifa _ =>
      .wait ((s.sendNet { part := p, easid := e, va := a.va, ifa := ifa, op := op, who := [(c, q.id, idx)],
                          org := q.origin a.lane }).setAccSt c q.id idx (.sent id))
    | .mem _ => .wait s

/-- The line of an access drains from the combining buffer before a strong store or atomic to it (R132). -/
def State.drainLine (s : State) (c : Nat) (q : Req) (va : Nat) : State :=
  s.drainWhere c fun x => x.part == q.idn.part && x.easid == easidOf q.idn.asid va && x.line == va / 256

/-- A store to memory: a wide strong one under a write grant, another in the L1. -/
def State.stMem (s : State) (c : Nat) (q : Req) (idx : Nat) (a : Acc) (l : Loc) : Outc :=
  if q.strong && q.wide s || s.inShadow l.p l.easid l.va then
    match (if a.home = 0 then s.l1Bypass c l.tag else (s, true)) with
    | (s, false) => .wait s
    | (s, true) =>
      s.granted c q idx a l fun _ =>
        let s := s.installTlb q.idn.part l.easid a.va
        .done (((s.mergeOwned (dieOf c) l a.mask a.data).released c q).finishAcc c q.id idx (s.mergedSt l))
  else
    match (s.released c q).l1Put c l.tag a.mask a.data with
    | (_, false) => .wait s
    | (s, true) => .done (s.finishAcc c q.id idx .l1)

def State.stAcc (s : State) (c : Nat) (q : Req) (idx : Nat) (a : Acc) : Outc :=
  match s.readyRelease c q with
  | (s, false) => .wait s
  | (s, true) =>
    match a.space with
    | .glb =>
      let p := q.idn.part
      let op : PacketOp := .store (lineMask a.va a.mask) (lineData a.va a.data)
      match s.resolve p q.idn.asid a.va (if q.kind = .mstore then .noWindow else .either) with
      | .error n => .late (s.lateOf p q.idn.asid a.va n) s
      | .ok d =>
        let out := s.outward p a.va d
        let inL1 := match d with
          | .mem _ => !(q.strong && q.wide s)
          | _ => false
        if out && decide (q.floor < 3) then s.toHold c q idx a op
        else
        let s := if out && !inL1 then s.flushWhere c fun t _ => s.outwardMem (tagPart t) (tagVa t) else s
        if out && s.outwardWaits c q idx inL1 then .wait s
        else
          let s := if out then s.drainOutward c q (a.va / 256) else s
          match d with
          | .mem l => s.stMem c q idx a l
          | .host _ => s.sendStore c q idx a d op
          | .window _ _ =>
            if q.strong then (s.drainLine c q a.va).sendStore c q idx a d op else .done (s.combine c q idx a)
    | _ =>
      let s := s.released c q
      .done ((s.modCore (placeCore a.va) fun k => k.padWrite (placeKey (a.va / 64 * 64)) a.mask a.data).finishAcc c q.id idx
        .done)

/-! ### Atomics (R165, R183) -/

/-- The new bytes of an atomic in its sector, and the old value. -/
def atomSector (fn : AtomFn) (d : Sector) (va size : Nat) (b cmp : Nat) : Nat × Sector :=
  let old := sectorValue d va size
  let w := 8 * size
  (old, mergeSector d (placeBytes va size (atomOp fn w old (b % 2 ^ w) (cmp % 2 ^ w))) (byteMask va size))

/-- The type in which an atomic's old value is written. -/
def atomTy (size : Nat) : Ty := if size = 8 then .b64 else .b32

def State.finishAtom (s : State) (c : Nat) (q : Req) (idx : Nat) (a : Acc) (old : Nat) : State :=
  ((s.deliver c q (atomTy q.size) a.lane old).acquired c q).finishAcc c q.id idx .done

/-- An atomic performs. At a scratchpad way one of scope `.grp` is not morally strong with those of other groups, whose writes may
fall between its read and its write (R334, R341): whether they may is a free choice. -/
def State.atomAcc (s : State) (c : Nat) (q : Req) (idx : Nat) (a : Acc) : Outc :=
  match s.readyRelease c q with
  | (s, false) => .wait s
  | (s, true) =>
    let p := q.idn.part
    match a.space with
    | .glb =>
      match s.resolve p q.idn.asid a.va (if q.kind = .fatom then .onlyWindow else .noWindow) with
      | .error n => .late (s.lateOf p q.idn.asid a.va n) s
      | .ok d =>
        let op : PacketOp := .atom q.fn (q.size == 8) (a.data.setWidth 64) a.cmp
        if s.outward p a.va d && decide (q.floor < 3) then .late { cause := 0x23, detail := q.floor } s
        else
          match d with
          | .host addr =>
            if q.fn = .add ∨ q.fn = .exch ∨ q.fn = .cas then
              if s.draining p q.idn.gid then .wait s else s.hostLoad c q idx a addr op
            else .late { cause := 0x25 } s
          | .window ifa _ =>
            if s.outward p a.va d && s.draining p q.idn.gid then .wait s
            else
              let s := s.drainLine c q a.va
              let id := s.next
              .wait ((s.sendNet { part := p, easid := easidOf q.idn.asid a.va, va := a.va, ifa := ifa, op := op,
                                  who := [(c, q.id, idx)], org := q.origin a.lane }).setAccSt c q.id idx (.sent id))
          | .mem l =>
            let s := s.installTlb p l.easid a.va
            let wide := q.wide s || s.inShadow l.p l.easid l.va
            s.readAt c q idx a l (byteMask a.va q.size) wide fun s x r poison =>
              if poison then .late { cause := 0x29, trap := true } s
              else
                let n := atomSector q.fn x a.va q.size a.data.toNat a.cmp.toNat
                let s := s.released c q
                if wide then .done ((s.writeOwned (dieOf c) l n.2 r false).finishAtom c q idx a n.1)
                else
                  match s.l1Put c l.tag (byteMask a.va q.size) n.2 with
                  | (_, false) => .wait s
                  | (s, true) => .done (s.finishAtom c q idx a n.1)
    | _ =>
      let w := 8 * q.size
      let old := if a.got then a.data.toNat / 2 ^ 64 % 2 ^ w else s.wayRead a.va q.size
      if q.scope = .grp ∧ a.got = false ∧ Config.freeBit s.free idx = true then
        .wait (s.modReq c q.id fun r => r.setAcc idx fun b =>
          { b with got := true, data := BitVec.ofNat 512 (b.data.toNat % 2 ^ 64 + 2 ^ 64 * old) })
      else
        let s := s.released c q
        let s := s.wayPut a.va q.size (atomOp q.fn w old (a.data.toNat % 2 ^ w) (a.cmp.toNat % 2 ^ w))
        .done (s.finishAtom c q idx a old)

/-! ### Watches (R171) -/

/-- The word has been read: a lane is satisfied when it differs from the compare value, else it watches on. -/
def State.watchRead (s : State) (c : Nat) (q : Req) (idx : Nat) (a : Acc) (v : Nat) : Outc :=
  if v = a.cmp.toNat then .wait (s.setAccSt c q.id idx .watching)
  else .done (((s.deliver c q .b64 a.lane v).acquired c q).finishAcc c q.id idx .done)

def State.waitAcc (s : State) (c : Nat) (q : Req) (idx : Nat) (a : Acc) : Outc :=
  match a.space with
  | .glb =>
    match s.resolve q.idn.part q.idn.asid a.va .noWindow with
    | .error n => .late (s.lateOf q.idn.part q.idn.asid a.va n) s
    | .ok (.host addr) => s.hostLoad c q idx a addr (.load 8)
    | .ok (.window _ _) => .wait s
    | .ok (.mem l) =>
      let s := s.installTlb q.idn.part l.easid a.va
      s.readAt c q idx a l (byteMask a.va 8) (q.wide s) fun s d _ poison =>
        if poison then .late { cause := 0x29, trap := true } s
        else s.watchRead c q idx a (sectorValue d a.va 8)
  | _ => s.watchRead c q idx a (s.wayRead a.va 8)

/-! ### Probes (R172) -/

/-- The word of Table 8.8 for a global address; `e` is the answer of its fill. -/
def State.probeGlb (s : State) (p asid va : Nat) : Nat :=
  if !isCanonical va then 0
  else
    match s.leafOf p (easidOf asid va) va with
    | .leaf w _ =>
      let host := s.hostWindow p va
      let f := leafF w && !host
      let r := s.resolve p asid va .either
      let out := match r with
        | .ok d => s.outward p va d
        | .error _ => if host then true else if f then !s.inDomain p (chipOf (leafIfa w va)) else s.outward p va (.mem (leafLoc p 0 va w))
      let ok := match r with | .ok _ => true | .error _ => false
      let b (x : Bool) (n : Nat) : Nat := if x then 2 ^ n else 0
      1 + b (w.getLsbD 52) 1 + b (w.getLsbD 56) 2 + b (w.getLsbD 57) 3 + b (w.getLsbD 58) 4 + leafClass w * 32 +
        b (w.getLsbD 60) 7 + b f 8 + b out 9 + b ok 10 + b (isLarge va) 11
    | _ => 0

/-- V, P, R, W and OK of a scratchpad address whose way check passes. -/
def probeWay : Nat := 0x40F

def State.probeAcc (s : State) (c : Nat) (q : Req) (idx : Nat) (a : Acc) : Outc :=
  let v := match a.space with
    | .glb => s.probeGlb q.idn.part q.idn.asid a.va
    | _ => if a.got then probeWay else 0
  let s := if a.space = .glb ∧ isCanonical a.va then s.installTlb q.idn.part (easidOf q.idn.asid a.va) a.va else s
  .done ((s.deliver c q .b32 a.lane v).finishAcc c q.id idx .done)

/-! ### Cache operations (R168) -/

def lineTags (p e va : Nat) : List Nat := (List.range 4).map fun i => sectorTag p e (va / 256 * 256 + 64 * i)

def State.cacheAcc (s : State) (c : Nat) (q : Req) (idx : Nat) (a : Acc) : Outc :=
  let p := q.idn.part
  let e := easidOf q.idn.asid a.va
  match s.resolve p q.idn.asid a.va .noWindow with
  | .error n => .late (s.lateOf p q.idn.asid a.va n) s
  | .ok _ =>
    let ts := lineTags p e a.va
    let fin (s : State) : Outc := .done (s.finishAcc c q.id idx .done)
    if Scope.rank q.scope < 2 then fin s
    else
      let s := ts.foldl (fun s t => if ((s.core c).l1Sec t).dirty = 0 then s else s.writeBackInOrder c t) s
      if ts.any fun t => ((s.core c).l1Sec t).dirty != 0 then .wait s
      else
        let s := if q.kind = .cinv then s.modCore c fun k => { k with l1 := k.l1.filter fun x => !ts.contains x.1 } else s
        if q.scope ≠ .sys then fin s
        else
          let s := s.cores.foldl (fun s k => s.flushWhere k.1 fun t _ => ts.contains t) s
          if ts.any (fun t => s.noGrant t 0) || s.cores.any (fun k => ts.any fun t => (k.2.l1Sec t).dirty != 0) then .wait s
          else
            let s := if q.kind = .cinv then
                { s with cores := s.cores.map fun k => (k.1, { k.2 with l1 := k.2.l1.filter fun x => !ts.contains x.1 }) }
              else s
            fin (ts.foldl (fun s t => if q.kind = .cinv then s.recall t else s.cleanSector t) s)

/-! ### Return-stack entries (R287) -/

/-- The read of a spilled entry; the address it gives is kept in the access. -/
def State.fillAcc (s : State) (c : Nat) (q : Req) (idx : Nat) (a : Acc) : Outc :=
  match s.resolve q.idn.part q.idn.asid a.va .either with
  | .error n => .late (s.lateOf q.idn.part q.idn.asid a.va n) s
  | .ok (.mem l) =>
    let s := s.installTlb q.idn.part l.easid a.va
    s.readAt c q idx a l (byteMask a.va 8) false fun s d r poison =>
      if poison then .late { cause := 0x29, trap := true } s
      else
        match s.countRead q l.cls r with
        | .error f => .late f s
        | .ok s =>
          .done (s.filled c q idx (sectorValue d a.va 8))
  | .ok (.host addr) => s.hostLoad c q idx a addr (.load 8)
  | .ok (.window ifa _) => s.windowLoad c q idx a ifa (.load 8)

end Sys2Proof.Machine
end

