-- ==== Sys2Proof/Machine/Graded.lean ====
section
/-! DEFINITION. Graded accesses at the sector's owner (R88-R94, R100, R104, R176-R178). -/

namespace Sys2Proof.Machine

/-- Table 4.2: the record that a graded write leaves, or its fault. -/
def gradedRec (amend : Bool) (r : Rec) (g : Grade) (gen depth limit : Nat) : Except Nat Rec :=
  let c := r.grade.code
  if amend then
    if c = 0 then .error 0x21
    else
      let d := max (r.depth + 1) depth
      if d ≤ limit then .ok { grade := g, gen := (r.gen + 1) % 64, depth := d } else .error 0x22
  else if c = 0 ∨ r.gen ≠ gen ∨ c < g.code ∨ (c = g.code ∧ c < 3) then .ok { grade := g, gen := gen, depth := depth }
  else .error 0x20

/-- Requests parked for a sector whose grade a write raises far enough have its value, until they return with it or with
that of a later write (R89). -/
def State.raised (s : State) (t : Nat) (d : Sector) (r : Rec) : State :=
  let wakes (q : Req) (a : Acc) : Bool :=
    a.st == .parked && !a.got && accTag q.idn.part q a == t && decide (q.grade.code ≤ r.grade.code)
  let fix (k : Core) : Core :=
    { k with
      reqs := k.reqs.map fun q => q.mapAccs (wakes q) fun a =>
        { a with got := true, data := d, cmp := BitVec.ofNat 64 (recWord r) } }
  let fixIn (x : InPacket) : InPacket :=
    match x.pkt.op with
    | .ldg m _ _ => if x.tag = t ∧ x.val = none ∧ m.code ≤ r.grade.code then { x with val := some (d, recWord r) } else x
    | _ => x
  { s with cores := s.cores.map fun (k : Nat × Core) => (k.1, fix k.2), inbox := s.inbox.map fixIn }

/-- A sector record from its word (R178). -/
def recOf (n : Nat) : Rec := { grade := Grade.ofCode (n % 4), gen := n / 4 % 64, depth := n / 256 % 16 }

/-- A graded write of one sector at its owner: the new record, or the fault with the record it met. -/
def State.gradedWrite (s : State) (holder : Nat) (l : Loc) (amend : Bool) (mask : Mask) (d : Sector) (g : Grade)
    (gen depth limit : Nat) : Except Late (State × Rec) :=
  let x := s.sector l
  match gradedRec amend x.record g gen depth limit with
  | .error n => .error { cause := n, detail := recWord x.record }
  | .ok r =>
    let d := mergeSector x.data d mask
    .ok (((s.logError l x.poison).writeOwned holder l d r (stillPoisoned x.poison mask)).raised l.tag d r, r)

/-- A successful `AMEND` raises the team's DEPTH to the sector's new depth. -/
def State.amended (s : State) (q : Req) (depth : Nat) : State :=
  if (AMap.find? s.runs q.idn.run).isSome then s.modRun q.idn.run fun r => { r with depth := max r.depth depth } else s

/-- The packet of a graded store (R104, R126). -/
def gradedPacket (q : Req) (a : Acc) (export_ : Bool) (tgid : Nat) : PacketOp :=
  let m := lineMask a.va a.mask
  let d := lineData a.va a.data
  if export_ then .exportStore m d q.grade q.gen q.depth tgid
  else if q.kind = .amend then .amend m d q.grade q.depth q.limit
  else .stg m d q.grade q.gen q.depth q.limit

def State.stgAcc (s : State) (c : Nat) (q : Req) (idx : Nat) (a : Acc) : Outc :=
  let p := q.idn.part
  match s.resolve p q.idn.asid a.va .either with
  | .error n => .late (s.lateOf p q.idn.asid a.va n) s
  | .ok d =>
    let exports := match d with
      | .window ifa cls => cls == 3 && decide (q.floor < 3) && s.inDomain p (chipOf ifa)
      | _ => false
    let op := gradedPacket q a exports (bits (s.preg p 0x2200) 15 0)
    let out := s.outward p a.va d
    if out && decide (q.floor < 3) then s.toHold c q idx a op
    else
    let s := if out then s.flushWhere c fun t _ => s.outwardMem (tagPart t) (tagVa t) else s
    if out && s.outwardWaits c q idx false then .wait s
    else
      let s := if out then s.drainOutward c q (a.va / 256) else s
      match d with
      | .mem l =>
        let s := s.installTlb p l.easid a.va
        match (if a.home = 0 then s.l1Bypass c l.tag else (s, true)) with
        | (s, false) => .wait s
        | (s, true) =>
          s.granted c q idx a l fun _ =>
            match s.gradedWrite (dieOf c) l (q.kind == .amend) a.mask a.data q.grade q.gen q.depth q.limit with
            | .error f => .late f s
            | .ok (s, r) =>
              let s := if q.kind = .amend then s.amended q r.depth else s
              .done (s.finishAcc c q.id idx (s.mergedSt l))
      | d => (s.drainLine c q a.va).sendStore c q idx a d op

/-! ### Graded loads (R89, R90, R176) -/

/-- Set or clear the result predicate of a lane whose thread still runs. -/
def State.lanePred (s : State) (q : Req) (lane : Nat) (b : Bool) : State :=
  if q.pd = 7 ∨ s.alive q.idn = false then s
  else s.modGroup q.idn.core q.idn.slot fun g => g.arrivePred s.free q.id lane q.pd b

/-- A satisfied lane: its value, its predicate, and the team's floor and depth. -/
def State.ldgTake (s : State) (c : Nat) (q : Req) (idx : Nat) (a : Acc) (v : Nat) (cls : Nat) (r : Rec) : Outc :=
  match s.countRead q cls r with
  | .error f => .late f s
  | .ok s =>
    .done ((((s.deliver c q (loadTy q.size false) a.lane v).lanePred q a.lane true).finishAcc c q.id idx .done).feedAged
      Config.agedEntries c)

/-- A lane that falls short of its grade with `.nowait`. -/
def State.ldgShort (s : State) (c : Nat) (q : Req) (idx : Nat) (a : Acc) : State :=
  (((s.deliver c q (loadTy q.size false) a.lane 0).lanePred q a.lane false).finishAcc c q.id idx .done).feedAged
    Config.agedEntries c

/-- Requests parked at a home, those of other chips among them. -/
def State.parkedAt (s : State) (h : Home) : Nat :=
  (s.inbox.filter fun x => x.tag != 0 && s.home (tagPart x.tag) (tagEasid x.tag) (tagVa x.tag) == h).length +
  s.cores.foldl (fun n k =>
    k.2.reqs.foldl (fun n q =>
      n + (q.accs.filter fun a =>
        a.st == .parked && s.home q.idn.part (easidOf q.idn.asid a.va) a.va == h).length) n) 0

/-- A lane that falls short parks at the home, where there is room (R89, R90); its sixteenth refusal makes it aged (R120). -/
def State.ldgPark (s : State) (c : Nat) (q : Req) (idx : Nat) (a : Acc) (home : Home) : State :=
  let set (f : Acc → Acc) : State := s.modReq c q.id fun r => r.setAcc idx f
  (if a.st = .parked ∨ s.parkedAt home < Config.parkEntries then set fun b => { b.to .parked with got := false }
   else if 16 ≤ a.rejections + 1 then
     (set fun b => { b.to .aged with rejects := b.rejections + 1 }).modCore c fun k => { k with aged := k.aged ++ [(q.id, idx)] }
   else set fun b => { b.to .refused with rejects := b.rejections + 1 }).feedAged Config.agedEntries c

def State.ldgAcc (s : State) (c : Nat) (q : Req) (idx : Nat) (a : Acc) : Outc :=
  let p := q.idn.part
  match s.resolve p q.idn.asid a.va .either with
  | .error n => .late (s.lateOf p q.idn.asid a.va n) s
  | .ok (.window ifa _) => (s.drainLine c q a.va).windowLoad c q idx a ifa (.ldg q.grade q.nowait q.size)
  | .ok (.host addr) => s.hostLoad c q idx a addr (.load q.size)
  | .ok (.mem l) =>
    let s := s.installTlb p l.easid a.va
    match (if a.home = 0 then s.l1Bypass c l.tag else (s, true)) with
    | (s, false) => .wait s
    | (s, true) =>
    s.granted c q idx a l fun _ =>
      let r := s.readShared (dieOf c) l
      if q.grade.code ≤ r.2.record.grade.code then
        if r.2.poison then .late { cause := 0x29, trap := true } r.1
        else r.1.ldgTake c q idx a (sectorValue r.2.data a.va q.size) l.cls r.2.record
      else if a.st = .parked ∧ a.got then
        s.ldgTake c q idx a (sectorValue a.data a.va q.size) l.cls (recOf a.cmp.toNat)
      else if q.nowait then .done (r.1.ldgShort c q idx a)
      else .wait (s.ldgPark c q idx a (s.home p l.easid a.va))

def State.grdAcc (s : State) (c : Nat) (q : Req) (idx : Nat) (a : Acc) : Outc :=
  let p := q.idn.part
  match s.resolve p q.idn.asid a.va .either with
  | .error n => .late (s.lateOf p q.idn.asid a.va n) s
  | .ok (.window ifa _) => s.windowLoad c q idx a ifa .grd
  | .ok (.host addr) => s.hostLoad c q idx a addr (.load 4)
  | .ok (.mem l) =>
    let s := s.installTlb p l.easid a.va
    s.granted c q idx a l fun _ =>
      let x := s.sector l
      .done (((s.logError l x.poison).deliver c q .b32 a.lane (recWord x.record)).finishAcc c q.id idx .done)

end Sys2Proof.Machine
end

