-- ==== Sys2Proof/Machine/Special.lean ====
section
/-! DEFINITION. The functions of the special-function queue (R237-R241, Table 10.7). Correctly rounded functions
are computed exactly. The others have an error bound: their exact result is enclosed between two dyadic numbers
by fixed-point series, and the machine's result is a value left open (`Config.sfqPick`) kept inside the bound
(log entry 9). -/

namespace Sys2Proof.Machine

/-- Integer square root of `n`, below `r + 2^i`. -/
def isqrt (n : Nat) : Nat → Nat → Nat
  | 0, r => r
  | i + 1, r => if (r + 2 ^ i) * (r + 2 ^ i) ≤ n then isqrt n i (r + 2 ^ i) else isqrt n i r

/-- FP32 rounding of a positive quotient `a / b`, correctly (R198). -/
def divRound (neg : Bool) (a : Nat) (ea : Int) (b : Nat) (eb : Int) : Nat :=
  let s := 64 + Nat.log2 b
  let n := a * 2 ^ s
  roundIeee .f32 .rne neg (n / b) (ea - s - eb) (n % b != 0)

/-- `DIV` and `RCP` (Table 10.7). -/
def divCode (a b : Nat) : Nat :=
  match decodeF .f32 a, decodeF .f32 b with
  | .nan, _ | _, .nan => nanCode .f32
  | .inf _, .inf _ => nanCode .f32
  | .inf x, .num y => infCode .f32 (x != y.neg)
  | .num x, .inf y => signed .f32 (x.neg != y) 0
  | .num x, .num y =>
    if y.m = 0 then (if x.m = 0 then nanCode .f32 else infCode .f32 (x.neg != y.neg))
    else if x.m = 0 then signed .f32 (x.neg != y.neg) 0
    else divRound (x.neg != y.neg) x.m x.e y.m y.e

def rcpCode (a : Nat) : Nat := divCode 0x3F800000 a

/-- `SQRT`, correctly rounded. -/
def sqrtCode (a : Nat) : Nat :=
  match decodeF .f32 a with
  | .nan => nanCode .f32
  | .inf neg => if neg then nanCode .f32 else a
  | .num d =>
    if d.m = 0 then a
    else if d.neg then nanCode .f32
    else
      let odd : Nat := (d.e % 2).toNat
      let n := d.m * 2 ^ (odd + 128)
      let r := isqrt n (Nat.log2 n / 2 + 1) 0
      roundIeee .f32 .rne false r ((d.e - odd) / 2 - 64) (r * r != n)

/-! ### Enclosures in fixed point -/

/-- Fraction bits of the series. -/
def fxp : Nat := 192

/-- ln 2 * 2^192, rounded down. -/
def ln2Fx : Nat := 4350955369971217654477563090224794165364344896676135745069

/-- pi * 2^448, rounded down. -/
def piFx : Nat :=
  2283431196591655772568293192637813162989505182201807620455461503647463674352091780948082810000813750461678719846639713479115845689692381

/-- A positive real between `lo * 2^e` and `hi * 2^e`. -/
structure Encl where
  lo : Nat
  hi : Nat
  e : Int

/-- Partial sum of `sum x^k / k!`, each term rounded down, in units of 2^-fxp. -/
def expSeries (x : Nat) : Nat → Nat → Nat → Nat
  | 0, _, _ => 0
  | n + 1, k, term => term + expSeries x n (k + 1) (term * x / 2 ^ fxp / (k + 1))

/-- e^x for 0 <= x < 1 in units of 2^-fxp. Sixty terms leave less than one unit, and each term loses less than three. -/
def expEncl (x : Nat) : Encl :=
  let s := expSeries x 60 0 (2 ^ fxp)
  ⟨s, s + 256, -(fxp : Int)⟩

/-- 2^f for a fraction `f` in units of 2^-fxp that is exact up to one unit. -/
def exp2Encl (f : Nat) : Encl :=
  let s := expEncl (f * ln2Fx / 2 ^ fxp)
  { s with hi := s.hi + 16 }

/-- Partial sum of `sum z^(2k+1) / (2k+1)`. -/
def atanhSeries (z2 : Nat) : Nat → Nat → Nat → Nat
  | 0, _, _ => 0
  | n + 1, k, p => p / (2 * k + 1) + atanhSeries z2 n (k + 1) (p * z2 / 2 ^ fxp)

/-- ln (num / den) for 1 <= num / den <= 2, in units of 2^-fxp: lower and upper. -/
def lnRatio (num den : Nat) : Nat × Nat :=
  let z := (num - den) * 2 ^ fxp / (num + den)
  let s := 2 * atanhSeries (z * z / 2 ^ fxp) 80 0 z
  (s, s + 1024)

/-- ln of `m * 2^e`, as lower and upper bounds in units of 2^-fxp. -/
def lnBounds (m : Nat) (e : Int) : Int × Int :=
  let k := Nat.log2 m
  let r := lnRatio m (2 ^ k)
  let n : Int := e + k
  let base := n * (ln2Fx : Int)
  (base + r.1 - n.natAbs, base + r.2 + n.natAbs)

/-- Partial sums of the series of sine and cosine, with alternating signs. -/
def trigSeries (x2 : Nat) : Nat → Nat → Nat → Bool → Int
  | 0, _, _, _ => 0
  | n + 1, k, term, neg =>
    (if neg then -(term : Int) else term) +
      trigSeries x2 n (k + 2) (term * x2 / 2 ^ fxp / ((k + 1) * (k + 2))) (!neg)

/-- Sine and cosine of `x`, 0 <= x <= 2 in units of 2^-fxp, up to 1024 units. -/
def sinFx (x : Nat) : Int := trigSeries (x * x / 2 ^ fxp) 40 1 x false
def cosFx (x : Nat) : Int := trigSeries (x * x / 2 ^ fxp) 40 0 (2 ^ fxp) false

/-! ### Values kept inside an error bound -/

/-- A signed real between `lo` and `hi`, in units of 2^e. -/
structure RealEncl where
  lo : Int
  hi : Int
  e : Int

/-- Units in the last place of FP32 at a magnitude near `m * 2^e`: the exponent of one unit. -/
def ulpExp (m : Nat) (e : Int) : Int := max (-149) (e + Nat.log2 m - 23)

/-- Whether the FP32 code `r` lies within `ulps` units in the last place, or 2^-24 when `abs24`, of some real in the
enclosure. -/
def within (x : RealEncl) (ulps : Nat) (abs24 : Bool) (r : Nat) : Bool :=
  match decodeF .f32 r with
  | .num d =>
    let u := ulpExp (max x.lo.natAbs x.hi.natAbs) x.e
    let wide := abs24 && decide (u + Nat.log2 ulps < -24)
    let tolE := if wide then -24 else u
    let tolM := if wide then 1 else ulps
    let b := min (min x.e d.e) tolE
    let v := d.int * 2 ^ (d.e - b).toNat
    let t : Int := tolM * 2 ^ (tolE - b).toNat
    decide (x.lo * 2 ^ (x.e - b).toNat - t ≤ v) && decide (v ≤ x.hi * 2 ^ (x.e - b).toNat + t)
  | _ => false

/-- The FP32 code nearest to the lower end of an enclosure. -/
def nearCode (x : RealEncl) : Nat :=
  roundIeee .f32 .rne (decide (x.lo < 0)) x.lo.natAbs x.e false

/-- A result left open inside its bound: the chip's own choice where it lies inside, the nearest value otherwise. A
result beyond the largest finite value is an infinity. -/
def bounded (fn : Nat) (a b c : Nat) (x : RealEncl) (ulps : Nat) (abs24 : Bool) : Nat :=
  let p := Config.sfqPick fn a b c % 2 ^ 32
  if within x ulps abs24 p then p else nearCode x

/-- `RSQ`, within 1 ulp. -/
def rsqCode (a : Nat) : Nat :=
  match decodeF .f32 a with
  | .nan => nanCode .f32
  | .inf neg => if neg then nanCode .f32 else 0
  | .num d =>
    if d.m = 0 then infCode .f32 d.neg
    else if d.neg then nanCode .f32
    else
      let odd : Nat := (d.e % 2).toNat
      let m := d.m * 2 ^ odd
      let n := 2 ^ 256 / m
      let r := isqrt n 130 0
      bounded 1 a 0 0 ⟨r, r + 2, -128 - (d.e - odd) / 2⟩ 1 false

/-- The integer part and the fraction, in units of 2^-fxp, of an exact dyadic number (the fraction up to one unit). -/
def splitDy (d : Dy) : Int × Nat × Bool :=
  if 0 ≤ d.e then (d.int * 2 ^ d.e.toNat, 0, true)
  else
    let den : Nat := 2 ^ (-d.e).toNat
    let q : Int := d.int / (den : Int)
    let r : Nat := (d.int % (den : Int)).toNat
    (q, r * 2 ^ fxp / den, r == 0)

/-- 2^t for an exact dyadic `t` of moderate size. -/
def pow2Encl (t : Dy) : RealEncl × Bool × Int :=
  let s := splitDy t
  if s.2.2 then (⟨1, 1, s.1⟩, true, s.1)
  else
    let x := exp2Encl s.2.1
    (⟨x.lo, x.hi, x.e + s.1⟩, false, s.1)

/-- `EXP2`, within 2 ulp; an integer gives the exact power. -/
def exp2Code (a : Nat) : Nat :=
  match decodeF .f32 a with
  | .nan => nanCode .f32
  | .inf neg => if neg then 0 else infCode .f32 false
  | .num d =>
    if cmpDy d.m d.e false 2 9 == .gt then (if d.neg then 0 else infCode .f32 false)
    else
      let x := pow2Encl d
      if 128 ≤ x.2.2 then infCode .f32 false
      else if x.2.1 then roundIeee .f32 .rne false 1 x.2.2 false
      else bounded 3 a 0 0 x.1 2 false

/-- `LOG2`, within 2 ulp; exact powers of two are exact. -/
def log2Code (a : Nat) : Nat :=
  match decodeF .f32 a with
  | .nan => nanCode .f32
  | .inf neg => if neg then nanCode .f32 else a
  | .num d =>
    if d.m = 0 then infCode .f32 true
    else if d.neg then nanCode .f32
    else
      let k := Nat.log2 d.m
      if d.m = 2 ^ k then roundF .f32 .rne (intV (d.e + k))
      else
        let l := lnBounds d.m d.e
        let s : Int := (2 ^ fxp : Nat)
        bounded 4 a 0 0 ⟨l.1 * s / (ln2Fx + 1) - 1, l.2 * s / ln2Fx + 1, -(fxp : Int)⟩ 2 false

/-- The angle reduced by multiples of pi / 2: the quadrant and the rest in units of 2^-fxp. The reduction uses pi to
448 bits, which is exact to less than one unit for every finite FP32 value. -/
def reduceAngle (m : Nat) (e : Int) : Nat × Nat :=
  let x : Nat := if 0 ≤ e + 447 then m * 2 ^ (e + 447).toNat else 0
  let k := x * 4 / piFx
  let r := x - k * piFx / 4
  (k % 4, r / 2 ^ (447 - fxp))

/-- `SIN` and `COS`, within 2 ulp or 2^-24 (Table 10.7); `shift` is 1 for the cosine. -/
def trigCode (fn shift a : Nat) : Nat :=
  match decodeF .f32 a with
  | .nan | .inf _ => nanCode .f32
  | .num d =>
    if d.m = 0 then (if shift = 1 then 0x3F800000 else a)
    else
      let q := reduceAngle d.m d.e
      let quad := (q.1 + shift) % 4
      let v := if quad % 2 = 0 then sinFx q.2 else cosFx q.2
      let v := if quad < 2 then v else -v
      let v := if d.neg ∧ shift = 0 then -v else v
      bounded fn a 0 0 ⟨v - 4096, v + 4096, -(fxp : Int)⟩ 2 true

/-- `TANH`, within 2 ulp or 2^-24: (e^2x - 1) / (e^2x + 1). -/
def tanhCode (a : Nat) : Nat :=
  match decodeF .f32 a with
  | .nan => nanCode .f32
  | .inf neg => signed .f32 neg 0x3F800000
  | .num d =>
    if d.m = 0 then a
    else
      let one : Int := (2 ^ fxp : Nat)
      let v : Int × Int :=
        if cmpDy d.m d.e false 1 6 == .gt then (one - 2 ^ 40, one)
        else
          let x2 := m2Fx d
          let k := x2 / ln2Fx
          let s := expEncl (x2 - k * ln2Fx)
          let lo : Int := (s.lo - k - 2 : Nat) * 2 ^ k
          let hi : Int := (s.hi + k + 2) * 2 ^ k
          ((lo - one) * one / (lo + one) - 1, (hi - one) * one / (hi + one) + 1)
      let x : RealEncl := if d.neg then ⟨-v.2, -v.1, -(fxp : Int)⟩ else ⟨v.1, v.2, -(fxp : Int)⟩
      bounded 7 a 0 0 x 2 true
where
  /-- Twice the magnitude in units of 2^-fxp. -/
  m2Fx (d : Dy) : Nat :=
    if 0 ≤ d.e + fxp + 1 then d.m * 2 ^ (d.e + fxp + 1).toNat else d.m / 2 ^ (-(d.e + fxp + 1)).toNat

/-- `EXP2S` (R240): t = (x - m) * s exactly, then 2^t rounded once. 2^-150 lies halfway between +0 and the least value, so
that boundary, the only one that a `t` near an integer can come close to, is decided by `t` itself. Where the enclosure of
2^t spans another rounding boundary the nearer of the two codes is the chip's choice. -/
def exp2sCode (x s m : Nat) : Nat :=
  let t := mulV (addV .rne (decodeF .f32 x) (negV (decodeF .f32 m))) (decodeF .f32 s)
  match t with
  | .nan => nanCode .f32
  | .inf neg => if neg then 0 else infCode .f32 false
  | .num d =>
    if cmpDy d.m d.e false 1 10 == .gt then (if d.neg then 0 else infCode .f32 false)
    else if d.neg && cmpDy d.m d.e false 150 0 != .lt then 0
    else if d.neg && cmpDy d.m d.e false 149 0 == .gt then 1
    else
      let p := pow2Encl d
      if p.2.1 then roundIeee .f32 .rne false 1 p.2.2 false
      else
        let lo := roundIeee .f32 .rne false p.1.lo.natAbs p.1.e true
        let hi := roundIeee .f32 .rne false p.1.hi.natAbs p.1.e false
        if lo = hi then lo else if Config.sfqPick 8 x s m % 2 = 0 then lo else hi

/-- The limits that `GNOISE` never leaves (R241): -ln(25 ln 2) and -ln(-ln(1 - 2^-25)), as FP32 values inside them. -/
def gnoiseEncl (h : Nat) : RealEncl :=
  let u := 2 * (h / 256 % 2 ^ 24) + 1
  let l := lnBounds u (-25)
  let lo := (-l.2).toNat
  let hi := (-l.1).toNat
  let a := lnBounds lo (-(fxp : Int))
  let b := lnBounds hi (-(fxp : Int))
  ⟨-b.2, -a.1, -(fxp : Int)⟩

/-- Whether a code lies in the range of `GNOISE`: between the exact results for the least and the greatest `u`. -/
def gnoiseRange (r : Nat) : Bool :=
  match decodeF .f32 r with
  | .num d =>
    let least := gnoiseEncl 0
    let most := gnoiseEncl 0xFFFFFFFF
    let b := min d.e least.e
    let v := d.int * 2 ^ (d.e - b).toNat
    decide (least.lo * 2 ^ (least.e - b).toNat ≤ v) && decide (v ≤ most.hi * 2 ^ (most.e - b).toNat)
  | _ => false

def gnoiseCode (h : Nat) : Nat :=
  let x := gnoiseEncl h
  let p := Config.sfqPick 9 (h / 256 % 2 ^ 24) 0 0 % 2 ^ 32
  if within x 2 false p && gnoiseRange p then p
  else
    let n := nearCode x
    if gnoiseRange n then n
    else roundIeee .f32 .rz (decide (x.lo < 0)) x.lo.natAbs x.e false

end Sys2Proof.Machine
end

