-- ==== Sys2Proof/Machine/Gossip.lean ====
section
/-! DEFINITION. Gossip lines at their home (R139-R142, R149-R151, R179), and the Gander's exchange with its neighbours
(R143-R148). -/

namespace Sys2Proof.Machine

/-! ### Regions (R141) -/

/-- The regions whose ranges hold a line. -/
def State.regionsOf (s : State) (p va : Nat) : List Nat :=
  (List.range 8).filter fun n =>
    decide (s.regionBase p n ≤ va) && decide (va < s.regionBase p n + 256 * s.regionLines p n)

/-- The lowest-numbered descriptor whose range holds a line (R139). -/
def State.regionOf (s : State) (p va : Nat) : Option Nat := (s.regionsOf p va).head?

/-- The exponent of a line: 0 outside every region. -/
def State.lineExp (s : State) (p va : Nat) : Int :=
  match s.regionOf p va with
  | some n => s.regionExp p n
  | none => 0

/-- The chip of a neighbour entry; one that names the own chip is invalid. -/
def State.neighbour (s : State) (p j : Nat) : Option Nat :=
  let w := s.preg p (0x2308 + 8 * j)
  let chip := bits w 11 0
  if w.getLsbD 63 && chip != bits (s.hreg 0x710) 11 0 then some chip else none

def State.neighbours (s : State) (p : Nat) : List Nat := (List.range 8).filter fun j => (s.neighbour p j).isSome

/-! ### Lines at their home -/

def Loc.sectorOf (l : Loc) (i : Nat) : Loc :=
  { l with va := l.va / 256 * 256 + 64 * i, pa := l.pa / 256 * 256 + 64 * i }

/-- The 32 words of a line: values 0 to 30, then the weight. -/
def State.lineWords (s : State) (l : Loc) : List Word :=
  (List.range 32).map fun i =>
    let d := (s.dramSector (l.sectorOf (i / 8)).pa l.slot).1
    BitVec.ofNat 64 (d.toNat / 2 ^ (64 * (i % 8)))

/-- Whether a line is poisoned (R81). -/
def State.linePoison (s : State) (l : Loc) : Bool := (s.dramSector l.pa l.slot).2.2

def sectorOfWords (ws : List Word) (i : Nat) : Sector :=
  (List.range 8).foldl (fun d j => d ||| (((ws.getD (8 * i + j) 0).setWidth 512) <<< (64 * j))) 0

def State.putLine (s : State) (l : Loc) (ws : List Word) : State :=
  (List.range 4).foldl (fun s i => s.writeDram (l.sectorOf i) (sectorOfWords ws i) {} false) (s.markDirty l)

/-! ### Arithmetic (R149, R150) -/

/-- `RNE(x * 2^-e)` of an FP32 code, as an integer. -/
def gossipInt (x : Nat) (e : Int) : Option Int :=
  match decodeF .f32 x with
  | .num d => some (roundInt .rne { d with e := d.e - e })
  | _ => none

def signedRange (i : Int) : Bool := decide (-(2 ^ 63 : Int) ≤ i) && decide (i < (2 ^ 63 : Int))

/-- `RNE(V * 2^(e+32) / W)` in FP32, for a weight that is not zero. -/
def estimate (v w : Word) (e : Int) : Nat :=
  if v = 0 then 0 else divRound (v.msb) v.toInt.natAbs (e + 32) w.toNat 0

/-- One comparison of `GSPREAD`. -/
def spreadOf (a b : Nat) : Nat :=
  if isNan .f32 a || isNan .f32 b then infCode .f32 false
  else if fcmp .f32 a b == some .eq then 0
  else
    match decodeF .f32 a, decodeF .f32 b with
    | .num x, .num y =>
      let m := if cmpDy x.m x.e false y.m y.e == .lt then y else x
      (match addV .rne (.num x) (negV (.num y)) with
        | .num d => divRound false d.m d.e m.m m.e
        | _ => infCode .f32 false)
    | _, _ => infCode .f32 false

/-! ### `GFENCE` (R151) -/

def State.gand (s : State) (p j : Nat) : Gander := AMap.get s.gander (p * 8 + j) {}
def State.setGand (s : State) (p j : Nat) (g : Gander) : State := { s with gander := AMap.put s.gander (p * 8 + j) g }

/-- Rounds of a region with a neighbour that started after `base` and have completed. -/
def Gander.completed (g : Gander) (n base : Nat) : Nat :=
  let started := AMap.get g.counts n 0
  let busy := (g.flight.filter fun f => f.region == n).map (·.round)
  let open_ := if (AMap.find? g.active n).isSome then started :: busy else busy
  started - base - ((open_ ++ AMap.get g.aborted n []).eraseDups.filter fun r => decide (base < r)).length

/-- A `GFENCE` whose `GADD`s have completed begins to count rounds, and completes when it has counted enough. -/
def State.settleGfence (s : State) (c : Nat) (q : Req) : State :=
  let p := q.idn.part
  if !q.started then
    if (s.core c).reqs.any fun r => r.idn.gid == q.idn.gid && r.kind == .gadd && decide (r.id < q.id) then s
    else
      let rounds := (s.neighbours p).flatMap fun j => q.words.map fun n =>
        (j, n.toNat, AMap.get (s.gand p j).counts n.toNat 0)
      if q.n = 0 ∨ rounds = [] then s.complete c q.id
      else s.modReq c q.id fun r => { r with started := true, rounds := rounds }
  else if q.rounds.all fun r => (s.neighbour p r.1).isNone || decide (q.n ≤ (s.gand p r.1).completed r.2.1 r.2.2) then
    s.complete c q.id
  else s

/-- The `GFENCE`s of a core are tried again: a `GADD` has completed. -/
def State.settleGfences (s : State) (c : Nat) : State :=
  (s.core c).reqs.foldl (fun s q =>
    if q.kind = .gfence ∧ (q.accs.any fun a => a.st == .withdrawn || a.st == .logged) = false then s.settleGfence c q else s) s

/-- A `GFENCE` is issued: the regions of its group's `GADD`s since the last one are its own. -/
def State.startGfence (s : State) (c slot id : Nat) : State :=
  match s.group? c slot with
  | none => s
  | some g =>
    ((s.modReq c id fun r => { r with words := g.gadds.map fun n => BitVec.ofNat 64 n }).modGroup c slot fun g =>
      { g with gadds := [] }).settleGfences c

/-! ### The instructions' accesses -/

/-- The page of a gossip access, or its late cause; gossip pages are never windows (R125). -/
def State.gossipLoc (s : State) (q : Req) (va : Nat) : Except Late Loc :=
  match s.resolve q.idn.part q.idn.asid va .either with
  | .ok (.mem l) => .ok l
  | .ok _ => .error { cause := 0x08 }
  | .error n => .error (s.lateOf q.idn.part q.idn.asid va n)

/-- A `GADD` has performed on a region (R151): the next `GFENCE` of its group counts the region's rounds, be it one that waits
already or one still to come. -/
def State.noteGadd (s : State) (c : Nat) (q : Req) (r : Nat) : State :=
  let add (l : List Nat) : List Nat := if l.contains r then l else r :: l
  match (s.core c).reqs.find? fun f => f.kind == .gfence && f.idn.gid == q.idn.gid && decide (q.id < f.id) with
  | some f => s.modReq c f.id fun f => { f with words := (add (f.words.map (·.toNat))).map fun n => BitVec.ofNat 64 n }
  | none => s.modGroup c q.idn.slot fun g => if g.gid = q.idn.gid then { g with gadds := add g.gadds } else g

/-- `GINIT` and `GADD` of a lane, as one event of the line order. -/
def State.gaddAcc (s : State) (c : Nat) (q : Req) (idx : Nat) (a : Acc) : Outc :=
  match s.gossipLoc q a.va with
  | .error f => .late f s
  | .ok l =>
    let s := s.installTlb q.idn.part l.easid a.va
    let ws := s.lineWords l
    let i := a.va % 256 / 8
    let put (s : State) (w : Word) : State := (s.putLine l (ws.set i w)).finishAcc c q.id idx .done
    if q.kind = .ginit then .done (put (s.logError l (s.linePoison l)) (a.data.setWidth 64))
    else if s.linePoison l then .late { cause := 0x29, trap := true } s
    else
      let v := (ws.getD i 0).toInt
      match gossipInt (a.data.toNat % 2 ^ 32) (s.lineExp q.idn.part (a.va / 256 * 256)) with
      | none => .late { cause := 0x24 } s
      | some n =>
        if signedRange n && signedRange (v + n) then
          let s := (s.regionsOf q.idn.part (a.va / 256 * 256)).foldl (fun s r => s.noteGadd c q r) s
          .done ((put s (BitVec.ofInt 64 (v + n))).settleGfences c)
        else .late { cause := 0x24 } s

def State.greadAcc (s : State) (c : Nat) (q : Req) (idx : Nat) (a : Acc) : Outc :=
  match s.gossipLoc q a.va with
  | .error f => .late f s
  | .ok l =>
    if s.linePoison l then .late { cause := 0x29, trap := true } s
    else
    let s := s.installTlb q.idn.part l.easid a.va
    let ws := s.lineWords l
    let w := ws.getD 31 0
    let v := if w = 0 then 0 else estimate (ws.getD (a.va % 256 / 8) 0) w (s.lineExp q.idn.part (a.va / 256 * 256))
    .done (((s.deliver c q .f32 a.lane v).lanePred q a.lane (w != 0)).finishAcc c q.id idx .done)

/-- Eight bytes of the shadow, read as a program reads them. -/
def State.shadowWord (s : State) (p va : Nat) : Except Late Nat :=
  match s.resolve p 0 va .either with
  | .ok (.mem l) =>
    let x := s.sector l
    if x.poison then .error { cause := 0x29, trap := true } else .ok (sectorValue x.data va 4)
  | .ok _ => .error { cause := 0x1D }
  | .error n => .error (s.lateOf p 0 va n)

/-- The spread against one valid slot, from value `i` on. -/
def State.slotSpread (s : State) (p slot : Nat) (est : Nat → Nat) : Nat → Nat → Except Late Nat
  | 0, acc => .ok acc
  | n + 1, acc => do
    let i := 30 - n
    let b ← s.shadowWord p (slot + 4 * i)
    s.slotSpread p slot est n (fminCode .f32 true acc (spreadOf (est i) b))

/-- The loop of R150 over the neighbour entries; the flag says whether some slot was valid. -/
def State.spreadLoop (s : State) (p base : Nat) (est : Nat → Nat) : List Nat → Nat × Bool → Except Late (Nat × Bool)
  | [], r => .ok r
  | j :: t, r => do
    let slot := base + 128 * j
    let v ← s.shadowWord p (slot + 124)
    if v / 2 ^ 31 = 1 then
      let m ← s.slotSpread p slot est 31 r.1
      s.spreadLoop p base est t (m, true)
    else s.spreadLoop p base est t r

/-- `GSPREAD` of one line (R150). Where several regions hold the line, the shadow is that of the lowest-numbered one (log entry
119). -/
def State.gspreadAcc (s : State) (c : Nat) (q : Req) (idx : Nat) (a : Acc) : Outc :=
  match s.gossipLoc q a.va with
  | .error f => .late f s
  | .ok l =>
    if s.linePoison l then .late { cause := 0x29, trap := true } s
    else
    let p := q.idn.part
    let s := s.installTlb p l.easid a.va
    let ws := s.lineWords l
    let w := ws.getD 31 0
    let e := s.lineExp p a.va
    let est (i : Nat) : Nat := if w = 0 then 0 else estimate (ws.getD i 0) w e
    let start := if w = 0 then infCode .f32 false else 0
    let r : Except Late (Nat × Bool) := match s.regionOf p a.va with
      | none => .ok (infCode .f32 false, false)
      | some n =>
        s.spreadLoop p (s.regionShadow p n + 1024 * ((a.va - s.regionBase p n) / 256)) est
          (s.neighbours p) (start, false)
    match r with
    | .error f => .late f s
    | .ok (m, valid) =>
      let v := if valid then m else infCode .f32 false
      let ok := match fcmp .f32 v (a.cmp.toNat % 2 ^ 32) with
        | some .lt | some .eq => true
        | _ => false
      .done (((s.deliver c q .f32 a.lane v).lanePred q a.lane ok).finishAcc c q.id idx .done)

/-! ### The Gander -/

/-- The place of a gossip line under the partition's global ASID. -/
def State.gossipPlace (s : State) (p va : Nat) : Option Loc :=
  match s.resolve p 0 va .either with
  | .ok (.mem l) => if l.cls = 2 then some l else none
  | _ => none

/-- The address of a line of a region. -/
def State.regionVa (s : State) (p n line : Nat) : Nat := s.regionBase p n + 256 * line

def State.stepped (s : State) (p : Nat) : Bool := (s.preg p 0x2300).getLsbD 62
def State.ganderOn (s : State) (p : Nat) : Bool := (s.preg p 0x2300).getLsbD 63

/-- The rounds of a step: every enabled region with every valid neighbour, in order (R148). -/
def State.stepRounds (s : State) (p : Nat) : List (Nat × Nat) :=
  (s.neighbours p).flatMap fun j => ((List.range 8).filter (s.regionOn p)).map fun n => (j, n)

/-- Whether a round of the partition is in progress: lines still to be split, or messages in flight. -/
def State.roundBusy (s : State) (p : Nat) : Bool :=
  (List.range 8).any fun j => (s.gand p j).active != [] || (s.gand p j).flight != []

/-- The partition whose `GSTEP` runs. -/
def State.stepPart (s : State) : Option Nat :=
  (s.steps.head?.bind fun x => (s.core x.1).req? x.2).bind fun q => if q.started then some q.idn.part else none

/-- The first waiting `GSTEP` of the chip begins, or the one that runs completes and makes way (R148). -/
def State.settleSteps : Nat → State → State
  | 0, s => s
  | f + 1, s =>
    match s.steps with
    | [] => s
    | (c, id) :: rest =>
      match (s.core c).req? id with
      | none => settleSteps f { s with steps := rest, stepPlan := [] }
      | some q =>
        if s.stepPlan ≠ [] ∨ s.roundBusy q.idn.part = true then s
        else if q.started then settleSteps f (({ s with steps := rest } : State).complete c id)
        else
          settleSteps f ({ s with stepPlan := s.stepRounds q.idn.part }.modReq c id fun r => { r with started := true })

/-- Rounds of regions that are enabled no more, or of neighbours that are valid no more, end unfinished once no message of
theirs is in flight (R141). -/
def Gander.settleStopped (g : Gander) : Gander :=
  (g.stopped.filter fun n => !(g.flight.any fun f => f.region == n)).foldl (fun (g : Gander) n =>
    { g with
      active := AMap.del g.active n, stopped := g.stopped.filter fun m => m != n,
      aborted := AMap.put g.aborted n (AMap.get g.counts n 0 :: AMap.get g.aborted n []) }) g

/-- A change of STEP takes effect when no round is in progress and no `GSTEP` of the partition waits (R148). -/
def State.settleMode (s : State) (p : Nat) : State :=
  match (s.part p).stepNext with
  | none => s
  | some b =>
    let waits := s.steps.any fun x => match (s.core x.1).req? x.2 with
      | some q => q.idn.part == p
      | none => false
    if s.roundBusy p || waits then s
    else (s.setPreg p 0x2300 (setBits (s.preg p 0x2300) 62 62 (if b then 1 else 0))).modPart p fun x => { x with stepNext := none }

/-- What waits for the messages of a partition's Gander is taken up again. -/
def State.settleGander (s : State) (p : Nat) : State :=
  let s := (List.range 8).foldl (fun s j =>
    if (s.gand p j).stopped = [] then s else s.setGand p j (s.gand p j).settleStopped) s
  (s.settleSteps 16).settleMode p

/-- A round of a region with a neighbour begins once the last one with that neighbour has sent its last message: in
free-running mode at any time, in stepped mode as the running `GSTEP` takes them (R144, R148). -/
def execGossipRoundStart (part nbr region : Nat) (s : State) : Host.Outcome State Fault Refusal :=
  let s := s.settleGander part
  let g := s.gand part nbr
  let ok := s.regionOn part region && (s.neighbour part nbr).isSome && decide (nbr < 8 ∧ region < 8)
  let start (s : State) : State :=
    s.setGand part nbr { g with active := AMap.put g.active region [],
                                counts := AMap.put g.counts region (AMap.get g.counts region 0 + 1) }
  if !s.ganderOn part then .next s
  else if s.stepPart = some part then
    if s.stepPlan.head? = some (nbr, region) ∧ (List.range 8).all (fun j => (s.gand part j).active == []) then
      let s : State := { s with stepPlan := s.stepPlan.tail }
      .next ((if ok then start s else s).settleGander part)
    else .next s
  else if ok && !s.stepped part && (s.part part).stepNext.isNone && g.active == [] then .next (start s)
  else .next s

/-- The address that the plane and the link of a message are taken from (R124, R143). -/
def messageIfa (chip line : Nat) : Word := BitVec.ofNat 64 (chip % 4096 * 2 ^ 52 + line % 8 * 2 ^ 8)

/-- The Gander takes a split of one line and sends the message (R143); in stepped mode lines go in ascending order. -/
def execGossipSplit (part nbr region line : Nat) (s : State) : Host.Outcome State Fault Refusal :=
  let g := s.gand part nbr
  let va := s.regionVa part region line
  match AMap.find? g.active region, s.neighbour part nbr, s.gossipPlace part va with
  | some taken, some chip, some l =>
    let ifa := messageIfa chip line
    if line < s.regionLines part region ∧ taken.contains line = false ∧ g.flight.length < 256 ∧
        s.regionOn part region = true ∧ g.stopped.contains region = false ∧ s.ganderOn part = true ∧
        s.netWaits ifa = false ∧ (s.stepped part = true → line = taken.length) then
      let live := s.planeLive (s.planeOf (codeOf ifa))
      match if live then s.useFlits (s.linkFor (codeOf ifa) chip) (payloadFlits 256) else (s, true) with
      | (s, false) => .next s
      | (s, true) =>
      let s := (s.installTlb part (easidOf 0 l.va) l.va).logError l (s.linePoison l)
      let ws := s.lineWords l
      let sent := (ws.take 31).map fun v => v.sshiftRight 1
      let w := ws.getD 31 0
      let sentw := w >>> 1
      let kept := ((ws.take 31).zip sent).map fun x => x.1 - x.2
      let s := s.putLine l (kept ++ [w - sentw])
      let fl : Flight :=
        { seq := g.seq + 1, region := region, line := line, va := va, sent := sent, sentw := sentw,
          round := AMap.get g.counts region 0, lost := !live, fpid := bits (s.hreg (0x600 + 8 * part)) 15 0 }
      let taken := taken ++ [line]
      let act := if taken.length = s.regionLines part region then AMap.del g.active region
        else AMap.put g.active region taken
      .next (s.setGand part nbr { g with seq := g.seq + 1, flight := g.flight ++ [fl], active := act })
    else .next s
  | _, _, _ => .next s

/-- Clearing EN stops a region's rounds, which end when their messages in flight have (R141). -/
def State.stopRegion (s : State) (p n : Nat) : State :=
  ((List.range 8).foldl (fun s j =>
    let g := s.gand p j
    if (AMap.find? g.active n).isSome ∧ g.stopped.contains n = false then s.setGand p j { g with stopped := n :: g.stopped }
    else s) s).settleGander p

/-- A neighbour entry has become invalid or names another chip: its rounds stop (log entry 108). -/
def State.stopNeighbour (s : State) (p j : Nat) : State :=
  let g := s.gand p j
  (s.setGand p j { g with stopped := g.active.map (·.1) }).settleGander p

/-- `value[i] := value[i] + sent[i]`, `weight := weight + sentw`, wrapping, and whether a sum left its range (R145). -/
def addHalves (ws sent : List Word) (sentw : Word) : List Word × Bool :=
  let vs := (ws.take 31).zip (sent ++ List.replicate 31 0)
  let w := ws.getD 31 0
  (vs.map (fun x => x.1 + x.2) ++ [w + sentw],
    vs.any (fun x => !signedRange (x.1.toInt + x.2.toInt)) || decide (2 ^ 64 ≤ w.toNat + sentw.toNat))

def State.setOvf (s : State) (p : Nat) (b : Bool) : State :=
  if b then s.setPreg p 0x2348 (s.preg p 0x2348 ||| 0x10000) else s

/-- Put the halves of an unapplied message back into their line (R146). -/
def State.addBack (s : State) (p : Nat) (f : Flight) : State :=
  match s.gossipPlace p f.va with
  | none => s
  | some l =>
    let s := (s.installTlb p (easidOf 0 l.va) l.va).logError l (s.linePoison l)
    let r := addHalves (s.lineWords l) f.sent f.sentw
    (s.putLine l r.1).setOvf p r.2

/-- Whether the line of a message can take its halves back now; while it is no line of memory, the message stays in flight
(log entry 109). -/
def State.canAddBack (s : State) (p : Nat) (f : Flight) : Bool := (s.gossipPlace p f.va).isSome

/-- Serial-number comparison of sequence numbers (R145). -/
def newer (s a : BitVec 32) : Bool := decide (1 ≤ (s - a).toNat) && decide ((s - a).toNat < 2 ^ 31)

def execGossipAck (part nbr : Nat) (seq : BitVec 32) (s : State) : Host.Outcome State Fault Refusal :=
  let g := s.gand part nbr
  .next ((s.setGand part nbr { g with flight := g.flight.filter fun f => f.seq != seq || f.lost }).settleGander part)

/-- A refused message's halves come back, and REFUSED counts it (R145). -/
def execGossipRefusal (part nbr : Nat) (seq : BitVec 32) (s : State) : Host.Outcome State Fault Refusal :=
  let g := s.gand part nbr
  match g.flight.find? fun f => f.seq == seq && !f.lost with
  | none => .next s
  | some f =>
    if s.canAddBack part f then
      let s := s.addBack part f
      let w := s.preg part 0x2348
      let s := s.setPreg part 0x2348 (setBits w 63 32 (min (2 ^ 32 - 1) (bits w 63 32 + 1)))
      .next ((s.setGand part nbr { g with flight := g.flight.filter fun x => x != f }).settleGander part)
    else .next s

/-- Reconciliation over a live plane: lost messages up to the neighbour's last applied number count as acknowledged, the
later ones are added back (R146). -/
def execGossipReconcile (part nbr : Nat) (last : BitVec 32) (s : State) : Host.Outcome State Fault Refusal :=
  let g := s.gand part nbr
  let lost := g.flight.filter fun f => f.lost
  let back := lost.filter fun f => newer f.seq last
  if (List.range 8).any s.planeLive && back.all (s.canAddBack part) then
    let s := back.foldl (fun s f => s.addBack part f) s
    .next ((s.setGand part nbr { g with flight := g.flight.filter fun f => !f.lost }).settleGander part)
  else .next s

/-! ### Arrival (R142, R145) -/

/-- The lowest-numbered valid `FMPOL` entry of an FPID (R127). -/
def State.policy (s : State) (fpid : Nat) : Option Nat :=
  (List.range 64).find? fun i =>
    let w := s.hreg (0x800 + 16 * i)
    w.getLsbD 63 && bits w 47 32 == fpid % 65536

/-- Count a refusal in the entry that met it. -/
def State.countRefusal (s : State) (i : Option Nat) : State :=
  match i with
  | none => s
  | some i =>
    let w := s.hreg (0x800 + 16 * i)
    s.setHreg (0x800 + 16 * i) (setBits w 31 8 (min (2 ^ 24 - 1) (bits w 31 8 + 1)))

/-- The Gander's identity for a plane: one on each L-die (R117). -/
def ganderAgent (s : State) (line : Nat) : Nat := if s.planeOf (line % 8) < 4 then 66 else 67

/-- What a Gander has to write of the shadows, oldest first; a sector that another engine has taken waits for it, and what
comes later for it waits behind (R117). A page that is memory is written whatever its class and permissions are; what is no
memory, or sealed, loses the write (log entry 38). -/
def State.settleShades (s : State) : State :=
  let r := s.shades.foldl (fun (r : State × List ShadowWrite) x =>
    match r.1.resolve x.part 0 x.va .either with
    | .ok (.mem l) =>
      if r.1.isSealed x.part l.easid x.va then r
      else if r.1.claimed l.tag || r.2.any fun y => y.part == x.part && y.va == x.va then (r.1, r.2 ++ [x])
      else ((r.1.installTlb x.part l.easid x.va).mergeOwned x.holder l x.mask x.data, r.2)
    | _ => r) ({ s with shades := [] }, [])
  { r.1 with shades := r.2 }

/-- The two sectors of a slot that has these 32-bit words from its word `i` on. -/
def slotWrites (p holder slot i : Nat) (ws : List Nat) : List ShadowWrite :=
  let v := ws.zipIdx.foldl (fun n x => n + x.1 % 2 ^ 32 * 2 ^ (32 * (i + x.2))) 0
  let m := (2 ^ (4 * ws.length) - 1) * 2 ^ (4 * i)
  [0, 1].map fun h =>
    { part := p, holder := holder, va := slot + 64 * h, mask := BitVec.ofNat 64 (m / 2 ^ (64 * h)),
      data := BitVec.ofNat 512 (v / 2 ^ (512 * h)) }

/-- The slot of an arriving message (R142). -/
def State.writeSlot (s : State) (p n line src : Nat) (sent : List Word) (sentw : Word) (seq : BitVec 32) : State :=
  match (List.range 8).find? fun j => s.neighbour p j == some src with
  | none => s
  | some j =>
    let slot := s.regionShadow p n + 1024 * line + 128 * j
    let e := s.lineExp p (s.regionVa p n line)
    let tail : Nat := seq.toNat % 2 ^ 31
    let ws := if sentw = 0 then slotWrites p (ganderAgent s line) slot 31 [tail]
      else slotWrites p (ganderAgent s line) slot 0
        ((List.range 31).map (fun i => estimate (sent.getD i 0) sentw e) ++ [2 ^ 31 + tail])
    ({ s with shades := s.shades ++ ws.filter fun x => x.mask != 0 } : State).settleShades

/-- A message arrives: it is admitted and added, or acknowledged as a duplicate, or refused (R145). -/
def execGossipMessageArrival (msg : GossipMsg) (s : State) : Host.Outcome State Fault Refusal :=
  let pol := s.policy msg.fpid
  let p := match pol with
    | some i => bits (s.hreg (0x800 + 16 * i)) 3 0
    | none => 0
  let admitted := pol.isSome && decide (msg.region < 8) && s.regionOn p msg.region &&
    decide (msg.line < s.regionLines p msg.region)
  let answer (s : State) (a : Answer) : State := { s with answers := s.answers ++ [a] }
  if !admitted then .next (answer (s.countRefusal pol) (.gossipRefused msg.src msg.seq))
  else
    let key := (msg.src * 65536 + msg.fpid % 65536) * 8 + msg.entry % 8
    if !newer msg.seq (AMap.get s.applied key 0) then .next (answer s (.gossipAck msg.src msg.seq))
    else
      match s.gossipPlace p (s.regionVa p msg.region msg.line) with
      | none => .next (answer (s.countRefusal pol) (.gossipRefused msg.src msg.seq))
      | some l =>
        let s := (s.installTlb p l.easid l.va).logError l (s.linePoison l)
        let r := addHalves (s.lineWords l) msg.sent msg.sentw
        let s := (s.putLine l r.1).setOvf p r.2
        let s := { s with applied := AMap.put s.applied key msg.seq }
        .next (answer (s.writeSlot p msg.region msg.line msg.src msg.sent msg.sentw msg.seq)
          (.gossipAck msg.src msg.seq))

/-! ### Registers (R141) -/

/-- A write to a region descriptor. -/
def State.writeGsreg (s : State) (part n word : Nat) (value : Word) : State :=
  if 8 ≤ n ∨ 3 ≤ word then s
  else
    let off := 0x2400 + 32 * n + 8 * word
    let on := s.regionOn part n
    if word = 0 then
      let v := value &&& 0x80FFFFFFFFFFFFFF
      let old := s.gsreg part n 0
      let en := v.getLsbD 63
      if on then
        if en then s
        else ((s.setPreg part off (setBits old 63 63 0)).stopRegion part n)
      else
        let e := ((v.setWidth 8 : BitVec 8)).toInt
        if en && (!v.getLsbD 55 || decide (e < -96) || decide (31 < e)) then s
        else (s.setPreg part off v)
    else if on then s
    else if word = 1 then (s.setPreg part off (value &&& 0x00FFFFFFFFFFFC00))
    else (s.setPreg part off (value &&& 0xFFFFFF))

/-- The partition's own function writes the register (R370). -/
def execGsregWrite (part n word : Nat) (value : Word) (s : State) : Host.Outcome State Fault Refusal :=
  s.asFunction part fun s => s.writeGsreg part n word value

/-- A write to `GSCTL`; a change of STEP takes effect when no round is in progress (R148). -/
def State.writeGsctl (s : State) (part : Nat) (value : Word) : State :=
  let old := bits (s.preg part 0x2300) 62 62
  let s := s.setPreg part 0x2300 (setBits (value &&& 0xC00000FFFFFFFFFF) 62 62 old)
  let step := value.getLsbD 62
  ((s.modPart part fun x => { x with stepNext := if step = (old == 1) then none else some step }).settleGander part)

/-- The partition's own function writes the register (R370). -/
def execGsctlWrite (part : Nat) (value : Word) (s : State) : Host.Outcome State Fault Refusal :=
  s.asFunction part fun s => s.writeGsctl part value

/-- A write to `GSNBR`j. -/
def State.setNeighbour (s : State) (part j : Nat) (value : Word) : State :=
  let s' := s.setPreg part (0x2308 + 8 * j) (value &&& 0x8000000000000FFF)
  if s'.neighbour part j = s.neighbour part j then s' else s'.stopNeighbour part j

end Sys2Proof.Machine
end

