-- ==== Sys2Proof/Machine/Fabric.lean ====
section
/-! DEFINITION. Copies through the fabric and arrival records (R131, R181-R185), request packets at their target
(R127-R131), answers at their source (R126, R137), and the links with their keys (R134-R138). -/

namespace Sys2Proof.Machine

/-! ### Late faults (R160) -/

/-- Causes whose requests are logged for replay. -/
def replayCause (n : Nat) : Bool := n == 0x08 || (decide (0x18 ≤ n) && decide (n ≤ 0x1D))

def lateRecord (q : Req) (a : Acc) (f : Late) (exited : Bool) : FaultRec :=
  { org := q.origin a.lane, cause := f.cause, exited := exited, dropped := !replayCause f.cause && f.cause != 0x28,
    halted := f.trap && !exited, va := q.needs a, easid := easidOf q.idn.asid (q.needs a), detail := f.detail,
    aux := f.aux, owner := f.owner }

/-- The registers that a dropped lane would have loaded hold an unspecified value. -/
def State.scramble (s : State) (c : Nat) (q : Req) (a : Acc) : State :=
  let ty : Ty := match q.kind with
    | .atom | .fatom => atomTy q.size
    | .waita | .acwait => .b64
    | .gread | .gspread => .f32
    | .grd | .probe => .b32
    | _ => loadTy q.size q.sx
  (s.deliver c q ty a.lane
    ((Config.freeWord s.free a.lane).toNat + 2 ^ 64 * (Config.freeWord s.free (a.lane + 64)).toNat)).spend

/-- Rows of a matrix load or store above a logged lane go to the operand log with it, unperformed (R263, R269). -/
def Req.logAbove (q : Req) (lane : Nat) : Req :=
  if q.kind = .mload ∨ q.kind = .mstore then
    q.mapAccs (fun a => decide (lane ≤ a.lane) && a.pending) fun a => { a with st := .logged }
  else q

/-- The accesses of a request that a fault at one of them takes with it: the pieces of a fabric line go together (R181,
R182), the destination line of an `FPUT`, the source line of an `FGET` until its bytes have come. -/
def Req.lineOf (q : Req) (idx : Nat) (a : Acc) : List Nat :=
  let line (b : Acc) : Option Nat :=
    match q.kind with
    | .fput => some (b.va / 256)
    | .fget => if b.got then none else some (b.cmp.toNat / 256)
    | _ => none
  match line a with
  | none => [idx]
  | some n => (q.accs.zipIdx.filter fun b => b.2 == idx || (!b.1.finished && line b.1 == some n)).map (·.2)

/-- A request faults late: it is logged for replay, or dropped as if complete, and a record waits to be written. The
address that a dropped fill reads is unspecified. A log whose 16 entries are taken takes the access all the same (log entry
115). -/
def State.fault (s : State) (c id idx : Nat) (f : Late) : State :=
  match ((s.core c).req? id).bind fun q => (q.accs[idx]?).map fun a => (q, a) with
  | none => s
  | some (q, a) =>
    let s := s.record q.idn.part (lateRecord q a f (!s.lives q.idn))
    if replayCause f.cause then
      let l := if q.kind = .fget then q.lineOf idx a else [idx]
      ((l.foldl (fun s i => s.setAccSt c id i .logged) s).modReq c id fun r => r.logAbove a.lane).feedAged
        Config.agedEntries c
    else if q.kind = .fill then
      (s.modReq c id fun r => r.setAcc idx fun b =>
        { b with st := .dropped, cmp := Config.freeWord s.free a.lane }).spend.feedAged Config.agedEntries c
    else
      let s := ((q.lineOf idx a).foldl (fun s i => s.finishAcc c id i .dropped) (s.scramble c q a)).feedAged
        Config.agedEntries c
      if q.kind = .gadd then s.settleGfences c else s

/-! ### `FPUT` and `FGET` (R181, R182) -/

/-- Read 32 bytes of a copy's source: a memory source at the shared cache, with a graded sector counted (R91, R174). -/
def State.copySource (s : State) (c : Nat) (q : Req) (idx : Nat) (a : Acc) : Outc :=
  let src := a.cmp.toNat
  let keep (s : State) (v : Nat) : Outc :=
    .done (s.modReq c q.id fun r => r.setAcc idx fun a => { a with got := true, data := BitVec.ofNat 512 v })
  match q.space with
  | .glb =>
    match s.resolve q.idn.part q.idn.asid src .noWindow with
    | .error n => .late (s.lateOf q.idn.part q.idn.asid src n) s
    | .ok (.mem l) =>
      let s := s.installTlb q.idn.part l.easid src
      if s.noGrant l.tag q.id then .wait s
      else
        let x := s.sector l
        if x.poison then .late { cause := 0x29, trap := true } s
        else
          match s.countRead q l.cls x.record with
          | .error f => .late f s
          | .ok s => keep s (sectorValue x.data src 32)
    | .ok (.host addr) => s.hostLoad c q idx a addr (.load 32)
    | .ok (.window _ _) => .wait s
  | _ => keep s (s.wayRead src 32)

/-- The accesses of an `FPUT` that go to one destination line. -/
def Req.lineAccs (q : Req) (line : Nat) : List (Nat × Acc) :=
  (q.accs.zipIdx.map fun x => (x.2, x.1)).filter fun x => x.2.va / 256 == line

/-- The bytes of a line that a list of 32-byte pieces brings. -/
def pieceMask (l : List (Nat × Acc)) : BitVec 256 :=
  l.foldl (fun (m : BitVec 256) x => m ||| ((0xFFFFFFFF#32).setWidth 256 <<< (x.2.va % 256))) 0
def pieceData (l : List (Nat × Acc)) : BitVec 2048 :=
  l.foldl (fun (d : BitVec 2048) (x : Nat × Acc) =>
    d ||| (BitVec.ofNat 2048 (x.2.data.toNat * 2 ^ (8 * (x.2.va % 256))))) 0#2048

/-- Put one destination sector's pieces of an outward `FPUT` line into the hold buffer. -/
def State.holdPieces (s : State) (c : Nat) (q : Req) (ctr : Option Word) : List (Nat × Acc) → Option State
  | [] => some s
  | l =>
    (List.range 4).foldl (fun s i => s.bind fun s =>
      let part := l.filter fun x => x.2.va % 256 / 64 == i
      match part.head? with
      | none => some s
      | some x =>
        (s.holdStore q { x.2 with va := x.2.va / 64 * 64 } q.gen (.bulk (pieceMask part) (pieceData part) ctr)).map fun s =>
          part.foldl (fun s y => s.finishAcc c q.id y.1 .held) s) (some s)

/-- The counter of an `FPUT`; all ones is none. -/
def Req.counter (q : Req) : Option Word :=
  match q.words[3]? with
  | some w => if w = BitVec.allOnes 64 then none else some w
  | none => none

/-- Once a line's bytes have been read, it is sent as one packet, or held (R100, R131). -/
def State.fputLine (s : State) (c : Nat) (q : Req) (idx : Nat) (a : Acc) : Outc :=
  let p := q.idn.part
  let l := q.lineAccs (a.va / 256)
  if l.any fun x => !x.2.got || x.2.st != .waiting then .wait s
  else
    match s.resolve p q.idn.asid a.va .onlyWindow with
    | .error n => .late (s.lateOf p q.idn.asid a.va n) s
    | .ok (.window ifa cls) =>
      let bad := match q.counter with
        | some ctr => chipOf ctr != chipOf ifa
        | none => false
      if bad then .late { cause := 0x0B, aux := ifa } s
      else if s.outward p a.va (.window ifa cls) && decide (q.floor < 3) then
        match s.holdPieces c q q.counter l with
        | some s => .done (s.unstall c q)
        | none => .wait (s.stall c q idx)
      else if s.outward p a.va (.window ifa cls) && s.draining p q.idn.gid then .wait s
      else
        let id := s.next
        let s := (s.drainLine c q a.va).sendNet
          { part := p, easid := easidOf q.idn.asid a.va, va := a.va / 256 * 256,
            ifa := ifa - BitVec.ofNat 64 (a.va % 256), op := .bulk (pieceMask l) (pieceData l) q.counter,
            who := l.map fun x => (c, q.id, x.1), org := q.origin a.lane }
        .wait (l.foldl (fun s x => s.setAccSt c q.id x.1 (.sent id)) s)
    | .ok _ => .wait s

def State.fputAcc (s : State) (c : Nat) (q : Req) (idx : Nat) (a : Acc) : Outc :=
  if a.got then s.fputLine c q idx a
  else if !s.engineReady c q then .wait s
  else
    match s.copySource c q idx a with
    | .done s =>
      match (s.core c).req? q.id with
      | some q' => match q'.accs[idx]? with
        | some a' => s.fputLine c q' idx a'
        | none => .wait s
      | none => .wait s
    | r => r

/-- The fabric port of the plane that fetches a source line. -/
def State.portFor (s : State) (src : Nat) : Nat := if s.planeOf (src / 256 % 8) < 4 then 64 else 65

/-- The port that writes a destination sector of an `FGET`: that of its first piece. -/
def State.fgetPort (s : State) (q : Req) (sector : Nat) : Nat :=
  match q.accs.find? fun a => a.va / 64 == sector with
  | some a => s.portFor a.cmp.toNat
  | none => 64

/-- Whether a 64-byte sector of an `FGET` may not land yet: a piece of it has still to come, or a sector before it of one of its
source lines has still to land. Sectors are atomic, and those of one line land in order (R182, R344). -/
def Req.landsLater (q : Req) (l : List (Nat × Acc)) : Bool :=
  l.any fun x =>
    (x.2.going && !(x.2.got && x.2.st == .waiting)) || q.accs.zipIdx.any fun b =>
      decide (b.2 < x.1) && b.1.cmp.toNat / 256 == x.2.cmp.toNat / 256 && b.1.going && !(l.any fun y => y.1 == b.2)

/-- The bytes of an `FGET` piece have come: its 64-byte sector lands, in memory or in the scratchpad. -/
def State.fgetLand (s : State) (c : Nat) (q : Req) (idx : Nat) (a : Acc) : Outc :=
  let l := (q.accs.zipIdx.map fun x => (x.2, x.1)).filter fun x =>
    x.1 == idx || (x.2.va / 64 == a.va / 64 && x.2.going)
  if q.landsLater l then .wait s
  else
    let mask : Mask := l.foldl (fun m x => m ||| byteMask x.2.va 32) 0
    let d : Sector := l.foldl (fun (d : Sector) x => mergeSector d (placeBytes x.2.va 32 x.2.data.toNat) (byteMask x.2.va 32)) 0
    let fin (s : State) : Outc := .done (l.foldl (fun s x => s.finishAcc c q.id x.1 .done) s)
    match a.space with
    | .glb =>
      let p := q.idn.part
      match s.resolve p q.idn.asid a.va .noWindow with
      | .error n => .late (s.lateOf p q.idn.asid a.va n) s
      | .ok dest =>
        if s.outward p a.va dest && decide (q.floor < 3) then .late { cause := 0x23, detail := q.floor } s
        else if s.outward p a.va dest && s.draining p q.idn.gid then .wait s
        else
          match dest with
          | .mem loc =>
            let s := s.installTlb p loc.easid a.va
            let port := s.fgetPort q (a.va / 64)
            if s.claimedByOther port q.turn loc.tag then .wait s
            else
              fin (s.landSector port loc mask d false)
          | .host addr =>
            let id := s.next
            .wait ((s.sendHost { part := p, easid := easidOf q.idn.asid a.va, va := a.va, addr := addr,
                                 op := .store (lineMask a.va mask) (lineData a.va d), who := l.map fun x => (c, q.id, x.1),
                                 org := q.origin a.lane }).setSent c q.id l id)
          | .window _ _ => .wait s
    | _ =>
      fin (s.modCore (placeCore a.va) fun k => k.padWrite (placeKey (a.va / 64 * 64)) mask d)

/-- Whether a piece of an `FGET` is to leave the device (R103). -/
def State.fgetOut (s : State) (q : Req) (a : Acc) : Bool :=
  a.space == .glb && (match s.resolve q.idn.part q.idn.asid a.va .noWindow with
    | .ok d => s.outward q.idn.part a.va d
    | .error _ => false)

/-- Each source line is fetched by one request on its own plane (R182). -/
def State.fgetAcc (s : State) (c : Nat) (q : Req) (idx : Nat) (a : Acc) : Outc :=
  if a.got then s.fgetLand c q idx a
  else if !s.engineReady c q then .wait s
  else if s.fgetOut q a && decide (q.floor < 3) then .late { cause := 0x23, detail := q.floor } s
  else
    let p := q.idn.part
    let src := a.cmp.toNat
    let l := (q.accs.zipIdx.map fun x => (x.2, x.1)).filter fun x =>
      x.2.cmp.toNat / 256 == src / 256 && x.2.st == .waiting && !x.2.got
    let first := l.foldl (fun m x => min m x.2.cmp.toNat) src
    let last := l.foldl (fun m x => max m x.2.cmp.toNat) src
    match s.resolve p q.idn.asid first .onlyWindow with
    | .error n => .late (s.lateOf p q.idn.asid first n) s
    | .ok (.window ifa _) =>
      let id := s.next
      .wait (((s.drainLine c q first).sendNet
        { part := p, easid := easidOf q.idn.asid first, va := first, ifa := ifa, op := .fetch (last + 32 - first),
          who := l.map fun x => (c, q.id, x.1), org := q.origin a.lane }).setSent c q.id l id)
    | .ok _ => .wait s

/-! ### Arrival records (R185) -/

def State.acsetAcc (s : State) (c : Nat) (q : Req) (idx : Nat) (a : Acc) : Outc :=
  .done ((s.wayPut (a.va + 8) 8 (a.data.toNat % 2 ^ 64)).finishAcc c q.id idx .done)

/-- COUNT and TARGET are tested at one point; the test that completes is an acquire of scope `.dev` (R335). -/
def State.acwaitAcc (s : State) (c : Nat) (q : Req) (idx : Nat) (a : Acc) : Outc :=
  let count := s.wayRead a.va 8
  if s.wayRead (a.va + 8) 8 ≤ count then .done (((s.deliver c q .b64 a.lane count).acquireL1 c).finishAcc c q.id idx .done)
  else .wait (s.setAccSt c q.id idx .watching)

/-! ### Packets at their target (R127-R131) -/

/-- The key of a leaf that the fabric MMU caches: its policy entry and its page. -/
def leafKeyOf (i off : Nat) : Nat := i * 2 ^ 24 + off / 2 ^ 16 % 2 ^ 24

/-- Keep a leaf in the fabric MMU; where all places are taken, another leaf goes, which is not architectural. -/
def State.cacheLeaf (s : State) (key : Nat) (e : Word) : State :=
  let m := if s.fmmu.length < Config.fabricLeaves then s.fmmu
    else s.fmmu.eraseIdx (Config.freeChoice s.free key % s.fmmu.length)
  { s with fmmu := AMap.put m key e }

/-- What the fabric MMU finds for an IFA under a policy entry (R128): a leaf that it has cached, or that it walks to, or the
cause of the refusal, 0 where a table entry is in an engine's hands (R70). -/
def State.fabricWalk (s : State) (i : Nat) (ifa : Word) : State × Except Nat Word :=
  let off := ifa.toNat % 2 ^ 52
  if 2 ^ 40 ≤ off then (s, .error 0x27)
  else
    match AMap.find? s.fmmu (leafKeyOf i off) with
    | some e => (s, .ok e)
    | none =>
      let entry (s : State) (table idx : Nat) : State × Word :=
        s.readTable (table + 8 * idx) (s.ownSlot (table + 8 * idx))
      let root := bits (s.hreg (0x808 + 16 * i)) 51 15 * 2 ^ 15
      let busy (s : State) (table idx : Nat) : Bool := s.tableBusy (table + 8 * idx)
      let (s, e2) := entry s root (off / 2 ^ 28 % 4096)
      if busy s root (off / 2 ^ 28 % 4096) then (s, .error 0)
      else if !e2.getLsbD 63 || bits e2 62 52 != 0 || bits e2 14 0 != 0 then (s, .error 0x27)
      else
        let (s, e1) := entry s (bits e2 51 15 * 2 ^ 15) (off / 2 ^ 16 % 4096)
        if busy s (bits e2 51 15 * 2 ^ 15) (off / 2 ^ 16 % 4096) then (s, .error 0)
        else
        let kind1 := e1.getLsbD 62
        let reserved := bits e1 61 59 != 0 || bits e1 55 52 != 0 || bits e1 15 0 != 0 ||
          (kind1 && (bits e1 51 31 != 0 || decide (48 ≤ bits e1 30 25) || decide (384 ≤ bits e1 24 16)))
        if !e1.getLsbD 63 || reserved then (s, .error 0x27) else (s.cacheLeaf (leafKeyOf i off) e1, .ok e1)

/-- The permission a request needs: R, W or A. -/
def permBit : PacketOp → Nat
  | .load _ | .fetch _ | .ldg .. | .grd => 56
  | .atom .. => 58
  | _ => 57

/-- The classes that suit a request (Table 8.3). -/
def opClass : PacketOp → Nat → Bool
  | .load _ => clsLoad
  | .store .. | .atom .. | .bulk .. | .fetch _ => clsOrdinary
  | _ => clsGraded

/-- The scratchpad place of a KIND 1 page, by the named cluster's way map (R129). -/
def State.kindPlace (s : State) (part : Nat) (e : Word) (ifa : Word) : Option Nat :=
  let cl := bits e 30 25
  let o := bits e 24 16 * 65536 + ifa.toNat % 65536
  let k := s.core (cl * Config.coresPerCluster + o / 2 ^ 18)
  let way := o % 2 ^ 18 / Config.wayBytes
  match AMap.find? k.holders way with
  | some h => if k.carve ≤ way ∧ (s.run h).part = part then some (cl * Config.coresPerCluster * 2 ^ 18 + o) else none
  | none => none

/-- The owner of a frame, as a location of the policy entry's partition. The access is made under the owner's name, so at
the frame that the owner's leaf names now; with a leaf that names no memory any more, the frame counts as unowned (log
entry 103). -/
def State.ownerLoc (s : State) (part : Nat) (e ifa : Word) : Option Loc :=
  let pa := bits e 51 16 * 65536 + ifa.toNat % 65536
  let o := AMap.get s.rmap (pa / 65536) 0
  if o.getLsbD 63 && bits o 62 59 == part then
    let easid := bits o 58 47
    let va := bits o 46 7 * 65536 + ifa.toNat % 65536
    match s.leafOf part easid va with
    | .leaf w _ => if leafF w then none else some (leafLoc part easid va w)
    | _ => none
  else none

/-- The page of a frame's owner is walked in its turn where its home does not know it (R69). -/
def State.ownerWalk (s : State) (part : Nat) (e ifa : Word) : State × Bool :=
  let o := AMap.get s.rmap (bits e 51 16) 0
  if o.getLsbD 63 && bits o 62 59 == part then
    State.walkPages part [(bits o 58 47, bits o 46 7 * 65536 + ifa.toNat % 65536)] s
  else (s, true)

/-- What comes of a packet: an answer, a refusal, or that it waits at this chip, for a sector in an engine's hands or, an
`LDG` parked at a sector, for its grade. -/
inductive PacketRes where
  | done (s : State) (data : BitVec 2048) (record : Nat)
  | refuse (cause : Nat) (detail : Nat := 0)
  | busy (s : State) (wants : List Nat)
  | parked (tag : Nat)

/-- Sectors of a line that `n` bytes from an offset touch. -/
def lineSpan (l : Loc) (off n : Nat) : List Loc :=
  ((List.range 4).filter fun i => decide (off < 64 * i + 64) && decide (64 * i < off + n)).map l.sectorOf

/-- Read `n` bytes of a line from an offset on, sector by sector; a poisoned sector gives none (R81). -/
def State.lineRead (s : State) (l : Loc) (off n : Nat) : Option Nat :=
  if (lineSpan l off n).any fun x => (s.sector x).poison then none
  else
    let all := (List.range 4).foldl (fun v i => v + (s.sector (l.sectorOf i)).data.toNat * 2 ^ (512 * i)) 0
    some (all / 2 ^ (8 * off) % 2 ^ (8 * n))

/-- Write the masked bytes of a line, ascending by sector. -/
def State.lineWrite (s : State) (holder : Nat) (l : Loc) (mask : BitVec 256) (data : BitVec 2048) : State :=
  (List.range 4).foldl (fun s i =>
    let m : Mask := (mask >>> (64 * i)).setWidth 64
    if m = 0 then s else s.mergeOwned holder (l.sectorOf i) m ((data >>> (512 * i)).setWidth 512)) s

/-- The sector of a line that a graded packet writes. -/
def gradedSector (mask : BitVec 256) : Nat :=
  ((List.range 4).find? fun i => ((mask >>> (64 * i)).setWidth 64 : Mask) != 0).getD 0

def State.packetGraded (s : State) (holder : Nat) (l : Loc) (amend : Bool) (mask : BitVec 256) (data : BitVec 2048)
    (g : Grade) (gen depth limit : Nat) : PacketRes :=
  let i := gradedSector mask
  match s.gradedWrite holder (l.sectorOf i) amend ((mask >>> (64 * i)).setWidth 64) ((data >>> (512 * i)).setWidth 512)
      g gen depth limit with
  | .error f => .refuse f.cause f.detail
  | .ok (s, r) => .done s 0 (recWord r)

/-- Perform an admitted request on memory, coherently under the owner's name. The record that a read answers has bit 16 set where
the page is graded, so that the source counts it (R91, R126; log entry 15). `ctr` is the place of the arrival counter,
`val` what a write has left for a parked `LDG` (R89), `no` the number of the packet's arrival at the home (R116). -/
def State.packetMem (s : State) (holder : Nat) (l : Loc) (op : PacketOp) (ctr : Option Nat)
    (val : Option (Sector × Nat)) (no : Nat) : PacketRes :=
  let off := l.va % 256
  let sec := { l with va := l.va / 64 * 64, pa := l.pa / 64 * 64 }
  let tags := lineTags l.p l.easid l.va
  if tags.any fun t => s.noGrant t no then .busy s tags
  else
    let s := s.installTlb l.p l.easid l.va
    let here := s.sector sec
    let give (n : Nat) : PacketRes :=
      match s.lineRead l off n with
      | some v => .done s (BitVec.ofNat 2048 v) (recWord here.record + if l.graded then 2 ^ 16 else 0)
      | none => .refuse 0x29
    match op with
    | .load n | .fetch n => give n
    | .grd => .done (s.logError sec here.poison) (BitVec.ofNat 2048 (recWord here.record)) (recWord here.record)
    | .ldg m nowait n =>
      if m.code ≤ here.record.grade.code then give n
      else if nowait then .done s 0 (recWord here.record)
      else match val with
        | some v => .done s (BitVec.ofNat 2048 (sectorValue v.1 l.va n)) v.2
        | none => .parked sec.tag
    | .store m d => .done (s.lineWrite holder l m d) 0 0
    | .bulk m d _ =>
      let s := s.lineWrite holder l m d
      let n := ((List.range 256).filter m.getLsbD).length
      .done (match ctr with
        | some pl => s.wayPut pl 8 ((s.wayRead pl 8 + n) % 2 ^ 64)
        | none => s) 0 0
    | .atom fn w64 b cmp =>
      if here.poison then .refuse 0x29
      else
        let n := if w64 then 8 else 4
        let x := atomSector fn here.data l.va n b.toNat cmp.toNat
        .done (s.writeOwned holder sec x.2 here.record false) (BitVec.ofNat 2048 x.1) 0
    | .stg m d g gen depth limit => s.packetGraded holder l false m d g gen depth limit
    | .amend m d g depth limit => s.packetGraded holder l true m d g 0 depth limit
    | .exportStore m d g gen depth _ => s.packetGraded holder l false m d g gen depth 15

/-- The arrival counter of a bulk packet: 8-byte aligned in a KIND 1 page with A = 1 (R131). -/
def State.counterPlace (s : State) (i part : Nat) (ctr : Word) : Except Nat Nat :=
  match (s.fabricWalk i ctr).2 with
  | .error n => .error n
  | .ok e =>
    match s.kindPlace part e ctr with
    | some pl => if e.getLsbD 62 && e.getLsbD 58 && ctr.toNat % 8 == 0 then .ok pl else .error 0x26
    | none => .error 0x26

/-- The payload of an `FPUT` into a KIND 1 page. -/
def State.wayLine (s : State) (pl : Nat) (mask : BitVec 256) (data : BitVec 2048) : State :=
  (List.range 4).foldl (fun s i =>
    s.modCore (placeCore pl) fun k =>
      k.padWrite (placeKey (pl / 256 * 256 + 64 * i)) ((mask >>> (64 * i)).setWidth 64)
        ((data >>> (512 * i)).setWidth 512)) s

def State.packetWay (s : State) (pl : Nat) (op : PacketOp) (ctr : Option Nat) : PacketRes :=
  match op with
  | .bulk m d _ =>
    let s := s.wayLine pl m d
    let n := ((List.range 256).filter m.getLsbD).length
    .done (match ctr with
      | some c => s.wayPut c 8 ((s.wayRead c 8 + n) % 2 ^ 64)
      | none => s) 0 0
  | .atom .add true b _ =>
    if pl % 8 = 0 then
      let old := s.wayRead pl 8
      .done (s.wayPut pl 8 ((old + b.toNat) % 2 ^ 64)) (BitVec.ofNat 2048 old) 0
    else .refuse 0x26
  | _ => .refuse 0x26

/-! ### Answers at the source -/

/-- An answer's data completes one access; `d` is the data from the access's first byte on, `rw` the record that came with it: a
read through a window counts as the page at the target does (R91). -/
def State.answerAcc (s : State) (c : Nat) (q : Req) (idx : Nat) (a : Acc) (d rw : Nat) : Outc :=
  let fin (s : State) : Outc := .done (s.finishAcc c q.id idx .done)
  let v := d % 2 ^ (8 * q.size)
  let r := recOf rw
  let counted (f : State → Outc) : Outc :=
    match s.countRead q (if nbit rw 16 then 1 else 0) r with
    | .error e => .late e s
    | .ok s => f s
  match q.kind with
  | .ld => counted fun s => fin ((s.deliver c q (loadTy q.size q.sx) a.lane v).acquired c q)
  | .atom | .fatom => .done (s.finishAtom c q idx a v)
  | .ldg =>
    if q.grade.code ≤ r.grade.code then s.ldgTake c q idx a v 1 r else .done (s.ldgShort c q idx a)
  | .grd => fin (s.deliver c q .b32 a.lane (d % 2 ^ 32))
  | .waita => s.watchRead c q idx a (d % 2 ^ 64)
  | .amend => fin (s.amended q r.depth)
  | .fget => if a.got then fin s else .wait (s.modReq c q.id fun x => x.setAcc idx fun b =>
      { b with got := true, st := .waiting, data := BitVec.ofNat 512 (d % 2 ^ 256) })
  | .fput =>
    if a.got then fin s
    else .wait (s.modReq c q.id fun x => x.setAcc idx fun b =>
      { b with got := true, st := .waiting, data := BitVec.ofNat 512 (d % 2 ^ 256) })
  | .tcopy | .mload => .wait (s.modReq c q.id fun x => x.setAcc idx fun b =>
      if a.got then { b with st := .waiting, mask := 1 }
      else { b with got := true, st := .waiting, data := BitVec.ofNat 512 (d % 2 ^ 256) })
  | .record => .wait (s.modReq c q.id fun x => { (x.setAcc idx fun b => { b with st := .done }) with
      words := (List.range 32).map fun i => BitVec.ofNat 64 (d / 2 ^ (64 * i)) })
  | .fill => counted fun s => .done (s.filled c q idx (d % 2 ^ 64))
  | _ => fin s

/-- An access that waits for the answer to request `id`; one that has been withdrawn since waits no longer. -/
def State.sentAcc (s : State) (id : Nat) (w : Nat × Nat × Nat) : Option (Req × Acc) :=
  match ((s.core w.1).req? w.2.1).bind fun q => (q.accs[w.2.2]?).map fun a => (q, a) with
  | none => none
  | some (q, a) => if a.st = .sent id then some (q, a) else none

/-- An answer completes every access of its request. `base` is the address of the data's first byte. -/
def State.answerAll (s : State) (id : Nat) (who : List (Nat × Nat × Nat)) (base d rw : Nat) : State :=
  who.foldl (fun s w =>
    match s.sentAcc id w with
    | none => s
    | some (q, a) =>
      let at_ := if (q.kind = .fget ∨ q.kind = .fput) ∧ a.got = false then a.cmp.toNat else a.va
      match s.answerAcc w.1 q w.2.2 a (d / 2 ^ (8 * (at_ - base))) rw with
      | .wait s | .done s => s
      | .late f s => s.fault w.1 w.2.1 w.2.2 f) s

/-- A fault that answers a request faults each of its accesses, a row of an `MLOAD` at the piece that the request read (R263); a released held store has only its record, and so has a write of the task unit (R303). For GRADE_EXPORT
DETAIL holds the FLOOR at issue (R358). -/
def State.failReq (s : State) (id part easid va : Nat) (org : Origin) (who : List (Nat × Nat × Nat)) (f : Late) : State :=
  if who = [] then
    let spill := org.bell && decide (4096 ≤ org.idn.team)
    (s.record part { org := org, cause := f.cause, exited := !org.bell && !s.lives org.idn,
                     dropped := f.cause != 0x28 && !spill,
                     bell := org.bell, va := va, easid := easid, detail := f.detail, aux := f.aux }).modPart part fun x =>
      if spill then { x with spillLost := (x.spillLost ++ [(org.idn.task, org.idn.team)]).eraseDups } else x
  else who.foldl (fun s w =>
    match s.sentAcc id w with
    | none => s
    | some (q, _) =>
      let s := if q.kind = .mload then s.modReq w.1 w.2.1 fun r => r.setAcc w.2.2 fun a => { a with data := BitVec.ofNat 512 va }
        else s
      s.fault w.1 w.2.1 w.2.2 { f with detail := if f.cause = 0x23 then q.floor else f.detail }) s

/-! ### Packets at their target, continued -/

/-- Steps 2 to 4 of R127 for a packet that matched policy entry `i`. A counter's IFA that fails its check refuses the whole
packet before a byte is written (log entry 118). -/
def State.packetAt (s : State) (i : Nat) (x : InPacket) : PacketRes :=
  let pkt := x.pkt
  let part := bits (s.hreg (0x800 + 16 * i)) 3 0
  let w := s.fabricWalk i pkt.ifa
  let s := w.1
  match w.2 with
  | .error 0 => .busy s []
  | .error n => .refuse n
  | .ok e =>
    if !e.getLsbD (permBit pkt.op) then .refuse 0x26
    else
      let ctr : Except Nat (Option Nat) := match pkt.op with
        | .bulk _ _ (some w) => (s.counterPlace i part w).map some
        | _ => .ok none
      match ctr with
      | .error 0 => .busy s []
      | .error n => .refuse n
      | .ok ctr =>
        if e.getLsbD 62 then
          match s.kindPlace part e pkt.ifa with
          | some pl => s.packetWay pl pkt.op ctr
          | none => .refuse 0x26
        else
          match s.ownerWalk part e pkt.ifa with
          | (s, false) => .busy s []
          | (s, true) =>
          match s.ownerLoc part e pkt.ifa with
          | none => .refuse 0x26
          | some l =>
            let bad := !opClass pkt.op l.cls || (permBit pkt.op != 56 && s.isSealed part l.easid l.va)
            let l := { l with va := l.va + pkt.ifa.toNat % 64, pa := l.pa + pkt.ifa.toNat % 64 }
            let holder := if s.planeOf (codeOf pkt.ifa) < 4 then 64 else 65
            match pkt.op with
            | .exportStore _ _ _ _ _ tgid =>
              if bad || bits (s.preg part 0x2200) 15 0 != tgid then .refuse 0x23
              else s.packetMem holder l pkt.op none none x.home
            | op => if bad then .refuse 0x26 else s.packetMem holder l op ctr x.val x.home

/-- What comes of a packet at this chip. -/
def State.packetRes (s : State) (x : InPacket) : PacketRes :=
  match s.policy x.pkt.fpid with
  | none => .refuse 0x26
  | some i => s.packetAt i x

/-- A lost request completes with FABRIC_LOST (R137). -/
def State.loseReq (s : State) (id : Nat) : State :=
  match s.net.find? fun r => r.id == id && r.lost with
  | none => s
  | some r =>
    ({ s with net := s.net.filter fun x => x.id != id } : State).failReq id r.part r.easid r.va r.org r.who
      { cause := 0x28, aux := r.ifa }

/-- Whether a packet must let another of its source and line go first: a packet of combined stores has the line's address (R124,
R132). A parked load keeps none back. -/
def InPacket.before (x : InPacket) (pkt : Packet) : Bool :=
  x.tag == 0 && x.pkt.src == pkt.src && x.pkt.ifa.toNat / 256 == pkt.ifa.toNat / 256 && x.pkt.id != pkt.id

/-- A packet is performed, refused, or waits in the inbox. One from this chip itself answers its request at once (R125).
An answer with data counts four payload flits (log entry 117); an `LDG` that finds the park pool full, and a packet whose
request is lost, are log entry 123's. -/
def State.servePacket (s : State) (x : InPacket) : State :=
  let pkt := x.pkt
  let own := pkt.src == bits (s.hreg 0x710) 11 0
  let gone (s : State) : State :=
    { s with
      inbox := s.inbox.filter fun y => y.pkt != pkt, net := if own then s.net.filter fun r => r.id != pkt.id || r.lost else s.net }
  let keep (s : State) (wants : List Nat) (tag : Nat) : State :=
    let y : InPacket := { x with tag := tag, wants := wants, home := if wants = [] then 0 else if x.home = 0 then s.next else x.home }
    ({ s with
      inbox := if s.inbox.any fun z => z.pkt == pkt then s.inbox.map fun z => if z.pkt = pkt then y else z
        else s.inbox ++ [y] } : State).bump
  let req := s.net.find? fun r => own && r.id == pkt.id
  let reply (s : State) (a : Answer) (bytes : Nat) : State := s.reply (codeOf pkt.ifa) pkt.src (payloadFlits bytes) a
  if own && req.all (·.lost) then
    -- its request is lost: it performs or not (R137)
    match if Config.freeBit s.free pkt.id then s.packetRes x else .busy s [] with
    | .done s _ _ => (gone s.spend).loseReq pkt.id
    | _ => (gone s.spend).loseReq pkt.id
  else
  match s.packetRes x with
  | .busy s wants => keep s wants 0
  | .parked t =>
    keep s [] (if x.tag = 0 ∧ Config.parkEntries ≤ s.parkedAt (s.home (tagPart t) (tagEasid t) (tagVa t)) then 0 else t)
  | .done s d rec_ =>
    match req with
    | some r => (gone s).answerAll r.id r.who r.va d.toNat rec_
    | none => reply (gone s) (.packetDone pkt.src pkt.id d rec_) (if isStoreOp pkt.op then 0 else 256)
  | .refuse n detail =>
    let s := if n = 0x26 ∨ n = 0x27 ∨ n = 0x23 then s.countRefusal (s.policy pkt.fpid) else s
    match req with
    | some r => (gone s).failReq r.id r.part r.easid r.va r.org r.who { cause := n, detail := detail, aux := r.ifa }
    | none => reply (gone s) (.packetRefused pkt.src pkt.id n detail) 0

/-- Packets that wait at this chip are tried again, in the order of their arrival. -/
def State.serveInbox (s : State) : State :=
  s.inbox.foldl (fun s x =>
    match s.inbox.findIdx? fun y => y.pkt == x.pkt with
    | none => s
    | some i =>
      match s.inbox[i]? with
      | none => s
      | some y => if (s.inbox.take i).any fun z => z.before y.pkt then s else s.servePacket y) s.sendReplies

/-- Whether a packet can have come from this chip itself: it is a request that this chip has sent to itself, and none for
the same line is ahead of it. -/
def State.loopsBack (s : State) (pkt : Packet) : Bool :=
  match s.net.find? fun r => r.sent && !r.landed && !r.lost && r.ifa.toNat / 256 == pkt.ifa.toNat / 256 with
  | none => false
  | some r => r.id == pkt.id && r.fpid == pkt.fpid && r.op == pkt.op

/-- A request packet arrives, behind those that wait here already. -/
def execFabricPacketArrival (pkt : Packet) (s : State) : Host.Outcome State Fault Refusal :=
  let s := s.serveInbox
  let own := pkt.src == bits (s.hreg 0x710) 11 0
  if own && !s.loopsBack pkt then .next s
  else
    let s : State :=
      { s with net := s.net.map fun r => if own ∧ r.id = pkt.id then { r with landed := true } else r }
    if s.inbox.any fun x => x.before pkt then .next { s with inbox := s.inbox ++ [{ pkt := pkt }] }
    else .next (s.servePacket { pkt := pkt })

/-! ### Answers from other chips -/

/-- A request that another chip may answer: sent, not lost, and not to this chip. -/
def State.asked (s : State) (id : Nat) : Option OutReq :=
  s.net.find? fun r => r.id == id && r.sent && !r.lost && chipOf r.ifa != bits (s.hreg 0x710) 11 0

/-- A target's acknowledgment (R126). -/
def execFabricAcknowledge (id : Nat) (data : BitVec 2048) (rec_ : Nat) (s : State) : Host.Outcome State Fault Refusal :=
  match s.asked id with
  | none => .next s
  | some r =>
    .next (({ s with net := s.net.filter fun x => x.id != id } : State).answerAll id r.who r.va data.toNat rec_)

/-- A refusal returns (R127); it carries the sector record that a graded store met (R358). -/
def execFabricRefusal (id cause detail : Nat) (s : State) : Host.Outcome State Fault Refusal :=
  match s.asked id with
  | none => .next s
  | some r =>
    .next (({ s with net := s.net.filter fun x => x.id != id } : State).failReq id r.part r.easid r.va r.org r.who
      { cause := cause, detail := detail, aux := r.ifa })

/-- Lost requests whose accesses wait for them no more, or that never answered to any, complete at once (R137). -/
def State.loseOrphans (s : State) : State :=
  s.net.foldl (fun s r =>
    if r.lost && r.who.all (fun w => (s.sentAcc r.id w).isNone) then s.loseReq r.id else s) s

/-! ### Links (R134-R138) -/


/-- LIVE names the planes without a link that is DOWN. -/
def State.refreshLive (s : State) : State :=
  let live := (List.range 8).foldl (fun n p =>
    if (List.range 9).any fun i => (s.hreg (lkstat (9 * p + i))).getLsbD 0 then n else n + 2 ^ p) 0
  s.setHreg 0x700 (setBits (s.hreg 0x700) 31 24 live)

/-- Requests outstanding on dead planes are lost (R137); so are the messages of the Gander (R146). -/
def State.losePlanes (s : State) : State :=
  let dead (code : Nat) : Bool := !s.planeLive (s.planeOf code)
  { s with
    net := s.net.map fun r => if r.sent && dead (codeOf r.ifa) then { r with lost := true } else r,
    gander := s.gander.map fun (x : Nat × Gander) =>
      (x.1, { x.2 with flight := x.2.flight.map fun f => if dead (f.line % 8) then { f with lost := true } else f }) }

/-- A link goes DOWN and its plane with it. -/
def State.linkFails (s : State) (n : Nat) : State :=
  ((((s.linkBit n 3 false).linkBit n 0 true).refreshLive.losePlanes).releaseNet.loseOrphans).irq (.planeDown (n / 9))

def execLinkDown (link : Nat) (s : State) : Host.Outcome State Fault Refusal :=
  if link < 72 then .next (s.linkFails link) else .next s

/-- The counter has reached 2^47, by the flits of data (`State.countFlits`) or of control (R136). -/
def execLinkKeyWarn (link : Nat) (s : State) : Host.Outcome State Fault Refusal :=
  if link < 72 ∧ (s.hreg (lkstat link)).getLsbD 2 = false ∧ (s.link link).key.isSome = true ∧ 2 ^ 47 ≤ s.ctr link then
    .next ((s.linkBit link 2 true).irq (.linkKeyWarn link))
  else .next s

/-- The flit after the switch flit uses the standby key with the counter at 0; a stopped link resumes (R135, R136). -/
def execKeySwitchFlit (link : Nat) (s : State) : Host.Outcome State Fault Refusal :=
  match (s.link link).standby with
  | none => .next s
  | some k =>
    .next (s.switchKey link k).releaseNet.sendReplies

/-- A key and salt go into the standby slot; a link without a key takes its first one at once. -/
def execLinkKeyInstall (link key salt : Nat) (s : State) : Host.Outcome State Fault Refusal :=
  let l := s.link link
  if 72 ≤ link then .next s
  else if l.key.isNone then
    let s := s.setLink link { l with key := some (key, salt) }
    .next (s.linkBit link 3 (l.trained && !(s.hreg (lkstat link)).getLsbD 0))
  else .next (s.setLink link { l with standby := some (key, salt) })

/-- With the counter at its end and no standby key, data stops (R136). `CTR` then holds the next value, of the key-switch
flit (log entry 104). -/
def execLinkKeyExhaust (link : Nat) (s : State) : Host.Outcome State Fault Refusal :=
  let l := s.link link
  if link < 72 ∧ l.key.isSome = true ∧ l.standby = none ∧ (s.hreg (lkstat link)).getLsbD 1 = false ∧
      2 ^ 48 - 2 ≤ s.ctr link then .next (s.stopLink link)
  else .next s

def execKeyRequestFlit (link : Nat) (s : State) : Host.Outcome State Fault Refusal :=
  let w := s.hreg (lkstat link)
  if link < 72 ∧ w.getLsbD 1 = true then .next (s.irq (.keyRequest link (bits w 63 16))) else .next s

/-- The key-expire flit: the link goes DOWN, and waits for no key any more (log entry 105). -/
def execKeyExpire (link : Nat) (s : State) : Host.Outcome State Fault Refusal :=
  if link < 72 ∧ (s.hreg (lkstat link)).getLsbD 1 = true ∧ (s.link link).standby = none then
    .next (((s.setCtr link (2 ^ 48 - 1)).linkBit link 1 false).linkFails link)
  else .next s

/-- No request with a held code is outstanding. -/
def State.drained (s : State) : Bool :=
  !(s.net.any fun r => r.sent && s.codeHeld (codeOf r.ifa)) &&
    !(s.gander.any fun x => x.2.flight.any fun f => !f.lost && s.codeHeld (f.line % 8))

def execPlremapWrite (value : Word) (s : State) : Host.Outcome State Fault Refusal :=
  let old := s.hreg 0x700
  let field (w : Word) (c : Nat) : Nat := bits w (3 * c + 2) (3 * c)
  let ok := (List.range 8).all fun c =>
    (field value c == field old c || s.codeHeld c) && s.planeLive (field value c)
  if ok && s.drained then .next (s.setHreg 0x700 (setBits old 23 0 (bits value 23 0))) else .next s

/-- Set HOLD: combining entries with held codes drain, and requests that waited for a code no longer held are sent. -/
def execPlctlWrite (value : Word) (s : State) : Host.Outcome State Fault Refusal :=
  let hold := bits value 7 0
  let code (e : CombEnt) : Nat :=
    match s.resolve e.part e.easid (e.line * 256) .either with
    | .ok (.window ifa _) => codeOf ifa
    | _ => 8
  let s := s.cores.foldl (fun s k => s.drainWhere k.1 fun e => decide (code e < 8) && nbit hold (code e)) s
  .next ((s.setHreg 0x708 (BitVec.ofNat 64 hold)).releaseNet.loseOrphans)

/-- A write to a policy entry; a write to word 0 also invalidates its cached leaves (R128). -/
def execFmpolWrite (i word : Nat) (value : Word) (s : State) : Host.Outcome State Fault Refusal :=
  if 64 ≤ i then .next s
  else if word = 0 then
    let old := s.hreg (0x800 + 16 * i)
    let v := value &&& 0x8000FFFF0000000F
    let refused := bits old 31 8 - (bits old 31 8).land (bits value 31 8)
    .next ({ s with fmmu := s.fmmu.filter fun x => x.1 / 2 ^ 24 != i }.setHreg (0x800 + 16 * i) (setBits v 31 8 refused))
  else if word = 1 then .next (s.setHreg (0x808 + 16 * i) (value &&& 0x000FFFFFFFFF8000))
  else .next s

/-- Clearing DOWN starts retraining: the link is neither trained nor up until it has trained again. -/
def execLinkRetrain (link : Nat) (s : State) : Host.Outcome State Fault Refusal :=
  if link < 72 ∧ (s.hreg (lkstat link)).getLsbD 0 = true then
    let l := s.link link
    .next (((s.setLink link { l with trained := false }).linkBit link 0 false).refreshLive)
  else .next s

end Sys2Proof.Machine
end

