-- ==== Sys2Proof/Machine/Matrix.lean ====
section
/-! DEFINITION. The Ox matrix unit: reservations and windows (R252-R260), rows loaded and stored (R261-R263, R269), tile
products and their passes (R256-R258, R264-R266), element decoding and summation (R203, R204), and the words that move
accumulators (R267, R268). -/

namespace Sys2Proof.Machine

/-! ### Formats (Table 11.2) -/

/-- Elements per k-step. -/
def oxK : Ty → Nat
  | .tf6 => 128
  | .f16 | .bf16 => 32
  | .f32 => 16
  | _ => 64

/-- Bytes per k-step of a row. -/
def oxBytes : Ty → Nat
  | .tf6 => 96
  | _ => 64

/-- Classes: 8-bit, 6-bit, 16-bit, 32-bit. -/
def oxClass : Ty → Nat
  | .tf6 => 1
  | .f16 | .bf16 => 2
  | .f32 => 3
  | _ => 0

def oxScaled (ty : Ty) : Bool := oxClass ty < 2

def Resv.rows (r : Resv) : Nat := r.rowsm1 + 1
def Resv.rowBytes (r : Resv) : Nat := r.ksteps * oxBytes r.fmt
def Resv.scaleBytes (r : Resv) : Nat := r.ksteps * (oxK r.fmt / 32)
def ceilDiv (a b : Nat) : Nat := (a + b - 1) / b
def Resv.dunits (r : Resv) : Nat := ceilDiv (r.rows * r.rowBytes) 256
def Resv.sunits (r : Resv) : Nat := if r.sc then ceilDiv (r.rows * r.scaleBytes) 256 else 0

/-! ### Shares (R252) -/

def State.obShare (s : State) (run c : Nat) : Nat × Nat := AMap.get (s.run run).ob c (0, 0)
def State.accShare (s : State) (run c : Nat) : Nat × Nat := AMap.get (s.run run).accs c (0, 0)
def State.accRows (s : State) (run c : Nat) : Nat := 8 * (s.accShare run c).2
def State.resvOf (s : State) (run c n : Nat) : Resv := AMap.get (s.run run).resv (c * 16 + n) {}
def State.setResv (s : State) (run c n : Nat) (r : Resv) : State :=
  s.modRun run fun x => { x with resv := AMap.put x.resv (c * 16 + n) r }

/-- The byte of the core's operand buffer at which a team's 256-byte unit starts. -/
def State.obByte (s : State) (run c unit : Nat) : Nat := (s.obShare run c).1 * 4096 + unit * 256

/-- The physical row of a team's accumulator row. -/
def State.physRow (s : State) (run c row : Nat) : Nat := (s.accShare run c).1 * 8 + row

/-! ### The scoreboard (R256) -/

def Core.writesBlock (k : Core) (phys : Nat) (base : Nat → Nat) : Bool :=
  k.oxq.any fun q => (base q.run + q.row0) / 8 == phys / 8

/-- Whether a queued or running quarter writes the block of a team's row. -/
def State.rowBusy (s : State) (run c row : Nat) : Bool :=
  (s.core c).oxq.any fun q => s.physRow q.run c q.row0 / 8 == s.physRow run c row / 8

/-- Whether one reads a reservation slot of the team. -/
def State.slotBusy (s : State) (run c n : Nat) : Bool :=
  (s.core c).oxq.any fun q => q.run == run && (q.aw.toNat % 16 == n || q.bw.toNat % 16 == n)

/-! ### Elements and sums (R203, R204) -/

/-- An element as the Ox decodes it: FP32 and BF16 subnormals are zeros of their sign. -/
def oxElement (ty : Ty) (c : Nat) : FVal :=
  match ty, decodeF ty c with
  | .f32, .num d => if d.m ≠ 0 ∧ c / 2 ^ 23 % 256 = 0 then .num { d with m := 0 } else .num d
  | .bf16, .num d => if d.m ≠ 0 ∧ c / 2 ^ 7 % 256 = 0 then .num { d with m := 0 } else .num d
  | _, v => v

/-- The value of an E8M0 scale (R202). -/
def scaleValue (c : Nat) : FVal := if c = 255 then .nan else .num ⟨false, 1, (c : Int) - 127⟩

/-! ### The operand buffer -/

/-- Take a range of bytes out of the ranges whose contents are unspecified. -/
def cutBlank (p n : Nat) (l : List (Nat × Nat × Nat)) : List (Nat × Nat × Nat) :=
  l.flatMap fun x =>
    ([(x.1, min p (x.1 + x.2.1) - x.1, x.2.2),
      (max x.1 (p + n), x.1 + x.2.1 - max x.1 (p + n), x.2.2)] : List (Nat × Nat × Nat)).filter fun y => y.2.1 != 0

/-- The contents of a range of the operand buffer become unspecified (R259, R263, R272). -/
def Core.blankOb (k : Core) (p n number : Nat) : Core := { k with obBlank := (p, n, number) :: cutBlank p n k.obBlank }

/-- A byte of the operand buffer. -/
def Core.obByte (k : Core) (b : Nat) : Nat :=
  match k.obBlank.find? fun x => decide (x.1 ≤ b) && decide (b < x.1 + x.2.1) with
  | some x => (Config.freeWord x.2.2 b).toNat % 256
  | none => (Memory.read k.ob b).toNat

def Core.obRead (k : Core) (b : Nat) : Nat → Nat
  | 0 => 0
  | n + 1 => k.obByte b + 256 * k.obRead (b + 1) n

/-- Element `k` of a row, from the bytes of the operand buffer. -/
def Core.obElement (c : Core) (row : Nat) (ty : Ty) (k : Nat) : Nat :=
  match ty with
  | .tf6 =>
    let g := k / 128 * 96 + k % 128 / 4 * 3
    c.obRead (row + g) 3 / 2 ^ (6 * (k % 4)) % 64
  | _ => c.obRead (row + k * (ty.bits / 8)) (ty.bits / 8)

/-- One product of a block sum. -/
def oxProduct (a b sa sb : FVal) : FVal := mulV (mulV a b) (mulV sa sb)

/-- The blocks of R204, ascending, each rounded once into the accumulator. -/
def oxBlocks (prod : Nat → FVal) : Nat → Nat → Nat → Nat
  | 0, _, acc => acc
  | n + 1, b, acc =>
    let sum := sumV ((List.range 16).map fun i => prod (16 * b + i))
    oxBlocks prod n (b + 1) (roundF .f32 .rne (addV .rne sum (decodeF .f32 acc)))

/-! ### Checks of lanes' rows -/

/-- The first lane of a list that fails a check. -/
def firstLane (ls : List Nat) (p : Nat → Bool) (cause : Nat) : Option TrapInfo :=
  (ls.find? p).map fun l => { cause := cause, lane := l }

def inWin (g : Group) (row : Nat) : Bool := decide (g.awbase ≤ row) && decide (row < g.awlimit)

/-- The core leader of a team on a core (R255): group 0, or group 1 on the second core of a pair. -/
def State.leader (s : State) (c : Nat) (g : Group) : Bool :=
  let r := s.run g.run
  g.num == (if r.paired ∧ r.cores.head? ≠ some c then 1 else 0)

/-! ### `OBRES`, `OBREL`, `AWSET` (R259, R260, R268) -/

/-- The lowest active lanes of the issue's halves: where a group instruction takes its operands (R155). -/
def Ctx.leads (x : Ctx) : List (Nat × Mask) := x.parts.map fun m => (lowest m, m)

/-- The halves of a group instruction in turn, but for one that has issued before. `moved` says that one has issued now: it
then stays so while the next waits (R282). -/
def halfInstr (x : Ctx) (srcs : List (Nat × Src)) (f : Ctx → State → Group → Nat → Mask → WRes) :
    List (Nat × Mask) → Bool → State → WRes
  | [], _, s => .ok (if x.two then s.modGroup x.core x.slot fun g => { g with spawned := g.spawned &&& ~~~x.act } else s)
  | lm :: t, moved, s => onGroup x s fun g =>
    if lm.2 &&& ~~~g.spawned = 0 then halfInstr x srcs f t moved s
    else
      match g.poisonTrap [lm.1] srcs with
      | some t => .trap t
      | none =>
        match f x s g lm.1 lm.2 with
        | .ok s =>
          halfInstr x srcs f t true
            (if x.two then s.modGroup x.core x.slot fun g => { g with spawned := g.spawned ||| lm.2 } else s)
        | .hold a => if moved then .part (s.modCore x.core fun k => k.askFills a) else .hold a
        | r => r

/-- A group instruction over each half of the issue in turn, its operands checked for poison. -/
def groupInstr (gd : Guard) (srcs : List (Nat × Src)) (f : Ctx → State → Group → Nat → Mask → WRes) :
    State → Host.Outcome State Fault Refusal :=
  issueWord gd true fun x s => halfInstr x srcs f x.leads false s

def overlaps (a n b m : Nat) : Bool := decide (a < b + m) && decide (b < a + n)

def obresWord (x : F2) (c : Ctx) (s : State) (g : Group) (l : Nat) (m : Mask) : WRes :=
  let a := c.value g 32 l x.a
  let b := c.value g 32 l x.b
  let r : Resv :=
    { v := true, fmt := x.ty, sc := nbit b 16, base := b % 512, ksteps := a / 65536 % 2048, rowsm1 := a % 4096 }
  let r := { r with soff := if r.sc then r.base + r.dunits else 0 }
  let units := r.dunits + r.sunits
  let meets (n : Nat) : Bool :=
    let q := s.resvOf g.run c.core n
    q.v && overlaps r.base units q.base (q.dunits + q.sunits)
  let free := (List.range 16).find? fun n => !(s.resvOf g.run c.core n).v
  let reserved := a / 4096 % 16 != 0 || decide (2 ^ 27 ≤ a) || b / 512 % 128 != 0 || decide (2 ^ 17 ≤ b)
  match free with
  | some n =>
    if r.ksteps = 0 ∨ reserved = true ∨ (r.sc = true ∧ oxScaled x.ty = false) ∨
        16 * (s.obShare g.run c.core).2 < r.base + units ∨ (List.range 16).any meets = true then
      .trap { cause := 0x0B, lane := l }
    else
      let y := { c with act := m }
      let s := (s.setResv g.run c.core n r).modCore c.core fun k => k.blankOb (s.obByte g.run c.core r.base) (256 * units) s.free
      .ok (s.spend.setGroup c.core c.slot (y.result g .n32 x.d false fun _ => n))
  | none => .trap { cause := 0x0B, lane := l }

def execObres (x : F2) : State → Host.Outcome State Fault Refusal := groupInstr x.g [(32, x.a), (32, x.b)] (obresWord x)

/-- Rows of an outstanding `MLOAD` to slots that are released complete as if they had landed. -/
def State.dropLoads (s : State) (c run : Nat) (slot : Nat → Bool) : State :=
  let hit (r : Req) (a : Acc) : Bool := r.kind == .mload && r.idn.run == run && slot (a.cmp.toNat % 16) && !a.finished
  let ids := ((s.core c).reqs.filter fun r => r.accs.any (hit r)).map (·.id)
  let s := s.modCore c fun k =>
    { k with reqs := k.reqs.map fun r => r.mapAccs (hit r) fun a => { a with st := .done } }
  ids.foldl (fun s id => s.afterAcc c id) s

def execObrel (gd : Guard) (a : Src) : State → Host.Outcome State Fault Refusal :=
  groupInstr gd [(32, a)] fun x s g l _ =>
    let v := x.value g 32 l a
    let n := v % 16
    let r := s.resvOf g.run x.core n
    if 32 ≤ v ∨ r.v = false then .trap { cause := 0x0B, lane := l }
    else if s.slotBusy g.run x.core n then .hold []
    else if nbit v 4 then .ok (s.setResv g.run x.core n { r with lost := false })
    else .ok ((s.setResv g.run x.core n { r with v := false }).dropLoads x.core g.run fun m => m == n)

def execAwset (x : Reg3) : State → Host.Outcome State Fault Refusal :=
  groupInstr x.g [(32, x.a), (32, x.b), (32, x.c)] fun c s g l _ =>
    let num := c.value g 32 l x.a % 16
    let b := c.value g 32 l x.b
    let e := c.value g 32 l x.c
    let mates := ((s.core c.core).groups.filter fun y => y.2.run == g.run)
    let bad (t : Nat × Group) : Bool :=
      t.2.num != num && decide (t.2.awbase < t.2.awlimit) && decide (b < e) &&
        overlaps b (e - b) t.2.awbase (t.2.awlimit - t.2.awbase)
    match mates.find? fun y => y.2.num == num with
    | some y =>
      if !s.leader c.core g || b % 8 != 0 || e % 8 != 0 || decide (e < b) || decide (s.accRows g.run c.core < e) ||
          mates.any bad then .trap { cause := 0x0F, lane := l }
      else .ok (s.modGroup c.core y.1 fun h => { h with awbase := b, awlimit := e })
    | none => .trap { cause := 0x0F, lane := l }

/-! ### `MMA` (R264, R265) -/

/-- One quarter-MMA that a word asks for: its counted lanes, and the lane whose operands it takes. -/
structure Ask where
  from_ : Nat
  q : Quarter

/-- Operand words with the row moved on by `8q` under `.all`. -/
def bumpRow (w : Nat) (n : Nat) : BitVec 32 := BitVec.ofNat 32 (w + 65536 * n)

def mmaAsks (x : Reg3) (all : Bool) (c : Ctx) (g : Group) : List Ask :=
  let quarters := List.range (g.width / 8)
  if all then
    match c.active with
    | [] => []
    | l :: _ =>
      quarters.map fun q =>
        { from_ := l,
          q := { run := g.run, row0 := c.value g 32 l x.a + 8 * q, lanes := List.range 8,
                 aw := bumpRow (c.value g 32 l x.b) (8 * q), bw := BitVec.ofNat 32 (c.value g 32 l x.c) } }
  else
    quarters.filterMap fun q =>
      let ls := c.active.filter fun l => l / 8 == q
      ls.head?.map fun l =>
        { from_ := l,
          q := { run := g.run, row0 := c.value g 32 l x.a, lanes := ls.map (· % 8),
                 aw := BitVec.ofNat 32 (c.value g 32 l x.b), bw := BitVec.ofNat 32 (c.value g 32 l x.c) } }

def wordRow (w : BitVec 32) : Nat := w.toNat / 65536
def wordStep (w : BitVec 32) : Nat := w.toNat / 16 % 4096
def wordSlot (w : BitVec 32) : Nat := w.toNat % 16

/-- The DESC check of a quarter; a row sum past 65,535 is beyond every reservation. -/
def State.mmaDesc (s : State) (c : Nat) (past : Bool) (a : Quarter) : Bool :=
  let ra := s.resvOf a.run c (wordSlot a.aw)
  let rb := s.resvOf a.run c (wordSlot a.bw)
  !ra.v || !rb.v || oxClass ra.fmt != oxClass rb.fmt || decide (ra.ksteps ≤ wordStep a.aw) ||
    decide (rb.ksteps ≤ wordStep a.bw) || past || (a.lanes.any fun j => decide (ra.rows ≤ wordRow a.aw + j)) ||
    decide (rb.rows ≤ wordRow a.bw + 63)

def mmaWord (x : Reg3) (all : Bool) : State → Host.Outcome State Fault Refusal :=
  issueWord x.g true fun c s => onGroup c s fun g =>
    let asks := mmaAsks x all c g
    match g.poisonTrap (asks.map (·.from_)).eraseDups [(32, x.a), (32, x.b), (32, x.c)] with
    | some t => .trap t
    | none =>
      let find (p : Ask → Bool) (cause : Nat) : Option TrapInfo :=
        (asks.find? p).map fun a => { cause := cause, lane := a.from_ }
      let past (a : Ask) : Bool := all && decide (65536 ≤ c.value g 32 a.from_ x.b / 65536 + 8 * (g.width / 8) - 8)
      let lost (a : Ask) : Bool :=
        (s.resvOf g.run c.core (wordSlot a.q.aw)).lost || (s.resvOf g.run c.core (wordSlot a.q.bw)).lost
      let win (a : Ask) : Bool := a.q.row0 % 8 != 0 || a.q.lanes.any fun j => !inWin g (a.q.row0 + j)
      match find (fun a => s.mmaDesc c.core (past a) a.q) 0x0B <|> find win 0x0F <|> find lost 0x10 with
      | some t => .trap t
      | none =>
        if Config.oxQueue < (s.core c.core).oxq.length + asks.length then .hold []
        else .ok (s.modCore c.core fun k => { k with oxq := k.oxq ++ asks.map (·.q) })

def execMma (x : Reg3) := mmaWord x false
def execMmaAll (x : Reg3) := mmaWord x true

/-! ### Passes (R257, R258) -/

/-- How many quarters at the head of the queue one pass takes. -/
def passLength : List Quarter → Nat
  | [] => 0
  | q :: t => 1 + ((t.take 7).takeWhile fun x => x.run == q.run && x.bw == q.bw).length

/-- The Ox starts a pass when none runs. -/
def execOxPassStart (core : Nat) (s : State) : Host.Outcome State Fault Refusal :=
  let k := s.core core
  if k.pass.isSome ∨ k.oxq = [] then .next s else .next (s.setCore core { k with pass := some (passLength k.oxq) })

/-- Whether an outstanding `MLOAD` writes a row of a slot, so that its elements are unspecified (R257). -/
def Core.loadingRow (k : Core) (run slot row : Nat) : Bool :=
  k.reqs.any fun r => r.kind == .mload && r.idn.run == run &&
    r.accs.any fun a => a.cmp.toNat % 16 == slot && a.cmp.toNat / 65536 % 65536 == row

/-- What a pass reads of one operand word: elements, scales, and whether it reads poison. -/
structure Operand where
  elem : Nat → Nat → FVal
  scale : Nat → Nat → FVal
  bad : Nat → Nat → Bool

def State.operand (s : State) (run c : Nat) (w : BitVec 32) (fr : Nat) : Operand :=
  let k := s.core c
  let r := s.resvOf run c (wordSlot w)
  let row (i : Nat) : Nat := s.obByte run c r.base + (wordRow w + i) * r.rowBytes
  let srow (i : Nat) : Nat := s.obByte run c r.soff + (wordRow w + i) * r.scaleBytes
  let kk (j : Nat) : Nat := wordStep w * oxK r.fmt + j
  let loading (i : Nat) : Bool := k.loadingRow run (wordSlot w) (wordRow w + i)
  let free (i j : Nat) : Nat := (Config.freeWord fr (65536 * (wordRow w + i) + kk j)).toNat
  { elem := fun i j =>
      let n := if loading i then free i j else k.obElement (row i) r.fmt (kk j)
      oxElement r.fmt (n % 2 ^ r.fmt.bits),
    scale := fun i j =>
      if r.sc then scaleValue (if loading i then free i (j + 2 ^ 15) % 256 else k.obByte (srow i + kk j / 32))
      else .num ⟨false, 1, 0⟩,
    bad := fun i j =>
      let byte := match r.fmt with
        | .tf6 => row i + kk j / 128 * 96 + kk j % 128 / 4 * 3
        | ty => row i + kk j * (ty.bits / 8)
      (AMap.find? k.obPoison (byte / 4)).isSome || (AMap.find? k.obPoison ((byte + 2) / 4)).isSome && r.fmt == .tf6 ||
        (r.sc && (AMap.find? k.obPoison ((srow i + kk j / 32) / 4)).isSome) }

/-- One accumulator element of a quarter. -/
def State.quarterElem (s : State) (c : Nat) (a b : Operand) (n : Nat) (phys j col : Nat) : State :=
  let key := phys * 64 + col
  let prod (k : Nat) : FVal := oxProduct (a.elem j k) (b.elem col k) (a.scale j k) (b.scale col k)
  let old := (AMap.get (s.core c).acc key 0).toNat
  let bad := (List.range n).any fun k => a.bad j k || b.bad col k
  s.modCore c fun k =>
    { k with
      acc := AMap.put k.acc key (BitVec.ofNat 32 (oxBlocks prod (n / 16) 0 old)),
      accPoison := if bad then AMap.put k.accPoison key false else k.accPoison }

def State.runQuarter (s : State) (c : Nat) (q : Quarter) : State :=
  let a := s.operand q.run c q.aw s.free
  let b := s.operand q.run c q.bw (s.free + 1)
  let n := oxK (s.resvOf q.run c (wordSlot q.aw)).fmt
  let s := q.lanes.foldl (fun s j =>
    (List.range 64).foldl (fun s col => s.quarterElem c a b n (s.physRow q.run c (q.row0 + j)) j col) s) s
  s.spend.spend

/-- A pass ends: its products are in the accumulator, and its places and rows are free. All its operands are read now (log
entry 122). -/
def execOxPassEnd (core : Nat) (s : State) : Host.Outcome State Fault Refusal :=
  match (s.core core).pass with
  | none => .next s
  | some n =>
    let s := ((s.core core).oxq.take n).foldl (fun s q => s.runQuarter core q) s
    .next (s.modCore core fun k => { k with oxq := k.oxq.drop n, pass := none })

/-! ### Accumulator words (R267) -/

/-- A word that acts on the row each lane names: in the window, and held by the scoreboard. -/
def rowWord (gd : Guard) (a : Src) (srcs : List (Nat × Src)) (poison : Ctx → State → Group → Option TrapInfo)
    (f : Ctx → State → Group → State) : State → Host.Outcome State Fault Refusal :=
  issueWord gd true fun x s => onGroup x s fun g =>
    let row (l : Nat) : Nat := x.value g 32 l a
    match g.poisonTrap x.active srcs <|> firstLane x.active (fun l => !inWin g (row l)) 0x0F with
    | some t => .trap t
    | none =>
      if x.active.any fun l => s.rowBusy g.run x.core (row l) then .hold []
      else
        match poison x s g with
        | some t => .trap t
        | none => .ok (f x s g)

/-- The accumulator element that a lane names. -/
def State.accKey (s : State) (x : Ctx) (g : Group) (a b : Src) (l : Nat) : Nat :=
  s.physRow g.run x.core (x.value g 32 l a) * 64 + x.value g 32 l b % 64

def Core.putAcc (k : Core) (key : Nat) (v : Reg32) : Core :=
  { k with acc := if v = 0 then AMap.del k.acc key else AMap.put k.acc key v, accPoison := AMap.del k.accPoison key }

def noPoison : Ctx → State → Group → Option TrapInfo := fun _ _ _ => none

def execMzero (gd : Guard) (a : Src) : State → Host.Outcome State Fault Refusal :=
  rowWord gd a [(32, a)] noPoison fun x s g =>
    x.active.foldl (fun s l =>
      let row := s.physRow g.run x.core (x.value g 32 l a)
      s.modCore x.core fun k => (List.range 64).foldl (fun k col => k.putAcc (row * 64 + col) 0) k) s

def execMread (gd : Guard) (d : Dst) (a b : Src) : State → Host.Outcome State Fault Refusal :=
  rowWord gd a [(32, a), (32, b)]
    (fun x s g => x.active.findSome? fun l =>
      let k := s.accKey x g a b l
      if (AMap.find? (s.core x.core).accPoison k).isSome then
        some { cause := 0x02, lane := l, reg := some (accKeyBase + k, 15) }
      else none)
    fun x s g =>
      s.setGroup x.core x.slot
        (x.result g .b32 d true fun l => (AMap.get (s.core x.core).acc (s.accKey x g a b l) 0).toNat)

def execMwrite (x : Reg3) : State → Host.Outcome State Fault Refusal :=
  rowWord x.g x.a [(32, x.a), (32, x.b), (32, x.c)] noPoison fun c s g =>
    c.active.foldl (fun s l =>
      s.modCore c.core fun k => k.putAcc (s.accKey c g x.a x.b l) (BitVec.ofNat 32 (c.value g 32 l x.c))) s

/-! ### Rows of `MLOAD` landing (R262, R263) -/

/-- The place of 32 bytes of a scratchpad source, as the issuing team names it. -/
def State.padPlace (s : State) (c : Nat) (q : Req) (space : Space) (va : Nat) : Option Nat :=
  match space with
  | .loc => (s.run q.idn.run).locPlace va 32
  | _ => some (clusterOf c * Config.coresPerCluster * 2 ^ 18 + va)

/-- Read `n` 32-byte pieces of a row's source; each piece is read as one event, and a graded sector is counted. With a late
fault comes the address of the piece. -/
def State.readPieces (s : State) (c : Nat) (q : Req) (space : Space) : Nat → Nat → Nat → Nat → Outc × Nat
  | 0, _, _, v => (.done s, v)
  | n + 1, va, i, v =>
    match space with
    | .glb =>
      match s.resolve q.idn.part q.idn.asid va .noWindow with
      | .error m => (.late (s.lateOf q.idn.part q.idn.asid va m) s, va)
      | .ok (.mem l) =>
        if s.noGrant l.tag q.id then (.wait s, v)
        else
          let x := s.sector l
          if x.poison then (.late { cause := 0x29, trap := true } s, va)
          else
            match s.countRead q l.cls x.record with
            | .error f => (.late f s, va)
            | .ok s =>
              (s.installTlb q.idn.part l.easid va).readPieces c q space n (va + 32) (i + 1)
                (v + sectorValue x.data va 32 * 2 ^ (256 * i))
      | .ok _ => (.wait s, v)
    | _ =>
      let pl := (s.padPlace c q space va).getD 0
      s.readPieces c q space n (va + 32) (i + 1) (v + s.wayRead pl 32 * 2 ^ (256 * i))

/-- The bytes of a row in the operand buffer, as its row word names it. -/
def State.rowPlace (s : State) (c : Nat) (q : Req) (w : Nat) : Nat × Nat :=
  let r := s.resvOf q.idn.run c (w % 16)
  let row := w / 65536 % 65536
  if nbit w 4 then (s.obByte q.idn.run c r.soff + row * r.scaleBytes, r.scaleBytes)
  else (s.obByte q.idn.run c r.base + row * r.rowBytes, r.rowBytes)

/-- A row lands: its bytes are in the operand buffer, where they clear poison (R273). -/
def Core.putRow (k : Core) (p : Nat × Nat) (v : Nat) : Core :=
  { k with
    ob := Memory.writeN k.ob p.1 p.2 v,
    obBlank := cutBlank p.1 p.2 k.obBlank,
    obPoison := k.obPoison.filter fun x => decide (4 * x.1 + 4 ≤ p.1) || decide (p.1 + p.2 ≤ 4 * x.1) }

/-- The contents of a dropped row are unspecified (R263). -/
def State.scrambleRow (s : State) (c : Nat) (p : Nat × Nat) : State :=
  (s.modCore c fun k => (k.putRow p 0).blankOb p.1 p.2 s.free).spend

/-- A row faults late: the access keeps the address that faulted, or the row is dropped. -/
def State.rowLate (s : State) (c : Nat) (q : Req) (idx : Nat) (a : Acc) (f : Late) (va : Nat) : Outc :=
  .late f (if replayCause f.cause then
      s.modReq c q.id fun r => r.setAcc idx fun b => { b with data := BitVec.ofNat 512 va }
    else s.scrambleRow c (s.rowPlace c q a.cmp.toNat))

/-- The bytes of a row that its `i`-th 32-byte-aligned piece brings: from where, and how many. -/
def rowPiece (a : Acc) (i : Nat) : Nat × Nat :=
  let lo := max a.va ((a.va / 32 + i) * 32)
  (lo, min (a.va + a.size) ((a.va / 32 + i + 1) * 32) - lo)

/-- A row that meets host memory comes piece by piece, over the host link where it lies there; `mask` counts the pieces that have come. -/
def State.mloadHost (s : State) (c : Nat) (q : Req) (idx : Nat) (a : Acc) : Outc :=
  let i := a.mask.toNat
  let x := rowPiece a i
  if a.got then
    let s := s.modCore c fun k => k.putRow ((s.rowPlace c q a.cmp.toNat).1 + (x.1 - a.va), x.2) (a.data.toNat % 2 ^ (8 * x.2))
    if a.va + a.size ≤ x.1 + x.2 then .done (s.finishAcc c q.id idx .done)
    else .wait (s.modReq c q.id fun r => r.setAcc idx fun b => { b with got := false, data := 0, mask := b.mask + 1 })
  else
    match s.resolve q.idn.part q.idn.asid x.1 .noWindow with
    | .ok (.host addr) => s.hostLoad c q idx { a with va := x.1 } addr (.load x.2)
    | .ok _ =>
      (match s.readPieces c q a.space 1 (x.1 / 32 * 32) 0 0 with
        | (.done s, v) => .wait (s.modReq c q.id fun r => r.setAcc idx fun b =>
            { b with got := true, data := BitVec.ofNat 512 (v / 2 ^ (8 * (x.1 % 32))) })
        | (.late f s, va) => s.rowLate c q idx a f va
        | (r, _) => r)
    | .error m => s.rowLate c q idx a (s.lateOf q.idn.part q.idn.asid x.1 m) x.1

/-- The next row of an `MLOAD`: the lowest lane that has not landed. It waits for what orders
engines (R337). -/
def State.mloadAcc (s : State) (c : Nat) (q : Req) (idx : Nat) (a : Acc) : Outc :=
  let first := q.accs.zipIdx.all fun b => decide (idx ≤ b.2) || b.1.finished
  if !first || !s.engineReady c q then .wait s
  else if a.space == .glb && (s.hostWindow q.idn.part a.va || s.hostWindow q.idn.part (a.va + a.size - 1)) then
    s.mloadHost c q idx a
  else
    let p := s.rowPlace c q a.cmp.toNat
    match s.readPieces c q a.space ((a.va % 32 + a.size + 31) / 32) (a.va / 32 * 32) 0 0 with
    | (.done s, v) =>
      .done ((s.modCore c fun k => k.putRow p (v / 2 ^ (8 * (a.va % 32)) % 2 ^ (8 * p.2))).finishAcc c q.id idx .done)
    | (.late f s, va) => s.rowLate c q idx a f va
    | (r, _) => r

def execMloadRowLand (core req : Nat) (s : State) : Host.Outcome State Fault Refusal :=
  match (s.core core).req? req with
  | none => .next s
  | some q =>
    if q.kind ≠ .mload then .next s
    else
      match q.accs.zipIdx.find? fun b => b.1.st == .waiting with
      | none => .next s
      | some b =>
        (match s.mloadAcc core q b.2 b.1 with
          | .done s => .next s
          | .wait s => .next s
          | .late _ _ => .next s)

end Sys2Proof.Machine
end

