-- ==== Sys2Proof/Machine/Dray.lean ====
section
/-! DEFINITION. Tile copies by the Dray (R117, R173-R175). A copy is one access of its request, which stands at the memory
address of the next piece; `n` counts the 32-byte pieces that have landed. -/

namespace Sys2Proof.Machine

/-! ### One landing -/

/-- The copy goes on to its next piece; after the last it writes the notification and completes. -/
def State.drayNext (s : State) (c : Nat) (q : Req) : State :=
  let s := s.unstall c q
  let t := tileOf q.words
  let n := q.n + 1
  if t.pieces ≤ n then
    let s := if t.silent then s
      else s.wayPut (clusterOf c * Config.coresPerCluster * 2 ^ 18 + t.naddr) 8 t.nval.toNat
    s.finishAcc c q.id 0 .done
  else
    s.modReq c q.id fun r =>
      { (r.setAcc 0 fun a => { a with va := t.mem n, got := false, mask := 0, st := .waiting }) with n := n }

/-- The 32 bytes of a piece's source. -/
def State.drayRead (s : State) (c : Nat) (q : Req) (a : Acc) (t : Tile) : Outc × Nat :=
  let src := t.from_ q.n
  if t.toMem then (.done s, s.wayRead (clusterOf c * Config.coresPerCluster * 2 ^ 18 + src) 32)
  else if a.got then (.done s, a.data.toNat % 2 ^ 256)
  else
    match s.resolve q.idn.part q.idn.asid src .noWindow with
    | .error n => (.late (s.lateOf q.idn.part q.idn.asid src n) s, 0)
    | .ok (.host addr) => (s.hostLoad c q 0 { a with va := src } addr (.load 32), 0)
    | .ok (.window _ _) => (.wait s, 0)
    | .ok (.mem l) =>
      let s := s.installTlb q.idn.part l.easid src
      if s.claimedByOther (drayOf c) q.turn l.tag then (.wait s, 0)
      else
        let x := s.sector l
        if x.poison then (.late { cause := 0x29, trap := true } s, 0)
        else
          match s.countRead q l.cls x.record with
          | .error f => (.late f s, 0)
          | .ok s => (.done s, sectorValue x.data src 32)

/-- Land the next piece of a copy (R174). Where its destination is held, each landing takes an entry of its own (log entry
106). -/
def State.drayLand (s : State) (c : Nat) (q : Req) (a : Acc) : Outc :=
  let t := tileOf q.words
  let p := q.idn.part
  if a.mask ≠ 0 then .done (s.drayNext c q)
  else if !s.engineReady c q then .wait s
  else
    match s.drayRead c q a t with
    | (.done s, v) =>
      let dst := t.dest q.n
      if !t.toMem then .done ((s.wayPut (clusterOf c * Config.coresPerCluster * 2 ^ 18 + dst) 32 v).drayNext c q)
      else
        let m := byteMask dst 32
        let op : PacketOp := .store (lineMask dst m) (lineData dst (placeBytes dst 32 v))
        match s.resolve p q.idn.asid dst .noWindow with
        | .error n => .late (s.lateOf p q.idn.asid dst n) s
        | .ok d =>
          if s.outward p dst d && decide (q.floor < 3) then
            match s.holdStore q { a with va := dst } q.gen op with
            | some s => .done (s.drayNext c q)
            | none => .wait (s.stall c q 0)
          else if s.outward p dst d && s.draining p q.idn.gid then .wait s
          else
            match d with
            | .mem l =>
              let s := s.installTlb p l.easid dst
              if s.claimedByOther (drayOf c) q.turn l.tag then .wait s
              else
                let more := decide (q.n + 1 < t.pieces) && t.dest (q.n + 1) / 64 == dst / 64
                .done ((s.land32 (drayOf c) l dst v more).drayNext c q)
            | d =>
              match s.sendStore c q 0 { a with va := dst } d op with
              | .wait s => .wait (s.modReq c q.id fun r => r.setAcc 0 fun b => { b with got := true })
              | r => r
    | (r, _) => r

end Sys2Proof.Machine
end

