-- ==== Sys2Proof/Machine/Attempt.lean ====
section
/-! DEFINITION. The steps by which outstanding requests perform, fault late and complete (R84-R90, R101, R110, R111,
R116, R117, R120, R132, R160, R171, R287, R359). -/

namespace Sys2Proof.Machine

/-- One access performs as its instruction says. Words without accesses of their own complete otherwise. -/
def State.performAcc (s : State) (c : Nat) (q : Req) (idx : Nat) (a : Acc) : Outc :=
  match q.kind with
  | .ld => s.ldAcc c q idx a
  | .st | .spill | .mstore => s.stAcc c q idx a
  | .atom | .fatom => s.atomAcc c q idx a
  | .waita => s.waitAcc c q idx a
  | .probe => s.probeAcc c q idx a
  | .cflush | .cinv => s.cacheAcc c q idx a
  | .fill => s.fillAcc c q idx a
  | .ldg => s.ldgAcc c q idx a
  | .stg | .amend => s.stgAcc c q idx a
  | .grd => s.grdAcc c q idx a
  | .ginit | .gadd => s.gaddAcc c q idx a
  | .gread => s.greadAcc c q idx a
  | .gspread => s.gspreadAcc c q idx a
  | .fput => s.fputAcc c q idx a
  | .fget => s.fgetAcc c q idx a
  | .acset => s.acsetAcc c q idx a
  | .acwait => s.acwaitAcc c q idx a
  | .mload => s.mloadAcc c q idx a
  | .tcopy => s.drayLand c q a
  | _ => .wait s

/-- The request and the access of a core under two numbers. -/
def State.acc? (s : State) (c id idx : Nat) : Option (Req × Acc) :=
  ((s.core c).req? id).bind fun q => (q.accs[idx]?).map fun a => (q, a)

/-- A request behind a faulted one to its page goes into the operand log, unperformed (R85). -/
def State.logBehind (s : State) (c id idx : Nat) (a : Acc) : State :=
  (s.setAccSt c id idx .logged).modReq c id fun r => r.logAbove a.lane

/-- What trying one access comes to, where it is its turn, and once its translations are there or can be walked for (R69). -/
def State.tryAcc (s : State) (c id idx : Nat) : Outc :=
  match s.acc? c id idx with
  | none => .wait s
  | some (q, a) =>
    if a.st ≠ .waiting ∧ a.st ≠ .miss then .wait s
    else if s.blocked c q idx a then .wait s
    else if (s.core c).pageLogged q a then .wait (s.logBehind c id idx a)
    else
      match State.walkPages q.idn.part ((q.pagesOf a).map fun va => (easidOf q.idn.asid va, va)) s with
      | (s, false) => .wait s
      | (s, true) => s.performAcc c q idx a

/-- Try one access; one that would fault late stays as it is until its fault arrives. -/
def State.attempt (s : State) (c id idx : Nat) : State :=
  match s.tryAcc c id idx with
  | .wait s' | .done s' => s'
  | .late _ _ => s

/-- Try every access of a request, in order. -/
def State.attemptReq (s : State) (c id : Nat) : State :=
  match (s.core c).req? id with
  | none => s
  | some q => (List.range q.accs.length).foldl (fun s i => s.attempt c id i) s

/-- Try an access, and take its late fault where it has one (R160). Cause 0 is no fault: a walk waits for an engine (R70). -/
def State.attemptOrFault (s : State) (c id idx : Nat) : State :=
  match s.tryAcc c id idx with
  | .wait s' | .done s' => s'
  | .late f s' => if f.cause = 0 then s' else s'.fault c id idx f

/-- Whether an event may complete an access: its kind is one of `p`. -/
def State.eventOn (s : State) (c id idx : Nat) (p : ReqKind → Bool) : Host.Outcome State Fault Refusal :=
  match s.acc? c id idx with
  | none => .next s
  | some (q, _) => .next (if p q.kind then s.attempt c id idx else s)

/-! ### Returns and acknowledgments -/

/-- Requests whose result comes back to registers. -/
def ReqKind.returns : ReqKind → Bool
  | .ld | .atom | .fatom | .probe | .waita | .gread | .gspread | .grd | .ldg | .fget | .acwait => true
  | _ => false

/-- Requests that an acknowledgment completes. -/
def ReqKind.acknowledged : ReqKind → Bool
  | .st | .spill | .mstore | .stg | .amend | .ginit | .gadd | .acset | .cflush | .cinv | .fput => true
  | _ => false

def execLoadReturn (core req idx : Nat) (s : State) : Host.Outcome State Fault Refusal :=
  s.eventOn core req idx ReqKind.returns

/-- An acknowledgment comes: that of a CXL port for a store that has merged there (R159), or one that completes its access. -/
def execStoreAcknowledge (core req idx : Nat) (s : State) : Host.Outcome State Fault Refusal :=
  match s.acc? core req idx with
  | none => .next s
  | some (q, a) =>
    .next (if a.st = .port then s.finishAcc core req idx .done
      else if q.kind.acknowledged then s.attempt core req idx
      else s)

/-- A dirty sector is written back, behind whatever must leave no later (R111); the L1 then gives it up. -/
def execWriteBackMerge (core part easid va : Nat) (s : State) : Host.Outcome State Fault Refusal :=
  let t := sectorTag part easid va
  let s := s.writeBackInOrder core t
  .next (s.modCore core fun k => if (k.l1Sec t).dirty = 0 then { k with l1 := AMap.del k.l1 t } else k)

/-- A rejected miss of a request is issued again (R120). -/
def execMissReissue (core req : Nat) (s : State) : Host.Outcome State Fault Refusal :=
  match (s.core core).req? req with
  | none => .next s
  | some q =>
    .next ((List.range q.accs.length).foldl (fun s i =>
      match q.accs[i]? with
      | some a => (match a.st with
        | .rejected _ => s.takeMiss core req i
        | _ => s)
      | none => s) s)

/-- The lanes that a fill holds go on when every entry has been read (R309): to the addresses read, or into the fault
that their fetch meets. -/
def State.finishFill (s : State) (c slot : Nat) (q : Req) : State :=
  match s.group? c slot with
  | none => s
  | some g =>
    let held := maskOf fun l => (g.thread l).st == .fill q.id
    let hdr := ((lanesOf held).head?.bind fun l => (g.thread l).hdr).getD 0
    let x : Ctx :=
      { core := c, entry := 0, slot := slot, pc := q.pc, hdr := hdr, len := 0, last := true, lanes := held,
        act := q.mask &&& held, two := false, sfa := none, sfb := none, cw := [], fr := s.free,
        now := s.now g.part }
    let gone (s : State) : State := s.modCore c fun k => { k with reqs := k.reqs.filter fun r => r.id != q.id }
    match s.retTo x g q.sx (q.accs.map fun a => (a.lane, a.cmp)) with
    | .ok s | .part s => gone s
    | .hold tags => s.modCore c fun k => k.askFills tags
    | .fatal => (gone s).endGroup c slot
    | .trap t =>
      let s := (gone s).modGroup c slot fun g => g.threads held fun _ t => { t with st := .ready }
      (s.modCore c Core.dropAnswers).raisePrecise c slot t q.pc held false

/-- The read of a spilled entry returns; with the last of its instruction, the held lanes go on (R287). -/
def execStackFillReturn (core slot lane : Nat) (s : State) : Host.Outcome State Fault Refusal :=
  match (s.core core).reqs.find? fun q => q.kind == .fill && q.idn.slot == slot && s.alive q.idn &&
      q.accs.any (fun a => a.lane == lane) with
  | none => .next s
  | some q =>
    match q.accs.findIdx? fun a => a.lane == lane with
    | none => .next s
    | some i =>
      let s := s.attempt core q.id i
      match (s.core core).req? q.id with
      | none => .next s
      | some q => .next (if q.allFinished then s.finishFill core slot q else s)

/-! ### Late faults (R160) -/

/-- Poison the line of an access, where no cache holds its sector (R81). -/
def State.poisonLine (s : State) (q : Req) (a : Acc) : State :=
  match s.resolve q.idn.part q.idn.asid (q.needs a) .either with
  | .ok (.mem l) =>
    if s.copies l.tag = [] then
      let s := s.retag l.pa l.slot
      let m := AMap.get s.lmeta (l.pa / 256) {}
      { s with lmeta := AMap.put s.lmeta (l.pa / 256) { m with poison := true } }
    else s
  | _ => s

/-- A late fault arrives: for a request that a dead plane has lost, FABRIC_LOST; else whatever the access now meets. A line
whose error cannot be corrected is poisoned; one that the controller corrects is counted (R81). -/
def execLateFault (core req idx : Nat) (err : MemErr) (s : State) : Host.Outcome State Fault Refusal :=
  match s.acc? core req idx with
  | none => .next s
  | some (q, a) =>
    match a.st with
    | .sent id => .next (s.loseReq id)
    | _ =>
      let s := match err with
        | .none => s
        | .soft => { s with softErrors := s.softErrors + 1 }
        | .hard => s.poisonLine q a
      .next (s.attemptOrFault core req idx)

/-! ### Replay (R86, R359) -/

/-- The page that a replay command names, whole where it is large. -/
def replayHits (easid vpage e va : Nat) : Bool :=
  e == easid && (if isLarge va then va / 2 ^ 21 % 2 ^ 35 == vpage / 32 else va / 2 ^ 16 % 2 ^ 40 == vpage)

/-- Logged accesses of a request that a page names; those of a matrix load or store go on from the resume point. -/
def Req.replays (q : Req) (easid vpage : Nat) : Acc → Bool := fun a =>
  let hit (b : Acc) : Bool :=
    b.st == .logged && (b.space == .glb || q.kind == .fput) &&
      replayHits easid vpage (easidOf q.idn.asid (q.needs b)) (q.needs b)
  match q.kind with
  | .mload | .mstore =>
    let first := q.accs.find? fun b => b.st == .logged
    (match first with
      | some b => hit b && a.st == .logged
      | none => false)
  | _ => hit a

/-- Whether a request is of a group that a save holds. -/
def Core.savedReq (k : Core) (q : Req) : Bool :=
  match k.save with
  | none => false
  | some i => i.groups.any fun g => g.2.gid == q.idn.gid

/-- Requests of a partition with accesses to replay, as (core, request), in SEQ order for each group. -/
def State.replayList (s : State) (part easid vpage : Nat) : List (Nat × Nat) :=
  s.cores.flatMap fun k =>
    (k.2.reqs.filter fun q => q.idn.part == part && q.accs.any (q.replays easid vpage)).map fun q =>
      (k.1, q.id)

/-- A copy takes what it can of its destination, when it is issued, issued again, or when a sector has come free, once the
accesses that are ordered before it have performed (R337). -/
def State.retake (s : State) (c id : Nat) : State :=
  match (s.core c).req? id with
  | none => s
  | some q =>
    if q.copyTags = [] ∨ s.engineReady c q = false then s
    else
      let s := if q.homeNo ≠ 0 then s
        else (s.modReq c id fun r => { r with accs := r.accs.map fun a => if a.going then { a with home := s.next } else a }).bump
      let n := (((s.core c).req? id).getD q).homeNo
      match q.kind with
      | .tcopy => claimAll (fun _ => drayOf c) q.idn.part q.idn.asid n ((tileOf q.words).sectors q.n) s
      | _ => claimAll (fun va => s.fgetPort q (va / 64)) q.idn.part q.idn.asid n q.fgetSectors s

/-- Sectors that an engine took for a copy that has dropped them are given up; those that have come free go to the copies that
wait to take them, the earliest first (R117). -/
def State.reclaim (s : State) : State :=
  let qs := s.cores.flatMap fun k => (k.2.reqs.filter fun q => q.kind == .tcopy || q.kind == .fget).map fun q => (k.1, q)
  let loose := (s.cached.map (·.1)).filter fun t => s.claimed t && !qs.any fun x => x.2.copyTags.contains t
  let s := loose.foldl (fun s t =>
    s.setCopies t ((s.copies t).map fun c =>
      if c.st = .e ∧ (c.holder < 56 ∨ c.holder = 64 ∨ c.holder = 65) then { c with st := .m } else c)) s
  (qs.mergeSort fun x y => decide (x.2.id ≤ y.2.id)).foldl (fun s x => s.retake x.1 x.2.id) s

/-- A logged access is issued again; a store whose bytes lie in the L1 waits there for its write-back again. One of a group that a
save holds is issued again when the group resumes, as what has been withdrawn is (R161, log entry 74). -/
def Req.reissued (q : Req) (saved : Bool) (a : Acc) : Acc :=
  if q.kind.store && a.got then { a with st := .l1, got := false }
  else
    { a with st := if saved then .withdrawn else .waiting, replay := !saved,
             data := if q.kind = .mload ∧ a.got = false then 0 else a.data }

/-- The sectors of the L1 that hold bytes of a request's logged stores. -/
def Req.l1Tags (q : Req) (p : Acc → Bool) : List Nat :=
  ((q.accs.filter fun a => p a && q.kind.store && a.got).map (accTag q.idn.part q)).eraseDups

/-- Where the entry of a team from 4,096 on is kept (R298). -/
def State.spillVa (s : State) (p slot team : Nat) : Nat := bits (s.preg p 0x2608) 55 17 * 2 ^ 17 + slot * 2 ^ 17 + 2 * team

/-- A replay of a page of the spill area by system software: what was lost there is written again, and a fault that stands is
reported again. -/
def State.spillAgain (s : State) (p vpage : Nat) : State :=
  let hit (y : Nat × Nat) : Bool := samePage (s.spillVa p y.1 y.2) vpage
  s.modPart p fun x =>
    { x with spillTold := x.spillTold.filter fun y => !hit y, spillLost := x.spillLost.filter fun y => !hit y,
             spillOwed := x.spillOwed ++ x.spillLost.filter hit }

/-- Every operand log re-issues its requests to the page, in the order of their instructions and lanes (R86). -/
def State.replayPage (s : State) (part easid vpage : Nat) : State :=
  let l := s.replayList part easid vpage
  let s := l.foldl (fun s x =>
    let saved := (((s.core x.1).req? x.2).map (s.core x.1).savedReq).getD false
    let ts := (((s.core x.1).req? x.2).map fun q => q.l1Tags (q.replays easid vpage)).getD []
    let s := (s.modReq x.1 x.2 fun q => q.mapAccs (q.replays easid vpage) (q.reissued saved)).retake x.1 x.2
    ts.foldl (fun s t => s.writeBackInOrder x.1 t) s) s
  let s := l.foldl (fun s x => s.attemptReq x.1 x.2) s
  let s := if easid = 0 then s.spillAgain part vpage else s
  (s.setPreg part 0x2730 (setBits (s.preg part 0x2730) 63 63 0))

/-- The partition's own function writes the register (R370). -/
def execRpcmdReplay (part easid vpage : Nat) (s : State) : Host.Outcome State Fault Refusal :=
  s.asFunction part fun s => s.replayPage part easid vpage

/-- A logged access is discarded, as a dropped cause discards it (R160). The address that a discarded fill reads is unspecified;
its lanes go on with it (R287). -/
def State.discard (s : State) (c : Nat) (q : Req) (idx : Nat) (a : Acc) : State :=
  if q.kind = .fill then
    (s.modReq c q.id fun r => r.setAcc idx fun b => { b with st := .dropped, cmp := Config.freeWord s.free a.lane }).spend
  else
    let s := if q.kind = .mload then s.scrambleRow c (s.rowPlace c q a.cmp.toNat) else s
    (s.scramble c q a).finishAcc c q.id idx .dropped

/-- Every logged request to the page is discarded. -/
def State.dropPage (s : State) (part easid vpage : Nat) : State :=
  let l := s.replayList part easid vpage
  let s := l.foldl (fun s x =>
    match (s.core x.1).req? x.2 with
    | none => s
    | some q =>
      let hit := q.replays easid vpage
      let s := (q.l1Tags hit).foldl (fun s t => s.modCore x.1 fun k => k.dropL1 t fun r a => r.id == q.id && hit a) s
      q.accs.zipIdx.foldl (fun s b => if hit b.1 then s.discard x.1 q b.2 b.1 else s) s) s
  let s := l.foldl (fun s x => s.settleGfences x.1) s
  (s.setPreg part 0x2730 (setBits (s.preg part 0x2730) 63 63 0))

/-- The partition's own function writes the register (R370). -/
def execRpcmdDrop (part easid vpage : Nat) (s : State) : Host.Outcome State Fault Refusal :=
  s.asFunction part fun s => s.dropPage part easid vpage

/-! ### Waiting lanes -/

/-- Read a watched word again (R171). -/
def State.rewatch (s : State) (c id idx : Nat) : State :=
  match s.acc? c id idx with
  | none => s
  | some (q, a) =>
    if (q.kind = .waita ∨ q.kind = .acwait) ∧ a.st = .watching then (s.setAccSt c id idx .waiting).attempt c id idx else s

/-- A write to the word notifies the core; words without a home on the device are only read at the end of a period. -/
def execWatchNotify (core req lane : Nat) (s : State) : Host.Outcome State Fault Refusal :=
  match (s.core core).req? req with
  | none => .next s
  | some q =>
    match q.accs.findIdx? fun a => a.lane == lane with
    | none => .next s
    | some i =>
      match q.accs[i]? with
      | none => .next s
      | some a => .next (if a.space = .glb ∧ s.hostWindow q.idn.part a.va = true then s else s.rewatch core req i)

def execWatchRecheck (core req lane : Nat) (s : State) : Host.Outcome State Fault Refusal :=
  match (s.core core).req? req with
  | none => .next s
  | some q =>
    match q.accs.findIdx? fun a => a.lane == lane with
    | none => .next s
    | some i => .next (s.rewatch core req i)

/-- A parked lane looks at its sector again; it stays parked where the grade is still short (R89). -/
def execParkWake (core req lane : Nat) (s : State) : Host.Outcome State Fault Refusal :=
  match (s.core core).req? req with
  | none => .next s
  | some q =>
    match q.accs.findIdx? fun a => a.lane == lane && a.st == .parked with
    | none => .next s
    | some i =>
      match q.accs[i]? with
      | none => .next s
      | some a =>
        match s.ldgAcc core q i a with
        | .wait s | .done s => .next s
        | .late f s => .next (s.fault core req i f)

/-- A request that its home refused for want of a park entry is issued again, and its refusals age it (R90, R120). -/
def execParkRetry (core req lane : Nat) (s : State) : Host.Outcome State Fault Refusal :=
  match (s.core core).req? req with
  | none => .next s
  | some q =>
    match q.accs.findIdx? fun a => a.lane == lane && a.st == .refused with
    | none => .next s
    | some i => .next ((s.takeMiss core req i).attempt core req i)

/-! ### Engines and buffers -/

/-- The Dray lands the next piece of a copy. -/
def execDraySectorLand (core req : Nat) (s : State) : Host.Outcome State Fault Refusal :=
  s.eventOn core req 0 fun k => k == .tcopy

/-- An entry of the combining buffer drains 500 ns after its allocation (R132). -/
def execCombineDrainTimeout (core idx : Nat) (s : State) : Host.Outcome State Fault Refusal :=
  match (s.core core).comb[idx]? with
  | none => .next s
  | some e => .next (s.drainInOrder core e)

/-- A group has stalled for 1 ms at a store on a full hold buffer (R101). -/
def execHoldStall (core slot : Nat) (s : State) : Host.Outcome State Fault Refusal :=
  match s.group? core slot with
  | none => .next s
  | some g =>
    match g.stalled.bind fun x => s.acc? core x.1 x.2 with
    | none => .next s
    | some (q, a) =>
      if (s.part g.part).hold.length < Config.holdEntries then .next s
      else
        let s := s.record g.part
          { org := q.origin (lowest q.mask), cause := 0x2B, va := a.va, easid := easidOf g.asid a.va,
            detail := (s.part g.part).hold.length }
        .next (s.setPreg g.part 0x2100 (s.preg g.part 0x2100 ||| 2 ^ 16))

/-- An engine that has written a sector answers its recall (R117). -/
def execEngineRecall (part easid va : Nat) (s : State) : Host.Outcome State Fault Refusal :=
  let t := sectorTag part easid va
  if s.claimed t || (s.copies t).all (fun c => decide (c.holder < 8)) then .next s else .next (s.cleanSector t)

/-- Evicting a directory entry recalls every copy of its line; an engine's unwritten sector holds it (R116). -/
def execDirectoryEviction (part easid va : Nat) (s : State) : Host.Outcome State Fault Refusal :=
  let ts := lineTags part easid va
  if ts.any s.claimed then .next s
  else .next (ts.foldl (fun s t =>
    if (s.copies t).any fun c => c.st == .sealed then s else s.recall t) s)

/-! ### Carving (R110) -/

/-- Scratchpad ways become L1 in ascending order, up to a held one or the target. -/
def Core.growL1 (k : Core) : Nat → Core
  | 0 => k
  | n + 1 =>
    let held := k.holders ++ (match k.save with
      | none => []
      | some i => i.holders)
    if k.carve < k.target ∧ (held.any fun h => h.1 == k.carve) = false then
      ({ k with carve := k.carve + 1, ways := k.ways.filter fun x => decide (x.1 / Config.wayBytes ≠ k.carve) } : Core).growL1 n
    else k

/-- The leaving ways of the L1 are written back and emptied, and the count falls when the last is; or the count grows by the
ways that may convert now. -/
def State.convertWay (s : State) (c : Nat) : State :=
  let k := s.core c
  if k.target < k.carve then
    let n := k.target
    let s := s.flushWhere c fun _ x => decide (n ≤ x.way)
    s.modCore c fun k =>
      let l1 := k.l1.filter fun x => decide (x.2.way < n) || x.2.dirty != 0
      if l1.any fun x => decide (n ≤ x.2.way) then { k with l1 := l1 }
      else
        { k with
          carve := n, l1 := l1,
          ways := k.ways.filter fun x => decide (x.1 / Config.wayBytes < n ∨ k.carve * Config.wayBytes ≤ x.1) }
  else s.modCore c fun k => k.growL1 8

/-- `CARVE`s complete where the count has reached their target, or another target has replaced it. -/
def State.settleCarves (s : State) (c : Nat) : State :=
  let k := s.core c
  (k.reqs.filter fun q => q.kind == .carve && (k.carve == k.target || q.n != k.target)).foldl
    (fun s q => s.complete c q.id) s

def execWayConvert (core : Nat) (s : State) : Host.Outcome State Fault Refusal :=
  .next ((s.convertWay core).settleCarves core)

end Sys2Proof.Machine
end

