-- ==== Sys2Proof/Machine/Legal.lean ====
section
/-! DEFINITION. The word that the issue stage executes next: its fetch, its decoding, and the ILLEGAL words that
depend on the issuing group, on its place in the clause, or on reduced service (R40, R48, R55, R382). -/

namespace Sys2Proof.Machine

/-- Floating types that reduced service does not have (R382). -/
def Ty.fullOnly : Ty → Bool
  | .f16 | .e4m3 | .e5m2 | .tf8 | .tf6 | .e8m0 => true
  | _ => false

/-- The type codes of a word of OP 0x20-0x34, 0x38 or 0x40-0x45, and the format that an `OBRES` names. -/
def wordTypes : Instr → List Ty
  | .fadd x | .fsub x | .fmul x | .fmin x | .fmax x | .fscl x | .unpack x | .qcvt x | .xpull x | .xpush x | .xbcast x
  | .obres x => [x.ty]
  | .faddImm x | .fsubImm x | .fmulImm x | .fminImm x | .fmaxImm x => [if x.w then .f16 else .f32]
  | .ffma x | .fdot2 x | .pack x => [x.ty]
  | .ffmaImm x => [if x.w then .f16 else .f32]
  | .fabs x | .fneg x | .fclass x | .frnd x | .okey x | .keyf x | .bscale x | .matchLanes x => [x.ty]
  | .cvt x sty => [x.ty, sty]
  | .fsetp x => [x.ty]
  | .redg x | .scang x | .scangEx x => [x.ty]
  | _ => []

/-- Whether a decoded word is legal where it stands: `lim` is the group's register count, `last` says that it is its
clause's last word, `full` that the chip is in full service. -/
def legalAt (full : Bool) (lim : Nat) (last : Bool) (i : Instr) : Bool :=
  i.wfAt lim && (last || !i.terminator) && (full || !(wordTypes i).any Ty.fullOnly)

/-- What the issue stage finds at the PC of the gang it has chosen. -/
inductive Found where
  | nothing
  | word (i : Instr)
  | bad (cause : Nat)
  | miss (tag : Nat)
  | fatal
deriving DecidableEq, Repr

/-- The word of a gang. Its groups share address space and register count, so the first speaks for all. -/
def State.found (s : State) : Found :=
  match s.gang? with
  | none => .nothing
  | some (c, _, _, ga) =>
    match ga.members with
    | [] => .nothing
    | m :: _ =>
      match s.group? c m.1 with
      | none => .nothing
      | some g =>
        match s.fetch c g.part g.asid ga.pc with
        | .bad n => .bad n
        | .miss t => .miss t
        | .fatal => .fatal
        | .ok w =>
          match decode w.toNat with
          | .error _ => .bad 0x01
          | .ok i => if legalAt s.full g.regs (decide (ga.idx + 1 = ga.len)) i then .word i else .bad 0x01

/-- A word that is not executed: it traps for every group of the gang, waits for its page, or ends the groups of a
torn-down address space. -/
def issueBad (cause : Nat) : State → Host.Outcome State Fault Refusal :=
  issueWord always false fun x _ => .trap { cause := cause, lane := lowest x.lanes }

def issueMiss (tag : Nat) : State → Host.Outcome State Fault Refusal :=
  issueWord always false fun _ _ => .hold [tag]

def issueFatal : State → Host.Outcome State Fault Refusal :=
  issueWord always false fun _ _ => .fatal

end Sys2Proof.Machine
end

