-- ==== Sys2Proof/Machine/Settle.lean ====
section
/-! DEFINITION. Words that complete when a condition holds: fences (R159, R166, R184), `ACQR` (R114, R167), sealing and
unsealing (R118, R119, R169), harvests (R78, R328), and gossip fences and steps (R148, R151). Each is tried at its issue
and again whenever its core issues. -/

namespace Sys2Proof.Machine

/-! ### Page ranges -/

/-- The start of a range word; its access may stand at a page that faulted. -/
def Req.start (q : Req) : Nat := (q.words.getD 0 0).toNat

/-- Pages of a range word. -/
def Req.pages (q : Req) : List Nat := (List.range q.n).map fun i => q.start / 65536 * 65536 + 65536 * i

/-- Whether an address lies in the range of a request. -/
def Req.covers (q : Req) (part easid va : Nat) : Bool :=
  q.idn.part == part && easidOf q.idn.asid va == easid && decide (q.start / 65536 ≤ va / 65536) &&
    decide (va / 65536 < q.start / 65536 + q.n)

/-- Whether fills of a page wait: a `SEAL` or `UNSEAL` of it is under way (R118, R119). -/
def State.sealing (s : State) (part easid va : Nat) : Bool :=
  s.cores.any fun k => k.2.reqs.any fun q => (q.kind == .seal || q.kind == .unseal) && q.started && q.covers part easid va

/-- Tags of the sectors that caches and engines hold in a range of a partition. -/
def State.tagsIn (s : State) (hit : Nat → Nat → Nat → Bool) : List Nat :=
  (s.cached.map (·.1)).filter fun t => hit (tagPart t) (tagEasid t) (tagVa t)

/-- Drop PLB entries in a range from every core. -/
def State.dropPlb (s : State) (hit : Nat → Nat → Nat → Bool) : State :=
  let out (e : Nat × PlbEnt) : Bool := hit (e.1 / 2 ^ 40 / 4096) (e.1 / 2 ^ 40 % 4096) (e.1 % 2 ^ 40 * 65536)
  { s with cores := s.cores.map fun (k : Nat × Core) => (k.1, { k.2 with plb := k.2.plb.filter fun e => !(out e) }) }

/-- Stores and atomics in a range that have passed their checks and have not performed. -/
def Req.openIn (q : Req) (hit : Nat → Nat → Nat → Bool) (a : Acc) : Bool :=
  (q.kind.store || q.kind == .atom || q.kind == .fatom) && a.space == .glb && !a.finished && a.st != .port &&
    hit q.idn.part (easidOf q.idn.asid a.va) a.va

/-- Perform what can be performed of the stores in a range: pending ones are tried, bytes in the L1s are written back. -/
def State.performIn (s : State) (hit : Nat → Nat → Nat → Bool) : State :=
  s.cores.foldl (fun s k =>
    let s := k.2.reqs.foldl (fun s q =>
      q.accs.zipIdx.foldl (fun s b => if q.openIn hit b.1 then s.attempt k.1 q.id b.2 else s) s) s
    ((s.core k.1).l1.filter fun x => x.2.dirty != 0 && hit (tagPart x.1) (tagEasid x.1) (tagVa x.1)).foldl
      (fun s x => s.writeBackInOrder k.1 x.1) s) s

/-- Whether a copy that has passed its checks has still to write in a range. -/
def Req.copiesIn (q : Req) (hit : Nat → Nat → Nat → Bool) : Bool :=
  let mine (va : Nat) : Bool := hit q.idn.part (easidOf q.idn.asid va) va
  match q.kind with
  | .tcopy => q.accs.any (fun a => !a.finished) && ((tileOf q.words).sectors q.n).any mine
  | .fget => q.accs.any fun a => a.space == .glb && !a.finished && mine a.va
  | _ => false

/-- Whether a store to a range has still to perform or to be written back, an engine has still to write there. -/
def State.busyIn (s : State) (hit : Nat → Nat → Nat → Bool) : Bool :=
  (s.cores.any fun k =>
    (k.2.reqs.any fun q => q.copiesIn hit || q.accs.any (q.openIn hit)) ||
      k.2.l1.any fun x => x.2.dirty != 0 && hit (tagPart x.1) (tagEasid x.1) (tagVa x.1)) ||
    (s.tagsIn hit).any s.claimed

/-! ### Leaves in memory -/

/-- Change the leaf of a mapped page, in its table and in its home's TLB. -/
def State.setLeaf (s : State) (part easid va : Nat) (f : Word → Word) : State :=
  let s := match s.reach part easid va with
    | (s, .leaf e pa) => if e.getLsbD 63 then s.poke64 pa (f e) else s
    | (s, _) => s
  { s with tlb := AMap.upd s.tlb (pageTag part easid va) fun t => { t with leaf := f t.leaf } }

def setBit (b : Nat) (v : Bool) (w : Word) : Word := if v then w ||| (1#64 <<< b) else w &&& ~~~(1#64 <<< b)

/-- Whether a translation is of a page in a range. -/
def tlbHits (hit : Nat → Nat → Nat → Bool) (x : Nat × TlbEnt) : Bool :=
  let y := tagOfPage x.1
  hit y.1 y.2.1 y.2.2

/-- Dirty bits of a range reach the leaves (R78). -/
def State.writeDirty (s : State) (hit : Nat → Nat → Nat → Bool) : State :=
  (s.tlb.filter fun x => tlbHits hit x && x.2.dirty).foldl (fun s x =>
    let y := tagOfPage x.1
    s.setD y.1 y.2.1 y.2.2) s

/-- The translations of a range leave their homes (R73). -/
def State.dropTlb (s : State) (hit : Nat → Nat → Nat → Bool) : State :=
  { s with tlb := s.tlb.filter fun x => !tlbHits hit x }

/-- The dirty bits of a range's translations are cleared (R78). -/
def State.clearDirty (s : State) (hit : Nat → Nat → Nat → Bool) : State :=
  { s with tlb := s.tlb.map fun (x : Nat × TlbEnt) => if tlbHits hit x then (x.1, { x.2 with dirty := false }) else x }

/-! ### `SEAL`, `UNSEAL`, `HARVEST` -/

/-- A full L1 copy of a sector as its home holds it. -/
def State.freshL1 (s : State) (t : Nat) (x : L1Sec) : Bool :=
  match s.leafOf (tagPart t) (tagEasid t) (tagVa t) with
  | .leaf e _ =>
    let c := s.sector (leafLoc (tagPart t) (tagEasid t) (tagVa t) e)
    x.full && x.data == c.data && x.record == c.record && x.poison == c.poison
  | _ => false

/-- Step 4 of R118: S in the leaves, and every copy sealed. A copy in an L1 that is not the last write's goes, for no acquire
drops a sealed one (R345). -/
def State.sealRange (s : State) (q : Req) : State :=
  let hit := q.covers
  let s := q.pages.foldl (fun s va => s.setLeaf q.idn.part (easidOf q.idn.asid va) va (setBit 60 true)) s
  let s := (s.tagsIn hit).foldl (fun s t =>
    let s := s.cleanSector t
    s.setCopies t ((s.copies t).map fun c => { c with st := .sealed })) s
  let mark (x : Nat × L1Sec) : Option (Nat × L1Sec) :=
    if !hit (tagPart x.1) (tagEasid x.1) (tagVa x.1) then some x
    else if s.freshL1 x.1 x.2 then some (x.1, { x.2 with sealed := true }) else none
  { s with cores := s.cores.map fun (k : Nat × Core) => (k.1, { k.2 with l1 := k.2.l1.filterMap mark }) }

/-- The first step of R119: S leaves the leaves, and the permission entries of the range go. -/
def State.unsealLeaves (s : State) (q : Req) : State :=
  (q.pages.foldl (fun s va => s.setLeaf q.idn.part (easidOf q.idn.asid va) va (setBit 60 false)) s).dropPlb q.covers

/-- Its second: no cache or engine keeps a line of the range. -/
def State.unsealRange (s : State) (q : Req) : State :=
  let hit := q.covers
  let s := (s.tagsIn hit).foldl (fun s t => s.recall t) s
  let out (x : Nat × L1Sec) : Bool := hit (tagPart x.1) (tagEasid x.1) (tagVa x.1) && x.2.dirty == 0
  { s with cores := s.cores.map fun (k : Nat × Core) => (k.1, { k.2 with l1 := k.2.l1.filter fun x => !(out x) }) }

/-- Pages of a harvest that hold memory of the device. -/
def State.harvestHit (s : State) (q : Req) (part easid va : Nat) : Bool :=
  q.covers part easid va && !s.hostWindow part va &&
    (match s.leafOf part easid va with
      | .leaf e _ => !leafF e
      | _ => false)

/-- The first page of a range that the instruction may not use: a malformed leaf or a fabric window (R158). -/
def State.rangeFault (s : State) (q : Req) : Option (Nat × Nat) :=
  q.pages.findSome? fun va =>
    match s.resolve q.idn.part q.idn.asid va .noWindow with
    | .error n => if n = 0x08 ∨ n = 0x1D then some (va, n) else none
    | .ok _ => none

def State.settleRange (s : State) (c : Nat) (q : Req) : State :=
  match q.kind, if q.kind = .harvest then none else s.rangeFault q with
  | _, some (va, n) =>
    (s.modReq c q.id fun r => { (r.setAcc 0 fun a => { a with va := va }) with started := false }).fault c q.id 0
      { cause := n }
  | .seal, none =>
    let s : State := if q.started then s else (s.dropPlb q.covers).modReq c q.id fun r => { r with started := true }
    let s := s.performIn q.covers
    if s.busyIn q.covers then s else ((s.sealRange q).finishAcc c q.id 0 .done)
  | .unseal, none =>
    let s : State := if q.started then s else (s.unsealLeaves q).modReq c q.id fun r => { r with started := true }
    let s := s.performIn q.covers
    if s.busyIn q.covers then s else (s.unsealRange q).finishAcc c q.id 0 .done
  | .harvest, none =>
    let hit := s.harvestHit q
    if (s.tagsIn hit).any s.claimed then s
    else ((((s.tagsIn hit).foldl (fun s t => s.cleanSector t) s).writeDirty hit).clearDirty hit).finishAcc c q.id 0 .done
  | _, none => s

/-! ### Fences -/

/-- The strong reads of a request, with which a later fence acquires (R335). -/
def Req.strongRead (r : Req) : Bool :=
  match r.kind with
  | .ld => r.strong
  | .atom | .fatom | .ldg | .grd | .gread | .gspread | .waita | .acwait => true
  | _ => false

/-- Whether a strong read of the group ahead of a fence that acquires has still to return: the fence acquires what that read has
read (R335, log entry 114). -/
def Core.readsAhead (k : Core) (q : Req) : Bool :=
  (q.ord = .acq ∨ q.ord = .ar) && k.reqs.any fun r =>
    r.idn.gid == q.idn.gid && decide (r.id < q.id) && r.strongRead && r.accs.any fun a => !a.finished

/-- `FENCE`: its release part waits, its acquire part takes effect when it performs. -/
def State.settleFence (s : State) (c : Nat) (q : Req) : State :=
  match s.readyRelease c q with
  | (s, false) => s
  | (s, true) => if (s.core c).readsAhead q then s else (((s.released c q).acquired c q).complete c q.id)

/-- `ACQR`: the victim's dirty sectors when the request arrives go out, then the issuer acquires (R114). `rounds` lists
the sectors that have still to be written back. -/
def State.settleAcqr (s : State) (c : Nat) (q : Req) : State :=
  let v := q.n
  let (s, ts) : State × List Nat :=
    if q.started then (s, q.rounds.map (·.1))
    else
      let ts := ((s.core v).l1.filter fun x => x.2.dirty != 0).map (·.1)
      ((s.flushL1 v).modCore v Core.dropClean, ts)
  let s := if q.started then ts.foldl (fun s t => if ((s.core v).l1Sec t).dirty = 0 then s else s.writeBackInOrder v t) s else s
  let left := ts.filter fun t => ((s.core v).l1Sec t).dirty != 0
  if left = [] then (s.acquireL1 c).complete c q.id
  else s.modReq c q.id fun r => { r with started := true, rounds := left.map fun t => (t, 0, 0) }

/-- Whether an access is a request of the fabric that is neither acknowledged nor failed (R184). -/
def State.onFabric (s : State) (q : Req) (a : Acc) : Bool :=
  !a.finished &&
    (match q.kind with
      | .fput | .fget | .fatom => true
      | _ =>
        match a.st with
        | .comb => true
        | .sent id => s.net.any fun r => r.id == id
        | _ =>
          a.space == .glb && !q.kind.engine &&
            (match s.resolve q.idn.part q.idn.asid a.va .either with
              | .ok (.window _ _) => true
              | _ => false))

def State.settleFfence (s : State) (c : Nat) (q : Req) : State :=
  let mine (e : CombEnt) : Bool := e.who.any fun w =>
    match (s.core c).req? w.1 with
    | some r => r.idn.gid == q.idn.gid
    | none => false
  let s := s.drainWhere c mine
  if ((s.core c).reqs.any fun r => r.idn.gid == q.idn.gid && decide (r.id < q.id) && r.accs.any (s.onFabric r)) then s
  else s.complete c q.id

/-- Try to complete a request that waits for a condition. -/
def State.settleReq (s : State) (c : Nat) (q : Req) : State :=
  if q.accs.any (fun a => a.st == .withdrawn || a.st == .logged) then s
  else
    match q.kind with
    | .fence => s.settleFence c q
    | .acqr => s.settleAcqr c q
    | .ffence => s.settleFfence c q
    | .gfence => s.settleGfence c q
    | .gstep => s.settleGander q.idn.part
    | .seal | .unseal | .harvest => s.settleRange c q
    | _ => s

/-- The oldest dirty sectors of an L1 leave while few store-buffer entries are free (R111), or while a word that is held at
issue may want them. -/
def State.relieve (s : State) (c : Nat) : Nat → State
  | 0 => s
  | n + 1 =>
    let k := s.core c
    let held := k.table.any fun e => match e.2.gang with
      | some g => g.held.isSome
      | none => false
    if Config.storeBuffer < sbUsed k + Config.relieveAt ∨ held = true then
      match k.dirtySectors fun _ _ => true with
      | [] => s
      | t :: _ => (s.writeBackInOrder c t).relieve c n
    else s

/-- Store requests whose bytes have all left the L1 or the combining buffer are gone. -/
def State.dropFinished (s : State) (c : Nat) : State :=
  (s.core c).reqs.foldl (fun s q => if q.kind.store && q.allFinished then s.complete c q.id else s) s

/-- A stall ends with its access: gone, logged, withdrawn, or on its way (R101). -/
def State.stallEnds (s : State) (c : Nat) (x : Nat × Nat) : Bool :=
  match ((s.core c).req? x.1).bind fun q => q.accs[x.2]? with
  | none => true
  | some a => a.st != .waiting

/-- A core's waiting words, and a store stalled on the hold buffer, are tried again. -/
def State.settleCore (s : State) (c : Nat) : State :=
  let s := (s.dropFinished c).feedAged Config.agedEntries c
  let s := (s.core c).reqs.foldl (fun s q =>
    match (s.core c).req? q.id with
    | some q => s.settleReq c q
    | none => s) s
  let s := (s.core c).groups.foldl (fun s g =>
    match g.2.stalled with
    | some x =>
      let s := s.attempt c x.1 x.2
      if s.stallEnds c x then s.modGroup c g.1 fun g => { g with stalled := none } else s
    | none => s) s
  (s.settleCarves c).relieve c 128

end Sys2Proof.Machine
end

