-- ==== Sys2Proof/Machine/Memory.lean ====
section
/-! DEFINITION. The issue of memory words (R152-R185, R261, R269, R328): operands and addresses, precise checks, and the
requests that each word puts out. -/

namespace Sys2Proof.Machine

/-- A memory word before its issue, over the lanes that it acts in: the sources it reads, the accesses it checks, the lane
of a broken descriptor, checks of its own behind R156's, the request of a half of the issue, the registers it writes, and
what it does at once. `ordered` says that it waits behind the group's acquires (R159). -/
structure MemWord where
  fb : Bool
  srcs : List (Nat × Src)
  group : Bool := false
  ordered : Bool := true
  scope : Scope := .dev
  early : Ctx → State → Group → List Nat → Option TrapInfo := fun _ _ _ _ => none
  touches : Ctx → State → Group → List Nat → List Touch := fun _ _ _ _ => []
  desc : Ctx → State → Group → List Nat → Option Nat := fun _ _ _ _ => none
  more : Ctx → State → Group → List Nat → Option WRes := fun _ _ _ _ => none
  req : Ctx → State → Group → Mask → Req
  keys : Mask → List Nat := fun _ => []
  start : Ctx → State → List Nat → State := fun _ s _ => s

/-- Requests put out since a number. -/
def Core.since (k : Core) (n : Nat) : List Nat := (k.reqs.filter fun q => decide (n ≤ q.id)).map (·.id)

/-- The halves of a word issue in turn, as far as the store buffer has room for them (R84, R282); those that are left. -/
def issueHalves (w : MemWord) (x : Ctx) (g : Group) : List Mask → State → State × List Mask
  | [], s => (s, [])
  | m :: ms, s =>
    let q := w.req x s g m
    if w.ordered && !(s.core x.core).roomFor (q.entries fun _ => true) then (s, m :: ms)
    else
      match s.countHalf x w.fb m q (w.keys m) with
      | none => (s, m :: ms)
      | some s' => issueHalves w x g ms (w.start x s' ((s'.core x.core).since s.next))

/-- The issue of a memory word. Where only its first half finds room, the lanes of the other stay at the word. -/
def memWord (gd : Guard) (w : MemWord) : State → Host.Outcome State Fault Refusal :=
  issueWord gd true fun x s => onGroup x s fun g =>
    let y := { x with act := x.act &&& ~~~g.spawned }
    if x.act = 0 then .ok s
    else if w.ordered && !(s.core x.core).mayIssue g.gid then .hold []
    else
      let lanes := if w.group then y.leads.map (·.1) else y.active
      match w.early y s g lanes <|> g.poisonTrap lanes w.srcs with
      | some t => .trap t
      | none =>
        match s.check y g w.scope (w.touches y s g lanes) (w.desc y s g lanes) <|> w.more y s g lanes with
        | some r => r
        | none =>
          if (g.count (x.setFlag w.fb) y.parts.length).isNone then .hold []
          else
            match issueHalves w x g y.parts s with
            | (s', []) => .ok (s'.closeWord x)
            | (s', left) =>
              if left.length = y.parts.length then .hold []
              else
                let done := y.act &&& ~~~(left.foldl (· ||| ·) 0)
                .part (s'.modGroup x.core x.slot fun g => { g with spawned := g.spawned ||| done })

/-! ### Starting requests -/

/-- Stores, cache operations and tests of arrival records are tried at once, in order. -/
def startStores (x : Ctx) (s : State) (ids : List Nat) : State :=
  (ids.foldl (fun s id => s.attemptReq x.core id) s).relieve x.core 128

/-- Loads that miss the L1 look for miss entries (R120). -/
def startLoads (x : Ctx) (s : State) (ids : List Nat) : State :=
  ids.foldl (fun s id =>
    match (s.core x.core).req? id with
    | none => s
    | some q => (List.range q.accs.length).foldl (fun s i =>
        match q.accs[i]? with
        | some a => (match a.st with
          | .rejected _ => s.takeMiss x.core id i
          | _ => s)
        | none => s) s) s

/-- Words that complete by a condition are tried at once. -/
def startSettle (x : Ctx) (s : State) (ids : List Nat) : State :=
  ids.foldl (fun s id =>
    match (s.core x.core).req? id with
    | none => s
    | some q => s.settleReq x.core q) s

/-! ### Accesses of lanes -/

/-- The address of an access as the core keeps it: a scratchpad access by its place. -/
def State.spotOf (s : State) (x : Ctx) (g : Group) (sp : Space) (ea size : Nat) : Nat :=
  match sp with
  | .glb => ea
  | _ => (s.place x.core g sp ea size).getD 0

/-- Where an access that reads through the L1 begins: at the L1, or looking for a miss entry (R120). -/
def firstSt (k : Core) (g : Group) (bypass : Bool) (sp : Space) (ea size : Nat) : AccSt :=
  let tag := sectorTag g.part (easidOf g.asid ea) ea
  if sp == .glb && (bypass || !k.l1Hit tag ea size) then .rejected 0 else .waiting

/-- Accesses of a store: one for each sector that the lanes write, the highest lane's byte remaining (R163, R164). -/
def sectorAccs (sp : Space) (size : Nat) (l : List (Nat × Nat × Nat)) : List Acc :=
  l.foldl (fun (acc : List Acc) (e : Nat × Nat × Nat) =>
    let va := e.2.1
    let m := byteMask va size
    let d := placeBytes va size e.2.2
    if acc.any fun a => a.va / 64 == va / 64 then
      acc.map fun a =>
        if a.va / 64 = va / 64 then
          { a with mask := a.mask ||| m, data := mergeSector a.data d m, wrote := a.wrote ++ [(e.1, m)] }
        else a
    else acc ++ [{ lane := e.1, space := sp, va := va, size := size, mask := m, data := d, wrote := [(e.1, m)] }]) []

/-! ### Loads and stores -/

def touchAll (x : Ctx) (g : Group) (sp : Space) (m : Addr) (size : Nat) (r w : Bool) (cls : Nat → Bool)
    (lanes : List Nat) : List Touch :=
  lanes.map fun l => { lane := l, space := sp, va := x.ea g sp m size l, size := size, r := r, w := w, cls := cls }

def ldMem (y : LdArgs) : MemWord :=
  let n := y.size.bytes
  let sx := y.size == .s8 || y.size == .s16
  { fb := y.fb, srcs := addrSrcs y.space y.m, scope := y.scope,
    touches := fun x _ g => touchAll x g y.space y.m n true false clsLoad,
    keys := dstKeys y.d (max 32 (8 * n)),
    req := fun x s g m =>
      let q : Req := { kind := .ld, size := n, sx := sx, dst := some y.d, strong := y.strong, ord := y.ord, scope := y.scope,
                       space := y.space, mask := m }
      let wide := wideScope (s.run g.run).paired y.scope && y.strong
      { q with accs := (lanesOf m).map fun l =>
          let ea := x.ea g y.space y.m n l
          { lane := l, space := y.space, va := s.spotOf x g y.space ea n, size := n,
            st := firstSt (s.core x.core) g wide y.space ea n } },
    start := startLoads }

def execLd (y : LdArgs) : State → Host.Outcome State Fault Refusal := memWord y.g (ldMem y)

def stMem (y : StArgs) : MemWord :=
  let n := y.size.bytes
  { fb := y.fb, srcs := (8 * n, y.d) :: addrSrcs y.space y.m, scope := y.scope,
    touches := fun x _ g => touchAll x g y.space y.m n false true clsOrdinary,
    req := fun x s g m =>
      { kind := .st, size := n, strong := y.strong, ord := y.ord, scope := y.scope, space := y.space,
        accs := sectorAccs y.space n ((lanesOf m).map fun l =>
          (l, s.spotOf x g y.space (x.ea g y.space y.m n l) n, x.val g (loadTy n false) l y.d)) },
    start := startStores }

def execSt (y : StArgs) : State → Host.Outcome State Fault Refusal := memWord y.g (stMem y)

/-! ### Atomics (R165, R183) -/

/-- The type in which an atomic reads its operands. -/
def atomIn (fn : AtomFn) (size : Nat) : Ty := if fn = .fadd then .f32 else atomTy size

def atomMem (y : AtomArgs) (size : Nat) (kind : ReqKind) : MemWord :=
  let w := 8 * size
  let m : Addr := { a := y.a, b := none, off := y.off }
  let ty := atomIn y.fn size
  { fb := y.fb,
    srcs := (w, y.b) :: (if y.fn = .cas then [(w, dstSrc y.d)] else []) ++ addrSrcs y.space m,
    scope := y.scope,
    touches := fun x _ g => touchAll x g y.space m size true true clsOrdinary,
    keys := dstKeys y.d w,
    req := fun x s g h =>
      { kind := kind, size := size, dst := some y.d, strong := true, ord := y.ord, scope := y.scope, space := y.space,
        fn := y.fn, mask := h,
        accs := (lanesOf h).map fun l =>
          let ea := x.ea g y.space m size l
          { lane := l, space := y.space, va := s.spotOf x g y.space ea size, size := size,
            data := BitVec.ofNat 512 (x.val g ty l y.b),
            cmp := if y.fn = .cas then BitVec.ofNat 64 (x.val g ty l (dstSrc y.d)) else 0,
            st := if kind = .fatom then .waiting
              else firstSt (s.core x.core) g (wideScope (s.run g.run).paired y.scope) y.space ea size } },
    start := startLoads }

def atomWord (y : AtomArgs) (size : Nat) (kind : ReqKind) : State → Host.Outcome State Fault Refusal :=
  memWord y.g (atomMem y size kind)

def execAtom32 (y : AtomArgs) := atomWord y 4 .atom
def execAtom64 (y : AtomArgs) := atomWord y 8 .atom
def execFatom32 (y : AtomArgs) := atomWord y 4 .fatom
def execFatom64 (y : AtomArgs) := atomWord y 8 .fatom

/-! ### Fences and caches -/

def fenceMem (y : FenceArgs) : MemWord :=
  { fb := y.fb, srcs := [], group := true, scope := y.scope,
    req := fun _ _ _ m => { kind := .fence, ord := y.ord, scope := y.scope, mask := m }, start := startSettle }

def execFence (y : FenceArgs) : State → Host.Outcome State Fault Refusal := memWord y.g (fenceMem y)

def acqrMem (y : FenceArgs) : MemWord :=
  let victim (x : Ctx) (g : Group) (l : Nat) : Nat := x.value g 32 l y.a
  { fb := y.fb, srcs := [(32, y.a)], group := true, scope := y.scope,
    more := fun x s g lanes =>
      (lanes.find? fun l => !s.inPart g.part (victim x g l)).map fun l => .trap { cause := 0x03, lane := l },
    req := fun x _ g m =>
      { kind := .acqr, ord := .acq, scope := y.scope, mask := m, n := victim x g (lowest m) },
    start := startSettle }

def execAcqr (y : FenceArgs) : State → Host.Outcome State Fault Refusal := memWord y.g (acqrMem y)

def cacheMem (y : CacheArgs) (kind : ReqKind) : MemWord :=
  { fb := y.fb, srcs := addrSrcs .glb y.m, scope := y.scope,
    touches := fun x _ g => touchAll x g .glb y.m 1 true false clsLoad,
    req := fun x _ g m =>
      { kind := kind, size := 1, scope := y.scope, mask := m,
        accs := (lanesOf m).map fun l => { lane := l, va := x.ea g .glb y.m 1 l, size := 1 } },
    start := startStores }

def cacheWord (y : CacheArgs) (kind : ReqKind) : State → Host.Outcome State Fault Refusal :=
  memWord y.g (cacheMem y kind)

def execCflush (y : CacheArgs) := cacheWord y .cflush
def execCinv (y : CacheArgs) := cacheWord y .cinv

/-! ### Page ranges (R169, R328) -/

/-- A range whose start or count breaks its limits. -/
def rangeBad (va n : Nat) : Bool :=
  va % 65536 != 0 || decide (n < 1) || decide (65536 < n) ||
    (isLarge va && (va % 2 ^ 21 != 0 || (va + 65536 * n) % 2 ^ 21 != 0))

def rangeReq (y : RangeArgs) (kind : ReqKind) (x : Ctx) (g : Group) (m : Mask) : Req :=
  let l := lowest m
  let va := x.ea g .glb y.m 1 l
  { kind := kind, mask := m, n := x.value g 32 l y.d, words := [BitVec.ofNat 64 va], accs := [{ lane := l, va := va, size := 1 }] }

def rangeDesc (y : RangeArgs) (x : Ctx) (_ : State) (g : Group) (lanes : List Nat) : Option Nat :=
  lanes.find? fun l => rangeBad (x.ea g .glb y.m 1 l) (x.value g 32 l y.d)

/-- The pages of a range, each to be mapped and to grant W; of an empty one, a start that is no address. -/
def sealTouches (y : RangeArgs) (x : Ctx) (_ : State) (g : Group) (lanes : List Nat) : List Touch :=
  lanes.flatMap fun l =>
    let va := x.ea g .glb y.m 1 l
    let n := x.value g 32 l y.d
    (List.range (if n = 0 ∧ isCanonical va = false then 1 else min 65536 n)).map fun i =>
      { lane := l, space := .glb, va := va + 65536 * i, size := 1, r := false, w := true, cls := clsSeal, store := false }

def sealMem (y : RangeArgs) (kind : ReqKind) : MemWord :=
  { fb := y.fb, srcs := (32, y.d) :: addrSrcs .glb y.m, group := true,
    touches := sealTouches y, desc := rangeDesc y,
    req := fun x _ g m => rangeReq y kind x g m, start := startSettle }

def sealWord (y : RangeArgs) (kind : ReqKind) : State → Host.Outcome State Fault Refusal :=
  memWord y.g (sealMem y kind)

def execSeal (y : RangeArgs) := sealWord y .seal
def execUnseal (y : RangeArgs) := sealWord y .unseal

/-- `HARVEST` needs no permission and skips what is unmapped; only its start is checked. -/
def harvestMem (y : RangeArgs) : MemWord :=
  { fb := y.fb, srcs := (32, y.d) :: addrSrcs .glb y.m, group := true, ordered := false,
    more := fun x s g lanes =>
      (firstLane lanes (fun l => !isCanonical (x.ea g .glb y.m 1 l)) 0x04 <|>
        (rangeDesc y x s g lanes).map fun l => ({ cause := 0x0B, lane := l } : TrapInfo)).map .trap,
    req := fun x _ g m => rangeReq y .harvest x g m, start := startSettle }

def execHarvest (y : RangeArgs) : State → Host.Outcome State Fault Refusal := memWord y.g (harvestMem y)

/-! ### Carving (R110, R170) -/

/-- A core's target changes, which abandons the `CARVE`s that wait for another. -/
def State.setTarget (s : State) (c n : Nat) : State := (s.modCore c fun k => { k with target := n }).settleCarves c

def carveMem (y : CountArgs) : MemWord :=
  { fb := y.fb, srcs := [], group := true,
    req := fun _ _ _ m => { kind := .carve, n := y.n.val, mask := m, accs := [{ lane := lowest m, space := .loc }] },
    start := fun x s ids =>
      let older := (s.core x.core).reqs.filter fun q => q.kind == .carve && !ids.contains q.id
      let s := older.foldl (fun s q => s.complete x.core q.id) s
      let s := (ids.dropLast).foldl (fun s id => s.complete x.core id) s
      s.setTarget x.core y.n.val }

def execCarve (y : CountArgs) : State → Host.Outcome State Fault Refusal := memWord y.g (carveMem y)

/-! ### Waiting and probing (R171, R172) -/

def waitaMem (y : WaitArgs) : MemWord :=
  let m : Addr := { a := y.a, b := none, off := y.off }
  { fb := y.fb, srcs := (64, y.b) :: addrSrcs y.space m, scope := y.scope,
    touches := fun x _ g => touchAll x g y.space m 8 true false clsOrdinary,
    more := fun x s _ lanes =>
      let used := (s.core x.core).reqs.foldl (fun n q =>
        if q.kind = .waita then n + (q.accs.filter fun a => !a.finished).length else n) 0
      if Config.watches < used + lanes.length then some (.hold []) else none,
    keys := dstKeys y.d 64,
    req := fun x s g h =>
      { kind := .waita, size := 8, dst := some y.d, strong := true, ord := .acq, scope := y.scope, space := y.space,
        mask := h,
        accs := (lanesOf h).map fun l =>
          let ea := x.ea g y.space m 8 l
          { lane := l, space := y.space, va := s.spotOf x g y.space ea 8, size := 8,
            cmp := BitVec.ofNat 64 (x.value g 64 l y.b),
            st := firstSt (s.core x.core) g (wideScope (s.run g.run).paired y.scope) y.space ea 8 } },
    start := startLoads }

def execWaita (y : WaitArgs) : State → Host.Outcome State Fault Refusal := memWord y.g (waitaMem y)

def probeMem (y : ReadArgs) : MemWord :=
  { fb := y.fb, srcs := addrSrcs y.space y.m, keys := dstKeys y.d 32,
    req := fun x s g m =>
      { kind := .probe, size := 1, dst := some y.d, space := y.space, mask := m,
        accs := (lanesOf m).map fun l =>
          let ea := x.ea g y.space y.m 1 l
          match y.space with
          | .glb => { lane := l, va := ea, size := 1 }
          | sp => { lane := l, space := sp, va := s.spotOf x g sp ea 1, size := 1, got := (s.place x.core g sp ea 1).isSome } } }

def execProbe (y : ReadArgs) : State → Host.Outcome State Fault Refusal := memWord y.g (probeMem y)

/-! ### Tile copies (R173-R175) -/

/-- Scalars of a descriptor. -/
def descSrcs (sn : Fin 64) (n : Nat) : List (Nat × Src) := (List.range n).map fun i => (64, Src.s (sn + Fin.ofNat 64 i))
def Ctx.descWords (x : Ctx) (g : Group) (sn : Fin 64) (n l : Nat) : List Word :=
  (descSrcs sn n).map fun y => BitVec.ofNat 64 (x.value g 64 l y.2)

/-- Checks of one side of a row. -/
def rowTouch (l : Nat) (sp : Space) (va len : Nat) (w : Bool) (cls : Nat → Bool) : List Touch :=
  let unit := match sp with | .glb => Config.pageBytes | _ => Config.wayBytes
  (blocks va len unit).map fun a => { lane := l, space := sp, va := a, size := 1, r := !w, w := w, cls := cls }

def tileTouches (l : Nat) (t : Tile) : List Touch :=
  ((List.range t.rows).flatMap fun r =>
    let n := r * (t.rowb / 32)
    rowTouch l .glb (t.mem n) t.rowb t.toMem (if t.toMem then clsOrdinary else clsLoad) ++
      rowTouch l .clu (t.pad n) t.rowb false clsOrdinary) ++
  if t.silent then [] else [{ lane := l, space := .clu, va := t.naddr, size := 1, r := false, w := true, cls := clsOrdinary }]

/-- Copies that a cluster's Dray has in its queue. -/
def State.drayLoad (s : State) (cl : Nat) : Nat :=
  (s.cores.filter fun k => clusterOf k.1 == cl).foldl (fun n k =>
    n + (k.2.reqs.filter fun q => q.kind == .tcopy && q.accs.any fun a => !(a.st == .logged || a.finished)).length) 0

def tcopyMem (y : DescArgs) : MemWord :=
  { fb := y.fb, srcs := descSrcs y.sn 6, group := true,
    touches := fun x _ g lanes => lanes.flatMap fun l => tileTouches l (tileOf (x.descWords g y.sn 6 l)),
    desc := fun x _ g lanes => lanes.find? fun l => tileBad (x.descWords g y.sn 6 l),
    more := fun x s _ lanes =>
      if Config.drayQueue < s.drayLoad (clusterOf x.core) + lanes.length then some (.hold []) else none,
    req := fun x _ g m =>
      let l := lowest m
      let ws := x.descWords g y.sn 6 l
      { kind := .tcopy, size := 4, scope := .clu, mask := m, words := ws,
        accs := [{ lane := l, va := (tileOf ws).mem 0, size := 32 }] },
    start := fun x s ids => ids.foldl (fun s id => s.retake x.core id) s }

def execTcopy (y : DescArgs) : State → Host.Outcome State Fault Refusal := memWord y.g (tcopyMem y)

/-! ### Graded words (R176-R178) -/

def ldgMem (y : LdgArgs) : MemWord :=
  let n := y.width.bytes
  { fb := y.fb, srcs := addrSrcs .glb y.m,
    touches := fun x _ g => touchAll x g .glb y.m n true false clsGraded,
    keys := dstKeys y.d (8 * n),
    req := fun x _ g m =>
      { kind := .ldg, size := n, dst := some y.d, pd := y.pd.val, strong := true, grade := y.grade, nowait := y.nowait,
        mask := m,
        accs := (lanesOf m).map fun l => { lane := l, va := x.ea g .glb y.m n l, size := n, st := .rejected 0 } },
    start := startLoads }

def execLdg (y : LdgArgs) : State → Host.Outcome State Fault Refusal := memWord y.g (ldgMem y)

def gstoreMem (y : StgArgs) (kind : ReqKind) : MemWord :=
  let n := y.width.bytes
  { fb := y.fb, srcs := (8 * n, y.d) :: addrSrcs .glb y.m,
    touches := fun x _ g => touchAll x g .glb y.m n false true clsGraded,
    req := fun x _ g m =>
      { kind := kind, size := n, strong := true, grade := y.grade, mask := m,
        accs := sectorAccs .glb n ((lanesOf m).map fun l =>
          (l, x.ea g .glb y.m n l, x.val g (loadTy n false) l y.d)) },
    start := startStores }

def gstoreWord (y : StgArgs) (kind : ReqKind) : State → Host.Outcome State Fault Refusal :=
  memWord y.g (gstoreMem y kind)

def execStg (y : StgArgs) := gstoreWord y .stg
def execAmend (y : StgArgs) := gstoreWord y .amend

def grdMem (y : ReadArgs) : MemWord :=
  { fb := y.fb, srcs := addrSrcs .glb y.m,
    touches := fun x _ g => touchAll x g .glb y.m 1 true false clsGraded,
    keys := dstKeys y.d 32,
    req := fun x _ g m =>
      { kind := .grd, size := 1, dst := some y.d, strong := true, mask := m,
        accs := (lanesOf m).map fun l => { lane := l, va := x.ea g .glb y.m 1 l, size := 1 } } }

def execGrd (y : ReadArgs) : State → Host.Outcome State Fault Refusal := memWord y.g (grdMem y)

/-! ### Gossip words (R149-R151, R179, R180) -/

/-- The class check of `GADD` and `GREAD`, which take no weight word. -/
def clsValue (va n : Nat) : Bool := clsGossip n && decide (va % 256 / 8 ≠ 31)

def gopMem (y : GopArgs) (kind : ReqKind) (w : Nat) : MemWord :=
  { fb := y.fb, srcs := (w, y.d) :: addrSrcs .glb y.m,
    touches := fun x _ g lanes => lanes.map fun l =>
      let va := x.ea g .glb y.m 8 l
      { lane := l, space := .glb, va := va, size := 8, r := false, w := true,
        cls := if kind = .gadd then clsValue va else clsGossip },
    req := fun x _ g m =>
      { kind := kind, size := 8, strong := true, mask := m,
        accs := (lanesOf m).map fun l =>
          { lane := l, va := x.ea g .glb y.m 8 l, size := 8,
            data := BitVec.ofNat 512 (if kind = .gadd then x.val g .f32 l y.d else x.value g 64 l y.d) } },
    start := startStores }

def gopWord (y : GopArgs) (kind : ReqKind) (w : Nat) : State → Host.Outcome State Fault Refusal :=
  memWord y.g (gopMem y kind w)

def execGinit (y : GopArgs) := gopWord y .ginit 64
def execGadd (y : GopArgs) := gopWord y .gadd 32

def greadMem (y : GreadArgs) : MemWord :=
  { fb := y.fb, srcs := addrSrcs .glb y.m,
    touches := fun x _ g lanes => lanes.map fun l =>
      let va := x.ea g .glb y.m 8 l
      { lane := l, space := .glb, va := va, size := 8, r := true, w := false, cls := clsValue va },
    keys := dstKeys y.d 32,
    req := fun x _ g m =>
      { kind := .gread, size := 8, dst := some y.d, pd := y.pd.val, strong := true, mask := m,
        accs := (lanesOf m).map fun l => { lane := l, va := x.ea g .glb y.m 8 l, size := 8 } } }

def execGread (y : GreadArgs) : State → Host.Outcome State Fault Refusal := memWord y.g (greadMem y)

def gspreadMem (y : GspreadArgs) : MemWord :=
  let m : Addr := { a := y.a, b := none, off := y.off }
  { fb := y.fb, srcs := (32, y.thr) :: addrSrcs .glb m,
    touches := fun x _ g => touchAll x g .glb m 256 true false clsGossip,
    keys := dstKeys y.d 32,
    req := fun x _ g h =>
      { kind := .gspread, size := 4, dst := some y.d, pd := y.pd.val, strong := true, mask := h,
        accs := (lanesOf h).map fun l =>
          { lane := l, va := x.ea g .glb m 256 l, size := 256, cmp := BitVec.ofNat 64 (x.val g .f32 l y.thr) } } }

def execGspread (y : GspreadArgs) : State → Host.Outcome State Fault Refusal := memWord y.g (gspreadMem y)

def gfenceMem (y : CountArgs) : MemWord :=
  { fb := y.fb, srcs := [], group := true,
    req := fun _ _ _ m => { kind := .gfence, n := y.n.val, mask := m },
    start := fun x s ids => ids.foldl (fun s id => s.startGfence x.core x.slot id) s }

def execGfence (y : CountArgs) : State → Host.Outcome State Fault Refusal := memWord y.g (gfenceMem y)

/-- `GSTEP` joins its chip's queue of steps; outside stepped mode it completes at once (R148). -/
def gstepMem (y : FlagArgs) : MemWord :=
  { fb := y.fb, srcs := [], group := true,
    req := fun _ _ _ m => { kind := .gstep, mask := m },
    start := fun x s ids =>
      match s.group? x.core x.slot with
      | none => s
      | some g =>
        if s.ganderOn g.part && s.stepped g.part then
          ({ s with steps := s.steps ++ ids.map fun id => (x.core, id) } : State).settleGander g.part
        else ids.foldl (fun s id => s.complete x.core id) s }

def execGstep (y : FlagArgs) : State → Host.Outcome State Fault Refusal := memWord y.g (gstepMem y)

/-! ### Fabric transfers (R181-R185) -/

/-- Limits of the descriptor words of `FPUT` and `FGET`. -/
def bulkBad (src dst len : Nat) : Bool :=
  src % 32 != 0 || dst % 32 != 0 || len % 32 != 0 || decide (len < 32) || decide (2 ^ 32 < len)

/-- Checks of one side of a transfer of `len` bytes; a length beyond every limit names its first page only. -/
def bulkTouch (l : Nat) (sp : Space) (va len : Nat) (w : Bool) (cls : Nat → Bool) : List Touch :=
  rowTouch l sp va (if len = 0 ∨ 2 ^ 32 < len then 1 else len) w cls

def fputMem (y : DescArgs) : MemWord :=
  let word (x : Ctx) (g : Group) (l i : Nat) : Nat := ((x.descWords g y.sn 4 l).getD i 0).toNat
  { fb := y.fb, srcs := descSrcs y.sn 4, group := true,
    touches := fun x _ g lanes => lanes.flatMap fun l =>
      bulkTouch l y.space (word x g l 0) (word x g l 2) false clsLoad ++
        bulkTouch l .glb (word x g l 1) (word x g l 2) true clsOrdinary,
    desc := fun x _ g lanes => lanes.find? fun l => bulkBad (word x g l 0) (word x g l 1) (word x g l 2),
    req := fun x s g m =>
      let l := lowest m
      { kind := .fput, size := 4, space := y.space, strong := true, mask := m, words := x.descWords g y.sn 4 l,
        accs := (List.range (word x g l 2 / 32)).map fun i =>
          { lane := l, va := word x g l 1 + 32 * i, size := 32,
            cmp := BitVec.ofNat 64 (s.spotOf x g y.space (word x g l 0 + 32 * i) 32) } },
    start := startStores }

def execFput (y : DescArgs) : State → Host.Outcome State Fault Refusal := memWord y.g (fputMem y)

def fgetMem (y : DescArgs) : MemWord :=
  let word (x : Ctx) (g : Group) (l i : Nat) : Nat := ((x.descWords g y.sn 3 l).getD i 0).toNat
  { fb := y.fb, srcs := descSrcs y.sn 3, group := true,
    touches := fun x _ g lanes => lanes.flatMap fun l =>
      bulkTouch l .glb (word x g l 0) (word x g l 2) false clsOrdinary ++
        bulkTouch l y.space (word x g l 1) (word x g l 2) true clsOrdinary,
    desc := fun x _ g lanes => lanes.find? fun l => bulkBad (word x g l 0) (word x g l 1) (word x g l 2),
    req := fun x s g m =>
      let l := lowest m
      { kind := .fget, size := 4, space := y.space, strong := true, mask := m, words := x.descWords g y.sn 3 l,
        accs := (List.range (word x g l 2 / 32)).map fun i =>
          { lane := l, space := y.space, va := s.spotOf x g y.space (word x g l 1 + 32 * i) 32, size := 32,
            cmp := BitVec.ofNat 64 (word x g l 0 + 32 * i) } },
    start := fun x s ids => ids.foldl (fun s id => s.retake x.core id) s }

def execFget (y : DescArgs) : State → Host.Outcome State Fault Refusal := memWord y.g (fgetMem y)

def ffenceMem (y : FlagArgs) : MemWord :=
  { fb := y.fb, srcs := [], group := true,
    req := fun _ _ _ m => { kind := .ffence, mask := m }, start := startSettle }

def execFfence (y : FlagArgs) : State → Host.Outcome State Fault Refusal := memWord y.g (ffenceMem y)

def acsetMem (y : AcsetArgs) : MemWord :=
  let m : Addr := { a := y.a, b := none, off := y.off }
  { fb := y.fb, srcs := (64, y.b) :: addrSrcs y.space m,
    touches := fun x _ g => touchAll x g y.space m 16 false true clsOrdinary,
    req := fun x s g h =>
      { kind := .acset, size := 8, space := y.space, strong := true, mask := h,
        accs := (lanesOf h).map fun l =>
          { lane := l, space := y.space, va := s.spotOf x g y.space (x.ea g y.space m 16 l) 16, size := 16,
            data := BitVec.ofNat 512 (x.value g 64 l y.b) } },
    start := startStores }

def execAcset (y : AcsetArgs) : State → Host.Outcome State Fault Refusal := memWord y.g (acsetMem y)

def acwaitMem (y : ReadArgs) : MemWord :=
  { fb := y.fb, srcs := addrSrcs y.space y.m,
    touches := fun x _ g => touchAll x g y.space y.m 16 true false clsOrdinary,
    keys := dstKeys y.d 64,
    req := fun x s g m =>
      { kind := .acwait, size := 8, dst := some y.d, space := y.space, strong := true, mask := m,
        accs := (lanesOf m).map fun l =>
          { lane := l, space := y.space, va := s.spotOf x g y.space (x.ea g y.space y.m 16 l) 16, size := 16 } },
    start := startStores }

def execAcwait (y : ReadArgs) : State → Host.Outcome State Fault Refusal := memWord y.g (acwaitMem y)

/-! ### Matrix rows (R261-R263, R269) -/

/-- A lane's `MLOAD` row: its reservation, the row word, its bytes and the alignment of its address. -/
structure RowAsk where
  r : Resv
  w : Nat
  len : Nat
  align : Nat

def mloadAsk (y : MrowArgs) (x : Ctx) (s : State) (g : Group) (l : Nat) : RowAsk :=
  let w := x.value g 32 l y.d
  let r := s.resvOf g.run x.core (w % 16)
  if nbit w 4 then ⟨r, w, r.scaleBytes, max 1 (oxK r.fmt / 32)⟩ else ⟨r, w, r.rowBytes, 32⟩

def RowAsk.bad (a : RowAsk) : Bool :=
  !a.r.v || decide (a.r.rows ≤ a.w / 65536) || (nbit a.w 4 && !a.r.sc) || a.w % 65536 / 32 != 0

def mloadMem (y : MrowArgs) : MemWord :=
  { fb := y.fb, srcs := (32, y.d) :: addrSrcs y.space y.m,
    touches := fun x s g lanes => lanes.flatMap fun l =>
      let a := mloadAsk y x s g l
      let ea := x.ea g y.space y.m 32 l
      { lane := l, space := y.space, va := ea, size := a.align, r := true, w := false, cls := clsLoad } ::
        rowTouch l y.space ea (max 1 a.len) false clsLoad,
    desc := fun x s g lanes => lanes.find? fun l => (mloadAsk y x s g l).bad,
    more := fun x s g lanes =>
      if lanes.any fun l => s.slotBusy g.run x.core ((mloadAsk y x s g l).w % 16) then some (.hold []) else none,
    req := fun x s g m =>
      { kind := .mload, size := 4, space := y.space, mask := m,
        accs := (lanesOf m).map fun l =>
          let a := mloadAsk y x s g l
          { lane := l, space := y.space, va := x.ea g y.space y.m 32 l, size := a.len, cmp := BitVec.ofNat 64 a.w } } }

def execMload (y : MrowArgs) : State → Host.Outcome State Fault Refusal := memWord y.g (mloadMem y)

/-- The format that an `MSTORE` row word names. -/
def mstoreTy (w : Nat) : Option Ty :=
  match w / 65536 % 32 with
  | 0x10 => some .f32
  | 0x11 => some .f16
  | 0x12 => some .bf16
  | 0x13 => some .e4m3
  | 0x14 => some .e5m2
  | 0x15 => some .tf8
  | _ => none

def mstoreBad (w : Nat) : Bool := (mstoreTy w).isNone || decide (2 ^ 21 ≤ w) || w / 256 % 256 != 0

/-- Bytes of a stored row. -/
def mstoreBytes (w : Nat) : Nat := 8 * ((mstoreTy w).getD .e4m3).bits

/-- The 64-byte sector `i` of a converted row. -/
def mstoreSector (k : Core) (phys : Nat) (ty : Ty) (i : Nat) : Sector :=
  let n := 512 / ty.bits
  BitVec.ofNat 512 ((List.range n).foldl (fun v j =>
    v + roundF ty .rne (decodeF .f32 (AMap.get k.acc (phys * 64 + n * i + j) 0).toNat) * 2 ^ (ty.bits * j)) 0)

def mstoreMem (y : MrowArgs) : MemWord :=
  let word (x : Ctx) (g : Group) (l : Nat) : Nat := x.value g 32 l y.d
  let sectors (w : Nat) : List Nat := List.range (mstoreBytes w / 64)
  { fb := y.fb, srcs := (32, y.d) :: addrSrcs y.space y.m, scope := y.scope,
    early := fun x s g lanes =>
      if s.full then none
      else firstLane lanes (fun l => ((mstoreTy (word x g l)).map Ty.fullOnly).getD false) 0x01,
    touches := fun x _ g lanes => lanes.flatMap fun l =>
      (sectors (word x g l)).map fun i =>
        { lane := l, space := y.space, va := x.ea g y.space y.m 32 l + 64 * i, size := 64, r := false, w := true,
          cls := clsOrdinary },
    desc := fun x _ g lanes => lanes.find? fun l => mstoreBad (word x g l),
    more := fun x s g lanes =>
      match firstLane lanes (fun l => !inWin g (word x g l % 256)) 0x0F with
      | some t => some (.trap t)
      | none =>
        if lanes.any fun l => s.rowBusy g.run x.core (word x g l % 256) then some (.hold [])
        else
          (lanes.findSome? fun l =>
            let row := s.physRow g.run x.core (word x g l % 256)
            ((List.range 64).find? fun j => (AMap.find? (s.core x.core).accPoison (row * 64 + j)).isSome).map fun j =>
              ({ cause := 0x02, lane := l, reg := some (accKeyBase + row * 64 + j, 15) } : TrapInfo)).map .trap,
    req := fun x s g m =>
      { kind := .mstore, size := 64, scope := y.scope, space := y.space, mask := m,
        accs := (lanesOf m).flatMap fun l =>
          let w := word x g l
          (sectors w).map fun i =>
            { lane := l, space := y.space, va := s.spotOf x g y.space (x.ea g y.space y.m 32 l + 64 * i) 64, size := 64,
              mask := BitVec.allOnes 64, cmp := BitVec.ofNat 64 w,
              data := mstoreSector (s.core x.core) (s.physRow g.run x.core (w % 256)) ((mstoreTy w).getD .f32) i } },
    start := startStores }

def execMstore (y : MrowArgs) : State → Host.Outcome State Fault Refusal := memWord y.g (mstoreMem y)

end Sys2Proof.Machine
end

