-- ==== Sys2Proof/Machine/GangIssue.lean ====
section
/-! DEFINITION. The issue stage (R50, R51, R279-R282): what it settles, the entry it chooses, the gang it forms, and the
errors of the register files (R194, R273). -/

namespace Sys2Proof.Machine

/-- Clocks pass in the partition of a core. -/
def State.passClocks (s : State) (c n : Nat) : State :=
  match s.partOf c with
  | none => s
  | some p => s.modPart p fun x => { x with clock := x.clock + BitVec.ofNat 64 n }

/-! ### Register-file errors -/

/-- The place of a half in a `poison` entry. -/
def halfBit (hi : Nat) : Nat := 2 ^ (hi % 4)

/-- An uncorrectable error poisons what it hits and writes a record (R194, R273, R360); a corrected one is counted. -/
def State.rfError (s : State) (c : Nat) (e : RfErr) : State :=
  let p := (s.partOf c).getD 0
  match e with
  | .half slot reg lane hi =>
    (match s.group? c slot, srcKey lane reg with
      | some g, some key =>
        let v := AMap.get g.poison key 0
        let b := halfBit hi
        let v := if v / (16 * b) % 2 = 1 then v - 16 * b else v
        let s := s.setGroup c slot { g with poison := AMap.put g.poison key (if v / b % 2 = 1 then v else v + b) }
        s.record g.part { org := s.originOf c slot 0 lane, cause := 0x2A, easid := g.asid, detail := keyDetail key }
      | _, _ => s)
  | .stack slot lane entry =>
    (match s.group? c slot with
      | none => s
      | some g =>
        let s := s.setGroup c slot (g.threads (1#64 <<< lane) fun _ t =>
          { t with rbad := (List.range 4).map fun i => if i = entry then 1 else t.rbad.getD i 0 })
        s.record g.part { org := s.originOf c slot 0 lane, cause := 0x2A, easid := g.asid, detail := keyDetail (stackKey lane entry) })
  | .corrected => s.modCore c fun k => { k with corrected := k.corrected + 1 }
  | .acc row col =>
    let s := s.modCore c fun k => { k with accPoison := AMap.put k.accPoison (row % 256 * 64 + col % 64) false }
    s.record p { cause := 0x2A, detail := 2 ^ 31 + row % 256 }
  | .ob word =>
    let s := s.modCore c fun k => { k with obPoison := AMap.put k.obPoison (word % 32768) false }
    s.record p { cause := 0x2A, detail := 2 ^ 31 + word % 32768 }

/-! ### Choosing -/

/-- The ready entry that issued least recently; ties go to the lower index. -/
def leastRecent : List (Nat × Entry) → Option (Nat × Entry)
  | [] => none
  | x :: t =>
    match leastRecent t with
    | none => some x
    | some y => if x.2.last ≤ y.2.last then some x else some y

/-- Yielding threads have seen an entry chosen (R316). -/
def Core.sawEntry (k : Core) (e : Nat) : Core :=
  let f (t : Nat × Thread) : Nat × Thread :=
    match t.2.st with
    | .yield others due => (t.1, { t.2 with st := .yield (others.filter (· != e)) due })
    | _ => t
  { k with groups := k.groups.map fun (g : Nat × Group) => (g.1, { g.2 with thr := g.2.thr.map f }) }

/-- Groups that may not issue leave the gang of an entry; they stand at its next word. -/
def State.weedGang (s : State) (c : Nat) (e : Nat × Entry) : State :=
  match e.2.gang with
  | none => s
  | some ga =>
    ga.members.foldl (fun s m =>
      match s.group? c m.1 with
      | none => s.modCore c fun k => k.leaveGang m.1 m.2
      | some g => if g.canIssue then s else s.modCore c fun k => k.leaveGang m.1 m.2) s

/-! ### Forming a gang -/

/-- The candidates of one gang: those inside the clause at one word go first, else those at the header. -/
def oneWord (xs : List Cand) : List Cand × Option Word :=
  match xs.findSome? Cand.pc with
  | some pc => (xs.filter fun x => x.pc == some pc, some pc)
  | none => (xs, none)

/-- The trap of a run whose entry header cannot be had: its group 0 traps with FETCH set, before any of its groups has issued
a word (R311). -/
def State.entryTrap (s : State) (rn cause : Nat) (entry : Word) : State :=
  match s.groupsOf rn with
  | [] => s
  | (c, slot) :: _ =>
    let s := (s.modCore c Core.dropAnswers).raisePrecise c slot { cause := cause, fetch := true } entry
      (BitVec.allOnes 64) false
    (s.groupsOf rn).foldl (fun s x => s.stopSibling x.1 x.2) s

/-- The header that a gang's groups could not have: a trap for each, at the header or at the word they stand at; at the entry
of a run that has not begun, the trap of R311. -/
def State.headerTrap (s : State) (c cause : Nat) (pc : Word) (ms : List (Nat × Mask)) : State :=
  ms.foldl (fun s m =>
    match s.group? c m.1 with
    | none => s
    | some g =>
      if !(s.run g.run).begun && g.mode == .normal then
        (if (s.run g.run).halt.isSome then s else s.entryTrap g.run cause pc)
      else (s.modCore c Core.dropAnswers).raisePrecise c m.1 { cause := cause, lane := lowest m.2 } pc m.2 false) s

/-- A gang is formed at an entry, its clause's header read (R50, R281, R311). -/
def State.formGang (s : State) (c i : Nat) (e : Entry) : State :=
  let k := s.core c
  let (xs, at_) := oneWord ((k.cands e.kern e.hdr).filter (s.candReady c e.hdr))
  match xs with
  | [] => s
  | x :: _ =>
    let (ms, two) := gangMembers xs
    let pc := at_.getD e.hdr
    match s.headerAt c x.g e.hdr with
    | .miss t => s.modCore c fun k => k.askFills [t]
    | .bad n => s.headerTrap c n pc ms
    | .fatal => ms.foldl (fun s m => (s.modCore c Core.dropAnswers).endGroup c m.1) s
    | .ok w =>
      match decodeHeader w.toNat with
      | none => s.headerTrap c 0x01 pc ms
      | some h =>
        let first := at_.getD (e.hdr + 8)
        let ga : Gang :=
          { pc := first, len := h.len.val, idx := (first - e.hdr).toNat / 8 - 1, sfa := h.sfa.map (·.val),
            sfb := h.sfb.map (·.val), members := ms, two := two }
        let s := ms.foldl (fun s m => s.modGroup c m.1 fun g =>
          g.threads m.2 fun _ t =>
            { t with pc := first, hdr := some e.hdr, len := h.len.val, cw := if at_.isSome then t.cw else [] }) s
        let s := ms.foldl (fun s m => match s.group? c m.1 with
          | none => s
          | some g => if (s.run g.run).begun || g.mode != .normal then s else s.modRun g.run fun r => { r with begun := true }) s
        { s.modCore c fun k => { k with table := AMap.upd k.table i fun y => { y with gang := some ga } } with
          issue := some { core := c, entry := i } }

/-- The fills of headers that waiting classes need. -/
def State.askHeaders (s : State) (c : Nat) : State :=
  (s.core c).table.foldl (fun s e =>
    if e.2.gang.isSome then s
    else ((s.core c).cands e.2.kern e.2.hdr).foldl (fun s x =>
      match s.headerAt c x.g e.2.hdr with
      | .miss t => s.modCore c fun k => k.askFills [t]
      | _ => s) s) s

end Sys2Proof.Machine
end

