-- ==== Sys2Proof/Machine/Pages.lean ====
section
/-! DEFINITION. Steps of the translation system (R69-R78, R82) and of the shared caches' colours (R121): fills, walks,
shoot-downs, frame releases, key changes and colour changes. A command that cannot finish at once keeps its BUSY bit and
is taken up again whenever a core of the partition issues. -/

namespace Sys2Proof.Machine

/-! ### Fills and walks -/

/-- Whether a shoot-down or a colour change of the partition holds its fills (R73, R121). -/
def State.fillsHeld (s : State) (p easid va : Nat) : Bool :=
  s.sealing p easid va ||
    ((s.preg p 0x2008).getLsbD 63 && bits (s.preg p 0x2008) 11 0 == easid &&
      ((s.preg p 0x2008).getLsbD 62 ||
        (decide (bits (s.preg p 0x2010) 55 16 ≤ va / 65536) &&
          decide (va / 65536 ≤ bits (s.preg p 0x2010) 55 16 + bits (s.preg p 0x2010) 15 0)))) ||
    (s.hreg (0x480 + 8 * p)).getLsbD 63

/-- The fills that a core asks for reach their homes. -/
def State.queueFills (s : State) (c : Nat) : State :=
  (s.core c).fills.foldl (fun s f =>
    let y := tagOfPage f.1
    if f.2 = .asked ∧ s.fillsHeld y.1 y.2.1 y.2.2 = false then s.queueWalk f.1 else s) s

/-- The home answers a PLB miss (R72), from its TLB or by one of the walks that it runs at once (R69). -/
def execPlbFill (core part easid page : Nat) (s : State) : Host.Outcome State Fault Refusal :=
  let va := page * 65536
  let t := pageTag part easid va
  match AMap.find? (s.core core).fills t with
  | some .asked =>
    let fatal := (s.part part).killing.contains easid
    if s.fillsHeld part easid va then .next s
    else if !fatal && !(s.walkPages part [(easid, va)]).2 then .next (s.queueWalk t)
    else
      let s := s.walked t
      let s := if fatal then s else s.installTlb part easid va
      match s.fillAnswer part easid va with
      | .inr e =>
        .next (s.modCore core fun k => k.fillPlb t e s.free)
      | .inl f => .next (s.modCore core fun k => { k with fills := AMap.put k.fills t f })
  | _ => .next s

/-- A walk ends, one of those that its home makes at once (R69): the translation is installed and its frame's owner recorded; a
frame owned by another address leaves both as they are, and the access reports the two owners (R74). -/
def execTableWalk (part easid page : Nat) (s : State) : Host.Outcome State Fault Refusal :=
  let t := pageTag part easid (page * 65536)
  if !(s.walkList (s.pageHome t).number).contains t || !s.walkTurn t || s.walkBusy part easid (page * 65536) then .next s
  else if (s.part part).killing.contains easid then .next (s.walked t)
  else .next ((s.installTlb part easid (page * 65536)).walked t)

/-! ### Accesses in flight to a range -/

/-- Memory that an engine operation has still to touch lies in a range. -/
def Req.engineIn (q : Req) (hit : Nat → Nat → Nat → Bool) : Bool :=
  let at_ (va : Nat) : Bool := hit q.idn.part (easidOf q.idn.asid va) va
  match q.kind with
  | .tcopy =>
    let t := tileOf q.words
    q.accs.any (fun a => !a.finished && a.st != .logged && a.st != .withdrawn) &&
      (List.range (t.pieces - q.n)).any fun i => at_ (t.mem (q.n + i))
  | .fput | .fget =>
    q.accs.any fun a => !a.finished && a.st != .logged && a.st != .withdrawn && (at_ (q.needs a) || at_ a.va)
  | .mload =>
    q.accs.any fun a => !a.finished && a.st != .logged && a.st != .withdrawn && a.space == .glb &&
      (blocks a.va (max 1 a.size) 65536).any at_
  | _ => false

/-- An access that has passed its checks and has not yet performed, in a range. -/
def Acc.inFlight (a : Acc) : Bool :=
  match a.st with
  | .waiting | .miss | .rejected _ | .aged | .sent _ | .comb | .l1 => true
  | _ => false

def Req.flightIn (q : Req) (hit : Nat → Nat → Nat → Bool) : Bool :=
  q.engineIn hit || (!q.kind.engine && q.accs.any fun a =>
    a.inFlight && a.space == .glb && hit q.idn.part (easidOf q.idn.asid a.va) a.va)

/-- An engine operation goes on as far as it can, or faults. -/
def State.runEngine (s : State) (c id : Nat) : Nat → State
  | 0 => s
  | n + 1 =>
    match (s.core c).req? id with
    | none => s
    | some q => ((List.range q.accs.length).foldl (fun s i => s.attemptOrFault c id i) s).runEngine c id n

/-- Perform, or fault, what is in flight to a range (R73). -/
def State.flushFlight (s : State) (hit : Nat → Nat → Nat → Bool) : State :=
  s.cores.foldl (fun s k =>
    let s := k.2.reqs.foldl (fun s q =>
      if q.flightIn hit then
        if q.kind.engine then s.runEngine k.1 q.id (if q.kind = .tcopy then (tileOf q.words).pieces else 2)
        else (List.range q.accs.length).foldl (fun s i => s.attemptOrFault k.1 q.id i) s
      else s) s
    let s := s.drainWhere k.1 fun e => hit e.part e.easid (e.line * 256)
    ((s.core k.1).l1.filter fun x => x.2.dirty != 0 && hit (tagPart x.1) (tagEasid x.1) (tagVa x.1)).foldl
      (fun s x => s.writeBackInOrder k.1 x.1) s) s

def State.flightBusy (s : State) (hit : Nat → Nat → Nat → Bool) : Bool :=
  (s.cores.any fun k => k.2.reqs.any fun q => q.flightIn hit) || (s.tagsIn hit).any s.claimed

/-- Parked requests to a range are released, to be issued again (R90). -/
def State.unpark (s : State) (hit : Nat → Nat → Nat → Bool) : State :=
  let hitAcc (q : Req) (a : Acc) : Bool :=
    a.st == .parked && !a.got && hit q.idn.part (easidOf q.idn.asid a.va) a.va
  let fix (k : Nat × Core) : Nat × Core :=
    (k.1, { k.2 with reqs := k.2.reqs.map fun q => q.mapAccs (hitAcc q) fun a => { a with st := .refused } })
  { s with cores := s.cores.map fix }

/-- Every cached line of a range is written back and invalidated, in every cache. -/
def State.flushLines (s : State) (hit : Nat → Nat → Nat → Bool) : State :=
  let s := (s.tagsIn hit).foldl (fun s t => s.recall t) s
  let out (x : Nat × L1Sec) : Bool := hit (tagPart x.1) (tagEasid x.1) (tagVa x.1) && x.2.dirty == 0
  { s with cores := s.cores.map fun (k : Nat × Core) => (k.1, { k.2 with l1 := k.2.l1.filter fun x => !(out x) }) }

/-! ### Shoot-down (R73) -/

/-- The range of `SDCMD` and `SDVA`. -/
def State.shootRange (s : State) (p : Nat) (part easid va : Nat) : Bool :=
  let c := s.preg p 0x2008
  let v := s.preg p 0x2010
  part == p && easid == bits c 11 0 &&
    (c.getLsbD 62 || (decide (bits v 55 16 ≤ va / 65536) && decide (va / 65536 ≤ bits v 55 16 + bits v 15 0)))

/-- Steps 2 to 4; BUSY stays set while something is still in flight. -/
def State.settleShoot (s : State) (p : Nat) : State :=
  if !(s.preg p 0x2008).getLsbD 63 then s
  else
    let hit := s.shootRange p
    let s := s.flushFlight hit
    if s.flightBusy hit then s
    else
      let s := (((s.unpark hit).flushLines hit).writeDirty hit).dropTlb hit
      s.setPreg p 0x2008 (setBits (s.preg p 0x2008) 63 63 0)

/-- A write to `SDCMD`. -/
def State.writeSdcmd (s : State) (part : Nat) (value : Word) : State :=
  let old := s.preg part 0x2008
  let v := value &&& 0xC000000000000FFF
  if old.getLsbD 63 then s
  else
    let s := s.setPreg part 0x2008 v
    if v.getLsbD 63 then ((s.dropPlb (s.shootRange part)).settleShoot part) else s

/-- The partition's own function writes the register (R370). -/
def execShootDown (part : Nat) (value : Word) (s : State) : Host.Outcome State Fault Refusal :=
  s.asFunction part fun s => s.writeSdcmd part value

/-! ### Frame release (R76) -/

/-- Release one frame; `none` while accesses to it are in flight or parked. -/
def State.releaseFrame (s : State) (f : Nat) : Option State :=
  let e := AMap.get s.rmap f 0
  if !e.getLsbD 63 then some s
  else
    let p := bits e 62 59
    let easid := bits e 58 47
    let va := bits e 46 7 * 65536
    let hit (part ea a : Nat) : Bool := part == p && ea == easid && a / 65536 == va / 65536
    let s := s.performIn hit
    let parked := s.cores.any fun k => k.2.reqs.any fun q => q.accs.any fun a =>
      a.st == .parked && hit q.idn.part (easidOf q.idn.asid a.va) a.va
    let parked := parked || s.inbox.any fun x => x.tag != 0 && hit (tagPart x.tag) (tagEasid x.tag) (tagVa x.tag)
    if parked || s.flightBusy hit then none
    else
      let s := s.flushLines hit
      some { s with tlb := AMap.del s.tlb (pageTag p easid va), rmap := AMap.del s.rmap f }

/-- Frames of a range, in order, as far as they can be released now. -/
def releaseAll : List Nat → State → State × Bool
  | [], s => (s, true)
  | f :: t, s =>
    match s.releaseFrame f with
    | none => (s, false)
    | some s => releaseAll t s

def State.settleFrames (s : State) (p : Nat) : State :=
  let v := s.preg p 0x2018
  if !v.getLsbD 63 then s
  else
    let r := releaseAll ((List.range (bits v 5 0 + 1)).map fun i => bits v 51 16 + i) s
    if r.2 then r.1.setPreg p 0x2018 (setBits v 63 63 0) else r.1

/-- A write to `FRCMD`; while its BUSY is 1 the write is ignored (log entry 110). -/
def State.writeFrcmd (s : State) (part : Nat) (value : Word) : State :=
  if (s.preg part 0x2018).getLsbD 63 then s
  else ((s.setPreg part 0x2018 (value &&& 0x800FFFFFFFFF003F)).settleFrames part)

/-- The partition's own function writes the register (R370). -/
def execFrameRelease (part : Nat) (value : Word) (s : State) : Host.Outcome State Fault Refusal :=
  s.asFunction part fun s => s.writeFrcmd part value

/-! ### Keys (R82) -/

/-- Whether a page is kept under a key slot. -/
def State.usesSlot (s : State) (slot : Nat) (part easid va : Nat) : Bool :=
  match s.leafOf part easid va with
  | .leaf e _ => !leafF e && !s.hostWindow part va && leafKey e == slot
  | _ => false

/-- A slot's lines leave the caches under the old key, and the new one takes effect with the next epoch. -/
def State.newKey (s : State) (slot key : Nat) : State :=
  { s with keys := AMap.put s.keys slot { key := key, epoch := ((s.slot slot).epoch + 1) % 4 } }

def State.setKey (s : State) (slot key : Nat) : State := (s.flushLines (s.usesSlot slot)).newKey slot key

/-- The security processor installs a key; the slot's lines leave every cache first, under the old key. -/
def execKeyInstall (slot key : Nat) (s : State) : Host.Outcome State Fault Refusal :=
  if 64 ≤ slot then .next s
  else
    let hit := s.usesSlot slot
    let s := s.performIn hit
    if (s.tagsIn hit).any s.claimed || s.cores.any (fun k => k.2.l1.any fun x =>
        x.2.dirty != 0 && hit (tagPart x.1) (tagEasid x.1) (tagVa x.1)) then .next s
    else
      .next (s.setKey slot key)

/-! ### Colours (R121) -/

/-- A colour change flushes the partition's lines out of the shared caches; BUSY clears with the last of them. -/
def State.settleColours (s : State) (p : Nat) : State :=
  if !(s.hreg (0x480 + 8 * p)).getLsbD 63 then s
  else
    let ts := (s.cached.map (·.1)).filter fun t => tagPart t == p && (s.copies t).any fun c => decide (c.holder < 8)
    let s := ts.foldl (fun s t =>
      if s.claimed t then s
      else
        let s := s.cleanSector t
        s.setCopies t ((s.copies t).filter fun c => decide (8 ≤ c.holder))) s
    if ts.any fun t => (s.copies t).any fun c => decide (c.holder < 8) then s
    else s.setHreg (0x480 + 8 * p) (setBits (s.hreg (0x480 + 8 * p)) 63 63 0)

end Sys2Proof.Machine
end

