-- ==== Sys2Proof/Machine/Traps.lean ====
section
/-! DEFINITION. Halting teams, entering handlers and late traps (R353, R354, R357, R362), what a trap or a pre-emption
withdraws (R161, R271, R329), and the fault queue (R358). -/

namespace Sys2Proof.Machine

/-! ### The fault queue (R358) -/

/-- The eight words of a record (Table 16.3). -/
def FaultRec.words (r : FaultRec) (phase : Bool) : List Word :=
  let b (x : Bool) (n : Nat) : Nat := if x then 2 ^ n else 0
  let i := r.org.idn
  let task := if i.disp then 0 else i.task
  let team := if i.disp then 0 else i.team
  [BitVec.ofNat 64 (b phase 63 + b r.exited 62 + b r.dropped 61 + b r.halted 60 + b r.bell 59 + b r.consumed 58 +
      b i.disp 57 + r.cause % 256 * 2 ^ 48 + team % 65536 * 2 ^ 32 + task % 1024 * 2 ^ 22 + i.group % 16 * 2 ^ 18 +
      r.org.lane % 64 * 2 ^ 12),
    r.org.pc &&& 0x00FFFFFFFFFFFFFF,
    BitVec.ofNat 64 (r.va % 2 ^ 56),
    BitVec.ofNat 64 (r.org.seq.toNat * 2 ^ 48 + r.easid % 4096 * 2 ^ 32 + r.detail % 2 ^ 32),
    r.aux, r.owner, 0, 0]

/-- A sector of eight words. -/
def sectorOf (ws : List Word) : Sector :=
  BitVec.ofNat 512 (ws.foldr (fun w n => w.toNat + 2 ^ 64 * n) 0)

/-- An engine of the task unit, the fault queue or the save writes a sector of the global half at its home, or tells the
host. Nothing where the page cannot be written now, or an engine holds the sector. -/
def State.pushSector (s : State) (p asid va : Nat) (mask : Mask) (d : Sector) (org : Origin := {}) : Option State :=
  match s.resolve p asid va .either with
  | .error _ => none
  | .ok (.mem l) =>
    if s.claimed l.tag || s.isSealed p l.easid va then none
    else some ((s.installTlb p l.easid va).mergeOwned (dieOf (s.bellwether p)) l mask d)
  | .ok (.host addr) =>
    some (s.sendHost { part := p, easid := easidOf asid va, va := va, addr := addr,
                       op := .store (lineMask va mask) (lineData va d), org := org })
  | .ok (.window ifa _) =>
    some (s.sendNet { part := p, easid := easidOf asid va, va := va, ifa := ifa,
                      op := .store (lineMask va mask) (lineData va d), org := org })
/-- Whether a record about a page waits for an earlier request of its group to the page, which may still fault: the records of one
group about one page appear in SEQ order. -/
def State.recordWaits (s : State) (r : FaultRec) : Bool :=
  r.org.idn.gid != 0 && decide (r.cause < 0x2A) && s.cores.any fun k => k.2.reqs.any fun q =>
    q.idn.gid == r.org.idn.gid && seqAfter r.org.seq q.seq && q.accs.any fun a =>
      (a.pending || a.st == .comb || (match a.st with
        | .sent _ => true
        | _ => false)) &&
        (q.pagesOf a).any fun va => easidOf q.idn.asid va == r.easid && samePage va r.va

/-- The fault queue takes the oldest record that is to be written, where it has room (R358). A record that accompanies a late trap
then reaches its group (R357). -/
def execFaultRecordWrite (part : Nat) (s : State) : Host.Outcome State Fault Refusal :=
  match (s.part part).records.find? fun r => !s.recordWaits r with
  | none => .next s
  | some r =>
    let rest := (s.part part).records.erase r
    let base := s.preg part 0x2718
    let tail := (s.preg part 0x2728).toNat % 8192
    let idx := tail % Config.faultRing
    let room := (idx + 1) % Config.faultRing != bits (s.preg part 0x2720) 11 0
    if !base.getLsbD 63 || !room then .next s
    else
      let lives := s.lives r.org.idn
      let r := if r.halted && !lives then { r with halted := false, exited := true } else r
      let va := bits base 55 18 * 2 ^ 18 + 64 * idx
      match s.pushSector part 0 va (BitVec.allOnes 64) (sectorOf (r.words (decide (tail < Config.faultRing)))) with
      | none => .next s
      | some s =>
        let s := (s.modPart part fun p => { p with records := rest }).setPreg part 0x2728
          (BitVec.ofNat 64 ((tail + 1) % 8192))
        .next (if r.halted then
            s.modLiving r.org.idn fun g =>
              if g.lateTrap.isNone then { g with lateTrap := some (r.cause, r.org.seq.toNat, idx, r.org.lane) } else g
          else s)

/-- The group takes its late trap at its next word: that of its lowest thread that could issue (R357). In the skid of
another group's halt the word does not issue, and the trap comes later (R353). -/
def execLateTrap (core slot : Nat) (s : State) : Host.Outcome State Fault Refusal :=
  match s.group? core slot with
  | none => .next s
  | some g =>
    match g.lateTrap, List.find? (fun (t : Nat × Thread) => t.2.st == .ready) g.thr with
    | some (cause, seq, idx, lane), some t =>
      if g.halt = .stopped ∨ g.mode = .psaveDone then .next s
      else
        let at_ := maskOf fun l => g.thr.any fun u => u.1 == l && u.2.st == .ready && u.2.pc == t.2.pc && u.2.hdr == t.2.hdr
        let info := BitVec.ofNat 64 (cause % 256 * 2 ^ 56 + 2 ^ 55 + lane % 64 * 2 ^ 48 + seq % 65536 * 2 ^ 16 + idx % 4096)
        let skid : Bool := match g.halt with
          | .skid _ => true
          | _ => false
        let s := if skid then s else s.setGroup core slot { g with lateTrap := none }
        .next (s.takeTrap core slot info t.2.pc at_ false)
    | _, _ => .next s

/-- A sibling stops at a word boundary (R353); not while a word of it runs on (R329). -/
def execSiblingStop (core slot : Nat) (s : State) : Host.Outcome State Fault Refusal :=
  match s.group? core slot with
  | none => .next s
  | some g => .next (if s.runsOn core slot g then s else s.stopSibling core slot)

/-! ### Withdrawing (R90, R151, R161, R271, R329) -/

/-- Accesses that a trap withdraws: those parked or watching, here or at a target. -/
def Req.trapOut (q : Req) (a : Acc) : Bool :=
  match a.st with
  | .parked | .refused | .watching => true
  | .sent _ => q.kind == .ldg
  | .waiting => q.kind == .acwait
  | _ => false

/-- Whether a pre-emption withdraws an access (Table 8.6, R271): loads and reads that have not returned, lines of an
`FGET` not yet sent, rows of an `MLOAD` not yet landed. -/
def Req.preemptOut (q : Req) (a : Acc) : Bool :=
  if a.finished || a.st == .logged || a.st == .withdrawn then false
  else
    match q.kind with
    | .ld | .gread | .gspread | .probe | .grd | .ldg | .waita | .acwait | .mload => true
    | .fget => !a.got && a.pending
    | _ => false

/-- Withdraw a group's accesses into its operand log, where a row of an `MLOAD` begins anew; a `GFENCE` counts its rounds afresh when it is issued again. -/
def State.withdraw (s : State) (c gid : Nat) (p : Req → Acc → Bool) : State :=
  let pull (q : Req) : Req :=
    if q.idn.gid ≠ gid then q
    else if q.kind = .gfence then
      (if q.accs = [] then { q with accs := [{ st := .withdrawn }] } else q)
    else
      let anew (a : Acc) : Acc := { a with mask := 0, got := false }
      (q.mapAccs (fun a => q.kind == .mload && a.st == .logged && p q { a with st := .waiting }) anew).mapAccs (p q) fun a =>
        if q.kind = .mload then { anew a with st := .withdrawn, data := 0 } else { a with st := .withdrawn }
  let s := (s.core c).reqs.foldl (fun s q =>
    if q.idn.gid = gid ∧ q.kind = .fget then
      (q.accs.filter (p q)).foldl (fun s a =>
        s.unclaim (s.fgetPort q (a.va / 64)) q.idn.part q.idn.asid [a.va / 64 * 64]) s
    else s) s
  s.modCore c fun k =>
    let reqs := k.reqs.map pull
    let gone (x : Nat × Nat) : Bool := reqs.any fun q => q.id == x.1 &&
      (match q.accs[x.2]? with
        | some a => a.st == .withdrawn
        | none => false)
    { k with reqs := reqs, aged := k.aged.filter fun x => !gone x }

/-- A `RET` held on a fill is withdrawn: its lanes stand before the word again (Table 14.6). So does a `TLAUNCH` whose
record has not come. -/
def State.withdrawFills (s : State) (c slot : Nat) : State :=
  match s.group? c slot with
  | none => s
  | some g =>
    let s := s.setGroup c slot
      { g with thr := g.thr.map fun t => match t.2.st with
          | .fill _ => (t.1, { t.2 with st := .ready })
          | _ => t }
    let gone (q : Req) : Bool := q.idn.gid == g.gid && (q.kind == .fill || q.kind == .record)
    (s.modPart g.part fun u => { u with
      launching := u.launching.filter fun y => !((s.core c).reqs.any fun q => gone q && q.id == y.1) }).modCore c fun k =>
        { k with reqs := k.reqs.filter fun q => !gone q }

def State.withdrawPreempt (s : State) (c slot : Nat) : State :=
  match s.group? c slot with
  | none => s
  | some g => (s.withdraw c g.gid Req.preemptOut).withdrawFills c slot

/-! ### Entering handlers (R354, R362) -/

/-- A group's `SFQ` results have arrived, and its load-type instructions have returned or been withdrawn (R354). For a pre-emption
(`pre`) those that have faulted late lie in its operand log as well (R161). -/
def Core.settledFor (k : Core) (gid : Nat) (pre : Bool) : Bool :=
  !(k.sfq.any fun j => j.gid == gid) &&
    k.reqs.all fun q => q.idn.gid != gid || !(q.kind.load || q.kind == .gfence) ||
      (q.accs.all fun a => a.finished || (pre && a.st == .logged) || a.st == .withdrawn) && !(q.kind == .gfence && q.accs == [])

/-- The trapping group begins at `TRAPVEC`; where there is no handler its team ends with a NOHANDLER record. -/
def State.enterTrap (s : State) (c slot : Nat) (g : Group) : State :=
  let v := s.preg g.part 0x2700
  if v.getLsbD 63 then
    (s.setGroup c slot (g.enterHandler .trap (v &&& 0x00FFFFFFFFFFFFF8) (s.now g.part))).modRun g.run
      fun r => { r with halt := some { core := c, slot := slot, entered := true }, hbars := [] }
  else
    let s := s.record g.part
      { org := s.originOf c slot g.faultpc (bits g.faultinfo 53 48), cause := 0x32, easid := g.asid,
        detail := bits g.faultinfo 63 56 }
    s.killTeam g.run

/-- A stopped and settled group enters its handler: the trapping group of a halted team once its siblings have stopped,
or any group of a team that a pre-emption has stopped. -/
def execTrapHandlerEntry (core slot : Nat) (s : State) : Host.Outcome State Fault Refusal :=
  match s.group? core slot with
  | none => .next s
  | some g =>
    if g.halt ≠ .stopped then .next s
    else
      match (s.run g.run).halt with
      | some h =>
        let others := (s.groupsOf g.run).all fun x => x == (core, slot) ||
          (match s.group? x.1 x.2 with
            | some o => o.halt == .stopped
            | none => true)
        if h.entered || (h.core, h.slot) != (core, slot) || !others then .next s
        else
          let s := s.withdraw core g.gid Req.trapOut
          if (s.core core).settledFor g.gid false then .next (s.enterTrap core slot g) else .next s
      | none =>
        if g.mode = .normal ∧ (s.part g.part).inEffect = true then
          let s := s.withdrawPreempt core slot
          if (s.core core).settledFor g.gid true then .next (s.enterPsave core slot) else .next s
        else .next s

end Sys2Proof.Machine
end

