-- ==== Sys2Proof/Machine/Graph.lean ====
section
/-! DEFINITION. The task unit's records: task records and their checks (R295, R296), mapping and completion entries (R297,
R298), eligibility, re-fire and depth limits (R95-R99, R299, R300), and held stores (R102). -/

namespace Sys2Proof.Machine

/-! ### Task records (Tables 13.1, 13.2) -/

def depOf (a b : Word) : Dep :=
  { map := bits a 59 58, accept := bits a 57 56, producer := bits a 9 0, mul := bits b 63 48, div := bits b 47 32,
    off := (BitVec.ofNat 16 (bits b 31 16)).toInt, span := bits b 15 0 }

/-- A dependence that fails a check, read alone. -/
def depBad (a b : Word) : Bool :=
  if a.getLsbD 63 then
    bits a 62 60 != 0 || bits a 55 10 != 0 || bits a 59 58 == 3 || bits a 57 56 == 0 ||
      (if bits a 59 58 = 1 then bits b 47 32 == 0 else b != 0)
  else a != 0 || b != 0

def recDeps (ws : List Word) : List (Word × Word) :=
  (List.range 4).map fun i => (ws.getD (5 + 2 * i) 0, ws.getD (6 + 2 * i) 0)

/-- A record with its fields resolved. -/
def recordOf (ws : List Word) : TaskRec :=
  let w (i : Nat) : Word := ws.getD i 0
  let lim := bits (w 1) 22 19
  { entry := w 0 &&& 0x00FFFFFFFFFFFFFF, width := 16 * 2 ^ bits (w 1) 63 62, groups := bits (w 1) 61 58 + 1,
    paired := (w 1).getLsbD 57, regs := bits (w 1) 56 47, nteams := bits (w 1) 46 31 + 1, graph := bits (w 1) 30 23,
    limit := if lim = 0 then 8 else lim, spways := bits (w 2) 63 60, obunits := bits (w 2) 59 54,
    accu := bits (w 2) 53 48, carve := bits (w 2) 47 44, walkn := bits (w 2) 43 20, doneva := w 3, doneval := w 4,
    deps := ((recDeps ws).filter fun d => d.1.getLsbD 63).map fun d => depOf d.1 d.2,
    params := (List.range 16).map fun i => w (16 + i) }

/-- Groups of a width and register count that an empty core holds (R278). -/
def emptyRoom (width regs : Nat) : Nat := min Config.slots (64 / width * (768 / regs))

def TaskRec.fitsEmpty (r : TaskRec) : Bool :=
  decide ((if r.paired then (r.groups + 1) / 2 else r.groups) ≤ emptyRoom r.width r.regs)

/-- The checks of R296 on the record alone; a dispatch record has those of R294 (`disp`). -/
def recordBad (ws : List Word) (disp : Bool) : Bool :=
  let w (i : Nat) : Word := ws.getD i 0
  let r := recordOf ws
  bits (w 0) 63 56 != 0 || r.entry.toNat % 8 != 0 || bits (w 1) 63 62 == 3 || bits (w 1) 18 0 != 0 ||
    r.regs == 0 || decide (768 < r.regs) || bits (w 2) 19 0 != 0 || decide (7 < r.spways) || decide (32 < r.obunits) ||
    decide (32 < r.accu) || w 13 != 0 || w 14 != 0 || w 15 != 0 || !r.fitsEmpty ||
    (if disp then r.nteams != 1 || r.paired || (recDeps ws).any fun d => d.1 != 0 || d.2 != 0
     else decide (8 < r.carve) || (r.carve != 0 && decide (8 - r.carve < r.spways)) ||
       (recDeps ws).any fun d => depBad d.1 d.2)

/-! ### Tasks and their entries -/

def State.task? (s : State) (p slot : Nat) : Option Task := AMap.find? (s.part p).slots slot
def State.modTask (s : State) (p slot : Nat) (f : Task → Task) : State :=
  s.modPart p fun x => { x with slots := AMap.upd x.slots slot f }

/-- The checks of R296 against the live tasks. -/
def State.recordClash (s : State) (p : Nat) (r : TaskRec) : Bool :=
  r.deps.any (fun d =>
    match s.task? p d.producer with
    | some t => t.desc.graph != r.graph
    | none => true) ||
  (s.part p).slots.any fun t => t.2.desc.graph == r.graph && t.2.desc.limit != r.limit

def TeamSt.code : TeamSt → Nat
  | .idle => 0
  | .elig => 1
  | .run => 2
  | .done => 3
  | .refq => 4
  | .stale => 5

/-- Table 13.3. -/
def Comp.word (c : Comp) : Nat :=
  c.grade % 4 * 2 ^ 14 + c.gen % 64 * 2 ^ 8 + c.depth % 16 * 2 ^ 4 + c.st.code * 2 + (if c.pend then 1 else 0)

/-- Why the task unit cannot read (`wr` false) or write an address: ADDRESS, ALIGN, the fill's cause, PERM, CLASS or a late
cause; 0 where it has to wait. -/
def State.unitCause (s : State) (p asid va size : Nat) (wr : Bool) : Option Nat :=
  if !isCanonical va then some 0x04
  else if va % size ≠ 0 then some 0x05
  else
    match s.leafOf p (easidOf asid va) va with
    | .unmapped => some 0x07
    | .bad => some 0x08
    | .busy => some 0
    | .leaf e _ =>
      if !e.getLsbD (if wr then 57 else 56) || (wr && e.getLsbD 60) then some 0x09
      else if leafClass e ≠ 0 then some 0x0A
      else s.lateCause p (easidOf asid va) va e false

def State.storeCause (s : State) (p asid va size : Nat) : Option Nat := s.unitCause p asid va size true

/-- Why the entry of a team cannot be read from the spill area; a poisoned line raises MEM_POISON (R81). -/
def State.spillCause (s : State) (p slot team : Nat) : Option Nat :=
  let va := s.spillVa p slot team
  match s.unitCause p 0 va 2 false with
  | some n => some n
  | none =>
    match s.resolve p 0 va .either with
    | .ok (.mem l) =>
      if s.claimed l.tag then some 0
      else if (s.sector { l with va := l.va / 64 * 64, pa := l.pa / 64 * 64 }).poison then some 0x29 else none
    | .ok _ => none
    | .error n => some n

/-- Whether a team's entry can be reached: one in memory, once what was owed to it has been written. -/
def State.spillOk (s : State) (p slot team : Nat) : Bool :=
  decide (team < 4096) ||
    ((s.spillCause p slot team).isNone && !(s.part p).spillOwed.contains (slot, team) &&
      !(s.part p).spillLost.contains (slot, team))

/-- A record of the task unit about a task's team (R303, R358). -/
def State.bell (s : State) (p slot team asid cause va detail : Nat) (dropped : Bool := false) : State :=
  s.record p
    { org := { idn := { part := p, asid := asid, task := slot, team := team } }, cause := cause, bell := true, dropped := dropped, va := va,
      easid := if va = 0 then 0 else easidOf asid va, detail := detail }

/-- Write a spilled entry to memory; one that cannot be written now is owed. -/
def State.spillWrite (s : State) (p slot team : Nat) (c : Comp) : State :=
  let va := s.spillVa p slot team
  let owed (s : State) (b : Bool) : State :=
    s.modPart p fun x =>
      { x with spillOwed := (x.spillOwed.filter fun y => y != (slot, team)) ++ if b then [(slot, team)] else [] }
  if (s.storeCause p 0 va 2).isSome then owed s true
  else
    match s.pushSector p 0 (va / 64 * 64) (byteMask va 2) (placeBytes va 2 c.word)
        { idn := { part := p, task := slot, team := team }, bell := true } with
    | none => owed s true
    | some s => owed s false

/-- A spilled entry leaves the chip; a fault is reported to system software. -/
def State.spillOut (s : State) (p slot team : Nat) (c : Comp) : State :=
  if team < 4096 then s
  else
    let va := s.spillVa p slot team
    let s := match s.storeCause p 0 va 2 with
      | some n => if n = 0 then s else s.bell p slot team 0 n va 0
      | none => s
    s.spillWrite p slot team c

/-- The fault of a read of an entry that has still to be reported. -/
def State.spillNews (s : State) (p slot team : Nat) : Option Nat :=
  if team < 4096 ∨ (s.part p).spillTold.contains (slot, team) = true then none
  else (s.spillCause p slot team).filter (· != 0)

/-- A fault of a read that a test or a `TSTAT` needs is reported once, and stands until the entry can be read (R303). -/
def State.spillTell (s : State) (p slot team : Nat) : State :=
  match s.spillNews p slot team with
  | none => s
  | some n =>
    (s.bell p slot team 0 n (s.spillVa p slot team) 0).modPart p fun x => { x with spillTold := x.spillTold ++ [(slot, team)] }

def TeamSt.ofCode : Nat → TeamSt
  | 1 => .elig
  | 2 => .run
  | 3 => .done
  | 4 => .refq
  | 5 => .stale
  | _ => .idle

def Comp.ofWord (n : Nat) : Comp :=
  { grade := n / 2 ^ 14 % 4, gen := n / 2 ^ 8 % 64, depth := n / 2 ^ 4 % 16, st := TeamSt.ofCode (n / 2 % 8),
    pend := nbit n 0 }

/-- A spilled entry as memory of the device holds it. -/
def State.spillRead (s : State) (p slot team : Nat) : Option Comp :=
  let va := s.spillVa p slot team
  match s.resolve p 0 va .either with
  | .ok (.mem l) => some (Comp.ofWord ((s.sector l).data.toNat / 2 ^ (8 * (va % 64)) % 2 ^ 16))
  | _ => none

/-- A team's completion entry: on chip, or in the spill area (R298). What is owed to the area, and an area that is no memory of
the device, is as the task unit last wrote it (log entry 107). -/
def State.comp (s : State) (p slot team : Nat) : Comp :=
  match s.task? p slot with
  | none => {}
  | some t =>
    let c := AMap.get t.entries team {}
    if team < 4096 || (s.part p).spillOwed.contains (slot, team) || (s.part p).spillLost.contains (slot, team) then c else (s.spillRead p slot team).getD c

def State.setComp (s : State) (p slot team : Nat) (c : Comp) : State :=
  (s.modTask p slot fun t => { t with entries := AMap.put t.entries team c }).spillOut p slot team c

/-- Entries that are owed to the spill area are written once they can be, and a fault reported of a read ends once the entry
can be read. -/
def State.settleSpill (s : State) (p : Nat) : State :=
  let s := (s.part p).spillOwed.foldl (fun s y =>
    match s.task? p y.1 with
    | none => s.modPart p fun x => { x with spillOwed := x.spillOwed.filter (· != y) }
    | some t => s.spillWrite p y.1 y.2 (AMap.get t.entries y.2 {})) s
  s.modPart p fun x => { x with spillTold := x.spillTold.filter fun y => (s.spillCause p y.1 y.2).isSome }

/-! ### Mapping (R297) -/

/-- Producer teams that a dependence maps to a consumer team. -/
def Dep.range (d : Dep) (team : Nat) : List Nat :=
  let lo : Int := match d.map with
    | 0 => team
    | 1 => ((team * d.mul / d.div : Nat) : Int) + d.off
    | _ => 0
  let hi : Int := match d.map with
    | 0 => team
    | 1 => lo + d.span
    | _ => d.np - 1
  let a := max lo 0
  let b := min hi (d.np - 1)
  if a ≤ b then (List.range (b - a + 1).toNat).map (· + a.toNat) else []

/-- The producers' teams that a team maps, as (slot, team). -/
def Task.maps (t : Task) (team : Nat) : List (Nat × Nat) :=
  (t.desc.deps.filter fun d => d.past.isNone).flatMap fun d => (d.range team).map fun u => (d.producer, u)

/-- The completion entries that a team maps, each with its acceptance grade and whether it can be reached. -/
def State.mapped (s : State) (p : Nat) (t : Task) (team : Nat) : List (Comp × Nat × Bool) :=
  t.desc.deps.flatMap fun d => (d.range team).map fun u =>
    match d.past with
    | some m => (AMap.get m u {}, d.accept, true)
    | none => (s.comp p d.producer u, d.accept, s.spillOk p d.producer u)

/-- A test of the team waits for an entry that cannot be reached. -/
def State.testWaits (s : State) (p : Nat) (t : Task) (team : Nat) : Bool := (s.mapped p t team).any fun m => !m.2.2

/-- R96: every mapped producer team has a completion of the acceptance grade, and none is stale. -/
def State.eligible (s : State) (p : Nat) (t : Task) (team : Nat) : Bool :=
  (s.mapped p t team).all fun m => m.2.2 && m.1.st != .stale && m.1.grade != 0 && decide (m.2.1 ≤ m.1.grade)

/-- Start values of a run from the latest completions (R94, R97): the floor, and the greatest depth. -/
def State.startFloor (s : State) (p : Nat) (t : Task) (team : Nat) : Nat :=
  (s.mapped p t team).foldl (fun n m => min n m.1.grade) 3
def State.startDepth (s : State) (p : Nat) (t : Task) (team : Nat) : Nat :=
  (s.mapped p t team).foldl (fun n m => max n m.1.depth) 0

/-- Consumer teams that map a producer's team, in ascending task slot and team number. -/
def State.consumers (s : State) (p slot u : Nat) : List (Nat × Nat) :=
  (s.part p).slots.flatMap fun x =>
    let ds := x.2.desc.deps.filter fun d => d.producer == slot && d.past.isNone
    if ds = [] then []
    else ((List.range x.2.desc.nteams).filter fun t => ds.any fun d => (d.range t).contains u).map fun t => (x.1, t)

/-! ### Held stores (R102) -/

/-- Held stores of a team. -/
def Held.ofTeam (task team : Nat) (h : Held) : Bool :=
  !h.org.idn.disp && h.org.idn.task == task && h.org.idn.team == team

/-- Discard held stores that have not been released, counted in `HOLDST`.DISC, which saturates (Table 4.6). -/
def State.discardHeld (s : State) (p : Nat) (f : Held → Bool) : State :=
  let out (h : Held) : Bool := f h && !h.freed
  let n := ((s.part p).hold.filter out).length
  let old := s.preg p 0x2100
  let s := s.modPart p fun x => { x with hold := x.hold.filter fun h => !out h }
  if n = 0 then s else s.setPreg p 0x2100 (setBits old 63 32 (min (2 ^ 32 - 1) (bits old 63 32 + n)))

/-- One released store goes to its destination; a fault of it leaves a record. Nothing while an engine holds its line. -/
def State.sendHeld (s : State) (p : Nat) (h : Held) : Option State :=
  let bad (s : State) (n : Nat) : State :=
    s.record p { org := h.org, cause := n, exited := !s.lives h.org.idn, dropped := true, va := h.va, easid := h.easid }
  match s.resolve p h.org.idn.asid h.va .either with
  | .error n => some (bad s n)
  | .ok (.host addr) =>
    some (s.sendHost { part := p, easid := h.easid, va := h.va, addr := addr, op := h.op, org := h.org })
  | .ok (.window ifa _) =>
    some (s.sendNet { part := p, easid := h.easid, va := h.va, ifa := ifa, op := h.op, org := h.org })
  | .ok (.mem l) =>
    if s.isSealed p l.easid h.va then some (bad s 0x09)
    else
    match (s.installTlb p l.easid h.va).packetMem (dieOf h.org.idn.core) l h.op none none 0 with
    | .done s _ _ => some s
    | .refuse n _ => some (bad s n)
    | _ => none

/-- Released stores leave in the order in which they entered the buffer. -/
def State.drainHeld (s : State) (p : Nat) : Nat → State
  | 0 => s
  | n + 1 =>
    match (s.part p).hold.find? fun h => h.freed with
    | none => s
    | some h =>
      match s.sendHeld p h with
      | none => s
      | some s => (s.modPart p fun x => { x with hold := x.hold.erase h }).drainHeld p n

/-- Release held stores. -/
def State.releaseHeld (s : State) (p : Nat) (f : Held → Bool) : State :=
  (s.modPart p fun x => { x with hold := x.hold.map fun h => if f h then { h with freed := true } else h }).drainHeld p
    Config.holdEntries

/-! ### Eligibility and the placement queue (R96, R301) -/

def State.enqueue (s : State) (p slot team : Nat) : State :=
  (s.setComp p slot team { s.comp p slot team with st := .elig }).modPart p fun x =>
    { x with queue := x.queue ++ [(slot, team, 0)] }

/-- Teams leave the placement queue; a head that leaves is no head any more (R302). -/
def Part.unqueue (x : Part) (f : Nat × Nat × Nat → Bool) : Part :=
  { x with queue := x.queue.filter fun q => !f q,
           head := x.head.filter fun h => !x.queue.any fun q => (q.1, q.2.1) == h && f q }

def State.dequeue (s : State) (p slot team : Nat) : State :=
  s.modPart p fun x => x.unqueue fun q => (q.1, q.2.1) == (slot, team)

/-- Test a waiting team's eligibility again. -/
def State.retestTeam (s : State) (p slot team : Nat) : State :=
  match s.task? p slot with
  | none => s
  | some t =>
    let c := s.comp p slot team
    if s.testWaits p t team then (t.maps team).foldl (fun s y => s.spillTell p y.1 y.2) s
    else
      match c.st with
      | .idle => if s.eligible p t team then s.enqueue p slot team else s
      | .elig => if s.eligible p t team then s else (s.setComp p slot team { c with st := .idle }).dequeue p slot team
      | _ => s

def State.retestConsumers (s : State) (p slot u : Nat) : State :=
  (s.consumers p slot u).foldl (fun s x => s.retestTeam p x.1 x.2) s

/-! ### Re-fire (R98-R100, R299, R300) -/

/-- Whether a re-fired run of a team would start above the graph's limit. -/
def State.tooDeep (s : State) (p : Nat) (t : Task) (team : Nat) : Bool := decide (t.desc.limit < s.startDepth p t team + 1)

/-- A refused re-fire: the Bellwether reports it, the team's held stores are discarded, and its completion is stale
(R99, R400). -/
def State.makeStale (s : State) (p slot team : Nat) : State :=
  match s.task? p slot with
  | none => s
  | some t =>
    let c := s.comp p slot team
    let s := s.bell p slot team t.asid 0x22 0 ((s.startDepth p t team + 1) % 16 * 256 + AMap.get t.trig team 0 % 64 * 4)
    let s := (s.discardHeld p (Held.ofTeam slot team)).dequeue p slot team
    (s.setComp p slot team { c with st := .stale, pend := false }).retestConsumers p slot team

/-- A team of a re-fire bin that has fired: tested by R96, or stale. It stays as it is where the test has to wait (Table 13.4). -/
def State.fireTeam (s : State) (p slot team : Nat) : State :=
  match s.task? p slot with
  | none => s
  | some t =>
    let s := s.modPart p fun x => { x with fired := x.fired.filter (· != (slot, team)) }
    if s.testWaits p t team then
      (t.maps team).foldl (fun s y => s.spillTell p y.1 y.2)
        (s.modPart p fun x => { x with fired := x.fired ++ [(slot, team)] })
    else if s.tooDeep p t team then s.makeStale p slot team
    else (s.setComp p slot team { s.comp p slot team with st := .idle }).retestTeam p slot team

/-- Tests that waited for a spill page are made again. -/
def State.retestSpilled (s : State) (p : Nat) : State :=
  let s := (s.part p).fired.foldl (fun s y => s.fireTeam p y.1 y.2) s
  (s.part p).slots.foldl (fun s x =>
    if x.2.desc.deps.any fun d => d.past.isNone && decide (4096 < d.np) then
      (List.range x.2.desc.nteams).foldl (fun s t => s.retestTeam p x.1 t) s
    else s) s

/-- A team enters its task's re-fire bin, or waits for one. -/
def Part.bin (x : Part) (slot team : Nat) : Part :=
  match x.refire.findIdx? fun b => b.task == slot && decide (b.items.length < 16) with
  | some i => { x with refire := x.refire.mapIdx fun j b => if j = i then { b with items := b.items ++ [team] } else b }
  | none =>
    if x.refire.length < Config.refireBins then
      { x with refire := x.refire ++ [{ task := slot, start := x.clock, items := [team] }] }
    else { x with refireWait := x.refireWait ++ [(slot, team)] }

/-- A team whose run has ended is re-queued. -/
def State.toRefire (s : State) (p slot team : Nat) : State :=
  match s.task? p slot with
  | none => s
  | some t =>
    let s := s.discardHeld p (Held.ofTeam slot team)
    if s.tooDeep p t team then s.makeStale p slot team
    else
      (s.setComp p slot team { s.comp p slot team with st := .refq, pend := false }).modPart p fun x => x.bin slot team

/-- A re-fire trigger reaches a consumer team; `gen` is the generation of the completion that pulled it. -/
def State.trigger (s : State) (p slot team gen : Nat) : State :=
  match s.task? p slot with
  | none => s
  | some t =>
    let c := s.comp p slot team
    let s1 := s.modTask p slot fun t => { t with trig := AMap.put t.trig team gen }
    match c.st with
    | .run => (s1.setComp p slot team { c with pend := true }).discardHeld p (Held.ofTeam slot team)
    | .done => if (s.part p).ending.contains t.desc.graph then s else s1.toRefire p slot team
    | _ => s

/-- A completion of a run is recorded (R95, R98, R102, R299). -/
def State.recordCompletion (s : State) (rn grade : Nat) : State :=
  let r := s.run rn
  let p := r.part
  let old := s.comp p r.task r.team
  let c : Comp := { old with grade := min grade r.floor, gen := r.gen, depth := r.depth }
  let s := (s.setComp p r.task r.team c).modTask p r.task fun t => { t with ran := AMap.put t.ran r.team r.gen }
  let s := s.modRun rn fun r => { r with gen := (r.gen + 1) % 64, completed := true }
  let s := if old.pend then s.discardHeld p (Held.ofTeam r.task r.team)
    else if c.grade = 3 then s.releaseHeld p fun h => Held.ofTeam r.task r.team h && h.gen == r.gen
    else s
  let s :=
    if old.pend || old.grade == 0 || old.gen == r.gen then s
    else (s.consumers p r.task r.team).foldl (fun s x => s.trigger p x.1 x.2 r.gen) s
  s.retestConsumers p r.task r.team

end Sys2Proof.Machine
end

