-- ==== Sys2Proof/Machine/Tasks.lean ====
section
/-! DEFINITION. Task words (R321-R324) and the steps of the task unit: placement (R278, R301, R302, R311, R336), spawn and
re-fire bins (R288, R300), the ends of teams and tasks (R292, R303), and the dispatch team (R294). -/

namespace Sys2Proof.Machine

/-! ### Where a team fits (R278) -/

/-- What a team gets on one core: (slot, lane position) for its groups, ways, first units of its shares. -/
structure CoreFit where
  places : List (Nat × Nat)
  ways : List Nat
  ob : Nat
  acc : Nat

/-- Registers in use in a register-file lane. -/
def Core.laneRegs (k : Core) (lane : Nat) : Nat :=
  k.groups.foldl (fun n g => if g.2.pos ≤ lane ∧ lane < g.2.pos + g.2.width then n + g.2.regs else n) 0

/-- Groups of a width and register count that a lane position has room for. -/
def Core.posRoom (k : Core) (width regs pos : Nat) : Nat :=
  let most := (List.range width).foldl (fun n i => max n (k.laneRegs (pos + i))) 0
  (768 - most) / regs

/-- The lowest place for `need` of `total` units beside the ranges in use. -/
def freeRange (used : List (Nat × Nat)) (total need : Nat) : Option Nat :=
  if need = 0 then some 0
  else (List.range (total + 1 - need)).find? fun a => used.all fun u => decide (u.1 + u.2 ≤ a) || decide (a + need ≤ u.1)

/-- `n` elements of a list, in an order that is not architectural: R277 and R278 do not say which of the lane positions
with room a group takes. -/
def anyOrder (fr i : Nat) : Nat → List Nat → List Nat
  | 0, _ => []
  | n + 1, l =>
    match l[Config.freeChoice fr i % l.length]? with
    | none => []
    | some x => x :: anyOrder fr (i + 1) n (l.erase x)

/-- Ranges of the runs on a core. -/
def State.sharesOn (s : State) (c : Nat) (f : Run → AMap (Nat × Nat)) : List (Nat × Nat) :=
  s.runs.filterMap fun r => AMap.find? (f r.2) c

def State.fitCore (s : State) (c n width regs ways ob acc : Nat) : Option CoreFit :=
  let k := s.core c
  let slots := ((List.range Config.slots).filter fun i => (AMap.find? k.groups i).isNone).take n
  let poss := anyOrder s.free (128 + 16 * c) n ((List.range (64 / width)).flatMap fun i =>
    List.replicate (k.posRoom width regs (width * i)) (width * i))
  let ws := ((List.range 8).filter fun w =>
    decide (max k.carve k.target ≤ w) && (AMap.find? k.holders w).isNone).take ways
  if k.save.isSome || slots.length < n || poss.length < n || ws.length < ways then none
  else
    match freeRange (s.sharesOn c (·.ob)) 32 ob, freeRange (s.sharesOn c (·.accs)) 32 acc with
    | some o, some a => some { places := slots.zip poss, ways := ws, ob := o, acc := a }
    | _, _ => none

/-- A team of a task on a core of its partition, or on the pair that begins there (R289, R301). -/
def State.fitTeam (s : State) (p : Nat) (r : TaskRec) (c : Nat) : Option (List (Nat × CoreFit)) :=
  let fit (c n : Nat) : Option CoreFit := s.fitCore c n r.width r.regs r.spways r.obunits r.accu
  if !s.inPart p c || c == s.bellwether p then none
  else if r.paired then
    if coreIn c % 2 ≠ 0 then none
    else
      match fit c ((r.groups + 1) / 2), fit (c + 1) (r.groups / 2) with
      | some a, some b => some [(c, a), (c + 1, b)]
      | _, _ => none
  else (fit c r.groups).map fun f => [(c, f)]

/-! ### Starting a run -/

/-- The values that `s16`-`s63` of a new group may hold (R32). -/
def State.scalarPool (s : State) (r : Run) : List Word :=
  let same (g : Group) : Bool :=
    let q := s.run g.run
    g.part == r.part && q.disp == r.disp && q.task == r.task
  let live := s.cores.flatMap fun k =>
    let gs := k.2.groups ++ (match k.2.save with
      | some i => i.groups
      | none => [])
    (gs.filter fun g => same g.2).flatMap fun g => g.2.written
  let past := if r.disp then (s.part r.part).dispHist
    else match s.task? r.part r.task with
      | some t => t.hist
      | none => []
  (0 :: past ++ live).eraseDups

def startScalars (fr : Nat) (pool params : List Word) : AMap Word :=
  (List.range 64).map fun i =>
    if i < 16 then (i, params.getD i 0) else (i, pool.getD (Config.freeChoice fr i % pool.length) 0)

/-- A group at its start (Tables 9.1 and 12.4, R255). `args` gives the arguments of spawned threads; a lane without one starts
exited (R288). -/
def startGroup (rn gid num width pos regs kern : Nat) (r : Run) (entry : Word) (now rows : Nat) (sc : AMap Word)
    (args : Option (List Word)) : Group :=
  let live (l : Nat) : Bool := match args with
    | none => true
    | some as => decide (l < as.length)
  let vo := (args.getD []).zipIdx.foldl (fun (m : AMap Reg32) (x : Word × Nat) =>
    AMap.put (AMap.put m (rkey x.2 0) (x.1.setWidth 32)) (rkey x.2 1) ((x.1 >>> 32).setWidth 32)) []
  { gid := gid, run := rn, part := r.part, asid := r.asid, num := num, width := width, pos := pos, regs := regs,
    kern := kern, sc := sc, vo := vo, awlimit := rows, rejoinm := BitVec.ofNat 64 (2 ^ width - 1),
    thr := (List.range width).map fun l =>
      (l, { pc := entry, st := if live l then .ready else .exited, arr := now }) }

/-- Give a run its place: ways that read zero, accumulator rows that read +0, and an L1 that has acquired (R108, R252,
R336). -/
def Core.takeRun (k : Core) (rn : Nat) (f : CoreFit) (accu : Nat) : Core :=
  let row (e : Nat) : Bool := decide (f.acc * 8 ≤ e / 64) && decide (e / 64 < (f.acc + accu) * 8)
  Core.dropClean
    { k with
      holders := f.ways.foldl (fun m w => AMap.put m w rn) k.holders,
      ways := k.ways.filter fun x => !f.ways.contains (x.1 / Config.wayBytes),
      acc := k.acc.filter fun x => !row x.1,
      accPoison := k.accPoison.filter fun x => !row x.1 }

/-- Start a team run on the cores it fits; its number. Group `g` of a paired team runs on core `g mod 2` (R289). -/
def State.startRun (s : State) (r : Run) (width regs kern obu accu : Nat) (entry : Word) (params : List Word)
    (fits : List (Nat × CoreFit)) (args : Option (List Word)) : State × Nat :=
  let rn := s.next
  let pool := s.scalarPool r
  let r := { r with
    paired := fits.length == 2, cores := fits.map (·.1),
    ways := fits.flatMap fun f => f.2.ways.map fun w => (f.1, w),
    ob := fits.foldl (fun m f => AMap.put m f.1 (f.2.ob, obu)) [],
    accs := fits.foldl (fun m f => AMap.put m f.1 (f.2.acc, accu)) [] }
  let s := s.bump.setRun rn r
  let s := fits.foldl (fun s f => s.modCore f.1 fun k => k.takeRun rn f.2 accu) s
  let seats := fits.zipIdx.flatMap fun x => x.1.2.places.zipIdx.map fun y =>
    (x.1.1, y.1.1, y.1.2, if fits.length = 2 then 2 * y.2 + x.2 else y.2)
  let s := seats.foldl (fun (s : State) (x : Nat × Nat × Nat × Nat) =>
    let rows := if x.2.2.2 = (if r.paired ∧ r.cores.head? ≠ some x.1 then 1 else 0) then 8 * accu else 0
    let g := startGroup rn s.next x.2.2.2 width x.2.2.1 regs kern r entry (s.now r.part) rows
      (startScalars (s.free * 16 + x.2.2.2) pool params) args
    (s.setGroup x.1 x.2.1 g).bump) s
  (s.spend, rn)

/-- The fill that a fetch needs is answered at once. -/
def State.fetchNow (s : State) (c p asid : Nat) (pc : Word) : State × FetchRes :=
  match s.fetch c p asid pc with
  | .miss t =>
    match execPlbFill c p (easidOf asid pc.toNat) (pc.toNat / 65536) (s.modCore c fun k => k.askFills [t]) with
    | .next s => (s, s.fetch c p asid pc)
    | _ => (s, .miss t)
  | r => (s, r)

/-- The entry header is fetched before the first word of a run; a failure halts the team, group 0 being the trapping
group (R311). -/
def State.enterRun (s : State) (rn : Nat) (entry : Word) : State :=
  match s.groupsOf rn with
  | [] => s
  | (c, _) :: _ =>
    let r := s.run rn
    let halt (s : State) (cause : Nat) : State := s.entryTrap rn cause entry
    match s.fetchNow c r.part r.asid entry with
    | (s, .ok w) => if bits w 63 56 = 1 then s else halt s 0x01
    | (s, .bad n) => halt s n
    | (s, .fatal) => s.killTeam rn
    | (s, .miss _) => s

def kernOf (asid : Nat) (entry : Word) (regs width : Nat) : Nat :=
  ((asid * 2 ^ 56 + entry.toNat) * 1024 + regs) * 128 + width

/-- No team is placed and no bin fires from the pre-emption until the restore (R361, R364). -/
def State.taskHeld (s : State) (p : Nat) : Bool := (s.part p).inEffect || (s.hreg (0x100 + 8 * p)).getLsbD 61

/-! ### Placement (R301, R302) -/

/-- Teams that may be placed: those of graphs that are not being ended. -/
def State.placeable (s : State) (p : Nat) : List (Nat × Nat × Nat) :=
  (s.part p).queue.filter fun q =>
    match s.task? p q.1 with
    | some t => !(s.part p).ending.contains t.desc.graph
    | none => false

/-- Set the carve target of every core of a partition but the Bellwether. -/
def State.setTargets (s : State) (p : Nat) (f : Core → Nat) : State :=
  (s.partCores p).foldl (fun s c =>
    if c = s.bellwether p ∨ f (s.core c) = (s.core c).target then s else s.setTarget c (f (s.core c))) s

/-- The head of the queue sets the carve targets. -/
def State.headTarget (s : State) (p : Nat) : State :=
  match s.placeable p with
  | [] => s.modPart p fun x => { x with head := none }
  | q :: _ =>
    match s.task? p q.1 with
    | none => s
    | some t =>
      let r := t.desc
      let fresh := (s.part p).head != some (q.1, q.2.1)
      let s := s.modPart p fun x => { x with head := some (q.1, q.2.1) }
      if r.carve ≠ 0 then (if fresh then s.setTargets p fun _ => r.carve else s)
      else if (s.partCores p).any fun c => (s.fitTeam p r c).isSome then s
      else s.setTargets p fun k => min k.target (8 - r.spways)

/-- Place a team of the queue: its start values come from the latest completions (R94, R97). A re-fire above the depth
limit is not run (R99). -/
def State.place1 (s : State) (p slot team : Nat) (t : Task) (fits : List (Nat × CoreFit)) : State :=
  let d := t.desc
  let again := (AMap.find? t.ran team).isSome
  if again && s.tooDeep p t team then s.makeStale p slot team
  else
    let gen := if again then (AMap.get t.ran team 0 + 1) % 64 else 0
    let s := (s.dequeue p slot team).setComp p slot team { s.comp p slot team with st := .run, pend := false }
    let s := s.modTask p slot fun t => { t with ran := AMap.put t.ran team gen }
    let r : Run :=
      { part := p, asid := t.asid, task := slot, team := team, ngroups := d.groups, floor := s.startFloor p t team,
        gen := gen, refire := again, limit := d.limit,
        depth := s.startDepth p t team + (if again then 1 else 0), walkn := d.walkn }
    let x := s.startRun r d.width d.regs (kernOf t.asid d.entry d.regs d.width) d.obunits d.accu d.entry d.params fits none
    x.1.enterRun x.2 d.entry

/-- The task unit places the first team of the queue's head that fits a core: on `core`, where it fits there. -/
def execPlaceTeam (part core : Nat) (s : State) : Host.Outcome State Fault Refusal :=
  if s.taskHeld part then .next s
  else
    let s := (s.retestSpilled part).headTarget part
    let q := s.placeable part
    let tested := match q with
      | h :: _ => if 64 ≤ h.2.2 then q.take 1 else q.take 16
      | [] => []
    let fits (x : Nat × Nat × Nat) (c : Nat) : Option (List (Nat × CoreFit)) :=
      (s.task? part x.1).bind fun t => s.fitTeam part t.desc c
    match tested.findIdx? fun x => (s.partCores part).any fun c => (fits x c).isSome with
    | none => .next s
    | some i =>
      let x := tested.getD i (0, 0, 0)
      match s.task? part x.1, fits x core with
      | some t, some f =>
        let passed := (tested.take i).map fun y => (y.1, y.2.1)
        let s := s.modPart part fun u =>
          { u with queue := u.queue.map fun (y : Nat × Nat × Nat) =>
              if passed.contains (y.1, y.2.1) then (y.1, y.2.1, y.2.2 + 1) else y }
        .next ((s.place1 part x.1 x.2.1 t f).headTarget part)
      | _, _ => .next s

/-! ### Bins (R288, R300) -/

/-- The bins' timer (Table 12.8). -/
def State.binTimer (s : State) (p : Nat) : Nat := max 64 (bits (s.preg p 0x2500) 31 0)

def State.binDue (s : State) (p : Nat) (start : Word) : Bool := decide (s.binTimer p ≤ (s.clock p - start).toNat)

/-- A spawn bin fires, and its threads become a group on a core of the cluster once one has room. -/
def execSpawnBinFire (cluster bin core : Nat) (s : State) : Host.Outcome State Fault Refusal :=
  let bs := AMap.get s.bins cluster []
  match bs[bin]? with
  | none => .next s
  | some b =>
    if s.taskHeld b.part || !(b.fired || decide (b.width ≤ b.items.length) || s.binDue b.part b.start) then .next s
    else
      let put (bs : List SpawnBin) : State := { s with bins := AMap.put s.bins cluster bs }
      let ok := clusterOf core == cluster && s.inPart b.part core && core != s.bellwether b.part
      match s.task? b.part b.task, if ok then s.fitCore core 1 b.width b.regs 0 0 0 else none with
      | some t, some f =>
        let r : Run :=
          { part := b.part, asid := b.asid, task := b.task, team := b.team, spawned := true,
            floor := s.startFloor b.part t b.team, gen := b.gen, refire := b.refire, limit := t.desc.limit,
            depth := s.startDepth b.part t b.team + (if b.refire then 1 else 0), walkn := t.desc.walkn }
        let x := (put (bs.eraseIdx bin)).startRun r b.width b.regs b.kern 0 0 b.entry t.desc.params [(core, f)]
          (some b.items)
        .next (x.1.enterRun x.2 b.entry)
      | _, _ => .next (put (bs.set bin { b with fired := true }))

/-- Teams that wait for a free bin enter it, all those of its task. -/
def Part.binWaiting (x : Part) : Part :=
  match x.refireWait with
  | [] => x
  | w :: _ =>
    let mine := x.refireWait.filter fun y => y.1 == w.1
    mine.foldl (fun (x : Part) y => x.bin y.1 y.2) { x with refireWait := x.refireWait.filter fun y => y.1 != w.1 }

/-- Keys that wait enter bins while some are free. -/
def Part.fillBins (x : Part) : Nat → Part
  | 0 => x
  | n + 1 => if x.refireWait = [] ∨ Config.refireBins ≤ x.refire.length then x else x.binWaiting.fillBins n

/-- A re-fire bin fires: its teams are tested in ascending number. -/
def execRefireBinFire (part task : Nat) (s : State) : Host.Outcome State Fault Refusal :=
  match (s.part part).refire.find? fun b => b.task == task &&
      (decide (16 ≤ b.items.length) || s.binDue part b.start) with
  | none => .next s
  | some b =>
    if s.taskHeld part then .next s
    else
      let s := s.modPart part fun x => { x with refire := x.refire.erase b }
      let s := (b.items.mergeSort fun a c => decide (a ≤ c)).foldl (fun s t => s.fireTeam part task t) s
      .next (s.modPart part Part.binWaiting)

/-! ### Ends (R292, R303) -/

/-- Nothing of a task runs: no team, no spawned team, no thread in a bin. -/
def State.taskQuiet (s : State) (p slot : Nat) : Bool :=
  !(s.runs.any fun r => r.2.part == p && r.2.task == slot && !r.2.disp) &&
    !(s.bins.any fun b => b.2.any fun x => x.part == p && x.task == slot)

/-- A task has ended (R292). -/
def State.taskEnded (s : State) (p slot : Nat) (t : Task) : Bool :=
  s.taskQuiet p slot && (List.range t.desc.nteams).all fun u =>
    let c := s.comp p slot u
    (c.st == .done && c.grade != 0) || c.st == .stale

/-- At the end of a task the dirty bits of its partition reach the leaves (R78). -/
def State.taskEnds (s : State) (p slot : Nat) : State :=
  match s.task? p slot with
  | none => s
  | some t => if s.taskEnded p slot t then s.writeDirty fun part _ _ => part == p else s

/-- A wide release on some cores, and whether it has performed for the requests `mine`; what an engine does is no event of a
thread (R330). -/
def State.releaseCores (s : State) (cores : List Nat) (mine : Req → Bool) : State × Bool :=
  cores.foldl (fun (x : State × Bool) c =>
    let f := x.1.flushFor c .wide
    let s := f.1.drainWhere c fun _ => true
    (s, x.2 && f.2 && (s.core c).reqs.all fun q =>
      !mine q || (q.kind.engine && q.kind != .mload) || q.accs.all fun a => a.performed .wide)) (s, true)

/-- The release of a run that ends without a completion of its own, which then records the one that `TDONE.final` would have
(R292, R322): whether it has performed. -/
def State.releaseRun (s : State) (run : Nat) (r : Run) : State × Bool :=
  if r.disp || r.spawned || r.killed || r.completed then (s, true) else s.releaseCores r.cores fun q => q.idn.run == run

/-- A run's place is free again: rows on their way to its share complete as if they had landed (R274), and so does a core
that is being saved list the team (R314). -/
def State.freeRun (s : State) (run : Nat) (r : Run) : State :=
  let s := r.cores.foldl (fun s c => (s.dropLoads c run fun _ => true).modCore c fun k =>
    { k with
      holders := k.holders.filter fun h => h.2 != run,
      ended := if k.t0.isSome then k.ended ++ [(r.task, r.team)] else k.ended }) s
  { s with runs := AMap.del s.runs run }

/-- A team run has ended: its ways and shares are freed, its completion is recorded, and the team moves on (R299). -/
def execTeamEnd (run : Nat) (s : State) : Host.Outcome State Fault Refusal :=
  match AMap.find? s.runs run with
  | none => .next s
  | some r =>
    let busy := r.cores.any fun c => (s.core c).oxq.any fun q => q.run == run
    if r.ended < r.ngroups || busy then .next s
    else
      match s.releaseRun run r with
      | (s, false) => .next s
      | (s, true) =>
        let s := if r.disp || r.spawned || r.killed || r.completed then s else s.recordCompletion run 3
        let s := s.freeRun run r
        if r.disp then
          .next ((s.modPart r.part fun x => { x with dispatch := none }).setPreg r.part 0x2610
            (setBits (s.preg r.part 0x2610) 63 63 0))
        else if r.spawned then .next (s.taskEnds r.part r.task)
        else
          match s.task? r.part r.task with
          | none => .next s
          | some t =>
            let c := s.comp r.part r.task r.team
            let s := s.setComp r.part r.task r.team { c with st := .done, pend := false }
            if c.pend && !(s.part r.part).ending.contains t.desc.graph then .next (s.toRefire r.part r.task r.team)
            else .next (s.taskEnds r.part r.task)

/-- Whether a released store of a task has still to perform. -/
def State.taskDraining (s : State) (p slot : Nat) : Bool :=
  let mine (o : Origin) : Bool := o.idn.part == p && o.idn.run != 0 && o.idn.task == slot && !o.idn.disp
  ((s.part p).hold.any fun h => h.freed && mine h.org) || (s.net.any fun r => r.who == [] && mine r.org) ||
    s.host.any fun r => r.who == [] && mine r.org

/-- The tasks of an ended graph have all retired (R303). -/
def State.settleGraphs (s : State) (p : Nat) : State :=
  let left := (s.part p).ending.filter fun g => (s.part p).slots.any fun t => t.2.desc.graph == g
  let s := s.modPart p fun x => { x with ending := left }
  let v := s.preg p 0x2600
  if v.getLsbD 63 && !left.contains (bits v 7 0) then s.setPreg p 0x2600 (setBits v 63 63 0) else s

/-- A retiring task leaves its slot; those that name it keep its last completions, and its bins go to others. -/
def State.freeTask (s : State) (part slot : Nat) (t : Task) : State :=
  let last := (List.range (t.desc.nteams - 4096)).foldl (fun m i =>
    AMap.put m (4096 + i) (s.comp part slot (4096 + i))) t.entries
  let gone (r : TaskRec) : TaskRec :=
    { r with deps := r.deps.map fun d => if d.producer = slot ∧ d.past.isNone then { d with past := some last } else d }
  let waits (id : Nat) : Bool := s.cores.any fun k => (k.2.req? id).isSome
  s.modPart part fun x =>
    Part.unqueue { x with
      slots := (AMap.del x.slots slot).map fun (y : Nat × Task) => (y.1, { y.2 with desc := gone y.2.desc }),
      launching := (x.launching.filter fun y => waits y.1).map fun y => (y.1, gone y.2),
      refire := x.refire.filter fun b => b.task != slot, refireWait := x.refireWait.filter fun w => w.1 != slot,
      fired := x.fired.filter fun w => w.1 != slot } fun q => q.1 == slot

/-- Every write of a task's teams has performed, as the write of DONEVAL needs it (R335): the L1s of its partition are written
back for it. -/
def State.taskPerformed (s : State) (part slot : Nat) : State × Bool :=
  s.releaseCores (s.partCores part) fun q => q.idn.part == part && q.idn.task == slot && !q.idn.disp && q.idn.run != 0

/-- Retirement: what is still held is discarded, released stores perform, DONEVAL is written, and the slot is freed. -/
def execTaskRetire (part slot : Nat) (s : State) : Host.Outcome State Fault Refusal :=
  match s.task? part slot with
  | none => .next s
  | some t =>
    let final := (List.range t.desc.nteams).all fun u =>
      let c := s.comp part slot u
      (c.st == .done && c.grade == 3) || c.st == .stale
    let ready := (t.desc.deps.all fun d => d.past.isSome) &&
      (if (s.part part).ending.contains t.desc.graph then s.taskQuiet part slot else s.taskEnded part slot t && final)
    if !ready then .next s
    else
      let s := (s.writeDirty fun p _ _ => p == part).discardHeld part fun h => h.org.idn.task == slot && !h.org.idn.disp
      let va := t.desc.doneva.toNat
      let f := s.taskPerformed part slot
      let s := if va = 0 then s else f.1
      if s.taskDraining part slot || (va != 0 && !f.2) then .next s
      else
        let done : Option State :=
          if va = 0 then some s
          else
            match s.storeCause part t.asid va 8 with
            | some 0 => none
            | some n => some (s.bell part slot 0 t.asid n va 0 true)
            | none => s.pushSector part t.asid va (byteMask va 8) (placeBytes va 8 t.desc.doneval.toNat)
                { idn := { part := part, asid := t.asid, task := slot }, bell := true }
        match done with
        | none => .next s
        | some s =>
          let s := (s.freeTask part slot t).modPart part fun x => x.fillBins x.refireWait.length
          .next (s.settleGraphs part)

/-- A team of a graph that is being ended does not watch a word any longer: its `WAITA` ends, what it returns being unspecified
(R402, log entry 113). -/
def State.endWatches (s : State) (p : Nat) : State :=
  if (s.part p).ending = [] then s
  else s.cores.foldl (fun s k => k.2.reqs.foldl (fun s q =>
    let ends := match s.task? p q.idn.task with
      | none => false
      | some t => (s.part p).ending.contains t.desc.graph
    if q.kind = .waita ∧ q.idn.part = p ∧ q.idn.disp = false ∧ ends = true then
      q.accs.zipIdx.foldl (fun s a =>
        if a.1.st = .watching then (s.scramble k.1 q a.1).finishAcc k.1 q.id a.2 .done else s) s
    else s) s) s

/-- A write to `TGCTL` ends a graph (R303). -/
def State.writeTgctl (s : State) (part : Nat) (value : Word) : State :=
  if (s.preg part 0x2600).getLsbD 63 then s
  else
    let s := s.setPreg part 0x2600 (value &&& 0x80000000000000FF)
    if value.getLsbD 63 then
      ((s.modPart part fun x => { x with ending := (x.ending ++ [bits value 7 0]).eraseDups }).settleGraphs part |>.endWatches part)
    else s

/-- The partition's own function writes the register (R370). -/
def execTgctlEndGraph (part : Nat) (value : Word) (s : State) : Host.Outcome State Fault Refusal :=
  s.asFunction part fun s => s.writeTgctl part value

/-! ### Reading records (R294, R295, R321) -/

/-- A record's words as its home gives them, or whether a sector of it is poisoned. -/
def State.recordAt (s : State) (l : Loc) : Option (List Word) :=
  let secs := (List.range 4).map fun i => s.sector (l.sectorOf i)
  if secs.any (·.poison) then none
  else some (secs.flatMap fun c => (List.range 8).map fun j => BitVec.ofNat 64 (c.data.toNat / 2 ^ (64 * j)))

def State.setStarting (s : State) (p : Nat) (x : Starting) : State := s.modPart p fun y => { y with starting := x }

/-- The dispatch team of a checked record is placed on the Bellwether, once it fits (R278). -/
def State.placeDispatch (s : State) (p : Nat) (ws : List Word) : State :=
  let d := recordOf ws
  let c := s.bellwether p
  match (if s.taskHeld p then none else s.fitCore c d.groups d.width d.regs d.spways d.obunits d.accu) with
  | none => s.setStarting p (.placing ws)
  | some f =>
    let asid := (Config.dispatchAsid p).val + 1
    let r : Run := { part := p, asid := asid, disp := true, ngroups := d.groups }
    let x := s.startRun r d.width d.regs (kernOf asid d.entry d.regs d.width) d.obunits d.accu d.entry d.params
      [(c, f)] none
    ((x.1.enterRun x.2 d.entry).modPart p fun y => { y with dispatch := some x.2 }).setStarting p .idle

/-- The dispatch team starts from its record, or the start fails (R294). -/
def State.startDispatch (s : State) (p : Nat) (ws : Option (List Word)) : State :=
  let fail (s : State) : State :=
    (s.setStarting p .idle).setPreg p 0x2610 (setBits (setBits (s.preg p 0x2610) 62 62 1) 63 63 0)
  match ws with
  | none => fail s
  | some ws => if recordBad ws true then fail s else s.placeDispatch p ws

/-- The four sectors of a record are read where a strong `.dev` load of a core reads (Table 5.2); nothing while one cannot
be. -/
def State.readRecord (s : State) (c : Nat) (l : Loc) : Option (State × Option (List Word)) :=
  let ts := lineTags l.p l.easid l.va
  let s := ts.foldl (fun s t => (s.l1Bypass c t).1) s
  if ts.any fun t => s.noGrant t 0 || ((s.core c).l1Sec t).dirty != 0 then none
  else some ((s.installTlb l.p l.easid l.va).acquireL1 c, s.recordAt l)

/-- The Bellwether reads the dispatch record as a `TLAUNCH` reads a task's. -/
def State.readDispatch (s : State) (p : Nat) : State :=
  let va := bits (s.preg p 0x2610) 55 8 * 256
  match s.resolve p 0 va .noWindow with
  | .ok (.mem l) =>
    match s.readRecord (s.bellwether p) l with
    | none => s.setStarting p .reading
    | some r => r.1.startDispatch p r.2
  | .ok (.host addr) =>
    (s.setStarting p .idle).sendHost
      { part := p, va := va, addr := addr, op := .load 256, org := { idn := { disp := true } } }
  | _ => s.startDispatch p none

/-- A start of the dispatch team that waits is taken up again. -/
def State.settleDispatch (s : State) (p : Nat) : State :=
  match (s.part p).starting with
  | .idle => s
  | .reading => s.readDispatch p
  | .placing ws => s.placeDispatch p ws

/-- A write to `BWCTL`. -/
def State.writeBwctl (s : State) (part : Nat) (value : Word) : State :=
  let old := s.preg part 0x2610
  if old.getLsbD 63 then s
  else
    let err : Word := if old.getLsbD 62 && !value.getLsbD 62 then 0x4000000000000000 else 0
    let s := s.setPreg part 0x2610 ((value &&& 0x80FFFFFFFFFFFF00) ||| err)
    if !value.getLsbD 63 then s
    else
      let va := bits value 55 8 * 256
      let readable := match s.leafOf part 0 va with
        | .leaf e _ => e.getLsbD 56 && leafClass e == 0
        | _ => false
      (if !s.enabled part || !nbit va 55 || !readable then s.startDispatch part none else s.readDispatch part)

/-- The partition's own function writes the register (R370). -/
def execBwctlStart (part : Nat) (value : Word) (s : State) : Host.Outcome State Fault Refusal :=
  s.asFunction part fun s => s.writeBwctl part value

/-! ### Task words (R321-R324) -/

/-- A `.dev` release of a group (R159): what it waits for, and whether that holds. -/
def State.releaseDev (s : State) (c gid : Nat) : State × Bool :=
  let f := s.flushFor c .wide
  let s := f.1.drainWhere c fun _ => true
  (s, f.2 && (s.core c).performed gid s.next .wide)

/-- A record's dependences with the team counts of their producers. -/
def State.withTeams (s : State) (p : Nat) (r : TaskRec) : TaskRec :=
  { r with deps := r.deps.map fun d =>
      { d with np := match s.task? p d.producer with
          | some t => t.desc.nteams
          | none => 0 } }

/-- A task enters a slot; teams with nothing to wait for are eligible at once. -/
def State.launch (s : State) (p slot asid : Nat) (r : TaskRec) : State :=
  let t : Task := { desc := r, asid := asid }
  let s := s.modPart p fun x => { x with slots := AMap.put x.slots slot t }
  (List.range r.nteams).foldl (fun s u => (s.spillOut p slot u {}).retestTeam p slot u) s

/-- Free task slots of a partition. -/
def State.freeSlots (s : State) (p : Nat) : List Nat :=
  (List.range Config.taskSlots).filter fun n => (s.task? p n).isNone

/-- A `TLAUNCH` takes one of the free slots for a checked record (R304). -/
def tlaunchTake (d : Dst) (x : Ctx) (s : State) (m : Mask) (r : TaskRec) (free : List Nat) : WRes :=
  onGroup x s fun g =>
    let slot := free.getD (Config.freeChoice x.fr 64 % free.length) 0
    let s := (s.launch g.part slot g.asid r).acquireL1 x.core
    onGroup x s fun g =>
      .ok (s.setGroup x.core x.slot (({ x with act := m } : Ctx).result g .n32 d false fun _ => slot))

/-- The checks and the slot of a `TLAUNCH` whose record has been read. With every slot live, the checked record waits with
its request (R295, R321). -/
def tlaunchRecord (d : Dst) (x : Ctx) (s : State) (l : Nat) (m : Mask) (ws : List Word) (waits : State → State × Nat) :
    WRes :=
  onGroup x s fun g =>
    let r := recordOf ws
    if recordBad ws false || s.recordClash g.part r then .trap { cause := 0x0B, lane := l }
    else
      let r := s.withTeams g.part r
      match s.freeSlots g.part with
      | [] =>
        let y := waits s
        .part ((y.1.modReq x.core y.2 fun q => { q with started := true }).modPart g.part fun u =>
          { u with launching := AMap.put u.launching y.2 r })
      | free => tlaunchTake d x s m r free

/-- The request that stands for a record which has been read, or is being read. -/
def State.pushRecord (s : State) (x : Ctx) (g : Group) (l va : Nat) (m : Mask) (st : AccSt) : State × Nat :=
  (s.pushReq x { kind := .record, mask := m, accs := [{ lane := l, va := va, size := 256, st := st }] } g.seq, s.next)

/-- A `TLAUNCH` goes on with the request that stands for its record: a record in host memory, which has come or not, or a
checked one that waits for a slot. -/
def tlaunchWaiting (d : Dst) (x : Ctx) (s : State) (g : Group) (l : Nat) (m : Mask) (q : Req) : WRes :=
  let gone (s : State) : State :=
    (s.modCore x.core fun k => { k with reqs := k.reqs.filter fun r => r.id != q.id }).modPart g.part fun u =>
      { u with launching := AMap.del u.launching q.id }
  let fails (t : TrapInfo) : WRes :=
    .part (((gone s).modCore x.core Core.dropAnswers).raisePrecise x.core x.slot t x.pc x.lanes false)
  if q.started then
    match AMap.find? (s.part g.part).launching q.id, s.freeSlots g.part with
    | some r, n :: free =>
      (match tlaunchTake d x s m r (n :: free) with
        | .ok s => .ok (gone s)
        | r => r)
    | _, _ => .hold []
  else if q.accs.any fun a => a.st == .dropped then fails { cause := 0x18, lane := l }
  else if q.accs.all fun a => a.st == .done then
    match tlaunchRecord d x s l m q.words fun s => (s, q.id) with
    | .ok s => .ok (gone s)
    | .trap t => fails t
    | r => r
  else .hold []

/-- `TLAUNCH` for one half of the issue. -/
def tlaunchHalf (d : Dst) (a : Src) (x : Ctx) (s : State) (g : Group) (l : Nat) (m : Mask) : WRes :=
  match (s.core x.core).reqs.find? fun q => q.kind == .record && q.idn.gid == g.gid && q.pc == x.pc && q.mask == m with
  | some q => tlaunchWaiting d x s g l m q
  | none =>
    let va := x.value g 64 l a
    let t : Touch :=
      { lane := l, space := .glb, va := va, size := 256, r := true, w := false, cls := clsOrdinary, store := false }
    match s.check x g .dev [t] none with
    | some r => r
    | none =>
      match s.releaseDev x.core g.gid with
      | (_, false) => .hold []
      | (s, true) =>
        match s.resolve g.part g.asid va .noWindow with
        | .error n => .trap { cause := n, lane := l }
        | .ok (.window _ _) => .trap { cause := 0x1D, lane := l }
        | .ok (.host addr) =>
          let y := s.pushRecord x g l va m .waiting
          let hid := y.1.next
          let s := y.1.sendHost { part := g.part, easid := easidOf g.asid va, va := va, addr := addr, op := .load 256,
                                  who := [(x.core, y.2, 0)] }
          .part (s.setAccSt x.core y.2 0 (.sent hid))
        | .ok (.mem loc) =>
          match s.readRecord x.core loc with
          | none => .hold []
          | some (_, none) => .trap { cause := 0x29, lane := l }
          | some (s, some ws) => tlaunchRecord d x s l m ws fun s => s.pushRecord x g l va m .done

def execTlaunch (gd : Guard) (d : Dst) (a : Src) : State → Host.Outcome State Fault Refusal :=
  groupInstr gd [(64, a)] (tlaunchHalf d a)

/-- `TDONE` (R322): dispatch and spawned teams record nothing. -/
def execTdone (gd : Guard) (grade : Grade) : State → Host.Outcome State Fault Refusal :=
  groupInstr gd [] fun x s g _ _ =>
    match s.releaseDev x.core g.gid with
    | (_, false) => .hold []
    | (s, true) =>
      let r := s.run g.run
      if r.disp || r.spawned then .ok s else .ok (s.recordCompletion g.run grade.code)

/-- The next index of a run's walker (R304). -/
def walkNext (fr : Nat) (r : Run) : Option Nat :=
  let left := (List.range r.walkn).filter fun i => !r.taken.contains i
  if left = [] then none else some (left.getD (Config.freeChoice fr 65 % left.length) 0)

/-- `TWALK` (R323); a dispatch team may not use it (R294). -/
def execTwalk (gd : Guard) (d : Dst) : State → Host.Outcome State Fault Refusal :=
  groupInstr gd [] fun x s g l m =>
    let r := s.run g.run
    if r.disp then .trap { cause := 0x0B, lane := l }
    else
      let i := walkNext (x.fr * 64 + r.taken.length) r
      let s := s.modRun g.run fun r => { r with taken := r.taken ++ i.toList }
      .ok (s.setGroup x.core x.slot
        (({ x with act := m } : Ctx).result g .n32 d false fun _ => i.getD 0xFFFFFFFF))

/-- The word of Table 14.5. -/
def State.taskStatus (s : State) (p q : Nat) : Nat :=
  let slot := q % 1024
  let team := q / 65536 % 65536
  match s.task? p slot with
  | none => 0
  | some t =>
    2 ^ 31 + (if s.taskEnded p slot t then 2 ^ 30 else 0) +
      (if t.desc.nteams ≤ team then 2 ^ 29 else (s.comp p slot team).word)

def execTstat (gd : Guard) (d : Dst) (a : Src) : State → Host.Outcome State Fault Refusal :=
  issueWord gd true fun x s => onGroup x s fun g =>
    let q (l : Nat) : Nat := x.value g 32 l a
    match g.poisonTrap x.active [(32, a)] <|> firstLane x.active (fun l => q l / 1024 % 64 != 0) 0x0B with
    | some t => .trap t
    | none =>
      let far (l : Nat) : Bool :=
        match s.task? g.part (q l % 1024) with
        | some t => decide (q l / 65536 % 65536 < t.desc.nteams) && !s.spillOk g.part (q l % 1024) (q l / 65536 % 65536)
        | none => false
      let news := x.active.filter fun l => far l && (s.spillNews g.part (q l % 1024) (q l / 65536 % 65536)).isSome
      if news ≠ [] then .part (news.foldl (fun s l => s.spillTell g.part (q l % 1024) (q l / 65536 % 65536)) s)
      else if x.active.any far then .hold []
      else .ok (s.setGroup x.core x.slot (x.result g .n32 d false fun l => s.taskStatus g.part (q l)))

end Sys2Proof.Machine
end

