-- ==== Sys2Proof/Machine/Preempt.lean ====
section
/-! DEFINITION. Pre-emption (R361-R364), the save area (R365-R367), and the teardown of an address space (R368). -/

namespace Sys2Proof.Machine

/-! ### Pre-emption -/

def prectl (p : Nat) : Nat := 0x100 + 8 * p
def State.prectlBit (s : State) (p b : Nat) : Bool := (s.hreg (prectl p)).getLsbD b
def State.setPrectl (s : State) (p b : Nat) (v : Bool) : State :=
  s.setHreg (prectl p) (setBits (s.hreg (prectl p)) b b (if v then 1 else 0))

/-- A write of `PRECTL`.GO; ignored while a save is held (Table 16.6). -/
def execPrectlGo (p : Nat) (s : State) : Host.Outcome State Fault Refusal :=
  if 16 ≤ p ∨ s.prectlBit p 61 = true ∨ s.prectlBit p 63 = true then .next s
  else .next ((s.setPrectl p 63 true).modPart p fun x => { x with preempting := true })

/-- Every core of the partition has saved: GO clears, and the save is held. -/
def State.endPreempt (s : State) (p : Nat) : State :=
  if (s.part p).inEffect && (s.partCores p).all fun c => (s.core c).save.isSome then
    let forced := (s.partCores p).any fun c => match (s.core c).save with
      | some i => i.kind == 2
      | none => false
    let s := s.modPart p fun x => { x with preempting := false, inEffect := false }
    (((s.setPrectl p 63 false).setPrectl p 61 true).setPrectl p 60 forced).setPrectl p 58 false
  else s

/-- Pre-emption takes effect in one clock: every team halts, but one whose trap is being handled, and but groups that
run a pre-emption handler already. -/
def execPreemptTakeEffect (p : Nat) (s : State) : Host.Outcome State Fault Refusal :=
  if !(s.part p).preempting || (s.part p).inEffect then .next s
  else
    let s := s.modPart p fun x => { x with inEffect := true }
    let t := s.clock p
    let s := (s.partCores p).foldl (fun s c => s.modCore c fun k => { k with t0 := some t, forcing := false, ended := [] }) s
    let s := (s.residents p).foldl (fun s x =>
      match s.group? x.1 x.2 with
      | none => s
      | some g =>
        if g.mode = .normal ∧ (s.run g.run).halt.isNone = true then
          (s.reachHalt x.1 x.2).withdraw x.1 g.gid fun _ a => a.st == .parked || a.st == .refused
        else s) s
    .next (s.endPreempt p)

/-- A group that is not done stops where it stands, for a forced save; some words run on (Table 14.6). -/
def State.forceStop (s : State) (c slot : Nat) : State :=
  match s.group? c slot with
  | none => s
  | some g =>
    if g.mode = .psaveDone ∨ s.runsOn c slot g = true then s
    else
      ((s.setGroup c slot { g with halt := .stopped }).modCore c fun k => k.leaveGang slot (BitVec.allOnes 64)).withdrawPreempt
        c slot

/-- The budget of a core has run out while some group of it is not done. -/
def execPreemptBudgetExpiry (core : Nat) (s : State) : Host.Outcome State Fault Refusal :=
  match s.partOf core, (s.core core).t0 with
  | some p, some t =>
    let waiting := (s.core core).groups.any fun g => g.2.mode != .psaveDone
    if (s.part p).inEffect && waiting && decide ((s.part p).prebudget ≤ (s.clock p - t).toNat) then
      .next (((s.core core).groups.map (·.1)).foldl (fun s i => s.forceStop core i)
        (s.modCore core fun k => { k with forcing := true }))
    else .next s
  | _, _ => .next s

/-! ### The save area (R365) -/

/-- Index of a core's slot. -/
def State.saveIndex (s : State) (p c : Nat) : Nat := (clusterOf c - s.base p) * Config.coresPerCluster + coreIn c

def State.saveVa (s : State) (p c : Nat) : Nat := bits (s.preg p 0x2710) 55 20 * 2 ^ 20 + s.saveIndex p c * 2 ^ 20
def State.saveEn (s : State) (p : Nat) : Bool := (s.preg p 0x2710).getLsbD 63
def State.fallEn (s : State) (p : Nat) : Bool := (s.hreg (0x200 + 8 * p)).getLsbD 63
def State.fallPa (s : State) (p c : Nat) : Nat := bits (s.hreg (0x200 + 8 * p)) 51 20 * 2 ^ 20 + s.saveIndex p c * 2 ^ 20

/-- Runs of a core whose groups have all ended, but whose end has still to be recorded (R314). -/
def State.overRuns (s : State) (c : Nat) : List (Nat × Run) :=
  s.runs.filter fun r => r.2.cores.contains c && decide (r.2.ngroups ≤ r.2.ended)

/-- Teams with an entry in a core's slot: those resident, then those that have ended since the pre-emption. -/
def State.saveTeams (s : State) (c : Nat) : List (Option Nat × Nat × Nat) :=
  let live := ((s.core c).groups.map fun g => g.2.run).eraseDups
  let gone := (s.core c).ended ++ (s.overRuns c).map fun r => (r.2.task, r.2.team)
  ((live.map fun r => (some r, (s.run r).task, (s.run r).team)) ++ gone.map fun (e : Nat × Nat) => (none, e.1, e.2)).take 16

/-- A reservation record (Table 11.1). FMT of one that `OBRES` has never set is 0. -/
def Resv.word (r : Resv) : Word :=
  BitVec.ofNat 64 ((if r.v then 2 ^ 63 else 0) + (if r.lost then 2 ^ 62 else 0) +
    (if r.fmt = .f32 ∧ r.ksteps = 0 then 0 else r.fmt.code % 32 * 2 ^ 57) + (if r.sc then 2 ^ 56 else 0) +
    r.base % 512 * 2 ^ 47 + r.soff % 512 * 2 ^ 38 + r.ksteps % 2048 * 2 ^ 27 + r.rowsm1 % 4096 * 2 ^ 15)

/-- The record that a word holds. -/
def Resv.ofWord (w : Word) : Resv :=
  { v := w.getLsbD 63, lost := w.getLsbD 62, fmt := (Ty.ofCode (bits w 61 57)).getD .f32, sc := w.getLsbD 56,
    base := bits w 55 47, soff := bits w 46 38, ksteps := bits w 37 27, rowsm1 := bits w 26 15 }

/-- Word 1 of a team entry: its groups, ways and shares, in the engine's packing (R365). -/
def State.shareWord (s : State) (c r : Nat) : Word :=
  let k := s.core c
  let mask (l : List Nat) : Nat := l.foldl (fun n i => n + 2 ^ i) 0
  let ob := AMap.get (s.run r).ob c (0, 0)
  let acc := s.accShare r c
  Config.saveShares (mask ((k.groups.filter fun g => g.2.run == r).map (·.1)))
    (mask ((k.holders.filter fun h => h.2 == r).map (·.1))) [ob.1, ob.2, acc.1, acc.2]

/-- Words 24-47 of a team entry: the barriers of the team, in the engine's packing. -/
def State.barrierWord (s : State) (r i : Nat) : Word :=
  let one (b : Nat × Barrier) : List Nat :=
    [b.1, b.2.bc.toNat, b.2.arr, (match b.2.exp with | none => 0 | some n => n + 1), if b.2.z then 1 else 0]
  Config.saveBarriers ((s.run r).bars.flatMap one) ((s.run r).hbars.flatMap one) i

/-- Word `i` of a team entry (Table 16.7). -/
def State.teamWord (s : State) (c : Nat) (e : Option Nat × Nat × Nat) (i : Nat) : Word :=
  match i, e.1 with
  | 0, r => BitVec.ofNat 64 (e.2.1 % 1024 * 2 ^ 54 + e.2.2 % 65536 * 2 ^ 32 + if r.isSome then 0 else 1)
  | 2, some r => BitVec.ofNat 64 (s.run r).floor
  | 3, some r => amdepth (s.run r)
  | n, some r =>
    if n = 1 then s.shareWord c r
    else if 8 ≤ n ∧ n < 24 then (s.resvOf r c (n - 8)).word
    else if 24 ≤ n ∧ n < 48 then s.barrierWord r (n - 24)
    else 0
  | n, none => Config.freeWord s.free (c * 64 + n)

def sector8 (f : Nat → Word) : Sector := sectorOf ((List.range 8).map f)

/-- Registers that the groups of lower slots have in a register-file lane: a group's own follow them (log entry 74). -/
def fileBase (gs : AMap Group) (slot j : Nat) : Nat :=
  gs.foldl (fun n g => if g.1 < slot ∧ g.2.pos ≤ j ∧ j < g.2.pos + g.2.width then n + g.2.regs else n) 0

/-- The group, with its lane and register, that word `n` of register-file lane `j` belongs to. -/
def fileWord (gs : AMap Group) (j n : Nat) : Option (Group × Nat × Nat) :=
  gs.findSome? fun g =>
    let b := fileBase gs g.1 j
    if g.2.pos ≤ j ∧ j < g.2.pos + g.2.width ∧ b ≤ n ∧ n < b + g.2.regs then some (g.2, j - g.2.pos, n - b) else none

/-- Word `w` of the main-file image, in register-file lane order; of no group's registers, unspecified. -/
def Core.fileImage (k : Core) (fr w : Nat) : Reg32 :=
  match fileWord k.groups (w / 768) (w % 768) with
  | some (g, l, r) => AMap.get g.vo (rkey l r) 0
  | none => (Config.freeWord fr w).setWidth 32

/-- Bit `b` of the main-file poison image. -/
def Core.filePoison (k : Core) (b : Nat) : Bool :=
  match fileWord k.groups (b / 2 / 768) (b / 2 % 768) with
  | some (g, l, r) => nbit (AMap.get g.poison (rkey l r) 0) (b % 2)
  | none => false

/-- A sector of sixteen 32-bit words. -/
def sector16 (f : Nat → Reg32) : Sector :=
  BitVec.ofNat 512 ((List.range 16).foldl (fun n i => n + (f i).toNat * 2 ^ (32 * i)) 0)

/-- Accumulator rows inside some group's window (R272). -/
def State.inSomeWindow (s : State) (c : Nat) (gs : AMap Group) (row : Nat) : Bool :=
  gs.any fun g =>
    let b := (s.accShare g.2.run c).1 * 8
    decide (b + g.2.awbase ≤ row) && decide (row < b + g.2.awlimit)

/-- One sector of a save image, where the kind of save writes it. -/
def State.saveSector (s : State) (c kind : Nat) (off : Nat) : Option Sector :=
  let k := s.core c
  let free : Sector := sector8 fun i => Config.freeWord s.free (off / 8 + i)
  let teams := s.saveTeams c
  if off < 0x1000 then
    some (if off = 0 then sector8 fun i =>
        if i = 0 then BitVec.ofNat 64 (kind + teams.length * 16 + k.carve % 16 * 4096)
        else if i = 1 then (k.t0).getD 0 else 0
      else 0)
  else if off < 0x3000 then
    let j := (off - 0x1000) / 512
    some (match teams[j]? with
      | some e => sector8 fun i => s.teamWord c e ((off - 0x1000) % 512 / 8 + i)
      | none => 0)
  else if off < 0x43000 then
    let o := (off - 0x3000) % 0x4000
    if kind = 1 ∧ 0x1140 ≤ o ∧ o < 0x1D40 then none
    else some free
  else if 0xC6000 ≤ off then some 0
  else if kind = 1 then none
  else if off < 0x73000 then some (sector16 fun i => k.fileImage s.free ((off - 0x43000) / 4 + i))
  else if off < 0xB3000 then
    if (off - 0x73000) / Config.wayBytes < k.carve then none
    else some (BitVec.ofNat 512 (Memory.readN k.ways (off - 0x73000) 64))
  else if off < 0xC3000 then
    let row := (off - 0xB3000) / 256
    some (sector16 fun i => if s.inSomeWindow c k.groups row then AMap.get k.acc (row * 64 + (off - 0xB3000) % 256 / 4 + i) 0
      else (Config.freeWord s.free (off + i)).setWidth 32)
  else
    some (BitVec.ofNat 512 ((List.range 512).foldl (fun n b =>
      n + if k.filePoison ((off - 0xC3000) * 8 + b) then 2 ^ b else 0) 0))

/-- The sectors of a slot, header last (R366). -/
def saveOffsets : List Nat := ((List.range 16384).map (· * 64)).drop 1 ++ [0]

/-- Why a save would fault: a page that cannot be written, is not ordinary memory of the device, or is not there. -/
def State.saveFaults (s : State) (p c : Nat) : Bool :=
  (List.range 16).any fun i =>
    let va := s.saveVa p c + 65536 * i
    match s.storeCause p 0 va 64, s.resolve p 0 va .noWindow with
    | some 0, _ => false
    | some _, _ => true
    | none, .ok (.mem _) => false
    | none, .error 0 => false
    | none, _ => true

/-- Write a core's slot at its virtual place, as a `.dev` engine agent; nothing where a write would fault or
has to wait. -/
def State.writeSave (s : State) (p c kind : Nat) : Option State :=
  if s.saveFaults p c then none
  else saveOffsets.foldl (fun t off =>
    t.bind fun t =>
      match s.saveSector c kind off with
      | none => some t
      | some d =>
        match t.resolve p 0 (s.saveVa p c + off) .noWindow with
        | .ok (.mem l) =>
          if t.claimed l.tag then none
          else some ((t.installTlb p 0 (s.saveVa p c + off)).writeOwned (68 + dieOf c) l d {} false)
        | _ => none) (some s)

/-- Write sectors at physical addresses under key slot 0. -/
def State.pokeSector (s : State) (pa : Nat) (d : Sector) : State :=
  let e := AMap.get s.rmap (pa / 2 ^ 16) 0
  let s := if e.getLsbD 63 then s.recall (ownerTag e pa) else s
  s.writeDram { p := 0, easid := 0, va := 0, pa := pa, slot := 0, cls := 0 } d {} false

def State.writeFallback (s : State) (p c kind : Nat) : State :=
  saveOffsets.foldl (fun t off =>
    match s.saveSector c kind off with
    | none => t
    | some d => t.pokeSector (s.fallPa p c + off) d) s

/-- Header word 2 of every fallback slot says where the core's save lies (R367). -/
def State.writeInfall (s : State) (p : Nat) : State :=
  if !s.prectlBit p 59 || !s.fallEn p then s
  else
    (s.partCores p).foldl (fun s c =>
      match (s.core c).save with
      | none => s
      | some i =>
        let pa := s.fallPa p c + 16
        { s.retag pa 0 with mem := Memory.writeN (s.retag pa 0).mem pa 8 (if i.infall then 1 else 0) }) s

/-! ### Saving (R363) -/

/-- A request of a group that the save waits for (Table 8.6, R271): an atomic, a store that has still to drain, or a read that
has been neither withdrawn nor logged. The others run on while the group is saved. -/
def Req.holdsSave (q : Req) : Bool :=
  match q.kind with
  | .tcopy | .fput | .fget | .gstep | .seal | .unseal | .carve | .harvest | .fence | .acqr | .ffence | .acset | .gfence =>
    false
  | _ => !(q.accs.all fun a => a.performed .wide || a.st == .logged)

def Core.ownReq (k : Core) (q : Req) : Bool := k.groups.any fun g => g.2.gid == q.idn.gid

/-- The kind of save that a core is ready for, once all that the save waits for is done. -/
def State.saveReady (s : State) (c : Nat) : Option Nat :=
  let k := s.core c
  let quiet := k.sfq == [] && k.oxq == [] && k.reqs.all fun q => !((k.ownReq q || q.kind.store) && q.holdsSave)
  if k.t0.isNone || k.save.isSome || !quiet then none
  else if k.groups.all fun g => g.2.mode == .psaveDone then some 1
  else if k.forcing && k.groups.all fun g => g.2.halt == .stopped then some 2
  else none

/-- The engine takes the core's teams off it. -/
def State.takeSave (s : State) (p c kind : Nat) (infall : Bool) : State :=
  let k := s.core c
  let closing := (s.overRuns c).map (·.1)
  let img : SaveImg :=
    { kind := kind, infall := infall, t0 := k.t0.getD 0, carve := k.carve, groups := k.groups,
      holders := k.holders.filter fun h => !closing.contains h.2, teams := (s.saveTeams c).map (·.1), ways := k.ways, acc := k.acc, accPoison := k.accPoison }
  let s := s.setCore c
    { k with
      groups := [], table := [], equeue := [], holders := [], ways := [], fills := [], acc := [], accPoison := [],
      obPoison := [], t0 := none, forcing := false, ended := [], save := some img }
  let s := if infall then s.setPrectl p 59 true else s
  ((s.writeInfall p).endPreempt p).spend

/-- Dirty lines and combined stores of a core leave before it is saved. -/
def State.drainCore (s : State) (c : Nat) : State := (s.flushL1 c).drainWhere c fun _ => true

/-- The save of a core into the fallback slot, or STUCK where there is none (R367). -/
def State.divertSave (s : State) (p c kind : Nat) : State :=
  if s.fallEn p then ((s.writeFallback p c kind).setPrectl p 59 true).takeSave p c kind true
  else s.setPrectl p 58 true

/-- The context engine saves a core; without a valid save area it goes into the fallback slot at once. -/
def execContextSave (core : Nat) (s : State) : Host.Outcome State Fault Refusal :=
  match s.partOf core with
  | none => .next s
  | some p =>
    if !(s.part p).inEffect then .next s
    else
      let s := s.drainCore core
      let s := ((s.core core).groups.map (·.1)).foldl (fun s i =>
        if (s.core core).forcing then s.forceStop core i else s) s
      match s.saveReady core with
      | none => .next s
      | some kind =>
        if !s.saveEn p then .next (s.divertSave p core kind)
        else
          match s.writeSave p core kind with
          | none => .next s
          | some s => .next (s.takeSave p core kind false)

/-- A save write faults: the whole save goes into the fallback slot, and the hypervisor is told. -/
def execSaveFault (core : Nat) (s : State) : Host.Outcome State Fault Refusal :=
  match s.partOf core with
  | none => .next s
  | some p =>
    let s := s.drainCore core
    match s.saveReady core with
    | none => .next s
    | some kind =>
      if (s.part p).inEffect && s.saveEn p && s.saveFaults p core then
        .next (((s.setPrectl p 59 true).irq (.saveFault p core)).divertSave p core kind)
      else .next s

/-- A write to `SVFALL`; saves that were stuck continue into the fallback. -/
def State.setSvfall (s : State) (p : Nat) (value : Word) : State :=
  let s := s.setHreg (0x200 + 8 * p) (value &&& 0x800FFFFFFFF00000)
  if s.prectlBit p 58 && s.fallEn p then
    let s := s.setPrectl p 58 false
    (s.partCores p).foldl (fun s c =>
      match s.saveReady c with
      | some kind => if !s.saveEn p || s.saveFaults p c then s.divertSave p c kind else s
      | none => s) s
  else s

/-! ### Restoring (R364) -/

/-- Registers, predicates' kin and scratch state that a cooperative save does not keep: their values are unspecified, their
poison stays (log entry 76). -/
def Group.forget (g : Group) (fr : Nat) : Group :=
  let codes := List.range g.regs ++ (List.range 8).map (· + 768)
  { g with
    vo := (List.range g.width).flatMap fun l => codes.map fun c => (rkey l c, (Config.freeWord fr (rkey l c)).setWidth 32),
    l := (List.range g.width).flatMap fun l =>
      [(lkey l 0, Config.freeWord fr (rkey l 776)), (lkey l 1, Config.freeWord fr (rkey l 777))] }

/-- How a group goes on when it is restored. -/
def Group.restored (g : Group) (kind fr : Nat) (waits : Bool) : Group :=
  let g := if kind = 1 then g.forget (fr + g.gid) else g
  let halt : Halt := if waits then .stopped else .running
  match g.mode with
  | .psaveDone =>
    if g.shadow = [] then { g with mode := .normal, halt := halt }
    else { g with mode := .prest, halt := halt, hflags := [], hbars := [] }
  | _ => { g with halt := halt }

/-- Whether a team's halt still stops a group: it waits for its team's handler, or to enter it. -/
def State.staysHalted (s : State) (c slot : Nat) (g : Group) : Bool :=
  match (s.run g.run).halt with
  | none => false
  | some h => !(h.entered && (h.core, h.slot) == (c, slot))

/-- A byte of memory that is unspecified after a restore. -/
def freeBytes (fr n : Nat) (m : Memory) (at_ : Nat) : Memory :=
  (List.range n).foldl (fun m i => Memory.write m (at_ + i) ((Config.freeWord fr (at_ + i)).setWidth 8)) m

/-- Whether a core's save lies in the fallback slot: word 2 of its header there says so (R367). -/
def State.inFallback (s : State) (p c : Nat) : Bool :=
  s.prectlBit p 59 && s.fallEn p && nbit ((s.dramSector (s.fallPa p c) 0).1.toNat / 2 ^ 128) 0

/-- The physical address and key slot that a byte of a core's slot is read at. -/
def State.slotPlace (s : State) (p c off : Nat) : Except Nat (Nat × Nat) :=
  if s.inFallback p c then .ok (s.fallPa p c + off, 0)
  else match s.resolve p 0 (s.saveVa p c + off) .noWindow with
    | .ok (.mem l) => .ok (l.pa, l.slot)
    | .error n => .error n
    | .ok _ => .error 0x27

/-- The context engine takes the slot that it reads a core from: other copies of its sectors are recalled, and a line that is
poisoned is logged (R81, log entry 99); `none` while one of them waits for another engine's write (R117) or its walk does. -/
def State.takeSlot (s : State) (p c : Nat) : Option State :=
  saveOffsets.foldl (fun t off =>
    t.bind fun t =>
      match t.slotPlace p c off with
      | .error 0 => none
      | .error _ => some t
      | .ok x =>
        let e := AMap.get t.rmap (x.1 / 2 ^ 16) 0
        if e.getLsbD 63 && t.claimed (ownerTag e x.1) then none
        else
          let t := if e.getLsbD 63 then t.recall (ownerTag e x.1) else t
          some (if off % 256 = 0 && (t.dramSector x.1 x.2).2.2 then { t with errorLog := t.errorLog ++ [x.1 / 256] } else t))
    (some s)

/-- Four bytes of a core's slot; unspecified where the slot cannot be read any more, or its line is poisoned. -/
def State.slotWord (s : State) (p c off : Nat) : Reg32 :=
  let d : Option Sector := match s.slotPlace p c off with
    | .ok x =>
      let d := s.dramSector x.1 x.2
      if d.2.2 then none else some d.1
    | .error _ => none
  match d with
  | some d => BitVec.ofNat 32 (d.toNat / 2 ^ (8 * (off % 64)))
  | none => (Config.freeWord s.free off).setWidth 32

def State.slotWord64 (s : State) (p c off : Nat) : Word :=
  (s.slotWord p c (off + 4)).setWidth 64 <<< 32 ||| (s.slotWord p c off).setWidth 64

/-- Whether entry `j` of a core's slot lists its team to be restored (R364). -/
def State.slotLists (s : State) (p c j : Nat) : Bool :=
  decide (j < bits (s.slotWord64 p c 0) 8 4) && decide (bits (s.slotWord64 p c (0x1000 + 512 * j)) 1 0 = 0)

/-- The team entries of a slot that stand for teams of the saved core: the run, and the entry's number. -/
def SaveImg.entries (i : SaveImg) : List (Nat × Nat) :=
  ((List.range i.teams.length).zip i.teams).filterMap fun x => x.2.map fun r => (r, x.1)

/-- A group's main-file registers and their poison as the images of its slot give them. -/
def Group.readFile (g : Group) (base : Nat → Nat) (word : Nat → Reg32) : Group :=
  let at_ (l r : Nat) : Nat := base (g.pos + l) + r
  let halves (l r : Nat) : Nat :=
    let b := 2 * (768 * (g.pos + l) + at_ l r)
    (word (0xC3000 + b / 32 * 4)).toNat / 2 ^ (b % 32) % 4
  let kept := g.poison.filter fun x => !(decide (x.1 < 65536) && decide (x.1 % 1024 < 768))
  { g with
    vo := (List.range g.width).flatMap fun l =>
      (List.range g.regs).map (fun r => (rkey l r, word (0x43000 + 3072 * (g.pos + l) + 4 * at_ l r))) ++
        (List.range 8).map fun i => (rkey l (768 + i), AMap.get g.vo (rkey l (768 + i)) 0),
    poison := (List.range g.width).foldl (fun m l => (List.range g.regs).foldl (fun m r =>
      if halves l r = 0 then m else AMap.put m (rkey l r) (halves l r)) m) kept }

/-- A team's grade floor, amendment depth and reservations on a core, as its entry in the slot gives them; `word` reads the entry. -/
def Run.readEntry (r : Run) (c : Nat) (word : Nat → Word) : Run :=
  let d := word 3
  { r with
    floor := bits (word 2) 1 0, gen := bits d 15 10, refire := d.getLsbD 9, limit := bits d 7 4, depth := bits d 3 0,
    resv := (List.range 16).foldl (fun m n => AMap.put m (c * 16 + n) (Resv.ofWord (word (8 + n)))) r.resv }

/-- The scratchpad of a saved core's teams, read from its slot, with what has landed there since (R161). -/
def SaveImg.readWays (i : SaveImg) (word : Nat → Reg32) : Memory :=
  let m := i.holders.foldl (fun m h => (List.range (Config.wayBytes / 4)).foldl (fun m n =>
    let at_ := h.1 * Config.wayBytes + 4 * n
    Memory.writeN m at_ 4 (word (0x73000 + at_)).toNat) m) []
  i.landed.foldl (fun m x => Memory.write m x.1 (BitVec.ofNat 8 x.2)) m

/-- A saved core takes its teams up again (R364): the header, the team entries and the images are read from its slot, what the
engine keeps in a form of its own from the engine's copy (log entry 55). -/
def State.resumeCore (s : State) (p c : Nat) (i : SaveImg) : State :=
  let fr := s.free + 1
  let k := s.core c
  let word := s.slotWord p c
  let entry (j n : Nat) : Word := s.slotWord64 p c (0x1000 + 512 * j + 8 * n)
  let head := s.slotWord64 p c 0
  let kind := bits head 2 0
  let forced := kind = 2
  let back := i.entries.filter fun e => s.slotLists p c e.2
  let gone := i.groups.filter fun g => !(back.any fun e => e.1 == g.2.run)
  let i : SaveImg := { i with groups := i.groups.filter fun g => back.any fun e => e.1 == g.2.run }
  let s := back.foldl (fun s e => s.modRun e.1 fun r => r.readEntry c (entry e.2)) s
  let s := gone.foldl (fun s g => s.modRun g.2.run fun r => { r with ended := r.ended + 1 }) s
  let ways := if forced then i.readWays word
    else i.holders.foldl (fun m h => freeBytes fr Config.wayBytes m (h.1 * Config.wayBytes)) []
  let acc : AMap Reg32 := (List.range 16384).map fun e =>
    (e, if forced ∧ s.inSomeWindow c i.groups (e / 64) = true then word (0xB3000 + 4 * e)
      else (Config.freeWord (fr + 1) e).setWidth 32)
  let groups := i.groups.map fun (g : Nat × Group) =>
    let x := if forced then g.2.readFile (fileBase i.groups g.1) word else g.2
    (g.1, x.restored kind fr (s.staysHalted c g.1 g.2))
  let accPoison := if forced then i.accPoison.filter fun x => s.inSomeWindow c i.groups (x.1 / 64) else []
  let runs := (i.groups.map fun g => g.2.run).eraseDups
  let s := s.setCore c (Core.dropClean
    ({ k with
      groups := groups, holders := i.holders, carve := bits head 15 12, ways := ways, acc := acc, accPoison := accPoison,
      save := none } : Core))
  let s := s.modCore c fun k => if i.groups = [] then k else k.blankOb 0 131072 (fr + 2)
  let s := runs.foldl (fun s r => s.modRun r fun x =>
    { x with
      hbars := if kind = 1 then [] else x.hbars,
      resv := x.resv.map fun y => if y.1 / 16 = c then (y.1, { y.2 with lost := y.2.lost || y.2.v }) else y }) s
  let s : State := { s with free := s.free + 4 }
  groups.foldl (fun s g =>
    if g.2.halt = .running then (s.reissue c g.1).retest c g.1 else s) s

/-- A core is restored as soon as its slot can be read; a header that names no kind of save holds nothing to restore
(log entry 125). -/
def State.restoreCore (s : State) (p c : Nat) : State :=
  match (s.core c).save, s.takeSlot p c with
  | some i, some t =>
    if bits (t.slotWord64 p c 0) 2 0 = 1 ∨ bits (t.slotWord64 p c 0) 2 0 = 2 then t.resumeCore p c i else s
  | _, _ => s

/-- The time that a partition was pre-empted, from `t0` on, does not count for its bins; a bin begun since then begins now. -/
def State.resumeBins (s : State) (p : Nat) (t0 : Word) : State :=
  let now := s.clock p
  let later (start : Word) : Word := if start ≤ t0 then start + (now - t0) else now
  let s : State := { s with bins := s.bins.map fun (b : Nat × List SpawnBin) =>
    (b.1, b.2.map fun x => if x.part = p then { x with start := later x.start } else x) }
  s.modPart p fun x => { x with refire := x.refire.map fun b => { b with start := later b.start } }

/-- While a partition is being restored, cores follow as they can; with the last, its task unit and its bins go on. -/
def State.settleResume (s : State) (p : Nat) : State :=
  match (s.part p).resuming with
  | none => s
  | some t0 =>
    let s := (s.partCores p).foldl (fun s c => s.restoreCore p c) s
    if (s.partCores p).any fun c => (s.core c).save.isSome then s
    else
      ((((s.setPrectl p 62 false).setPrectl p 61 false).setPrectl p 60 false).resumeBins p t0).modPart p
        fun x => { x with resuming := none }

/-- A write of `PRECTL`.RESUME; ignored while no save is held or GO is set. -/
def execPrectlResume (p : Nat) (s : State) : Host.Outcome State Fault Refusal :=
  if 16 ≤ p ∨ s.prectlBit p 61 = false ∨ s.prectlBit p 63 = true ∨ (s.part p).resuming.isSome = true then .next s
  else
    let t0 := ((s.partCores p).findSome? fun c => (s.core c).save.map fun i => i.t0).getD (s.clock p)
    .next (((s.setPrectl p 62 true).modPart p fun x => { x with resuming := some t0 }).settleResume p)

/-! ### Fatal teardown (R368) -/

/-- Groups of an address space, saved ones with them, end; their runs record no completion. -/
def State.endSpace (s : State) (p : Nat) (hit : Nat → Bool) : State :=
  let rs := (s.runs.filter fun r => r.2.part == p && hit r.2.asid).map (·.1)
  let s := rs.foldl (fun s r => s.modRun r fun x => { x with killed := true }) s
  let stopped (g : Group) : Bool := g.halt == .stopped || g.mode == .psaveDone || !(g.thr.any fun t => t.2.st == .ready)
  let s := (s.residents p).foldl (fun s x =>
    match s.group? x.1 x.2 with
    | some g => if hit g.asid && stopped g then s.endGroup x.1 x.2 else s
    | none => s) s
  let gone (k : Core) : List Group := match k.save with
    | none => []
    | some i => (i.groups.filter fun g => g.2.part == p && hit g.2.asid).map (·.2)
  let s := s.cores.foldl (fun s k => (gone k.2).foldl (fun s g =>
    s.modRun g.run fun r => { r with ended := r.ended + 1 }) s) s
  let strip (i : SaveImg) : SaveImg := { i with groups := i.groups.filter fun g => !(g.2.part == p && hit g.2.asid) }
  { s with cores := s.cores.map fun (k : Nat × Core) => (k.1, { k.2 with save := k.2.save.map strip }) }

/-- Bytes of a sector that a request's stores have left in the L1. -/
def Req.l1Mask (q : Req) (t : Nat) : Mask :=
  q.accs.foldl (fun m a => if a.st = .l1 ∧ accTag q.idn.part q a = t then m ||| a.mask else m) 0

/-- Engine operations that are discarded give up the sectors they have taken. -/
def State.dropClaims (s : State) (mine : Req → Bool) : State :=
  let qs := s.cores.flatMap fun k => k.2.reqs.filter fun q => mine q && q.kind.engine
  ((s.cached.map (·.1)).filter fun t => s.claimed t && qs.any fun q => q.engineIn fun p e va => sectorTag p e va == t).foldl
    (fun s t => s.setCopies t ((s.copies t).map fun c => if c.st = .e then { c with st := .m } else c)) s

/-- Held stores and spawn bins of an address space, with what has been released of the one and not yet drained. -/
def State.discardSpace (s : State) (p : Nat) (f : Nat → Bool) : State :=
  let s := s.discardHeld p fun h => f h.org.idn.asid
  let s := s.modPart p fun x => { x with hold := x.hold.filter fun h => !f h.org.idn.asid }
  let bins (b : Nat × List SpawnBin) : Nat × List SpawnBin := (b.1, b.2.filter fun x => !(x.part == p && f x.asid))
  { s with
    net := s.net.filter fun r => !(r.who == [] && r.part == p && f r.org.idn.asid),
    host := s.host.filter fun r => !(r.who == [] && r.part == p && f r.org.idn.asid && !r.org.idn.disp),
    bins := s.bins.map bins }

/-- Steps 1 and 2: translations go, and what is held, parked, logged, buffered or unwritten is discarded. -/
def State.killSpace (s : State) (p easid : Nat) : State :=
  let hit (part e _ : Nat) : Bool := part == p && e == easid
  let s := (s.dropPlb hit).modPart p fun x => { x with killing := (x.killing ++ [easid]).eraseDups }
  let tlb := s.tlb.filter fun t => t.1 / 2 ^ 40 != p * 4096 + easid
  let s : State := { s with tlb := tlb }
  let s := s.discardSpace p fun a => a == easid
  let s := s.modPart p fun x => { x with records := x.records.filter fun r => r.org.idn.asid != easid }
  let mine (q : Req) : Bool := q.idn.part == p && q.idn.asid == easid
  let s := s.dropClaims mine
  let wipe (k : Core) (x : Nat × L1Sec) : Nat × L1Sec :=
    let gone : Mask := k.reqs.foldl (fun m q => if mine q then m ||| q.l1Mask x.1 else m) 0
    (x.1, { x.2 with dirty := x.2.dirty &&& ~~~gone })
  let fix (k : Core) : Core :=
    let ids := (k.reqs.filter mine).map (·.id)
    { k with
      reqs := k.reqs.filter fun q => !mine q,
      l1 := (k.l1.map (wipe k)).filter fun x => x.2.full || x.2.dirty != 0, aged := k.aged.filter fun a => !ids.contains a.1,
      comb := k.comb.filter fun e => !(e.part == p && e.who.any fun w => ids.contains w.1) }
  let s : State := { s with cores := s.cores.map fun (k : Nat × Core) => (k.1, fix k.2) }
  s.endSpace p fun a => a == easid

/-- Whether something of an address space that is being torn down can still fetch: a run, a saved group, a task, or a team in
a bin. -/
def State.spaceUsed (s : State) (p e : Nat) : Bool :=
  (s.runs.any fun r => r.2.part == p && r.2.asid == e) ||
    ((s.part p).slots.any fun t => t.2.asid == e) || (s.bins.any fun b => b.2.any fun x => x.part == p && x.asid == e) ||
    (s.cores.any fun k => match k.2.save with
      | some i => i.groups.any fun g => g.2.part == p && g.2.asid == e
      | none => false)

/-- BUSY clears when the last group of the address space has ended; its fills answer fatal for as long as anything of it is
left, so that teams placed before its graph ends do so too (log entry 124). -/
def State.settleKill (s : State) (p : Nat) : State :=
  let v := s.preg p 0x2738
  let left (e : Nat) : Bool :=
    (s.residents p).any fun x => match s.group? x.1 x.2 with
      | some g => g.asid == e
      | none => false
  let s := s.modPart p fun x => { x with killing := x.killing.filter fun e => left e || s.spaceUsed p e }
  if v.getLsbD 63 && !left (bits v 11 0) then s.setPreg p 0x2738 (setBits v 63 63 0) else s

/-- A write to `ASKILL`. -/
def State.writeAskill (s : State) (part : Nat) (value : Word) : State :=
  if (s.preg part 0x2738).getLsbD 63 then s
  else
    let s := s.setPreg part 0x2738 (value &&& 0x8000000000000FFF)
    if value.getLsbD 63 then ((s.killSpace part (bits value 11 0)).settleKill part) else s

/-- The partition's own function writes the register (R370). -/
def execAskill (part : Nat) (value : Word) (s : State) : Host.Outcome State Fault Refusal :=
  s.asFunction part fun s => s.writeAskill part value

/-- Commands of a partition that wait for something are taken up again. -/
def State.settlePart (s : State) (p : Nat) : State :=
  let s := ((s.settleShoot p).settleFrames p).settleColours p
  let s := ((s.settleKill p).settleGraphs p).drainHeld p Config.holdEntries
  ((((s.settleDispatch p).settleSpill p).endWatches p).settleGander p).settleResume p

end Sys2Proof.Machine
end

