-- ==== Sys2Proof/Machine/Registers.lean ====
section
/-! DEFINITION. Writes to the management registers and what reads of them give (R369 and the register tables), the
registers that a locked interface protects (R377), partitions (R370, R371), power (R372, R373) and service (R382). -/

namespace Sys2Proof.Machine

def svcstat : Nat := 0x0000
def partcfg (p : Nat) : Nat := 0x0300 + 8 * p
def pwrctl (p : Nat) : Nat := 0x0500 + 8 * p
def pwrstat : Nat := 0x2800

def State.released? (s : State) (cluster : Nat) : Bool := (s.hreg svcstat).getLsbD cluster

/-! ### Locked registers (R377) -/

def State.tdiLocked (s : State) (p : Nat) : Bool := (s.part p).tdi == .locked || (s.part p).tdi == .run

/-- Address spaces of a partition that something of it is known under. -/
def State.spacesOf (s : State) (p : Nat) : List Nat :=
  let tags (m : List Nat) : List Nat := m.filterMap fun t => if t / 4096 = p then some (t % 4096) else none
  let x := s.part p
  ((s.runs.filterMap fun r => if r.2.part = p then some r.2.asid else none) ++
    tags (s.tlb.map fun t => t.1 / 2 ^ 40) ++
    (s.cores.flatMap fun k => tags (k.2.plb.map fun e => e.1 / 2 ^ 40) ++
      (k.2.reqs.filterMap fun q => if q.idn.part = p then some q.idn.asid else none)) ++
    x.hold.map (·.org.idn.asid) ++ x.slots.map (·.2.asid) ++
    (s.bins.flatMap fun b => (b.2.filter fun y => y.part == p).map (·.asid)) ++ x.records.map (·.org.idn.asid)).eraseDups

/-- A write to a locked register: the interface goes to ERROR, the partition's address spaces are torn down, and its key
slots receive a zero key; their lines have left the caches under the old keys (R82). -/
def State.violate (s : State) (p : Nat) : State :=
  let s := s.modPart p fun x => { x with tdi := .error }
  let slots := (List.range 64).filter fun i => (s.preg p 0x2040).getLsbD i
  let kept (q e va : Nat) : Bool := slots.any fun i => s.usesSlot i q e va
  let s := (s.spacesOf p).foldl (fun s a => (s.killSpace p a).settleKill p) s
  slots.foldl (fun s i => s.newKey i 0) (s.flushLines kept)

/-- The hypervisor's write to a register that a locked interface protects. -/
def State.unlessLocked (s : State) (p : Nat) (f : State → State) : State :=
  if s.tdiLocked p then s.violate p else f s

/-! ### Partitions (R370) -/

/-- A partition's effective cap, and the sum over the enabled ones, `p` counted at `cap` (R373). -/
def effectiveCap (w : Word) : Nat := max 50 (bits w 15 0)
def State.powerSum (s : State) (p cap : Nat) : Nat :=
  (List.range 16).foldl (fun n q =>
    if q = p then n + cap else if s.enabled q then n + effectiveCap (s.hreg (pwrctl q)) else n) 0

/-- Whether a write that sets EN is ignored. -/
def State.partcfgBad (s : State) (p : Nat) (v : Word) : Bool :=
  let lo := bits v 5 0
  let hi := bits v 11 6
  let old := s.hreg (partcfg p)
  decide (hi < lo) || decide (47 < hi) ||
    ((List.range 16).any fun q => q != p && s.enabled q && decide (s.base q ≤ hi) && decide (lo ≤ s.limit q)) ||
    ((List.range (hi + 1 - lo)).any fun i => !s.released? (lo + i)) ||
    (s.enabled p && (bits old 11 0 != bits v 11 0)) ||
    (!s.enabled p && decide (4800 < s.powerSum p (effectiveCap (s.hreg (pwrctl p)))))

/-- A write to `PARTCFG`. -/
def execPartcfgWrite (p : Nat) (value : Word) (s : State) : Host.Outcome State Fault Refusal :=
  if 16 ≤ p then .next s
  else
    .next (s.unlessLocked p fun s =>
      let v := value &&& 0x8000000000000FFF
      if v.getLsbD 63 then (if s.partcfgBad p v then s else s.setHreg (partcfg p) v)
      else if s.enabled p && ((s.part p).slots != [] || (s.hreg (prectl p)).getLsbD 61) then s
      else s.setHreg (partcfg p) v)

/-! ### Power (R372, R373) -/

/-- A write to `PWRCTL`. -/
def execPwrctlWrite (p : Nat) (value : Word) (s : State) : Host.Outcome State Fault Refusal :=
  if 16 ≤ p then .next s
  else
    .next (s.unlessLocked p fun s =>
      let v := value &&& 0xFFFF
      if s.enabled p && decide (4800 < s.powerSum p (effectiveCap v)) then s else s.setHreg (pwrctl p) v)

/-- The clock's upper bound in MHz (R382). -/
def State.serviceMax (s : State) : Nat := if (s.hreg svcstat).getLsbD 63 then 3600 else 1800

/-- The next interval's clock in MHz. -/
def nextClock (mhz power cap top : Nat) : Nat :=
  if cap < power then max 1200 (mhz - 100)
  else if 100 * power ≤ 97 * cap then max mhz (min top (mhz + 100))
  else mhz

/-- An interval of 10 µs ends with its average power in W. -/
def execPowerInterval (p power : Nat) (s : State) : Host.Outcome State Fault Refusal :=
  if 16 ≤ p ∨ s.enabled p = false then .next s
  else
    let w := s.preg p pwrstat
    let mhz := bits w 11 0
    let top := s.serviceMax
    .next (s.setPreg p pwrstat (BitVec.ofNat 64
      (power % 65536 * 2 ^ 48 + (if mhz < top then 2 ^ 16 else 0) +
        nextClock mhz power (effectiveCap (s.hreg (pwrctl p))) top)))

/-! ### Other registers with meanings of their own -/

/-- A write to `SVFALL`. -/
def execSvfallWrite (p : Nat) (value : Word) (s : State) : Host.Outcome State Fault Refusal :=
  if 16 ≤ p then .next s else .next (s.unlessLocked p fun s => s.setSvfall p value)

/-- A write to `SCCOL` (R121); while its BUSY is 1 the new colours hold at once, and the flush goes on (log entry 111). -/
def execSccolWrite (p : Nat) (value : Word) (s : State) : Host.Outcome State Fault Refusal :=
  if 16 ≤ p then .next s
  else .next (s.unlessLocked p fun s =>
    (s.setHreg (0x480 + 8 * p) (BitVec.ofNat 64 (2 ^ 63 + bits value 7 0))).settleColours p)

/-! ### What reads give -/

/-- `GSSTAT`'s bits about messages in flight (R146). -/
def State.gossipPend (s : State) (p : Nat) : Nat :=
  (List.range 8).foldl (fun n j => if (AMap.get s.gander (p * 8 + j) {}).flight = [] then n else n + 2 ^ j) 0
def State.unreach (s : State) (p : Nat) : Bool :=
  bits (s.hreg 0x700) 31 24 == 0 &&
    (List.range 8).any fun j => (AMap.get s.gander (p * 8 + j) {}).flight.any (·.lost)

/-- A partition register as a read gives it: `HOLDST`.USED, and PEND and UNREACH of `GSSTAT`, follow the machine. -/
def State.readPart (s : State) (p off : Nat) : Word :=
  if off = 0x2100 then setBits (s.preg p off) 10 0 (s.part p).hold.length
  else if off = 0x2348 then setBits (s.preg p off) 8 0 (s.gossipPend p + if s.unreach p then 256 else 0)
  else s.preg p off

/-- A hypervisor register as a read gives it: `PLCTL`.DRAINED follows the machine. -/
def State.readHyper (s : State) (off : Nat) : Word :=
  if off = 0x708 then setBits (s.hreg off) 16 16 (if s.drained then 1 else 0) else s.hreg off

/-! ### Register writes -/

/-- Write-1-to-clear fields. -/
def clearBits (old value fields : Word) : Word := old &&& ~~~(value &&& fields)

/-- Table 16.6: at most one of GO and RESUME takes effect, the one that `SAVED` allows. -/
def State.writePrectl (s : State) (p : Nat) (value : Word) : Host.Outcome State Fault Refusal :=
  let s := if value.getLsbD 59 then s.setPrectl p 59 false else s
  if value.getLsbD 63 && !s.prectlBit p 61 then execPrectlGo p s
  else if value.getLsbD 62 then execPrectlResume p s
  else .next s

/-- Table 6.3: WARN is cleared by writing 1, and DOWN, which starts retraining. -/
def State.writeLkstat (s : State) (n : Nat) (value : Word) : Host.Outcome State Fault Refusal :=
  let s := if value.getLsbD 2 then s.linkBit n 2 false else s
  if value.getLsbD 0 then execLinkRetrain n s else .next s

/-- `RPCMD` (R359). -/
def State.writeRpcmd (s : State) (p : Nat) (value : Word) : Host.Outcome State Fault Refusal :=
  let v := value &&& 0xC0FFFFFFFFFF0FFF
  if (s.preg p 0x2730).getLsbD 63 then .next s
  else
    let s := s.setPreg p 0x2730 v
    if v.getLsbD 63 then
      (if v.getLsbD 62 then .next (s.dropPage p (bits v 11 0) (bits v 55 16))
       else .next (s.replayPage p (bits v 11 0) (bits v 55 16)))
    else .next s

/-- A register of the hypervisor's block; what no table lists takes no write. -/
def State.writeHyper (s : State) (off : Nat) (value : Word) : Host.Outcome State Fault Refusal :=
  let n := off % 128 / 8
  if off % 8 ≠ 0 then .next s
  else if off / 128 = 2 then s.writePrectl n value
  else if off / 128 = 4 then execSvfallWrite n value s
  else if off / 128 = 6 then execPartcfgWrite n value s
  else if off / 128 = 7 then .next (s.unlessLocked n fun s => s.setHreg off (value &&& 3))
  else if off / 128 = 8 then .next (s.unlessLocked n fun s => s.setHreg off (value &&& 0xFFFF))
  else if off / 128 = 9 then execSccolWrite n value s
  else if off / 128 = 10 then execPwrctlWrite n value s
  else if off / 128 = 12 then .next (s.unlessLocked n fun s => s.setHreg off (value &&& 0xFFFF))
  else if off = 0x700 then execPlremapWrite value s
  else if off = 0x708 then execPlctlWrite value s
  else if off = 0x710 then .next (s.setHreg off (value &&& 0xFFF))
  else if 0x800 ≤ off ∧ off < 0xC00 then execFmpolWrite ((off - 0x800) / 16) (off % 16 / 8) value s
  else if 0x1000 ≤ off ∧ off < 0x1240 then s.writeLkstat ((off - 0x1000) / 8) value
  else .next s

/-- Registers of a partition that only the hypervisor writes, with their fields: `KEYMASK`, `FDOM`, `GSNBR` and `HWIN`.
They are locked with the interface. -/
def hyperOnly (off : Nat) : Option Word :=
  if off = 0x2040 then some (BitVec.allOnes 64)
  else if off = 0x2200 then some 0xFFFFFF000000FFFF
  else if 0x2308 ≤ off ∧ off < 0x2348 then some 0x8000000000000FFF
  else if off = 0x2808 then some 0x87FFFFFFFFFFFFFF
  else if off = 0x2810 then some 0xFFFFFFFFFFE00000
  else none

/-- Plain registers of a partition, with their writable fields. -/
def plainFields (off : Nat) : Option Word :=
  if off = 0x2000 then some 0x800FFFFFFFFF0000
  else if off = 0x2010 then some 0x00FFFFFFFFFFFFFF
  else if 0x2020 ≤ off ∧ off < 0x2040 then some 0xC7FFFFFFFFFFFFFF
  else if off = 0x2500 then some 0xFFFFFFFF
  else if off = 0x2608 then some 0x00FFFFFFFFFE0000
  else if off = 0x2700 ∨ off = 0x2708 then some 0x80FFFFFFFFFFFFF8
  else if off = 0x2710 then some 0x80FFFFFFFFF00000
  else if off = 0x2718 then some 0x80FFFFFFFFFC0000
  else if off = 0x2720 then some 0xFFF
  else none

/-- A register of a partition's block. -/
def State.writePart (s : State) (p off : Nat) (value : Word) (byHyper : Bool) : Host.Outcome State Fault Refusal :=
  if off % 8 ≠ 0 then .next s
  else
    match hyperOnly off with
    | some m =>
      if byHyper then .next (s.unlessLocked p fun s =>
        if 0x2308 ≤ off ∧ off < 0x2348 then s.setNeighbour p ((off - 0x2308) / 8) value else s.setPreg p off (value &&& m))
      else .next s
    | none =>
      match plainFields off with
      | some m =>
        if off = 0x2010 ∧ (s.preg p 0x2008).getLsbD 63 = true then .next s else .next (s.setPreg p off (value &&& m))
      | none =>
        if off = 0x2008 then .next (s.writeSdcmd p value)
        else if off = 0x2018 then .next (s.writeFrcmd p value)
        else if off = 0x2100 then .next (s.setPreg p off (clearBits (s.preg p off) value 0xFFFFFFFF00010000))
        else if off = 0x2300 then .next (s.writeGsctl p value)
        else if off = 0x2348 then .next (s.setPreg p off (clearBits (s.preg p off) value 0xFFFFFFFF00010000))
        else if 0x2400 ≤ off ∧ off < 0x2500 then .next (s.writeGsreg p ((off - 0x2400) / 32) (off % 32 / 8) value)
        else if off = 0x2600 then .next (s.writeTgctl p value)
        else if off = 0x2610 then .next (s.writeBwctl p value)
        else if off = 0x2730 then s.writeRpcmd p value
        else if off = 0x2738 then .next (s.writeAskill p value)
        else .next s

/-- Whether a block takes a request: always the hypervisor's, a partition's only while its function serves (R370, R377), and in
RUN on the function's own stream (R376). -/
def State.blockServes (s : State) (p : Nat) : Writer → Bool
  | .hyper => true
  | .function onStream => s.serves p && ((s.part p).tdi != .run || onStream)

/-- A write to a register. -/
def execRegisterWrite (blk : Block) (off : Nat) (value : Word) (s : State) : Host.Outcome State Fault Refusal :=
  match blk with
  | .hyper => s.writeHyper off value
  | .part p w =>
    if 16 ≤ p then .next s
    else if s.blockServes p w then s.writePart p off value (w == .hyper)
    else .next (s.answer .unsupportedRequest)

/-- What a read of a register answers: no row of the opcode table is such a read, and it changes nothing (log entry 80). -/
def State.readBlock (s : State) (blk : Block) (off : Nat) : Answer :=
  match blk with
  | .hyper => .completed ((s.readHyper off).setWidth 32768)
  | .part p w =>
    if decide (p < 16) && s.blockServes p w then .completed ((s.readPart p off).setWidth 32768) else .unsupportedRequest

end Sys2Proof.Machine
end

