-- ==== Sys2Proof/Machine/Host.lean ====
section
/-! DEFINITION. The host link: requests of the host through BAR2 (R374), and the completion of device requests to host
memory (R375). -/

namespace Sys2Proof.Machine

/-! ### BAR2 -/

/-- What a host request comes to before it is performed. -/
inductive BarRes where
  | refused (a : Answer)
  | late (va cause : Nat)
  | wait
  | at_ (l : Loc)

def barVa (off : Nat) : Nat := 2 ^ 55 + off

/-- Whether the function takes a request at all: enabled, no ERROR, on its own stream while in RUN, inside the BAR. -/
def State.barServes (s : State) (x : Bar2) : Bool :=
  decide (x.part < 16) && s.serves x.part && ((s.part x.part).tdi != .run || x.onStream) && decide (x.off + x.size ≤ 2 ^ 40) &&
    decide (x.size ≤ 4096)

/-- The sector of a host request that needs `r` and `w` of its page. -/
def State.barPlace (s : State) (p va : Nat) (r w : Bool) : BarRes :=
  if s.hostWindow p va then .refused .completerAbort
  else
    match s.leafOf p 0 va with
    | .leaf e _ =>
      if (r && !e.getLsbD 56) || (w && (!e.getLsbD 57 || e.getLsbD 60)) || leafClass e != 0 || leafF e then
        .refused .completerAbort
      else
        match s.resolve p 0 va .noWindow with
        | .error 0 => .wait
        | .error n => .late va n
        | .ok (.mem l) => if s.noGrant l.tag 0 then .wait else .at_ l
        | .ok _ => .refused .completerAbort
    | .bad => .late va 0x08
    | .busy => .wait
    | .unmapped => .refused .completerAbort

/-- The record of a request that was not performed; it names no task, team or word. -/
def State.barRecord (s : State) (p va : Nat) (f : Late) : State :=
  s.record p { org := { idn := { part := p } }, cause := f.cause, dropped := true, va := va, easid := 0, detail := f.detail,
               aux := f.aux, owner := f.owner }

/-- Write bytes at their home, every cached copy recalled first. -/
def State.barWrite (s : State) (l : Loc) (mask : Mask) (d : Sector) : State :=
  let c := s.sector l
  let s := ((s.installTlb l.p l.easid l.va).recall l.tag).markDirty l
  s.writeDram l (mergeSector c.data d mask) {} (c.poison && mask != BitVec.allOnes 64)

/-- The pieces of a request by sector, as (address, bytes). -/
def barPieces (va n : Nat) : List (Nat × Nat) :=
  (List.range (n / 64 + 2)).filterMap fun i =>
    let a := max va ((va / 64 + i) * 64)
    let e := min (va + n) ((va / 64 + i + 1) * 64)
    if a < e then some (a, e - a) else none

/-- What the first piece comes to that is not simply performed. -/
def firstStop : List BarRes → Option BarRes
  | [] => none
  | .at_ _ :: t => firstStop t
  | r :: _ => some r

/-- Answer a request that is not performed. -/
def State.barStop (s : State) (p : Nat) (r : BarRes) : State :=
  match r with
  | .refused a => s.answer a
  | .late va n => (s.barRecord p va (s.lateOf p 0 va n)).answer .unsupportedRequest
  | .wait | .at_ _ => s

/-- A poisoned sector is not answered with its bytes. -/
def State.barPoison (s : State) (p va : Nat) : State :=
  (s.barRecord p va { cause := 0x29 }).answer .completerAbort

/-- A host read or write through BAR2. -/
def execHostBar2Access (x : Bar2) (s : State) : Host.Outcome State Fault Refusal :=
  if !s.barServes x then .next (s.answer .unsupportedRequest)
  else
    let p := x.part
    let ps := barPieces (barVa x.off) x.size
    let rs := ps.map fun y => s.barPlace p y.1 (!x.write) x.write
    match firstStop rs with
    | some r => .next (s.barStop p r)
    | none =>
      let ls := ps.zip (rs.filterMap fun r => match r with
        | .at_ l => some l
        | _ => none)
      if x.write then
        let s := ls.foldl (fun s y =>
          let d : Sector := placeBytes y.1.1 y.1.2 (x.data.toNat / 2 ^ (8 * (y.1.1 - barVa x.off)))
          s.barWrite y.2 (byteMask y.1.1 y.1.2) d) s
        .next (s.answer (.completed 0))
      else
        let s := ls.foldl (fun s y => s.installTlb p 0 y.1.1) s
        match ls.find? fun y => (s.sector y.2).poison with
        | some y => .next (s.barPoison p y.1.1)
        | none =>
          let v := ls.foldl (fun n y =>
            n + sectorValue (s.sector y.2).data y.1.1 y.1.2 * 2 ^ (8 * (y.1.1 - barVa x.off))) 0
          .next (s.answer (.completed (BitVec.ofNat 32768 v)))

def HostAtom.fn : HostAtom → AtomFn
  | .fetchAdd => .add
  | .swap => .exch
  | .cas => .cas

/-- A host atomic of 32 or 64 bits: it needs R and W, and answers with the old value. -/
def execHostAtomicOp (x : Bar2) (op : HostAtom) (cmp : Word) (s : State) : Host.Outcome State Fault Refusal :=
  if !s.barServes x then .next (s.answer .unsupportedRequest)
  else
    let p := x.part
    let va := barVa x.off
    if (x.size ≠ 4 ∧ x.size ≠ 8) ∨ va % x.size ≠ 0 then .next (s.answer .completerAbort)
    else
      match s.barPlace p va true true with
      | .at_ l =>
        let c := s.sector l
        if c.poison then .next (s.barPoison p va)
        else
          let n := 2 ^ (8 * x.size)
          let r := atomSector (HostAtom.fn op) c.data va x.size (x.data.toNat % n) (cmp.toNat % n)
          .next ((s.barWrite l (byteMask va x.size) r.2).answer (.completed (BitVec.ofNat 32768 r.1)))
      | r => .next (s.barStop p r)

/-! ### Completions -/

/-- Whether a host request is the read of a task record (R321). -/
def State.recordRead (s : State) (r : HostReq) : Bool :=
  r.who.any fun w => match (s.core w.1).req? w.2.1 with
    | some q => q.kind == .record
    | none => false

/-- The host completes a device request; an error raises NOT_PRESENT late, and leaves a record read empty. -/
def execHostCompletion (id : Nat) (data : BitVec 2048) (err : Bool) (s : State) : Host.Outcome State Fault Refusal :=
  match s.host.find? fun r => r.id == id with
  | none => .next s
  | some r =>
    let rd := s.recordRead r
    let s : State := { s with host := s.host.filter fun x => x.id != id }
    let words : List Word := (List.range 32).map fun i => BitVec.ofNat 64 (data.toNat / 2 ^ (64 * i))
    if r.who = [] ∧ r.op = .load 256 ∧ r.org.idn.disp = true then
      .next (s.startDispatch r.part (if err then none else some words))
    else if err then
      (if rd then .next (r.who.foldl (fun s w => s.setAccSt w.1 w.2.1 w.2.2 .dropped) s)
       else .next (s.failReq id r.part r.easid r.va r.org r.who { cause := 0x18 }))
    else .next (s.answerAll id r.who r.va data.toNat 0)

end Sys2Proof.Machine
end

