-- ==== Sys2Proof/Machine/Boot.lean ====
section
/-! DEFINITION. The dies as SPDM responders (R378, R379), IDE keys and interface states (R376), boot (R380, R381), and
full service (R382). -/

namespace Sys2Proof.Machine

def State.die (s : State) (d : Nat) : Die := AMap.get s.dies d {}
def State.setDie (s : State) (d : Nat) (x : Die) : State := { s with dies := AMap.put s.dies d x }
def dieCount : Nat := 10

/-- L-die 0. -/
def lDie0 : Nat := 8

/-! ### SPDM (R378, R379) -/

/-- A mailbox answers once the host link has trained; there is one for each die. -/
def State.mailbox (s : State) (d : Nat) (f : Die → State) : Host.Outcome State Fault Refusal :=
  if s.hostUp && decide (d < dieCount) then .next (f (s.die d)) else .next s

/-- Response codes of SPDM 1.3 (PRESUMED: the spec names the messages only). -/
def State.spdm (s : State) (d code : Nat) (fields : List Nat) : State := s.answer (.spdm d code fields)

/-- The one version that a responder offers is 1.3, written 13H. -/
def execGetVersion (die : Nat) (s : State) : Host.Outcome State Fault Refusal :=
  s.mailbox die fun _ => s.spdm die 0x04 [0x13]

def execGetCapabilities (die : Nat) (s : State) : Host.Outcome State Fault Refusal :=
  s.mailbox die fun _ => s.spdm die 0x61 (Config.spdmCapabilities die)

def execNegotiateAlgorithms (die : Nat) (s : State) : Host.Outcome State Fault Refusal :=
  s.mailbox die fun _ => s.spdm die 0x63 (Config.spdmAlgorithms die)

/-- The digests of the chains in slots 0 (Ed25519) and 1 (ML-DSA-65). -/
def execGetDigests (die : Nat) (s : State) : Host.Outcome State Fault Refusal :=
  s.mailbox die fun _ => s.spdm die 0x01 [Config.certDigest die 0, Config.certDigest die 1]

def execGetCertificate (die slot : Nat) (s : State) : Host.Outcome State Fault Refusal :=
  s.mailbox die fun _ =>
    if 2 ≤ slot then s.answer (.spdmError die) else s.spdm die 0x02 [slot, Config.certificate die slot]

/-- A challenge is answered with a signature of the slot's key over the nonce. -/
def execChallenge (die slot nonce : Nat) (s : State) : Host.Outcome State Fault Refusal :=
  s.mailbox die fun _ =>
    if 2 ≤ slot then s.answer (.spdmError die)
    else s.spdm die 0x03 [slot, nonce, Config.signature die slot [nonce]]

/-- Registers of partition p that its interface locks (R377), in the order of the rule. -/
def State.lockedRegs (s : State) (p : Nat) : List Nat :=
  (([0x300, 0x380, 0x500, 0x400, 0x480, 0x600, 0x200].map fun o => s.readHyper (o + 8 * p)) ++
    ([0x2040, 0x2200] ++ (List.range 8).map (0x2308 + 8 * ·) ++ [0x2808, 0x2810]).map (s.readPart p)).map (·.toNat)

/-- The value of a measurement, and whether it is marked valid; nothing for an index that the die has not got. -/
def State.measurement (s : State) (d index : Nat) : Option (List Nat × Bool) :=
  let x := s.die d
  match index with
  | 1 => some ([Config.bootRom d], true)
  | 2 => some ([x.digest], !x.held)
  | 3 => if 8 ≤ d then some ([Config.spFirmware d], true) else none
  | 4 => some ([Config.fuses d, x.minVersion], true)
  | 5 => if d = lDie0 then
      some ((List.range 16).flatMap fun p => if s.tdiLocked p then p :: s.lockedRegs p else [], true)
    else none
  | _ => none

/-- A signed measurement: the same values through either slot. -/
def execGetMeasurements (die slot index nonce : Nat) (s : State) : Host.Outcome State Fault Refusal :=
  s.mailbox die fun _ =>
    match s.measurement die index with
    | none => s.answer (.spdmError die)
    | some (v, ok) =>
      if 2 ≤ slot then s.answer (.spdmError die)
      else
        let body := index :: (if ok then 1 else 0) :: v
        s.spdm die 0x60 (body ++ [slot, nonce, Config.signature die slot (nonce :: body)])

/-- Only L-die 0 opens sessions. -/
def execKeyExchange (die slot session : Nat) (s : State) : Host.Outcome State Fault Refusal :=
  s.mailbox die fun x =>
    if die ≠ lDie0 ∨ 2 ≤ slot then s.answer (.spdmError die)
    else
      let x := { x with sessions := (x.sessions.filter fun y => y.1 != session) ++ [(session, false)] }
      (s.setDie die x).spdm die 0x64
        [slot, session, Config.keyShare die session, Config.signature die slot [session, Config.keyShare die session]]

/-- The session is established. -/
def execFinish (die session : Nat) (s : State) : Host.Outcome State Fault Refusal :=
  s.mailbox die fun x =>
    if die ≠ lDie0 ∨ !(x.sessions.any fun y => y.1 == session) then s.answer (.spdmError die)
    else
      let ys := x.sessions.map fun (y : Nat × Bool) => if y.1 = session then (y.1, true) else y
      (s.setDie die { x with sessions := ys }).spdm die 0x65 [session]

/-! ### IDE and TDISP (R376) -/

/-- A session with L-die 0 that `FINISH` has established. -/
def State.established (s : State) (session : Nat) : Bool := (s.die lDie0).sessions.any fun y => y == (session, true)

/-- A key of link IDE or of a selective stream. -/
def execIdeKm (session stream key : Nat) (s : State) : Host.Outcome State Fault Refusal :=
  s.mailbox lDie0 fun _ =>
    if !s.established session || decide (17 < stream) then s.answer (.spdmError lDie0)
    else ({ s with ideKeys := AMap.put s.ideKeys stream key } : State).spdm lDie0 0x7E [session, stream]

/-- The state that a TDISP request moves an interface to. -/
def tdiNext : TdiSt → Tdisp → Option TdiSt
  | .unlocked, .lock => some .locked
  | .locked, .start => some .run
  | _, .stop => some .unlocked
  | _, _ => none

def execTdispRequest (session tdi : Nat) (op : Tdisp) (s : State) : Host.Outcome State Fault Refusal :=
  s.mailbox lDie0 fun _ =>
    if !s.established session || decide (16 ≤ tdi) then s.answer (.spdmError lDie0)
    else
      match tdiNext (s.part tdi).tdi op with
      | none => s.answer (.spdmError lDie0)
      | some t => (s.modPart tdi fun x => { x with tdi := t }).spdm lDie0 0x7E [session, tdi]

/-! ### Boot (R380, R381) -/

/-- The ROM runs an image only with both signatures and a security version that is high enough. -/
def Firmware.good (f : Firmware) : Bool := f.ed25519Ok && f.mldsaOk && decide (f.minVersion ≤ f.version)

def State.fail (s : State) (d : Nat) : State := s.setHreg svcstat (s.hreg svcstat ||| (1#64 <<< (48 + d)))
def State.failed (s : State) (d : Nat) : Bool := (s.hreg svcstat).getLsbD (48 + d)

/-- One die's ROM verifies its firmware. A die without an image has none that verifies. -/
def State.verifyDie (s : State) (d : Nat) (f : Option Firmware) : State :=
  match f with
  | some f =>
    let x : Die := { s.die d with version := f.version, minVersion := f.minVersion, digest := f.digest }
    if Firmware.good f then s.setDie d { x with held := false } else (s.setDie d x).fail d
  | none => s.fail d

/-- Every die's ROM runs, then L-die 0 trains the host link. -/
def execPowerOn (fw : List Firmware) (s : State) : Host.Outcome State Fault Refusal :=
  if s.hostUp then .next s
  else .next { (List.range dieCount).foldl (fun s d => s.verifyDie d fw[d]?) s with hostUp := true }

/-- What full service waits for. -/
def State.allTrained (s : State) : Bool :=
  (List.range dieCount).all fun d => (s.die d).attested && (decide (8 ≤ d) || (s.die d).channels.length == 6)

def State.portsTrained (s : State) : Bool :=
  s.cxl.length == 4 && (List.range 72).all fun n => !Config.connected n || (s.link n).trained

/-- FULL is set when all has attested and trained. -/
def State.tryFull (s : State) : State :=
  if s.hostUp && s.allTrained && s.portsTrained && !(s.hreg svcstat).getLsbD 63 then
    { s.setHreg svcstat (setBits (s.hreg svcstat) 63 63 1) with fullPending := true }
  else s

/-- A C-die that runs trains one of its six memory channels. -/
def execChannelTrained (die channel : Nat) (s : State) : Host.Outcome State Fault Refusal :=
  let x := s.die die
  if !s.hostUp || x.held || decide (8 ≤ die) || decide (6 ≤ channel) || x.channels.contains channel then .next s
  else .next ((s.setDie die { x with channels := x.channels ++ [channel] }).tryFull)

/-- The security processor checks a die's measurements against the manifest; a C-die that attests, its channels trained,
has its six clusters released. -/
def execClusterRelease (die : Nat) (manifestOk : Bool) (s : State) : Host.Outcome State Fault Refusal :=
  let x := s.die die
  if !s.hostUp || decide (dieCount ≤ die) || x.attested || s.failed die || (decide (die < 8) && x.channels.length != 6) then
    .next s
  else if !manifestOk then .next (s.fail die)
  else
    let s := s.setDie die { x with attested := true }
    let s := if die < 8 then s.setHreg svcstat (s.hreg svcstat ||| (0x3F#64 <<< (6 * die))) else s
    .next s.tryFull

/-- A link that is not DOWN has trained; it is UP with its key. -/
def execFabricLinkTrained (link : Nat) (s : State) : Host.Outcome State Fault Refusal :=
  if 72 ≤ link ∨ (s.hreg (lkstat link)).getLsbD 0 = true then .next s
  else
    let l := s.link link
    let s := s.setLink link { l with trained := true }
    .next ((s.linkBit link 3 l.key.isSome).refreshLive.tryFull)

def execCxlPortTrained (port : Nat) (s : State) : Host.Outcome State Fault Refusal :=
  if 4 ≤ port ∨ s.cxl.contains port = true then .next s
  else .next ({ s with cxl := s.cxl ++ [port] } : State).tryFull

end Sys2Proof.Machine
end

