-- ==== Sys2Proof/Machine/Integer.lean ====
section
/-! DEFINITION. Integer arithmetic, logic, shifts, bit fields, comparisons and moves (R209-R222). -/

namespace Sys2Proof.Machine

/-- Signed and bitwise types of the immediate forms (R39). -/
def immI (w : Bool) : Ty := if w then .i64 else .i32
def immB (w : Bool) : Ty := if w then .b64 else .b32

/-- An immediate of the C form, sign-extended or zero-extended to the form's width (R39). -/
def cSigned (x : CImm) : Nat := intCode (immI x.w).bits x.imm.toInt
def bSigned (x : BImm) (n : Nat) : Nat := intCode n x.imm.toInt

/-- A word of one, two or three sources at one type, and of an immediate form. -/
def word1 (x : F1) (f : Nat → Nat) : State → Host.Outcome State Fault Refusal :=
  laneWord x.g [(x.ty.bits, x.a)] x.d x.ty fun r => f (r x.ty x.a)

def word2 (x : F2) (f : Nat → Nat → Nat) : State → Host.Outcome State Fault Refusal :=
  laneWord x.g [(x.ty.bits, x.a), (x.ty.bits, x.b)] x.d x.ty fun r => f (r x.ty x.a) (r x.ty x.b)

def wordImm (x : CImm) (ty : Ty) (f : Nat → Nat) : State → Host.Outcome State Fault Refusal :=
  laneWord x.g [(ty.bits, x.a)] x.d ty fun r => f (r ty x.a)

/-! ### Arithmetic (R209-R212) -/

/-- An exact result narrowed to a type: wrapped, or clamped to its range with `.sat`. -/
def narrow (ty : Ty) (sat : Bool) (i : Int) : Nat :=
  intCode ty.bits (if sat then clampInt i (Ty.lo ty) (Ty.hi ty) else i)

def addOp (ty : Ty) (sat : Bool) (a b : Nat) : Nat := narrow ty sat (codeInt ty a + codeInt ty b)
def subOp (ty : Ty) (sat : Bool) (a b : Nat) : Nat := narrow ty sat (codeInt ty a - codeInt ty b)
def mulOp (ty : Ty) (a b : Nat) : Nat := a * b % 2 ^ ty.bits
/-- Bits [2N-1:N] of the exact product. -/
def mulhOp (ty : Ty) (a b : Nat) : Nat := intCode ty.bits (codeInt ty a * codeInt ty b / (2 ^ ty.bits : Nat))
def minOp (ty : Ty) (a b : Nat) : Nat := if codeInt ty b < codeInt ty a then b else a
def maxOp (ty : Ty) (a b : Nat) : Nat := if codeInt ty a < codeInt ty b then b else a

def execIadd (x : F2) := word2 x (addOp x.ty x.sat)
def execIaddImm (x : CImm) := wordImm x (immI x.w) fun a => addOp (immI x.w) false a (cSigned x)
def execIsub (x : F2) := word2 x (subOp x.ty x.sat)
def execIsubImm (x : CImm) := wordImm x (immI x.w) fun a => subOp (immI x.w) false a (cSigned x)
def execImul (x : F2) := word2 x (mulOp x.ty)
def execImulImm (x : CImm) := wordImm x (immI x.w) fun a => mulOp (immI x.w) a (cSigned x)
def execImulh (x : F2) := word2 x (mulhOp x.ty)
def execImulhImm (x : CImm) := wordImm x (immI x.w) fun a => mulhOp (immI x.w) a (cSigned x)

def execImad (x : F3) : State → Host.Outcome State Fault Refusal :=
  laneWord x.g [(x.ty.bits, x.a), (x.ty.bits, x.b), (x.ty.bits, x.c)] x.d x.ty fun r =>
    (r x.ty x.a * r x.ty x.b + r x.ty x.c) % 2 ^ x.ty.bits

def execImadImm (x : BImm) : State → Host.Outcome State Fault Refusal :=
  let ty := immI x.w
  laneWord x.g [(ty.bits, x.a), (ty.bits, x.b)] x.d ty fun r =>
    (r ty x.a * r ty x.b + bSigned x ty.bits) % 2 ^ ty.bits

/-- Type of the wide operands of `IMADW` (R210). -/
def wideTy : Ty → Ty
  | .i32 => .i64
  | .n32 => .n64
  | _ => .b128

def imadwOp (ty : Ty) (a b c : Nat) : Nat := intCode (2 * ty.bits) (codeInt ty a * codeInt ty b + c)

def execImadw (x : F3) : State → Host.Outcome State Fault Refusal :=
  let w := wideTy x.ty
  laneWord x.g [(x.ty.bits, x.a), (x.ty.bits, x.b), (w.bits, x.c)] x.d w fun r =>
    imadwOp x.ty (r x.ty x.a) (r x.ty x.b) (r w x.c)

def execImadwImm (x : BImm) : State → Host.Outcome State Fault Refusal :=
  let ty := immI x.w
  laneWord x.g [(ty.bits, x.a), (ty.bits, x.b)] x.d (wideTy ty) fun r =>
    imadwOp ty (r ty x.a) (r ty x.b) (bSigned x (2 * ty.bits))

def execIneg (x : F1) := word1 x fun a => narrow x.ty x.sat (-codeInt x.ty a)
def execIabs (x : F1) := word1 x fun a => narrow x.ty x.sat (codeInt x.ty a).natAbs
def execImin (x : F2) := word2 x (minOp x.ty)
def execIminImm (x : CImm) := wordImm x (immI x.w) fun a => minOp (immI x.w) a (cSigned x)
def execImax (x : F2) := word2 x (maxOp x.ty)
def execImaxImm (x : CImm) := wordImm x (immI x.w) fun a => maxOp (immI x.w) a (cSigned x)

/-! ### Logic (R213) -/

def notOp (ty : Ty) (a : Nat) : Nat := 2 ^ ty.bits - 1 - a % 2 ^ ty.bits
def andnOp (ty : Ty) (a b : Nat) : Nat := a &&& notOp ty b

def execBitAnd (x : F2) := word2 x (· &&& ·)
def execAndImm (x : CImm) := wordImm x (immB x.w) (· &&& x.imm.toNat)
def execBitOr (x : F2) := word2 x (· ||| ·)
def execOrImm (x : CImm) := wordImm x (immB x.w) (· ||| x.imm.toNat)
def execBitXor (x : F2) := word2 x (· ^^^ ·)
def execXorImm (x : CImm) := wordImm x (immB x.w) (· ^^^ x.imm.toNat)
def execAndn (x : F2) := word2 x (andnOp x.ty)
def execAndnImm (x : CImm) := wordImm x (immB x.w) fun a => andnOp (immB x.w) a x.imm.toNat
def execBitNot (x : F1) := word1 x (notOp x.ty)

/-! ### Shifts (R214); a count at or above the width shifts everything out. The count is the low 32 bits of an operand that
is read at the instruction's type (R209). -/

def low32 (v : Nat) : Nat := v % 2 ^ 32
def shlOp (n a k : Nat) : Nat := if n ≤ k then 0 else a * 2 ^ k % 2 ^ n
def shrOp (n a k : Nat) : Nat := if n ≤ k then 0 else a / 2 ^ k
def sarOp (ty : Ty) (a k : Nat) : Nat := intCode ty.bits (codeInt ty a / (2 ^ min k ty.bits : Nat))
def rolOp (n a k : Nat) : Nat := let k := k % n; (a * 2 ^ k + a / 2 ^ (n - k)) % 2 ^ n

def shiftWord (x : F2) (f : Nat → Nat → Nat) : State → Host.Outcome State Fault Refusal :=
  laneWord x.g [(x.ty.bits, x.a), (x.ty.bits, x.b)] x.d x.ty fun r => f (r x.ty x.a) (low32 (r x.ty x.b))

def execShl (x : F2) := shiftWord x (shlOp x.ty.bits)
def execShlImm (x : CImm) := wordImm x (immB x.w) fun a => shlOp (immB x.w).bits a x.imm.toNat
def execShr (x : F2) := shiftWord x (shrOp x.ty.bits)
def execShrImm (x : CImm) := wordImm x (immB x.w) fun a => shrOp (immB x.w).bits a x.imm.toNat
def execSar (x : F2) := shiftWord x (sarOp x.ty)
def execSarImm (x : CImm) := wordImm x (immI x.w) fun a => sarOp (immI x.w) a x.imm.toNat
def execRol (x : F2) := shiftWord x (rolOp x.ty.bits)
def execRolImm (x : CImm) := wordImm x (immB x.w) fun a => rolOp (immB x.w).bits a x.imm.toNat

/-! ### Counts and fields (R215, R216) -/

def popc : Nat → Nat → Nat
  | 0, _ => 0
  | n + 1, a => a % 2 + popc n (a / 2)

/-- Zeros above the highest one of an `n`-bit value. -/
def clz : Nat → Nat → Nat
  | 0, _ => 0
  | n + 1, a => if nbit a n then 0 else 1 + clz n a

def ctz : Nat → Nat → Nat
  | 0, _ => 0
  | n + 1, a => if a % 2 = 1 then 0 else 1 + ctz n (a / 2)

def brev : Nat → Nat → Nat
  | 0, _ => 0
  | n + 1, a => a % 2 * 2 ^ n + brev n (a / 2)

def countWord (x : F1) (f : Nat → Nat → Nat) : State → Host.Outcome State Fault Refusal :=
  laneWord x.g [(x.ty.bits, x.a)] x.d .n32 fun r => f x.ty.bits (r x.ty x.a)

def execPopc (x : F1) := countWord x popc
def execClz (x : F1) := countWord x clz
def execCtz (x : F1) := countWord x ctz
def execBrev (x : F1) := word1 x (brev x.ty.bits)

def bfxOp (ty : Ty) (a p w : Nat) : Nat :=
  let p := min p ty.bits
  let w := min w (ty.bits - p)
  let f := a / 2 ^ p % 2 ^ w
  if ty.signed && decide (0 < w) && nbit f (w - 1) then intCode ty.bits ((f : Int) - (2 ^ w : Nat)) else f

def bfiOp (ty : Ty) (d a p w : Nat) : Nat :=
  let p := min p ty.bits
  let w := min w (ty.bits - p)
  d - d / 2 ^ p % 2 ^ w * 2 ^ p + a % 2 ^ w * 2 ^ p

def execBfx (x : F3) : State → Host.Outcome State Fault Refusal :=
  laneWord x.g [(x.ty.bits, x.a), (x.ty.bits, x.b), (x.ty.bits, x.c)] x.d x.ty fun r =>
    bfxOp x.ty (r x.ty x.a) (low32 (r x.ty x.b)) (low32 (r x.ty x.c))

def execBfxImm (x : BImm) : State → Host.Outcome State Fault Refusal :=
  laneWord x.g [((immI x.w).bits, x.a), ((immI x.w).bits, x.b)] x.d (immI x.w) fun r =>
    bfxOp (immI x.w) (r (immI x.w) x.a) (low32 (r (immI x.w) x.b)) (bSigned x 32)

def execBfi (x : F3) : State → Host.Outcome State Fault Refusal :=
  laneWord x.g [(x.ty.bits, x.a), (x.ty.bits, x.b), (x.ty.bits, x.c), (x.ty.bits, dstSrc x.d)] x.d x.ty fun r =>
    bfiOp x.ty (r x.ty (dstSrc x.d)) (r x.ty x.a) (low32 (r x.ty x.b)) (low32 (r x.ty x.c))

def execBfiImm (x : BImm) : State → Host.Outcome State Fault Refusal :=
  laneWord x.g [((immI x.w).bits, x.a), ((immI x.w).bits, x.b), ((immI x.w).bits, dstSrc x.d)] x.d (immI x.w) fun r =>
    bfiOp (immI x.w) (r (immI x.w) (dstSrc x.d)) (r (immI x.w) x.a) (low32 (r (immI x.w) x.b)) (bSigned x 32)

/-! ### Compare, select, move (R217-R220) -/

def icmp (ty : Ty) (c : Cond) (a b : Nat) : Bool := Cond.holds c (compare (codeInt ty a) (codeInt ty b))

def execIsetp (x : SetP) : State → Host.Outcome State Fault Refusal :=
  predWord x.g [(x.ty.bits, x.a), (x.ty.bits, x.b)] x.pd fun c g l =>
    icmp x.ty x.cond (c.val g x.ty l x.a) (c.val g x.ty l x.b)

/-- The immediate form compares at `.i32`, or at `.n32` when bit 26 is set (R217). -/
def execIsetpImm (gd : Guard) (cond : Cond) (uns : Bool) (pd : Fin 8) (a : Src) (imm : BitVec 26) :
    State → Host.Outcome State Fault Refusal :=
  let ty : Ty := if uns then .n32 else .i32
  let v := if uns then imm.toNat else intCode 32 imm.toInt
  predWord gd [(32, a)] pd fun c g l => icmp ty cond (c.val g ty l a) v

/-- Both sources of `SEL` are read. -/
def execSel (gd : Guard) (ty : Ty) (d : Dst) (a b : Src) (pc : Fin 8) : State → Host.Outcome State Fault Refusal :=
  groupWord gd fun x g => checked x g [(ty.bits, a), (ty.bits, b)]
    (x.result g ty d true fun l => if (x.pred g pc.val).getLsbD l then x.val g ty l a else x.val g ty l b)

def execMov (x : F1) := word1 x id

def execMovi (gd : Guard) (d : Dst) (imm : BitVec 27) : State → Host.Outcome State Fault Refusal :=
  laneWord gd [] d .i32 fun _ => intCode 32 imm.toInt

def execMoviHi (gd : Guard) (d : Dst) (imm : BitVec 16) : State → Host.Outcome State Fault Refusal :=
  laneWord gd [(32, dstSrc d)] d .b32 fun r => r .b32 (dstSrc d) % 65536 + imm.toNat * 65536

def execLea (gd : Guard) (sc : Fin 5) (d : Dst) (a b : Src) : State → Host.Outcome State Fault Refusal :=
  laneWord gd [(64, a), (32, b)] d .b64 fun r =>
    intCode 64 ((r .b64 a : Int) + codeInt .i32 (r .i32 b) * (2 ^ sc.val : Nat))

/-! ### The hash and the predicates (R221, R222) -/

def rhashRound (key x i : Nat) : Nat :=
  let x := (x ^^^ ((key + i * 0x632BE5AB) % 2 ^ 32)) * 0x9E3779B1 % 2 ^ 32
  x ^^^ (x / 2 ^ 13)

def rhash (a key : Nat) : Nat := [0, 1, 2, 3].foldl (rhashRound key) a

def execRhash (x : F2) := word2 x rhash

def predOp (x : PredOp) (f : Bool → Bool → Bool) : State → Host.Outcome State Fault Refusal :=
  predWord x.g [] x.pd fun c g l => f ((c.pred g x.pa.val).getLsbD l) ((c.pred g x.pb.val).getLsbD l)

def execPand (x : PredOp) := predOp x (· && ·)
def execPor (x : PredOp) := predOp x (· || ·)
def execPxor (x : PredOp) := predOp x (· != ·)
def execPnot (x : PredOp) := predOp x fun a _ => !a

end Sys2Proof.Machine
end

