-- ==== Sys2Proof/Machine/Float.lean ====
section
/-! DEFINITION. Floating-point arithmetic, conversions and keys (R223-R236), and the words of the special-function
queue (R237-R242). -/

namespace Sys2Proof.Machine

/-! ### Arithmetic (R223-R231) -/

/-- Type and value of a floating immediate (R39). -/
def immF (w : Bool) : Ty := if w then .f16 else .f32
def cFloat (x : CImm) : Nat := if x.w then x.imm.toNat % 65536 else x.imm.toNat * 32
def bFloat (x : BImm) : Nat := if x.w then x.imm.toNat % 65536 else x.imm.toNat * 32768

def faddOp (ty : Ty) (rm : Rm) (a b : Nat) : Nat := roundF ty rm (addV rm (decodeF ty a) (decodeF ty b))
def fsubOp (ty : Ty) (rm : Rm) (a b : Nat) : Nat := roundF ty rm (addV rm (decodeF ty a) (negV (decodeF ty b)))
def fmulOp (ty : Ty) (rm : Rm) (a b : Nat) : Nat := roundF ty rm (mulV (decodeF ty a) (decodeF ty b))
def ffmaOp (ty : Ty) (rm : Rm) (a b c : Nat) : Nat :=
  roundF ty rm (fmaV rm (decodeF ty a) (decodeF ty b) (decodeF ty c))

def execFadd (x : F2) := word2 x fun a b => satIf x.sat x.ty (faddOp x.ty x.rm a b)
def execFaddImm (x : CImm) := wordImm x (immF x.w) fun a => faddOp (immF x.w) .rne a (cFloat x)
def execFsub (x : F2) := word2 x fun a b => satIf x.sat x.ty (fsubOp x.ty x.rm a b)
def execFsubImm (x : CImm) := wordImm x (immF x.w) fun a => fsubOp (immF x.w) .rne a (cFloat x)
def execFmul (x : F2) := word2 x fun a b => satIf x.sat x.ty (fmulOp x.ty x.rm a b)
def execFmulImm (x : CImm) := wordImm x (immF x.w) fun a => fmulOp (immF x.w) .rne a (cFloat x)

def execFfma (x : F3) : State → Host.Outcome State Fault Refusal :=
  laneWord x.g [(x.ty.bits, x.a), (x.ty.bits, x.b), (x.ty.bits, x.c)] x.d x.ty fun r =>
    ffmaOp x.ty x.rm (r x.ty x.a) (r x.ty x.b) (r x.ty x.c)

def execFfmaImm (x : BImm) : State → Host.Outcome State Fault Refusal :=
  let ty := immF x.w
  laneWord x.g [(ty.bits, x.a), (ty.bits, x.b)] x.d ty fun r => ffmaOp ty .rne (r ty x.a) (r ty x.b) (bFloat x)

def execFmin (x : F2) := word2 x (fminCode x.ty false)
def execFminImm (x : CImm) := wordImm x (immF x.w) fun a => fminCode (immF x.w) false a (cFloat x)
def execFmax (x : F2) := word2 x (fminCode x.ty true)
def execFmaxImm (x : CImm) := wordImm x (immF x.w) fun a => fminCode (immF x.w) true a (cFloat x)
def execFabs (x : F1) := word1 x (fabsCode x.ty)
def execFneg (x : F1) := word1 x (fnegCode x.ty)

def execFsetp (x : SetP) : State → Host.Outcome State Fault Refusal :=
  predWord x.g [(x.ty.bits, x.a), (x.ty.bits, x.b)] x.pd fun c g l =>
    Cond.fholds x.cond (fcmp x.ty (c.val g x.ty l x.a) (c.val g x.ty l x.b))

def execFsetpImm (gd : Guard) (cond : Cond) (pd : Fin 8) (a : Src) (imm : BitVec 27) :
    State → Host.Outcome State Fault Refusal :=
  predWord gd [(32, a)] pd fun c g l => Cond.fholds cond (fcmp .f32 (c.val g .f32 l a) (imm.toNat * 32))

def execFclass (x : F1) : State → Host.Outcome State Fault Refusal :=
  laneWord x.g [(x.ty.bits, x.a)] x.d .n32 fun r => fclassMask x.ty (r x.ty x.a)

def execFrnd (x : F1) := word1 x (frndCode x.ty x.rm)

/-- Scale exactly, then round once (R230). -/
def fsclOp (ty : Ty) (rm : Rm) (a b : Nat) : Nat := roundF ty rm (sclV (decodeF ty a) (codeInt .i32 b))

def execFscl (x : F2) : State → Host.Outcome State Fault Refusal :=
  laneWord x.g [(x.ty.bits, x.a), (32, x.b)] x.d x.ty fun r => fsclOp x.ty x.rm (r x.ty x.a) (r .i32 x.b)

def fdot2Op (ty : Ty) (rm : Rm) (a b c : Nat) : Nat :=
  let e (v i : Nat) : FVal := decodeF ty (v / 2 ^ (16 * i) % 65536)
  roundF .f32 rm (sumV [mulV (e a 0) (e b 0), mulV (e a 1) (e b 1), decodeF .f32 c])

def execFdot2 (x : F3) : State → Host.Outcome State Fault Refusal :=
  laneWord x.g [(32, x.a), (32, x.b), (32, x.c)] x.d .f32 fun r =>
    fdot2Op x.ty x.rm (r .b32 x.a) (r .b32 x.b) (r .f32 x.c)

/-! ### Conversions and keys (R232-R236) -/

def execCvt (x : F1) (sty : Ty) : State → Host.Outcome State Fault Refusal :=
  laneWord x.g [(sty.bits, x.a)] x.d x.ty fun r => cvtCode x.ty sty x.sat x.rm (r sty x.a)

/-- Element bits and elements of a register (R233). -/
def packBits (ty : Ty) : Nat := if ty = .tf6 then 6 else ty.bits
def packCount (ty : Ty) : Nat := if ty = .tf6 then 4 else 32 / ty.bits

def packOp (ty : Ty) (a b c : Nat) : Nat :=
  let n := packBits ty
  let p := n * (c % packCount ty)
  a - a / 2 ^ p % 2 ^ n * 2 ^ p + b % 2 ^ n * 2 ^ p

def unpackOp (ty : Ty) (a b : Nat) : Nat :=
  let n := packBits ty
  let e := a / 2 ^ (n * (b % packCount ty)) % 2 ^ n
  if ty.signed then intCode 32 (codeInt ty e) else e

/-- b and c are read as 32-bit registers whatever the element (log entry 121). -/
def execPack (x : F3) : State → Host.Outcome State Fault Refusal :=
  laneWord x.g [(32, x.a), (32, x.b), (32, x.c)] x.d .b32 fun r =>
    packOp x.ty (r .b32 x.a) (r .b32 x.b) (r .n32 x.c)

/-- b is read as a 32-bit register (log entry 121). -/
def execUnpack (x : F2) : State → Host.Outcome State Fault Refusal :=
  laneWord x.g [(32, x.a), (32, x.b)] x.d (if x.ty.signed then .i32 else .b32) fun r =>
    unpackOp x.ty (r .b32 x.a) (r .n32 x.b)

/-- The keys are `.n32` for `.f32` and `.n16` for the others. -/
def execOkey (x : F1) : State → Host.Outcome State Fault Refusal :=
  laneWord x.g [(x.ty.bits, x.a)] x.d (if x.ty = .f32 then .n32 else .n16) fun r => okeyCode x.ty (r x.ty x.a)

def execKeyf (x : F1) : State → Host.Outcome State Fault Refusal :=
  let kt : Ty := if x.ty = .f32 then .n32 else .n16
  laneWord x.g [(x.ty.bits, x.a)] x.d x.ty fun r => keyfCode x.ty (r kt x.a)

/-- b is read as a 32-bit register, of which bits 7 to 0 count (log entry 121). -/
def execQcvt (x : F2) : State → Host.Outcome State Fault Refusal :=
  laneWord x.g [(32, x.a), (32, x.b)] x.d x.ty fun r => qcvtCode x.ty x.sat x.rm (r .f32 x.a) (r .b32 x.b % 256)

def execBscale (x : F1) : State → Host.Outcome State Fault Refusal :=
  laneWord x.g [(32, x.a)] x.d .n32 fun r => bscaleCode x.ty (r .f32 x.a)

/-! ### The special-function queue (R237, R238) -/

/-- Hand each half's active lanes to the queue: the token's count rises once for each, and the word is held where it
would reach 3. A scalar takes the result of the word's lowest active lane (R191). -/
def sfqHand (x : Ctx) (tok : Nat) (d : Dst) (res : Nat → Nat) : List Mask → State → Option State
  | [], s => some s
  | m :: ms, s =>
    let gets := !toScalar (some d) || m.getLsbD (lowest x.act)
    match s.group? x.core x.slot with
    | none => some s
    | some g =>
      if 2 ≤ g.tok tok then none
      else
        let job : SfqJob :=
          { id := s.next, slot := x.slot, gid := g.gid, tok := tok, dst := d,
            res := if gets then (lanesOf m).map fun l => (l, BitVec.ofNat 32 (res l)) else [] }
        let g := { g with toks := AMap.put g.toks tok (g.tok tok + 1) }
        let g := if gets then g.await (dstKeys d 32 m) (some s.next) (some tok) else g
        let s := (s.setGroup x.core x.slot g).modCore x.core fun k => { k with sfq := k.sfq ++ [job] }
        sfqHand x tok d res ms s.bump

def sfqWord (w : Sfq) (srcs : List Src) (f : (Src → Nat) → Nat) : State → Host.Outcome State Fault Refusal :=
  issueWord w.g true fun x s =>
    match s.group? x.core x.slot with
    | none => .ok s
    | some g =>
      match g.poisonTrap x.active (srcs.map fun a => (32, a)) with
      | some t => .trap t
      | none =>
        match sfqHand x w.tok.val w.d (fun l => f fun a => x.val g .f32 l a) x.parts s with
        | none => .hold []
        | some s' => .ok s'

def execSfqRcp (w : Sfq) := sfqWord w [w.a] fun r => rcpCode (r w.a)
def execSfqRsq (w : Sfq) := sfqWord w [w.a] fun r => rsqCode (r w.a)
def execSfqSqrt (w : Sfq) := sfqWord w [w.a] fun r => sqrtCode (r w.a)
def execSfqExp2 (w : Sfq) := sfqWord w [w.a] fun r => exp2Code (r w.a)
def execSfqLog2 (w : Sfq) := sfqWord w [w.a] fun r => log2Code (r w.a)
def execSfqSin (w : Sfq) := sfqWord w [w.a] fun r => trigCode 5 0 (r w.a)
def execSfqCos (w : Sfq) := sfqWord w [w.a] fun r => trigCode 6 1 (r w.a)
def execSfqTanh (w : Sfq) := sfqWord w [w.a] fun r => tanhCode (r w.a)
def execSfqExp2s (w : Sfq) := sfqWord w [w.a, w.b, w.c] fun r => exp2sCode (r w.a) (r w.b) (r w.c)
def execSfqGnoise (w : Sfq) := sfqWord w [w.a] fun r => gnoiseCode (r w.a)
def execSfqDiv (w : Sfq) := sfqWord w [w.a, w.b] fun r => divCode (r w.a) (r w.b)

/-- The results of one gang-issue arrive together; the destination stays unspecified to readers until a `WTOK` covers
the token (R238). Results of a group that has ended are discarded (R242). -/
def execSfqResultArrival (core job : Nat) (s : State) : Host.Outcome State Fault Refusal :=
  match (s.core core).sfq.find? fun j => j.id == job with
  | none => .next s
  | some j =>
    let s1 := s.modCore core fun k => { k with sfq := k.sfq.filter fun j => j.id != job }
    match s.group? core j.slot with
    | none => .next s1
    | some g =>
      if g.gid ≠ j.gid then .next s1
      else
        let lanes := (if toScalar (some j.dst) then j.res.take 1 else j.res).filter fun r => (g.thread r.1).st != .exited
        let g := lanes.foldl (fun g r => g.arrive s.free (some job) (some j.tok) .f32 r.1 j.dst r.2.toNat) g
        let g := { g with
          toks := AMap.put g.toks j.tok (g.tok j.tok - 1),
          pend := g.pend.map fun p => if p.req = some job then { p with arrived := true } else p }
        .next (s1.setGroup core j.slot g).spend

end Sys2Proof.Machine
end

