-- ==== Sys2Proof/Machine/CrossLane.lean ====
section
/-! DEFINITION. Cross-lane words (R243-R251) over the reduction tree (R205, R206), and the pair words (R44-R46). -/

namespace Sys2Proof.Machine

/-- RF_POISON where a participating lane reads a poisoned half, its own or that of the lane it names (R243). -/
def crossTrap (x : Ctx) (g : Group) (reads : Nat → List (Nat × Nat × Src)) : Option TrapInfo :=
  x.active.findSome? fun l =>
    (reads l).findSome? fun r => (g.poisonAt r.1 [r.2]).map fun k => { cause := 0x02, lane := l, reg := some k }

def crossWord (gd : Guard) (reads : Ctx → Group → Nat → List (Nat × Nat × Src)) (f : Ctx → Group → Group) :
    State → Host.Outcome State Fault Refusal :=
  groupWord gd fun x g =>
    match crossTrap x g (reads x g) with
    | some t => .error t
    | none => .ok (f x g)

/-- The lane that a lane names (R243), read as 32 bits at every width (log entry 121). -/
def namedLane (x : Ctx) (g : Group) (b : Src) (l : Nat) : Nat := x.val g .n32 l b % g.width

def execXpull (x : F2) : State → Host.Outcome State Fault Refusal :=
  crossWord x.g (fun c g l => [(l, 32, x.b), (namedLane c g x.b l, x.ty.bits, x.a)]) fun c g =>
    c.result g x.ty x.d true fun l => c.val g x.ty (namedLane c g x.b l) x.a

/-- The highest participating lane that names lane `t` (R245). -/
def pusher (x : Ctx) (g : Group) (b : Src) (t : Nat) : Option Nat :=
  (x.active.filter fun l => namedLane x g b l == t).getLast?

/-- A participating lane that no lane names keeps its destination: it counts as inactive for the result. A scalar takes
the lowest participating lane's result, if that lane is named (R243). -/
def execXpush (x : F2) : State → Host.Outcome State Fault Refusal :=
  crossWord x.g (fun _ _ l => [(l, x.ty.bits, x.a), (l, 32, x.b)]) fun c g =>
    let hit := { c with act := c.act &&& maskOf fun t => (pusher c g x.b t).isSome }
    let f (t : Nat) : Nat := c.val g x.ty ((pusher c g x.b t).getD 0) x.a
    match x.d with
    | .s _ =>
      let g' := hit.active.foldl (fun h t => h.laneResult x.ty x.d true t (f t)) g
      match c.active with
      | l :: _ => if hit.act.getLsbD l then g'.writeDst x.ty l x.d (f l) else g'
      | [] => g'
    | _ => hit.result g x.ty x.d true f

def bcast (gd : Guard) (ty : Ty) (d : Dst) (a : Src) (idx : Ctx → Group → Nat) (reads : Nat → List (Nat × Nat × Src)) :
    State → Host.Outcome State Fault Refusal :=
  crossWord gd (fun c g l => reads ((c.active.head?).getD l) ++ [(idx c g, ty.bits, a)]) fun c g =>
    let v := c.val g ty (idx c g) a
    c.result g ty d true fun _ => v

def execXbcast (x : F2) : State → Host.Outcome State Fault Refusal :=
  bcast x.g x.ty x.d x.a (fun c g => namedLane c g x.b ((c.active.head?).getD 0)) fun l => [(l, 32, x.b)]

def execXbcastImm (gd : Guard) (d : Dst) (a : Src) (lane : Fin 64) : State → Host.Outcome State Fault Refusal :=
  bcast gd .b32 d a (fun _ g => lane.val % g.width) fun _ => []

/-! ### Predicates across lanes (R247, R248) -/

def execVany (x : PredOp) : State → Host.Outcome State Fault Refusal :=
  predWord x.g [] x.pd fun c g _ => c.act &&& c.pred g x.pa.val != 0

def execVall (x : PredOp) : State → Host.Outcome State Fault Refusal :=
  predWord x.g [] x.pd fun c g _ => c.act &&& ~~~(c.pred g x.pa.val) == 0

/-- A result that is the same in every participating lane. -/
def predReg (x : PredReg) (ty : Ty) (f : Ctx → Group → Mask → Nat) : State → Host.Outcome State Fault Refusal :=
  groupWord x.g fun c g => .ok (c.result g ty x.d true fun _ => f c g (c.act &&& c.pred g x.pa.val))

def execVbal (x : PredReg) := predReg x x.ty fun _ _ m => m.toNat % 2 ^ x.ty.bits
def execVfirst (x : PredReg) := predReg x .n32 fun _ g m => ((lanesOf m).head?).getD g.width
def execVcount (x : PredReg) := predReg x .n32 fun _ _ m => (lanesOf m).length

/-! ### Reductions and scans (R205, R206, R249, R250) -/

/-- One combination of the tree. -/
def redOp (op : RedOp) (ty : Ty) (a b : Nat) : Nat :=
  match op with
  | .add => if ty.fp then faddOp ty .rne a b else (a + b) % 2 ^ ty.bits
  | .min => if ty.fp then fminCode ty false a b else minOp ty a b
  | .max => if ty.fp then fminCode ty true a b else maxOp ty a b
  | .and => a &&& b
  | .or => a ||| b
  | .xor => a ^^^ b

def combine (op : Nat → Nat → Nat) : Option Nat → Option Nat → Option Nat
  | some a, some b => some (op a b)
  | some a, none => some a
  | none, b => b

/-- Node `i` of a level; an absent child leaves the other unchanged. -/
def treeNode (op : Nat → Nat → Nat) (leaf : Nat → Option Nat) : Nat → Nat → Option Nat
  | 0, i => leaf i
  | j + 1, i => combine op (treeNode op leaf j (2 * i)) (treeNode op leaf j (2 * i + 1))

/-- The fold of the aligned blocks below lane `n`, from the block of size 2^k down. -/
def scanBlocks (op : Nat → Nat → Nat) (leaf : Nat → Option Nat) (n : Nat) : Nat → Nat → Option Nat → Option Nat
  | 0, _, acc => acc
  | k + 1, start, acc =>
    if nbit n k then scanBlocks op leaf n k (start + 2 ^ k) (combine op acc (treeNode op leaf k (start / 2 ^ k)))
    else scanBlocks op leaf n k start acc

/-- The inclusive scan through lane `n - 1`. -/
def scanTo (op : Nat → Nat → Nat) (leaf : Nat → Option Nat) (n : Nat) : Option Nat := scanBlocks op leaf n 7 0 none

/-- Values of the participating lanes. -/
def partLeaf (x : Ctx) (g : Group) (ty : Ty) (a : Src) (l : Nat) : Option Nat :=
  if x.act.getLsbD l then some (x.val g ty l a) else none

def redIdentity (op : RedOp) (ty : Ty) : Nat :=
  match op with
  | .add => 0
  | .min => if ty.fp then infCode ty false else intCode ty.bits (Ty.hi ty)
  | .max => if ty.fp then infCode ty true else intCode ty.bits (Ty.lo ty)
  | .and => 2 ^ ty.bits - 1
  | .or | .xor => 0

def execRedg (x : Red) : State → Host.Outcome State Fault Refusal :=
  groupWord x.g fun c g => checked c g [(x.ty.bits, x.a)]
    (let v := (treeNode (redOp x.op x.ty) (partLeaf c g x.ty x.a) 6 0).getD 0
     c.result g x.ty x.d true fun _ => v)

def execScang (x : Red) : State → Host.Outcome State Fault Refusal :=
  groupWord x.g fun c g => checked c g [(x.ty.bits, x.a)]
    (c.result g x.ty x.d true fun l => (scanTo (redOp x.op x.ty) (partLeaf c g x.ty x.a) (l + 1)).getD 0)

def execScangEx (x : Red) : State → Host.Outcome State Fault Refusal :=
  groupWord x.g fun c g => checked c g [(x.ty.bits, x.a)]
    (c.result g x.ty x.d true fun l =>
      (scanTo (redOp x.op x.ty) (partLeaf c g x.ty x.a) l).getD (redIdentity x.op x.ty))

def execMatchLanes (x : F1) : State → Host.Outcome State Fault Refusal :=
  groupWord x.g fun c g => checked c g [(x.ty.bits, x.a)]
    (c.result g .b64 x.d true fun l =>
      (maskOf fun m => c.act.getLsbD m && c.val g x.ty m x.a == c.val g x.ty l x.a).toNat)

/-! ### Pair words (R44-R46) -/

/-- The registers that a slot names. -/
def pairDst (p : PairArgs) : Dst := .v ⟨256 * p.bank.val + p.d.val, by omega⟩
def pairSrc (p : PairArgs) : Src :=
  match p.a with
  | .bank n => .v ⟨256 * p.bank.val + n.val, by omega⟩
  | .o n => .o n
  | .l n => .l n
  | .k n => .k n
  | .s n => .s n

/-- Result type of a slot (Table 2.6). -/
def pairTy : PairOp → Ty
  | .iadd | .isub | .imul | .iminI32 | .imaxI32 | .sar => .i32
  | .iminN32 | .imaxN32 => .n32
  | .and | .or | .xor | .andn | .shl | .shr | .mov | .movi => .b32
  | .fadd | .fsub | .fmul | .fmin | .fmax => .f32

def pairRm (imm : Nat) : Rm :=
  match imm % 4 with
  | 0 => .rne
  | 1 => .rz
  | 2 => .ru
  | _ => .rd

/-- Effect of a slot on the values of its D and A (Table 2.6). -/
def pairOp (op : PairOp) (imm d a : Nat) : Nat :=
  match op with
  | .iadd => addOp .i32 false d a
  | .isub => subOp .i32 false d a
  | .imul => mulOp .i32 d a
  | .iminI32 => minOp .i32 d a
  | .imaxI32 => maxOp .i32 d a
  | .iminN32 => minOp .n32 d a
  | .imaxN32 => maxOp .n32 d a
  | .and => d &&& a
  | .or => d ||| a
  | .xor => d ^^^ a
  | .andn => andnOp .b32 d a
  | .shl => shlOp 32 a imm
  | .shr => shrOp 32 a imm
  | .sar => sarOp .i32 a imm
  | .mov => a
  | .movi => imm
  | .fadd => faddOp .f32 (pairRm imm) d a
  | .fsub => fsubOp .f32 (pairRm imm) d a
  | .fmul => fmulOp .f32 (pairRm imm) d a
  | .fmin => fminCode .f32 false d a
  | .fmax => fminCode .f32 true d a

/-- What a slot reads: D, unless its result does not depend on it, and A, unless there is none. -/
def pairReads (s : PairSlot) : List (Nat × Src) :=
  match s.op with
  | .movi => []
  | .mov | .shl | .shr | .sar => [(32, pairSrc s.x)]
  | _ => [(32, dstSrc (pairDst s.x)), (32, pairSrc s.x)]

/-- Lanes in which a slot acts: guard 3 is always, and there is no negation. -/
def pairGuard (x : Ctx) (g : Group) (p : PairArgs) : Mask :=
  if p.guard.val = 3 then BitVec.allOnes 64 else x.pred g p.guard.val

def pairValue (x : Ctx) (g : Group) (s : PairSlot) (l : Nat) : Nat :=
  let ty := pairTy s.op
  pairOp s.op s.x.imm.val (x.val g ty l (dstSrc (pairDst s.x))) (x.val g ty l (pairSrc s.x))

/-- Both slots read before either writes; the last-result file takes slot X's result, then slot Y's. -/
def pairWord (sx sy : PairSlot) : State → Host.Outcome State Fault Refusal :=
  groupWord always fun x g =>
    let cx := { x with act := x.lanes &&& pairGuard x g sx.x }
    let cy := { x with act := x.lanes &&& pairGuard x g sy.x }
    let tx := g.poisonTrap cx.active (pairReads sx)
    let ty := g.poisonTrap cy.active (pairReads sy)
    match tx, ty with
    | none, none =>
      let g1 := cx.result g (pairTy sx.op) (pairDst sx.x) true (pairValue x g sx)
      .ok (cy.result g1 (pairTy sy.op) (pairDst sy.x) true (pairValue x g sy))
    | some t, none => .error t
    | none, some t => .error t
    | some t, some u => .error (if u.lane < t.lane then u else t)

def execPairIadd (x : PairArgs) (y : PairSlot) := pairWord ⟨.iadd, x⟩ y
def execPairIsub (x : PairArgs) (y : PairSlot) := pairWord ⟨.isub, x⟩ y
def execPairImul (x : PairArgs) (y : PairSlot) := pairWord ⟨.imul, x⟩ y
def execPairIminI32 (x : PairArgs) (y : PairSlot) := pairWord ⟨.iminI32, x⟩ y
def execPairImaxI32 (x : PairArgs) (y : PairSlot) := pairWord ⟨.imaxI32, x⟩ y
def execPairIminN32 (x : PairArgs) (y : PairSlot) := pairWord ⟨.iminN32, x⟩ y
def execPairImaxN32 (x : PairArgs) (y : PairSlot) := pairWord ⟨.imaxN32, x⟩ y
def execPairAnd (x : PairArgs) (y : PairSlot) := pairWord ⟨.and, x⟩ y
def execPairOr (x : PairArgs) (y : PairSlot) := pairWord ⟨.or, x⟩ y
def execPairXor (x : PairArgs) (y : PairSlot) := pairWord ⟨.xor, x⟩ y
def execPairAndn (x : PairArgs) (y : PairSlot) := pairWord ⟨.andn, x⟩ y
def execPairShl (x : PairArgs) (y : PairSlot) := pairWord ⟨.shl, x⟩ y
def execPairShr (x : PairArgs) (y : PairSlot) := pairWord ⟨.shr, x⟩ y
def execPairSar (x : PairArgs) (y : PairSlot) := pairWord ⟨.sar, x⟩ y
def execPairMov (x : PairArgs) (y : PairSlot) := pairWord ⟨.mov, x⟩ y
def execPairMovi (x : PairArgs) (y : PairSlot) := pairWord ⟨.movi, x⟩ y
def execPairFadd (x : PairArgs) (y : PairSlot) := pairWord ⟨.fadd, x⟩ y
def execPairFsub (x : PairArgs) (y : PairSlot) := pairWord ⟨.fsub, x⟩ y
def execPairFmul (x : PairArgs) (y : PairSlot) := pairWord ⟨.fmul, x⟩ y
def execPairFmin (x : PairArgs) (y : PairSlot) := pairWord ⟨.fmin, x⟩ y
def execPairFmax (x : PairArgs) (y : PairSlot) := pairWord ⟨.fmax, x⟩ y

end Sys2Proof.Machine
end

