-- ==== Sys2Proof/Machine/Stage.lean ====
section
/-! DEFINITION. A choice of the issue stage (R50, R51, R279-R282), the step in which clocks pass. -/

namespace Sys2Proof.Machine

/-- Words issued in a clock after the one that set FULL obey full service (R382). -/
def State.passFull (s : State) (dt : Nat) : State :=
  if s.fullPending && decide (1 ≤ dt) then { s with full := true, fullPending := false } else s

/-- What waits in a core and its partition, for the engines, at this chip's fabric ports, or for a walk, is taken up
again. -/
def State.settleAll (s : State) (c : Nat) : State :=
  let s := match s.partOf c with
    | none => s
    | some p => s.settlePart p
  ((s.reclaim.settleShades.serveInbox.loseOrphans).queueFills c).settleCore c

/-- The issue stage of a core chooses its next word, after `dt` clocks. -/
def execGangIssue (core dt : Nat) (err : Option RfErr) (s : State) : Host.Outcome State Fault Refusal :=
  let s := (s.passClocks core dt).passFull dt
  let s := match err with
    | none => s
    | some e => s.rfError core e
  let s := (s.settleAll core).spend
  let s := (s.core core).table.foldl (fun s e => s.weedGang core e) s
  let s := ((s.refreshTable core).askHeaders core).stopHeld core
  match leastRecent ((s.core core).table.filter fun e => s.entryReady core e.2) with
  | none => .next s
  | some e =>
    let s := s.modCore core fun k => k.sawEntry e.1
    if e.2.gang.isSome then .next { s with issue := some { core := core, entry := e.1 } }
    else .next (s.formGang core e.1 e.2)

end Sys2Proof.Machine
end

