-- ==== Sys2Proof/Machine/Dispatch.lean ====
section
/-! DEFINITION. One arm for each constructor of `Instr`. -/

namespace Sys2Proof.Machine

def exec (i : Instr) (s : State) : Host.Outcome State Fault Refusal :=
  match i with
  | .ill => Sys2Proof.Machine.execIll s
  | .nop g => Sys2Proof.Machine.execNop g s
  | .bra x => Sys2Proof.Machine.execBra x s
  | .brx x => Sys2Proof.Machine.execBrx x s
  | .call x => Sys2Proof.Machine.execCall x s
  | .callx x => Sys2Proof.Machine.execCallx x s
  | .ret g uni => Sys2Proof.Machine.execRet g uni s
  | .stackFillReturn core slot lane => Sys2Proof.Machine.execStackFillReturn core slot lane s
  | .rejoin g a => Sys2Proof.Machine.execRejoin g a s
  | .exit g => Sys2Proof.Machine.execExit g s
  | .spawn g disp a => Sys2Proof.Machine.execSpawn g disp a s
  | .yield g => Sys2Proof.Machine.execYield g s
  | .yieldWake core slot lane => Sys2Proof.Machine.execYieldWake core slot lane s
  | .sleep g n => Sys2Proof.Machine.execSleep g n s
  | .sleepWake core slot lane => Sys2Proof.Machine.execSleepWake core slot lane s
  | .wtok g m => Sys2Proof.Machine.execWtok g m s
  | .wflag g m => Sys2Proof.Machine.execWflag g m s
  | .bar x => Sys2Proof.Machine.execBar x s
  | .bara x => Sys2Proof.Machine.execBara x s
  | .barw g b => Sys2Proof.Machine.execBarw g b s
  | .tlaunch g d a => Sys2Proof.Machine.execTlaunch g d a s
  | .tdone g grade => Sys2Proof.Machine.execTdone g grade s
  | .twalk g d => Sys2Proof.Machine.execTwalk g d s
  | .tstat g d a => Sys2Proof.Machine.execTstat g d a s
  | .trap x => Sys2Proof.Machine.execTrap x s
  | .brk x => Sys2Proof.Machine.execBrk x s
  | .sysc x => Sys2Proof.Machine.execSysc x s
  | .hret g => Sys2Proof.Machine.execHret g s
  | .hretKill g => Sys2Proof.Machine.execHretKill g s
  | .pret g => Sys2Proof.Machine.execPret g s
  | .mfs g d r => Sys2Proof.Machine.execMfs g d r s
  | .mts g r a => Sys2Proof.Machine.execMts g r a s
  | .harvest x => Sys2Proof.Machine.execHarvest x s
  | .iadd x => Sys2Proof.Machine.execIadd x s
  | .iaddImm x => Sys2Proof.Machine.execIaddImm x s
  | .isub x => Sys2Proof.Machine.execIsub x s
  | .isubImm x => Sys2Proof.Machine.execIsubImm x s
  | .imul x => Sys2Proof.Machine.execImul x s
  | .imulImm x => Sys2Proof.Machine.execImulImm x s
  | .imulh x => Sys2Proof.Machine.execImulh x s
  | .imulhImm x => Sys2Proof.Machine.execImulhImm x s
  | .imad x => Sys2Proof.Machine.execImad x s
  | .imadImm x => Sys2Proof.Machine.execImadImm x s
  | .imadw x => Sys2Proof.Machine.execImadw x s
  | .imadwImm x => Sys2Proof.Machine.execImadwImm x s
  | .ineg x => Sys2Proof.Machine.execIneg x s
  | .iabs x => Sys2Proof.Machine.execIabs x s
  | .imin x => Sys2Proof.Machine.execImin x s
  | .iminImm x => Sys2Proof.Machine.execIminImm x s
  | .imax x => Sys2Proof.Machine.execImax x s
  | .imaxImm x => Sys2Proof.Machine.execImaxImm x s
  | .bitAnd x => Sys2Proof.Machine.execBitAnd x s
  | .andImm x => Sys2Proof.Machine.execAndImm x s
  | .bitOr x => Sys2Proof.Machine.execBitOr x s
  | .orImm x => Sys2Proof.Machine.execOrImm x s
  | .bitXor x => Sys2Proof.Machine.execBitXor x s
  | .xorImm x => Sys2Proof.Machine.execXorImm x s
  | .andn x => Sys2Proof.Machine.execAndn x s
  | .andnImm x => Sys2Proof.Machine.execAndnImm x s
  | .bitNot x => Sys2Proof.Machine.execBitNot x s
  | .shl x => Sys2Proof.Machine.execShl x s
  | .shlImm x => Sys2Proof.Machine.execShlImm x s
  | .shr x => Sys2Proof.Machine.execShr x s
  | .shrImm x => Sys2Proof.Machine.execShrImm x s
  | .sar x => Sys2Proof.Machine.execSar x s
  | .sarImm x => Sys2Proof.Machine.execSarImm x s
  | .rol x => Sys2Proof.Machine.execRol x s
  | .rolImm x => Sys2Proof.Machine.execRolImm x s
  | .popc x => Sys2Proof.Machine.execPopc x s
  | .clz x => Sys2Proof.Machine.execClz x s
  | .ctz x => Sys2Proof.Machine.execCtz x s
  | .brev x => Sys2Proof.Machine.execBrev x s
  | .bfx x => Sys2Proof.Machine.execBfx x s
  | .bfxImm x => Sys2Proof.Machine.execBfxImm x s
  | .bfi x => Sys2Proof.Machine.execBfi x s
  | .bfiImm x => Sys2Proof.Machine.execBfiImm x s
  | .isetp x => Sys2Proof.Machine.execIsetp x s
  | .isetpImm g cond uns pd a imm => Sys2Proof.Machine.execIsetpImm g cond uns pd a imm s
  | .sel g ty d a b pc => Sys2Proof.Machine.execSel g ty d a b pc s
  | .mov x => Sys2Proof.Machine.execMov x s
  | .movi g d imm => Sys2Proof.Machine.execMovi g d imm s
  | .moviHi g d imm => Sys2Proof.Machine.execMoviHi g d imm s
  | .lea g sc d a b => Sys2Proof.Machine.execLea g sc d a b s
  | .rhash x => Sys2Proof.Machine.execRhash x s
  | .pand x => Sys2Proof.Machine.execPand x s
  | .por x => Sys2Proof.Machine.execPor x s
  | .pxor x => Sys2Proof.Machine.execPxor x s
  | .pnot x => Sys2Proof.Machine.execPnot x s
  | .fadd x => Sys2Proof.Machine.execFadd x s
  | .faddImm x => Sys2Proof.Machine.execFaddImm x s
  | .fsub x => Sys2Proof.Machine.execFsub x s
  | .fsubImm x => Sys2Proof.Machine.execFsubImm x s
  | .fmul x => Sys2Proof.Machine.execFmul x s
  | .fmulImm x => Sys2Proof.Machine.execFmulImm x s
  | .ffma x => Sys2Proof.Machine.execFfma x s
  | .ffmaImm x => Sys2Proof.Machine.execFfmaImm x s
  | .fmin x => Sys2Proof.Machine.execFmin x s
  | .fminImm x => Sys2Proof.Machine.execFminImm x s
  | .fmax x => Sys2Proof.Machine.execFmax x s
  | .fmaxImm x => Sys2Proof.Machine.execFmaxImm x s
  | .fabs x => Sys2Proof.Machine.execFabs x s
  | .fneg x => Sys2Proof.Machine.execFneg x s
  | .fsetp x => Sys2Proof.Machine.execFsetp x s
  | .fsetpImm g cond pd a imm => Sys2Proof.Machine.execFsetpImm g cond pd a imm s
  | .fclass x => Sys2Proof.Machine.execFclass x s
  | .frnd x => Sys2Proof.Machine.execFrnd x s
  | .fscl x => Sys2Proof.Machine.execFscl x s
  | .fdot2 x => Sys2Proof.Machine.execFdot2 x s
  | .cvt x sty => Sys2Proof.Machine.execCvt x sty s
  | .pack x => Sys2Proof.Machine.execPack x s
  | .unpack x => Sys2Proof.Machine.execUnpack x s
  | .okey x => Sys2Proof.Machine.execOkey x s
  | .keyf x => Sys2Proof.Machine.execKeyf x s
  | .qcvt x => Sys2Proof.Machine.execQcvt x s
  | .bscale x => Sys2Proof.Machine.execBscale x s
  | .sfqRcp x => Sys2Proof.Machine.execSfqRcp x s
  | .sfqRsq x => Sys2Proof.Machine.execSfqRsq x s
  | .sfqSqrt x => Sys2Proof.Machine.execSfqSqrt x s
  | .sfqExp2 x => Sys2Proof.Machine.execSfqExp2 x s
  | .sfqLog2 x => Sys2Proof.Machine.execSfqLog2 x s
  | .sfqSin x => Sys2Proof.Machine.execSfqSin x s
  | .sfqCos x => Sys2Proof.Machine.execSfqCos x s
  | .sfqTanh x => Sys2Proof.Machine.execSfqTanh x s
  | .sfqExp2s x => Sys2Proof.Machine.execSfqExp2s x s
  | .sfqGnoise x => Sys2Proof.Machine.execSfqGnoise x s
  | .sfqDiv x => Sys2Proof.Machine.execSfqDiv x s
  | .sfqResultArrival core job => Sys2Proof.Machine.execSfqResultArrival core job s
  | .xpull x => Sys2Proof.Machine.execXpull x s
  | .xpush x => Sys2Proof.Machine.execXpush x s
  | .xbcast x => Sys2Proof.Machine.execXbcast x s
  | .xbcastImm g d a lane => Sys2Proof.Machine.execXbcastImm g d a lane s
  | .vany x => Sys2Proof.Machine.execVany x s
  | .vall x => Sys2Proof.Machine.execVall x s
  | .vbal x => Sys2Proof.Machine.execVbal x s
  | .vfirst x => Sys2Proof.Machine.execVfirst x s
  | .vcount x => Sys2Proof.Machine.execVcount x s
  | .redg x => Sys2Proof.Machine.execRedg x s
  | .scang x => Sys2Proof.Machine.execScang x s
  | .scangEx x => Sys2Proof.Machine.execScangEx x s
  | .matchLanes x => Sys2Proof.Machine.execMatchLanes x s
  | .pairIadd x y => Sys2Proof.Machine.execPairIadd x y s
  | .pairIsub x y => Sys2Proof.Machine.execPairIsub x y s
  | .pairImul x y => Sys2Proof.Machine.execPairImul x y s
  | .pairIminI32 x y => Sys2Proof.Machine.execPairIminI32 x y s
  | .pairImaxI32 x y => Sys2Proof.Machine.execPairImaxI32 x y s
  | .pairIminN32 x y => Sys2Proof.Machine.execPairIminN32 x y s
  | .pairImaxN32 x y => Sys2Proof.Machine.execPairImaxN32 x y s
  | .pairAnd x y => Sys2Proof.Machine.execPairAnd x y s
  | .pairOr x y => Sys2Proof.Machine.execPairOr x y s
  | .pairXor x y => Sys2Proof.Machine.execPairXor x y s
  | .pairAndn x y => Sys2Proof.Machine.execPairAndn x y s
  | .pairShl x y => Sys2Proof.Machine.execPairShl x y s
  | .pairShr x y => Sys2Proof.Machine.execPairShr x y s
  | .pairSar x y => Sys2Proof.Machine.execPairSar x y s
  | .pairMov x y => Sys2Proof.Machine.execPairMov x y s
  | .pairMovi x y => Sys2Proof.Machine.execPairMovi x y s
  | .pairFadd x y => Sys2Proof.Machine.execPairFadd x y s
  | .pairFsub x y => Sys2Proof.Machine.execPairFsub x y s
  | .pairFmul x y => Sys2Proof.Machine.execPairFmul x y s
  | .pairFmin x y => Sys2Proof.Machine.execPairFmin x y s
  | .pairFmax x y => Sys2Proof.Machine.execPairFmax x y s
  | .ld x => Sys2Proof.Machine.execLd x s
  | .st x => Sys2Proof.Machine.execSt x s
  | .atom32 x => Sys2Proof.Machine.execAtom32 x s
  | .atom64 x => Sys2Proof.Machine.execAtom64 x s
  | .fence x => Sys2Proof.Machine.execFence x s
  | .acqr x => Sys2Proof.Machine.execAcqr x s
  | .cflush x => Sys2Proof.Machine.execCflush x s
  | .cinv x => Sys2Proof.Machine.execCinv x s
  | .seal x => Sys2Proof.Machine.execSeal x s
  | .unseal x => Sys2Proof.Machine.execUnseal x s
  | .carve x => Sys2Proof.Machine.execCarve x s
  | .waita x => Sys2Proof.Machine.execWaita x s
  | .watchNotify core req lane => Sys2Proof.Machine.execWatchNotify core req lane s
  | .watchRecheck core req lane => Sys2Proof.Machine.execWatchRecheck core req lane s
  | .probe x => Sys2Proof.Machine.execProbe x s
  | .tcopy x => Sys2Proof.Machine.execTcopy x s
  | .draySectorLand core req => Sys2Proof.Machine.execDraySectorLand core req s
  | .ldg x => Sys2Proof.Machine.execLdg x s
  | .parkWake core req lane => Sys2Proof.Machine.execParkWake core req lane s
  | .parkRetry core req lane => Sys2Proof.Machine.execParkRetry core req lane s
  | .stg x => Sys2Proof.Machine.execStg x s
  | .amend x => Sys2Proof.Machine.execAmend x s
  | .grd x => Sys2Proof.Machine.execGrd x s
  | .ginit x => Sys2Proof.Machine.execGinit x s
  | .gadd x => Sys2Proof.Machine.execGadd x s
  | .gread x => Sys2Proof.Machine.execGread x s
  | .gspread x => Sys2Proof.Machine.execGspread x s
  | .gfence x => Sys2Proof.Machine.execGfence x s
  | .gstep x => Sys2Proof.Machine.execGstep x s
  | .fput x => Sys2Proof.Machine.execFput x s
  | .fget x => Sys2Proof.Machine.execFget x s
  | .fatom32 x => Sys2Proof.Machine.execFatom32 x s
  | .fatom64 x => Sys2Proof.Machine.execFatom64 x s
  | .ffence x => Sys2Proof.Machine.execFfence x s
  | .acset x => Sys2Proof.Machine.execAcset x s
  | .acwait x => Sys2Proof.Machine.execAcwait x s
  | .obres x => Sys2Proof.Machine.execObres x s
  | .obrel g a => Sys2Proof.Machine.execObrel g a s
  | .mload x => Sys2Proof.Machine.execMload x s
  | .mloadRowLand core req => Sys2Proof.Machine.execMloadRowLand core req s
  | .mma x => Sys2Proof.Machine.execMma x s
  | .mmaAll x => Sys2Proof.Machine.execMmaAll x s
  | .oxPassStart core => Sys2Proof.Machine.execOxPassStart core s
  | .oxPassEnd core => Sys2Proof.Machine.execOxPassEnd core s
  | .mzero g a => Sys2Proof.Machine.execMzero g a s
  | .mread g d a b => Sys2Proof.Machine.execMread g d a b s
  | .mwrite x => Sys2Proof.Machine.execMwrite x s
  | .mstore x => Sys2Proof.Machine.execMstore x s
  | .awset x => Sys2Proof.Machine.execAwset x s
  | .gangIssue core dt err => Sys2Proof.Machine.execGangIssue core dt err s
  | .loadReturn core req idx => Sys2Proof.Machine.execLoadReturn core req idx s
  | .storeAcknowledge core req idx => Sys2Proof.Machine.execStoreAcknowledge core req idx s
  | .writeBackMerge core part easid va => Sys2Proof.Machine.execWriteBackMerge core part easid va s
  | .missReissue core req => Sys2Proof.Machine.execMissReissue core req s
  | .plbFill core part easid page => Sys2Proof.Machine.execPlbFill core part easid page s
  | .tableWalk part easid page => Sys2Proof.Machine.execTableWalk part easid page s
  | .lateFault core req idx err => Sys2Proof.Machine.execLateFault core req idx err s
  | .faultRecordWrite part => Sys2Proof.Machine.execFaultRecordWrite part s
  | .lateTrap core slot => Sys2Proof.Machine.execLateTrap core slot s
  | .siblingStop core slot => Sys2Proof.Machine.execSiblingStop core slot s
  | .trapHandlerEntry core slot => Sys2Proof.Machine.execTrapHandlerEntry core slot s
  | .rpcmdReplay part easid vpage => Sys2Proof.Machine.execRpcmdReplay part easid vpage s
  | .rpcmdDrop part easid vpage => Sys2Proof.Machine.execRpcmdDrop part easid vpage s
  | .combineDrainTimeout core idx => Sys2Proof.Machine.execCombineDrainTimeout core idx s
  | .holdStall core slot => Sys2Proof.Machine.execHoldStall core slot s
  | .wayConvert core => Sys2Proof.Machine.execWayConvert core s
  | .directoryEviction part easid va => Sys2Proof.Machine.execDirectoryEviction part easid va s
  | .engineRecall part easid va => Sys2Proof.Machine.execEngineRecall part easid va s
  | .shootDown part value => Sys2Proof.Machine.execShootDown part value s
  | .frameRelease part value => Sys2Proof.Machine.execFrameRelease part value s
  | .keyInstall slot key => Sys2Proof.Machine.execKeyInstall slot key s
  | .sccolWrite p value => Sys2Proof.Machine.execSccolWrite p value s
  | .fabricPacketArrival pkt => Sys2Proof.Machine.execFabricPacketArrival pkt s
  | .fabricAcknowledge id data rec_ => Sys2Proof.Machine.execFabricAcknowledge id data rec_ s
  | .fabricRefusal id cause detail => Sys2Proof.Machine.execFabricRefusal id cause detail s
  | .linkDown link => Sys2Proof.Machine.execLinkDown link s
  | .linkKeyWarn link => Sys2Proof.Machine.execLinkKeyWarn link s
  | .keySwitchFlit link => Sys2Proof.Machine.execKeySwitchFlit link s
  | .linkKeyInstall link key salt => Sys2Proof.Machine.execLinkKeyInstall link key salt s
  | .linkKeyExhaust link => Sys2Proof.Machine.execLinkKeyExhaust link s
  | .keyRequestFlit link => Sys2Proof.Machine.execKeyRequestFlit link s
  | .keyExpire link => Sys2Proof.Machine.execKeyExpire link s
  | .plremapWrite value => Sys2Proof.Machine.execPlremapWrite value s
  | .plctlWrite value => Sys2Proof.Machine.execPlctlWrite value s
  | .fmpolWrite idx word value => Sys2Proof.Machine.execFmpolWrite idx word value s
  | .linkRetrain link => Sys2Proof.Machine.execLinkRetrain link s
  | .gossipRoundStart part nbr region => Sys2Proof.Machine.execGossipRoundStart part nbr region s
  | .gossipSplit part nbr region line => Sys2Proof.Machine.execGossipSplit part nbr region line s
  | .gossipMessageArrival msg => Sys2Proof.Machine.execGossipMessageArrival msg s
  | .gossipAck part nbr seq => Sys2Proof.Machine.execGossipAck part nbr seq s
  | .gossipRefusal part nbr seq => Sys2Proof.Machine.execGossipRefusal part nbr seq s
  | .gossipReconcile part nbr last => Sys2Proof.Machine.execGossipReconcile part nbr last s
  | .gsregWrite part n word value => Sys2Proof.Machine.execGsregWrite part n word value s
  | .gsctlWrite part value => Sys2Proof.Machine.execGsctlWrite part value s
  | .placeTeam part core => Sys2Proof.Machine.execPlaceTeam part core s
  | .spawnBinFire cluster bin core => Sys2Proof.Machine.execSpawnBinFire cluster bin core s
  | .refireBinFire part task => Sys2Proof.Machine.execRefireBinFire part task s
  | .teamEnd run => Sys2Proof.Machine.execTeamEnd run s
  | .taskRetire part slot => Sys2Proof.Machine.execTaskRetire part slot s
  | .tgctlEndGraph part value => Sys2Proof.Machine.execTgctlEndGraph part value s
  | .bwctlStart part value => Sys2Proof.Machine.execBwctlStart part value s
  | .prectlGo p => Sys2Proof.Machine.execPrectlGo p s
  | .preemptTakeEffect p => Sys2Proof.Machine.execPreemptTakeEffect p s
  | .preemptBudgetExpiry core => Sys2Proof.Machine.execPreemptBudgetExpiry core s
  | .contextSave core => Sys2Proof.Machine.execContextSave core s
  | .saveFault core => Sys2Proof.Machine.execSaveFault core s
  | .svfallWrite p value => Sys2Proof.Machine.execSvfallWrite p value s
  | .prectlResume p => Sys2Proof.Machine.execPrectlResume p s
  | .askill part value => Sys2Proof.Machine.execAskill part value s
  | .partcfgWrite p value => Sys2Proof.Machine.execPartcfgWrite p value s
  | .pwrctlWrite p value => Sys2Proof.Machine.execPwrctlWrite p value s
  | .powerInterval p power => Sys2Proof.Machine.execPowerInterval p power s
  | .hostBar2Access x => Sys2Proof.Machine.execHostBar2Access x s
  | .hostAtomicOp x op cmp => Sys2Proof.Machine.execHostAtomicOp x op cmp s
  | .hostCompletion id data err => Sys2Proof.Machine.execHostCompletion id data err s
  | .getVersion die => Sys2Proof.Machine.execGetVersion die s
  | .getCapabilities die => Sys2Proof.Machine.execGetCapabilities die s
  | .negotiateAlgorithms die => Sys2Proof.Machine.execNegotiateAlgorithms die s
  | .getDigests die => Sys2Proof.Machine.execGetDigests die s
  | .getCertificate die slot => Sys2Proof.Machine.execGetCertificate die slot s
  | .challenge die slot nonce => Sys2Proof.Machine.execChallenge die slot nonce s
  | .getMeasurements die slot index nonce => Sys2Proof.Machine.execGetMeasurements die slot index nonce s
  | .keyExchange die slot session => Sys2Proof.Machine.execKeyExchange die slot session s
  | .finish die session => Sys2Proof.Machine.execFinish die session s
  | .ideKm session stream key => Sys2Proof.Machine.execIdeKm session stream key s
  | .tdispRequest session tdi op => Sys2Proof.Machine.execTdispRequest session tdi op s
  | .powerOn fw => Sys2Proof.Machine.execPowerOn fw s
  | .channelTrained die channel => Sys2Proof.Machine.execChannelTrained die channel s
  | .clusterRelease die manifestOk => Sys2Proof.Machine.execClusterRelease die manifestOk s
  | .registerWrite blk off value => Sys2Proof.Machine.execRegisterWrite blk off value s
  | .fabricLinkTrained link => Sys2Proof.Machine.execFabricLinkTrained link s
  | .cxlPortTrained port => Sys2Proof.Machine.execCxlPortTrained port s

end Sys2Proof.Machine
end

