-- ==== Sys2Proof/Machine/Events.lean ====
section
/-! DEFINITION. Which step comes next when nothing is scheduled and no word is at issue: one of the steps that something in
the state waits for, in an order that is not architectural (R120, R281, R304). A step whose time has not come changes nothing. -/

namespace Sys2Proof.Machine

/-- The steps that one access of a request waits for. -/
def accSteps (c : Nat) (q : Req) (idx : Nat) (a : Acc) : List Instr :=
  match a.st with
  | .waiting | .miss =>
    if q.kind.returns then [.loadReturn c q.id idx, .lateFault c q.id idx .none]
    else if q.kind.acknowledged then [.storeAcknowledge c q.id idx, .lateFault c q.id idx .none]
    else match q.kind with
      | .tcopy => [.draySectorLand c q.id, .lateFault c q.id idx .none]
      | .mload => [.mloadRowLand c q.id, .lateFault c q.id idx .none]
      | .fill => [.stackFillReturn c q.idn.slot a.lane, .lateFault c q.id idx .none]
      | .carve => [.wayConvert c]
      | _ => []
  | .rejected _ => [.missReissue c q.id]
  | .sent _ => [.lateFault c q.id idx .none]
  | .parked => [.parkWake c q.id a.lane]
  | .refused => [.parkRetry c q.id a.lane]
  | .port => [.storeAcknowledge c q.id idx]
  | .watching => [.watchRecheck c q.id a.lane]
  | _ => []

def reqSteps (c : Nat) (q : Req) : List Instr := q.accs.zipIdx.flatMap fun x => accSteps c q x.2 x.1

/-- The steps that a group waits for. -/
def groupSteps (c slot : Nat) (g : Group) : List Instr :=
  (g.thr.filterMap fun t => match t.2.st with
    | .yield _ _ => some (.yieldWake c slot t.1)
    | .sleep _ => some (.sleepWake c slot t.1)
    | .fill _ => some (.stackFillReturn c slot t.1)
    | _ => none) ++
  (if g.lateTrap.isSome then [.lateTrap c slot] else []) ++
  (match g.halt with
    | .running => []
    | .skid _ => [.siblingStop c slot]
    | .stopped => [.trapHandlerEntry c slot])

/-- The steps that a core waits for; its issue stage always does. -/
def coreSteps (c : Nat) (k : Core) : List Instr :=
  [.gangIssue c 1 none] ++
  (k.fills.filterMap fun f =>
    let t := f.1 / 2 ^ 40
    if f.2 = .asked then some (.plbFill c (t / 4096) (t % 4096) (f.1 % 2 ^ 40)) else none) ++
  k.reqs.flatMap (reqSteps c) ++
  (k.groups.flatMap fun g => groupSteps c g.1 g.2) ++
  (k.sfq.map fun j => .sfqResultArrival c j.id) ++
  (if k.oxq = [] then [] else [.oxPassStart c]) ++
  (if k.pass.isSome then [.oxPassEnd c] else []) ++
  ((k.l1.filter fun x => x.2.dirty != 0).map fun x => .writeBackMerge c (tagPart x.1) (tagEasid x.1) (tagVa x.1)) ++
  (k.comb.mapIdx fun i _ => .combineDrainTimeout c i) ++
  (if k.t0.isSome then [.contextSave c, .preemptBudgetExpiry c] else []) ++
  (if k.carve = k.target then [] else [.wayConvert c])

/-- The steps that a partition waits for. -/
def partSteps (p : Nat) (x : Part) : List Instr :=
  (if x.records = [] then [] else [.faultRecordWrite p]) ++
  (if x.preempting && !x.inEffect then [.preemptTakeEffect p] else []) ++
  (x.refire.map fun b => .refireBinFire p b.task) ++
  (x.slots.map fun t => .taskRetire p t.1)

/-- Steps that a partition's task unit may take on the cores of its clusters. -/
def State.placeSteps (s : State) (p : Nat) (x : Part) : List Instr :=
  if x.slots = [] then [] else (s.partCores p).map fun c => .placeTeam p c

def State.binSteps (s : State) : List Instr :=
  s.bins.flatMap fun b => (List.range b.2.length).flatMap fun i =>
    (List.range Config.coresPerCluster).map fun c => .spawnBinFire b.1 i (b.1 * Config.coresPerCluster + c)

/-- Lines of a round in progress, and rounds and reconciliations that may start. -/
def State.gossipSteps (s : State) : List Instr :=
  (s.parts.flatMap fun p =>
    if (s.preg p.1 0x2300).getLsbD 63 then
      (List.range 8).flatMap fun j => (List.range 8).map fun n => .gossipRoundStart p.1 j n
    else []) ++
  s.gander.flatMap fun g =>
    g.2.active.flatMap fun a =>
      (List.range (bits (s.preg (g.1 / 8) (0x2410 + 32 * a.1)) 23 0 + 1)).map fun l => .gossipSplit (g.1 / 8) (g.1 % 8) a.1 l

/-- The walks that homes have to make. -/
def State.walkSteps (s : State) : List Instr :=
  s.walks.flatMap fun w => w.2.map fun t => let y := tagOfPage t; .tableWalk y.1 y.2.1 (y.2.2 / 65536)

/-- Every step that something waits for. -/
def State.pending (s : State) : List Instr :=
  (s.cores.flatMap fun k => coreSteps k.1 k.2) ++
  (s.parts.flatMap fun p => partSteps p.1 p.2 ++ s.placeSteps p.1 p.2) ++
  (s.runs.map fun r => .teamEnd r.1) ++ s.binSteps ++ s.gossipSteps ++ s.walkSteps

/-- One of them. -/
def State.nextStep (s : State) : Instr :=
  let l := s.pending
  l.getD (Config.freeChoice s.free l.length % l.length) (.gangIssue 0 1 none)

end Sys2Proof.Machine
end

