-- ==== Sys2Proof/Machine/Step.lean ====
section
/-! DEFINITION. One step of the device, and the placing of a word where the next step fetches it. -/

namespace Sys2Proof.Machine

/-- One step (log entry 1): the next step on the schedule, where there is one; else the word that the issue stage has
chosen; else one of the steps that something waits for. Words come from memory only. -/
def step (s : State) : Host.Outcome State Fault Refusal :=
  match s.agenda with
  | i :: rest =>
    if i.isWord then .next { s with agenda := rest } else exec i { s with agenda := rest }
  | [] =>
    if s.issue.isNone then exec s.nextStep s.spend
    else
      match s.found with
      | .nothing => .next { s with issue := none }
      | .word i => exec i s
      | .bad n => issueBad n s
      | .miss t => issueMiss t s
      | .fatal => issueFatal s

/-! ### Placing a word (log entry 11)

A program runs from a task's or the dispatch team's record; the words of it are placed in memory from outside. `withFetchWord`
stands for all that: partition 0 enabled over cluster 0, one group of 16 threads with 768 registers on core 0 in address
space 1, in the middle of a clause of one word, whose page the core may execute; the word, its clause's header and the
next header in the page's frame. -/

/-- The page of the word, its clause's header, and the frame at the page's home. -/
def fetchVa : Nat := 0x10000
def fetchPc : Word := 0x10008
def fetchPa : Nat := homeHash 0 1 fetchVa * 2 ^ 35 + 64 * 2 ^ 16

/-- V, P, R, X and LF, key slot 0. -/
def fetchLeaf : Word := BitVec.ofNat 64 (2 ^ 63 + 2 ^ 58 + 2 ^ 56 + 2 ^ 52 + 2 ^ 8 + fetchPa)

/-- A header of a clause of one word, set-flags 0 and 1, no wait. -/
def fetchHeader : Header := { len := 1, wait := 0, sfa := some 0, sfb := some 1 }

def fetchGroup : Group :=
  { gid := 1, run := 1, part := 0, asid := 1, width := 16, regs := 768, kern := 1,
    thr := (List.range 16).map fun l => (l, { pc := fetchPc, hdr := some (BitVec.ofNat 64 fetchVa), len := 1 }) }

def fetchGang : Gang :=
  { pc := fetchPc, len := 1, idx := 0, sfa := some 0, sfb := some 1, members := [(0, 0xFFFF)] }

/-- The three words at the start of the page. -/
def fetchBytes (w : Nat) : Nat :=
  Header.encode fetchHeader + w % 2 ^ 64 * 2 ^ 64 + Header.encode fetchHeader * 2 ^ 128

/-- Store an instruction where the next step fetches it. -/
def State.withFetchWord (s : State) (_nbits w : Nat) : State :=
  let t := pageTag 0 1 fetchVa
  let k := s.slot 0
  let core := s.core 0
  { s with
    agenda := [], issue := some { core := 0, entry := 0 },
    hregs := AMap.put s.hregs 0x300 0x8000000000000000,
    parts := AMap.put s.parts 0
      { s.part 0 with killing := [], regs := AMap.put (s.part 0).regs 0x2040 (s.preg 0 0x2040 ||| 1) },
    runs := AMap.put s.runs 1 { part := 0, asid := 1, cores := [0] },
    cores := AMap.put s.cores 0
      { core with
        groups := [(0, fetchGroup)], table := [(0, { kern := 1, hdr := BitVec.ofNat 64 fetchVa, gang := some fetchGang })],
        plb := AMap.put core.plb t { r := true, x := true } },
    tlb := AMap.put s.tlb t { leaf := fetchLeaf },
    rmap := AMap.put s.rmap (fetchPa / 2 ^ 16) (rmapEntry 0 1 fetchVa),
    cached := AMap.del s.cached (sectorTag 0 1 fetchVa),
    lmeta := AMap.put s.lmeta (fetchPa / 256) { slot := 0, epoch := k.epoch, key := k.key },
    mem := Memory.writeN s.mem fetchPa 24 (fetchBytes w) }

end Sys2Proof.Machine
end

