-- ==== Sys2Proof/Safety.lean ====
section
/-! DEFINITION. The terms in which claims speak of a run: a group whose word is about to issue, what makes the word go on,
and the state behind it; and what counts as a safe step. -/

namespace Sys2Proof.Machine

/-- One group at issue: its core, the PC-table entry, the clause's header and gang, its slot, the lanes at issue, and its
record. -/
structure Spot where
  c : Nat
  e : Nat
  hdr : Word
  ga : Gang
  slot : Nat
  m : Mask
  g : Group

/-- The issue stage has chosen a gang whose one member is the lanes `m` of this group, and the group is in no skid (R281,
R353). What a word does for a gang of several groups, it does for one after the other. -/
def Spot.Issues (p : Spot) (s : State) : Prop :=
  s.gang? = some (p.c, p.e, p.hdr, p.ga) ∧ p.ga.members = [(p.slot, p.m)] ∧ s.group? p.c p.slot = some p.g ∧
    p.g.halt = .running

/-- What a word with a guard sees there. -/
def Spot.ctx (p : Spot) (s : State) (gd : Guard) : Ctx := mkCtx p.c p.e p.hdr p.ga p.g gd p.slot p.m s.free
  (s.now p.g.part)

/-- Where the word ends its clause, the header behind the clause can be fetched (R309). -/
def Spot.Follows (p : Spot) (s : State) : Prop :=
  p.ga.idx + 1 = p.ga.len → ∃ w, s.fetch p.c p.g.part p.g.asid (p.ga.pc + 8) = .ok w

/-- The group `g` with the lanes at issue behind the word: at the clause's next word, or waiting at the header behind it. -/
def Spot.ahead (p : Spot) (s : State) (g : Group) : Group := g.advance (p.ctx s always) p.m

/-- The state behind a word that has changed `s` into `s'` and left its group as `g`. -/
def Spot.after (p : Spot) (s s' : State) (g : Group) : State :=
  (s'.setGroup p.c p.slot (p.ahead s g)).finishWord p.c p.e

/-- The state behind a word that traps with `t` (R156, R352): the answers of fills are used up, and the group takes the
exception at the word. -/
def Spot.trapped (p : Spot) (s : State) (t : TrapInfo) : State :=
  ((s.modCore p.c Core.dropAnswers).raisePrecise p.c p.slot t p.ga.pc p.m false).finishWord p.c p.e

/-- The state behind a word that is held, asking for fills. -/
def Spot.held (p : Spot) (s : State) (asks : List Nat) : State := s.holdWord p.c p.e p.ga asks

/-- A step is safe when it gives a next state: it neither stops with a fault nor is refused. -/
def SafeStep (s : State) : Prop := ∃ t, step s = .next t

/-- The canonical form of DRAM, which makes equal memories equal data. -/
def State.MemOk (s : State) : Prop := Memory.wf s.mem = true

end Sys2Proof.Machine
end

