-- ==== Sys2Proof/Certificates/Slice0/Obligations.lean ====
section
/-! DEFINITION. The statements for the provers, from the numbered rules of the spec. The tables in front of them write the
rules' results down anew, in the arithmetic of integers and bit vectors. -/

namespace Sys2Proof.Claims

open Sys2Proof.Machine

/-! ### Words of one result for each lane -/

/-- What a rule says of such a word: its guard, the sources it reads with their widths, its destination, the type of its
result, and the result from the values of the operands read at their types. -/
structure LaneShape where
  gd : Guard
  srcs : List (Nat × Src)
  d : Dst
  ty : Ty
  f : (Ty → Src → Nat) → Nat

/-- The number that a code of an integer type stands for (R195), and the code of a number, which wraps. -/
def num (ty : Ty) (a : Nat) : Int :=
  if ty.signed then (BitVec.ofNat ty.bits a).toInt else ((BitVec.ofNat ty.bits a).toNat : Int)
def code (ty : Ty) (i : Int) : Nat := (BitVec.ofInt ty.bits i).toNat

/-- The nearest number of the type's range. -/
def clamped (ty : Ty) (i : Int) : Int :=
  if ty.signed then max (-(2 ^ (ty.bits - 1) : Nat)) (min i ((2 ^ (ty.bits - 1) : Nat) - 1))
  else max 0 (min i ((2 ^ ty.bits : Nat) - 1))

def satIf? (sat : Bool) (ty : Ty) (i : Int) : Int := if sat then clamped ty i else i

/-- Types of the immediate forms (R39), and the immediate's sign-extended code. -/
def iTy (w : Bool) : Ty := if w then .i64 else .i32
def bTy (w : Bool) : Ty := if w then .b64 else .b32
def cImm (x : CImm) : Nat := code (iTy x.w) x.imm.toInt
def bImm (ty : Ty) (x : BImm) : Nat := code ty x.imm.toInt

def one (x : F1) (f : Nat → Nat) : LaneShape := ⟨x.g, [(x.ty.bits, x.a)], x.d, x.ty, fun r => f (r x.ty x.a)⟩
def two (x : F2) (f : Nat → Nat → Nat) : LaneShape :=
  ⟨x.g, [(x.ty.bits, x.a), (x.ty.bits, x.b)], x.d, x.ty, fun r => f (r x.ty x.a) (r x.ty x.b)⟩
def withC (x : CImm) (ty : Ty) (f : Nat → Nat) : LaneShape := ⟨x.g, [(ty.bits, x.a)], x.d, ty, fun r => f (r ty x.a)⟩
def withB (x : BImm) (ty rty : Ty) (f : Nat → Nat → Nat) : LaneShape :=
  ⟨x.g, [(ty.bits, x.a), (ty.bits, x.b)], x.d, rty, fun r => f (r ty x.a) (r ty x.b)⟩

/-- The type twice as wide (R210). -/
def twice : Ty → Ty
  | .i32 => .i64
  | .n32 => .n64
  | _ => .b128

def addC (ty : Ty) (sat : Bool) (a b : Nat) : Nat := code ty (satIf? sat ty (num ty a + num ty b))
def subC (ty : Ty) (sat : Bool) (a b : Nat) : Nat := code ty (satIf? sat ty (num ty a - num ty b))
def mulC (ty : Ty) (a b : Nat) : Nat := (BitVec.ofNat ty.bits a * BitVec.ofNat ty.bits b).toNat
def mulhC (ty : Ty) (a b : Nat) : Nat := code ty (num ty a * num ty b / (2 ^ ty.bits : Nat))
def madC (ty : Ty) (a b c : Nat) : Nat :=
  (BitVec.ofNat ty.bits a * BitVec.ofNat ty.bits b + BitVec.ofNat ty.bits c).toNat
def madwC (ty : Ty) (a b c : Nat) : Nat := (BitVec.ofInt (2 * ty.bits) (num ty a * num ty b + c)).toNat
def minC (ty : Ty) (a b : Nat) : Nat := code ty (min (num ty a) (num ty b))
def maxC (ty : Ty) (a b : Nat) : Nat := code ty (max (num ty a) (num ty b))

/-- Integer arithmetic (R209-R212). -/
def arithmetic : Instr → Option LaneShape
  | .iadd x => some (two x (addC x.ty x.sat))
  | .iaddImm x => some (withC x (iTy x.w) fun a => addC (iTy x.w) false a (cImm x))
  | .isub x => some (two x (subC x.ty x.sat))
  | .isubImm x => some (withC x (iTy x.w) fun a => subC (iTy x.w) false a (cImm x))
  | .imul x => some (two x (mulC x.ty))
  | .imulImm x => some (withC x (iTy x.w) fun a => mulC (iTy x.w) a (cImm x))
  | .imulh x => some (two x (mulhC x.ty))
  | .imulhImm x => some (withC x (iTy x.w) fun a => mulhC (iTy x.w) a (cImm x))
  | .imad x => some ⟨x.g, [(x.ty.bits, x.a), (x.ty.bits, x.b), (x.ty.bits, x.c)], x.d, x.ty,
      fun r => madC x.ty (r x.ty x.a) (r x.ty x.b) (r x.ty x.c)⟩
  | .imadImm x => some (withB x (iTy x.w) (iTy x.w) fun a b => madC (iTy x.w) a b (bImm (iTy x.w) x))
  | .imadw x => some ⟨x.g, [(x.ty.bits, x.a), (x.ty.bits, x.b), ((twice x.ty).bits, x.c)], x.d, twice x.ty,
      fun r => madwC x.ty (r x.ty x.a) (r x.ty x.b) (r (twice x.ty) x.c)⟩
  | .imadwImm x => some (withB x (iTy x.w) (twice (iTy x.w)) fun a b => madwC (iTy x.w) a b (bImm (twice (iTy x.w)) x))
  | .ineg x => some (one x fun a => code x.ty (satIf? x.sat x.ty (-num x.ty a)))
  | .iabs x => some (one x fun a => code x.ty (satIf? x.sat x.ty (num x.ty a).natAbs))
  | .imin x => some (two x (minC x.ty))
  | .iminImm x => some (withC x (iTy x.w) fun a => minC (iTy x.w) a (cImm x))
  | .imax x => some (two x (maxC x.ty))
  | .imaxImm x => some (withC x (iTy x.w) fun a => maxC (iTy x.w) a (cImm x))
  | _ => none

/-! A bit string's bits -/

def bv (ty : Ty) (a : Nat) : BitVec ty.bits := BitVec.ofNat ty.bits a

def andC (ty : Ty) (a b : Nat) : Nat := (bv ty a &&& bv ty b).toNat
def orC (ty : Ty) (a b : Nat) : Nat := (bv ty a ||| bv ty b).toNat
def xorC (ty : Ty) (a b : Nat) : Nat := (bv ty a ^^^ bv ty b).toNat
def andnC (ty : Ty) (a b : Nat) : Nat := (bv ty a &&& ~~~(bv ty b)).toNat
def shlC (ty : Ty) (a k : Nat) : Nat := (bv ty a <<< k).toNat
def shrC (ty : Ty) (a k : Nat) : Nat := (bv ty a >>> k).toNat
def sarC (ty : Ty) (a k : Nat) : Nat := ((bv ty a).sshiftRight k).toNat
def rolC (ty : Ty) (a k : Nat) : Nat := ((bv ty a).rotateLeft k).toNat

/-- A shift reads its count at its type, and takes the low 32 bits (R209, R214). -/
def shift (x : F2) (f : Nat → Nat → Nat) : LaneShape := two x fun a b => f a (b % 2 ^ 32)

/-- Logic and shifts (R213, R214). -/
def logic : Instr → Option LaneShape
  | .bitAnd x => some (two x (andC x.ty))
  | .andImm x => some (withC x (bTy x.w) fun a => andC (bTy x.w) a x.imm.toNat)
  | .bitOr x => some (two x (orC x.ty))
  | .orImm x => some (withC x (bTy x.w) fun a => orC (bTy x.w) a x.imm.toNat)
  | .bitXor x => some (two x (xorC x.ty))
  | .xorImm x => some (withC x (bTy x.w) fun a => xorC (bTy x.w) a x.imm.toNat)
  | .andn x => some (two x (andnC x.ty))
  | .andnImm x => some (withC x (bTy x.w) fun a => andnC (bTy x.w) a x.imm.toNat)
  | .bitNot x => some (one x fun a => (~~~(bv x.ty a)).toNat)
  | .shl x => some (shift x (shlC x.ty))
  | .shlImm x => some (withC x (bTy x.w) fun a => shlC (bTy x.w) a x.imm.toNat)
  | .shr x => some (shift x (shrC x.ty))
  | .shrImm x => some (withC x (bTy x.w) fun a => shrC (bTy x.w) a x.imm.toNat)
  | .sar x => some (shift x (sarC x.ty))
  | .sarImm x => some (withC x (iTy x.w) fun a => sarC (iTy x.w) a x.imm.toNat)
  | .rol x => some (shift x (rolC x.ty))
  | .rolImm x => some (withC x (bTy x.w) fun a => rolC (bTy x.w) a x.imm.toNat)
  | _ => none

/-- The number whose bits `0` to `n - 1` are given. -/
def ofBits (n : Nat) (p : Nat → Bool) : Nat := (List.range n).foldl (fun v i => v + if p i then 2 ^ i else 0) 0

/-- A field of a width at a position, both cut down to what the register holds (R216). -/
def fieldW (n p w : Nat) : Nat := min w (n - min p n)
def bfxC (ty : Ty) (a p w : Nat) : Nat :=
  let f := (bv ty a).extractLsb' (min p ty.bits) (fieldW ty.bits p w)
  if ty.signed then (f.signExtend ty.bits).toNat else f.toNat
def bfiC (ty : Ty) (d a p w : Nat) : Nat :=
  let p' := min p ty.bits
  ofBits ty.bits fun i =>
    if p' ≤ i ∧ i < p' + fieldW ty.bits p w then (bv ty a).getLsbD (i - p') else (bv ty d).getLsbD i

/-- Counts of bits (R215). -/
def count (x : F1) (f : (n : Nat) → BitVec n → Nat) : LaneShape :=
  ⟨x.g, [(x.ty.bits, x.a)], x.d, .n32, fun r => f x.ty.bits (bv x.ty (r x.ty x.a))⟩

/-- The four rounds of `RHASH` (R221). -/
def hashC (a key : Nat) : Nat :=
  (([0, 1, 2, 3] : List Nat).foldl (fun (x : BitVec 32) i =>
    let y := (x ^^^ (BitVec.ofNat 32 key + BitVec.ofNat 32 i * 0x632BE5AB#32)) * 0x9E3779B1#32
    y ^^^ (y >>> 13)) (BitVec.ofNat 32 a)).toNat

/-- Counts, fields and moves (R215, R216, R218-R221). -/
def fields : Instr → Option LaneShape
  | .popc x => some (count x fun n v => ((List.range n).filter v.getLsbD).length)
  | .clz x => some (count x fun n v => ((List.range n).filter fun i => decide (v.toNat < 2 ^ i)).length)
  | .ctz x => some (count x fun n v => ((List.range n).find? v.getLsbD).getD n)
  | .brev x => some (one x fun a => (bv x.ty a).reverse.toNat)
  | .bfx x => some ⟨x.g, [(x.ty.bits, x.a), (x.ty.bits, x.b), (x.ty.bits, x.c)], x.d, x.ty,
      fun r => bfxC x.ty (r x.ty x.a) (r x.ty x.b % 2 ^ 32) (r x.ty x.c % 2 ^ 32)⟩
  | .bfxImm x => some (withB x (iTy x.w) (iTy x.w) fun a b => bfxC (iTy x.w) a (b % 2 ^ 32) (bImm .i32 x))
  | .bfi x => some ⟨x.g, [(x.ty.bits, x.a), (x.ty.bits, x.b), (x.ty.bits, x.c), (x.ty.bits, dstSrc x.d)], x.d, x.ty,
      fun r => bfiC x.ty (r x.ty (dstSrc x.d)) (r x.ty x.a) (r x.ty x.b % 2 ^ 32) (r x.ty x.c % 2 ^ 32)⟩
  | .bfiImm x => some ⟨x.g, [((iTy x.w).bits, x.a), ((iTy x.w).bits, x.b), ((iTy x.w).bits, dstSrc x.d)], x.d, iTy x.w,
      fun r => bfiC (iTy x.w) (r (iTy x.w) (dstSrc x.d)) (r (iTy x.w) x.a) (r (iTy x.w) x.b % 2 ^ 32) (bImm .i32 x)⟩
  | .mov x => some (one x id)
  | .movi g d imm => some ⟨g, [], d, .i32, fun _ => (imm.signExtend 32).toNat⟩
  | .moviHi g d imm => some ⟨g, [(32, dstSrc d)], d, .b32,
      fun r => (imm ++ (BitVec.ofNat 16 (r .b32 (dstSrc d)))).toNat⟩
  | .lea g sc d a b => some ⟨g, [(64, a), (32, b)], d, .b64,
      fun r => (BitVec.ofNat 64 (r .b64 a) + (BitVec.ofNat 32 (r .i32 b)).signExtend 64 <<< sc.val).toNat⟩
  | .rhash x => some (two x hashC)
  | _ => none

/-! ### Floating-point words: the operands' exact values, the exact result, one rounding (R197, R198) -/

def fTy (w : Bool) : Ty := if w then .f16 else .f32
/-- An immediate gives the high bits of an FP32 value, or an FP16 value (R39). -/
def cFp (x : CImm) : Nat := if x.w then x.imm.toNat % 2 ^ 16 else x.imm.toNat * 2 ^ 5
def bFp (x : BImm) : Nat := if x.w then x.imm.toNat % 2 ^ 16 else x.imm.toNat * 2 ^ 15

/-- The exact operation on values, rounded once; `sat` clamps to [+0, 1] (R223). -/
def fop (ty : Ty) (rm : Rm) (sat : Bool) (f : FVal → FVal → FVal) (a b : Nat) : Nat :=
  satIf sat ty (roundF ty rm (f (decodeF ty a) (decodeF ty b)))
def fsubV (rm : Rm) (a b : FVal) : FVal := addV rm a (negV b)

def isNaN (ty : Ty) (a : Nat) : Bool := decodeF ty a == .nan

/-- Sign and magnitude fields of a code. -/
def signOf (ty : Ty) (a : Nat) : Bool := (BitVec.ofNat 64 a).getLsbD (signBit ty)
def magOf (ty : Ty) (a : Nat) : Nat := a % 2 ^ signBit ty

/-- Values in order, -0 below +0 (R225). -/
def below (ty : Ty) (a b : Nat) : Bool :=
  match signOf ty a, signOf ty b with
  | true, false => true
  | false, true => false
  | false, false => decide (magOf ty a < magOf ty b)
  | true, true => decide (magOf ty b < magOf ty a)
def fminC (ty : Ty) (a b : Nat) : Nat :=
  if isNaN ty a && isNaN ty b then nanCode ty else if isNaN ty a then b else if isNaN ty b then a
  else if below ty b a then b else a
def fmaxC (ty : Ty) (a b : Nat) : Nat :=
  if isNaN ty a && isNaN ty b then nanCode ty else if isNaN ty a then b else if isNaN ty b then a
  else if below ty a b then b else a

/-- The code in its own bits, and the zero and NaR codes of the tapered formats, which have no sign to move (R226). -/
def ownBits (ty : Ty) (a : Nat) : BitVec 32 := BitVec.ofNat 32 (a % 2 ^ (signBit ty + 1))
def signless (ty : Ty) (a : Nat) : Bool := (ty == .tf8 || ty == .tf6) && magOf ty a == 0
def signMask (ty : Ty) : BitVec 32 := 1#32 <<< signBit ty
def fabsC (ty : Ty) (a : Nat) : Nat :=
  (if signless ty a then ownBits ty a else ownBits ty a &&& ~~~signMask ty).toNat
def fnegC (ty : Ty) (a : Nat) : Nat :=
  (if signless ty a then ownBits ty a else ownBits ty a ^^^ signMask ty).toNat

/-- Exponent fields (Table 9.5); every nonzero value of a tapered format is normal. -/
def expZero (ty : Ty) (a : Nat) : Bool :=
  let f (hi lo : Nat) : Bool := bits (BitVec.ofNat 64 a) hi lo == 0
  match ty with
  | .f16 => f 14 10
  | .bf16 => f 14 7
  | .e5m2 => f 6 2
  | .e4m3 => f 6 3
  | .tf8 | .tf6 => false
  | _ => f 30 23

/-- The class of a value (Table 10.5). -/
def classC (ty : Ty) (a : Nat) : Nat :=
  match decodeF ty a with
  | .nan => 2 ^ 8
  | .inf neg => if neg then 2 ^ 0 else 2 ^ 7
  | .num d =>
    if d.m = 0 then (if d.neg then 2 ^ 3 else 2 ^ 4)
    else if expZero ty a then (if d.neg then 2 ^ 2 else 2 ^ 5)
    else (if d.neg then 2 ^ 1 else 2 ^ 6)

/-- The integer `n / k` rounded in a mode (R198). -/
def divRound (rm : Rm) (n : Int) (k : Nat) : Int :=
  match rm with
  | .rd => n / (k : Int)
  | .ru => -(-n / (k : Int))
  | .rz => if 0 ≤ n then n / (k : Int) else -(-n / (k : Int))
  | .rne =>
    let q := n / (k : Int)
    let r := n - q * k
    if 2 * r < k then q else if (k : Int) < 2 * r then q + 1 else if q % 2 = 0 then q else q + 1

/-- A finite value rounded to an integer. -/
def intRound (rm : Rm) (d : Dy) : Int :=
  let n : Int := if d.neg then -(d.m : Int) else d.m
  if 0 ≤ d.e then n * 2 ^ d.e.toNat else divRound rm n (2 ^ (-d.e).toNat)

/-- Rounded to an integral value (R229): zeros and infinities stay, and a value that comes to zero keeps its sign. -/
def frndC (ty : Ty) (rm : Rm) (a : Nat) : Nat :=
  match decodeF ty a with
  | .nan => nanCode ty
  | .inf _ => a
  | .num d => if d.m = 0 then a else roundF ty .rne (.num ⟨d.neg, (intRound rm d).natAbs, 0⟩)

/-- Floating arithmetic (R223-R231). -/
def floats : Instr → Option LaneShape
  | .fadd x => some (two x (fop x.ty x.rm x.sat (addV x.rm)))
  | .faddImm x => some (withC x (fTy x.w) fun a => fop (fTy x.w) .rne false (addV .rne) a (cFp x))
  | .fsub x => some (two x (fop x.ty x.rm x.sat (fsubV x.rm)))
  | .fsubImm x => some (withC x (fTy x.w) fun a => fop (fTy x.w) .rne false (fsubV .rne) a (cFp x))
  | .fmul x => some (two x (fop x.ty x.rm x.sat mulV))
  | .fmulImm x => some (withC x (fTy x.w) fun a => fop (fTy x.w) .rne false mulV a (cFp x))
  | .ffma x => some ⟨x.g, [(x.ty.bits, x.a), (x.ty.bits, x.b), (x.ty.bits, x.c)], x.d, x.ty, fun r =>
      roundF x.ty x.rm (addV x.rm (mulV (decodeF x.ty (r x.ty x.a)) (decodeF x.ty (r x.ty x.b))) (decodeF x.ty (r x.ty x.c)))⟩
  | .ffmaImm x => some (withB x (fTy x.w) (fTy x.w) fun a b =>
      roundF (fTy x.w) .rne (addV .rne (mulV (decodeF (fTy x.w) a) (decodeF (fTy x.w) b)) (decodeF (fTy x.w) (bFp x))))
  | .fmin x => some (two x (fminC x.ty))
  | .fminImm x => some (withC x (fTy x.w) fun a => fminC (fTy x.w) a (cFp x))
  | .fmax x => some (two x (fmaxC x.ty))
  | .fmaxImm x => some (withC x (fTy x.w) fun a => fmaxC (fTy x.w) a (cFp x))
  | .fabs x => some (one x (fabsC x.ty))
  | .fneg x => some (one x (fnegC x.ty))
  | .fclass x => some ⟨x.g, [(x.ty.bits, x.a)], x.d, .n32, fun r => classC x.ty (r x.ty x.a)⟩
  | .frnd x => some (one x (frndC x.ty x.rm))
  | .fscl x => some ⟨x.g, [(x.ty.bits, x.a), (32, x.b)], x.d, x.ty,
      fun r => roundF x.ty x.rm (sclV (decodeF x.ty (r x.ty x.a)) (num .i32 (r .i32 x.b)))⟩
  | .fdot2 x => some ⟨x.g, [(32, x.a), (32, x.b), (32, x.c)], x.d, .f32, fun r =>
      let h (v i : Nat) : FVal := decodeF x.ty (BitVec.ofNat 16 (v / 2 ^ (16 * i))).toNat
      let a := r .b32 x.a
      let b := r .b32 x.b
      roundF .f32 x.rm (sumV [mulV (h a 0) (h b 0), mulV (h a 1) (h b 1), decodeF .f32 (r .f32 x.c)])⟩
  | _ => none

/-- Elements of a packed register (R233): bits of one, and how many. -/
def elemBits (ty : Ty) : Nat := if ty = .tf6 then 6 else ty.bits
def elemCount (ty : Ty) : Nat := if ty = .tf6 then 4 else 32 / ty.bits

/-- `.sat` puts the largest finite value of the sign in place of an infinity (Table 10.6). -/
def finiteCode (ty : Ty) (a : Nat) : Nat :=
  match decodeF ty a with
  | .inf neg => signed ty neg (maxCode ty)
  | _ => a

/-- The four rows of Table 10.6, by the kinds of the two types. -/
def cvtC (dty sty : Ty) (sat : Bool) (rm : Rm) (a : Nat) : Nat :=
  match sty.cvtInt, dty.cvtInt with
  | true, true => code dty (satIf? sat dty (num sty a))
  | true, false => roundF dty rm (.num ⟨decide (num sty a < 0), (num sty a).natAbs, 0⟩)
  | false, true =>
    match decodeF sty a with
    | .nan => 0
    | .inf neg => code dty (if neg then (if dty.signed then -(2 ^ (dty.bits - 1) : Nat) else 0)
        else (if dty.signed then (2 ^ (dty.bits - 1) : Nat) - 1 else (2 ^ dty.bits : Nat) - 1))
    | .num d => code dty (clamped dty (intRound rm d))
  | false, false =>
    match decodeF sty a with
    | .nan => nanCode dty
    | .inf neg => if sat then signed dty neg (maxCode dty) else infCode dty neg
    | .num d => if sat then finiteCode dty (roundF dty rm (.num d)) else roundF dty rm (.num d)

/-- Keys of floating values (R234). -/
def okeyC (ty : Ty) (a : Nat) : Nat :=
  let h : BitVec ty.bits := 1 <<< (ty.bits - 1)
  let x : BitVec ty.bits := if bv ty a = h then 0 else bv ty a
  if isNaN ty a then 0 else if x.msb then (x ^^^ BitVec.allOnes ty.bits).toNat else (x ||| h).toNat
def keyfC (ty : Ty) (a : Nat) : Nat :=
  let k : BitVec ty.bits := bv ty a
  let h : BitVec ty.bits := 1 <<< (ty.bits - 1)
  if k.msb then (k &&& ~~~h).toNat else if isNaN ty (~~~k).toNat then nanCode ty else (~~~k).toNat

/-- Quantising under a scale code (R235). -/
def qcvtC (ty : Ty) (sat : Bool) (rm : Rm) (a c : Nat) : Nat :=
  if c = 255 then nanCode ty
  else
    let y : FVal := match decodeF .f32 a with
      | .num d => .num ⟨d.neg, d.m, d.e + (127 - (c : Int))⟩
      | v => v
    if sat then finiteCode ty (roundF ty rm y) else roundF ty rm y

/-- The exponent of the leading one bit of an FP32 code (R236): of the significand where E is not 0, else of F. -/
def leadingOne (a : Nat) : Int :=
  let v := BitVec.ofNat 64 a
  if bits v 30 23 ≠ 0 then (bits v 30 23 : Int) - 127
  else ((((List.range 23).reverse.find? v.getLsbD).getD 0 : Nat) : Int) - 149
def emaxOf : Ty → Int
  | .e4m3 => 8
  | .tf8 => 12
  | .tf6 => 4
  | .bf16 => 127
  | _ => 15
def bscaleC (ty : Ty) (a : Nat) : Nat :=
  let v := BitVec.ofNat 64 a
  if bits v 30 23 = 255 then 255
  else if bits v 30 0 = 0 then 127
  else (max 0 (min (leadingOne a - emaxOf ty + 127) 254)).toNat

/-- Conversions, packing and keys (R232-R236). -/
def conversions : Instr → Option LaneShape
  | .cvt x sty => some ⟨x.g, [(sty.bits, x.a)], x.d, x.ty, fun r => cvtC x.ty sty x.sat x.rm (r sty x.a)⟩
  | .pack x => some ⟨x.g, [(32, x.a), (32, x.b), (32, x.c)], x.d, .b32, fun r =>
      let n := elemBits x.ty
      let p := n * (r .n32 x.c % elemCount x.ty)
      ofBits 32 fun i =>
        if p ≤ i ∧ i < p + n then (bv .b32 (r .b32 x.b)).getLsbD (i - p) else (bv .b32 (r .b32 x.a)).getLsbD i⟩
  | .unpack x => some ⟨x.g, [(32, x.a), (32, x.b)], x.d, if x.ty.signed then .i32 else .b32, fun r =>
      let n := elemBits x.ty
      let e := (bv .b32 (r .b32 x.a)).extractLsb' (n * (r .n32 x.b % elemCount x.ty)) n
      if x.ty.signed then (e.signExtend 32).toNat else e.toNat⟩
  | .okey x => some ⟨x.g, [(x.ty.bits, x.a)], x.d, if x.ty = .f32 then .n32 else .n16, fun r => okeyC x.ty (r x.ty x.a)⟩
  | .keyf x => some ⟨x.g, [(x.ty.bits, x.a)], x.d, x.ty,
      fun r => keyfC x.ty (r (if x.ty = .f32 then .n32 else .n16) x.a)⟩
  | .qcvt x => some ⟨x.g, [(32, x.a), (32, x.b)], x.d, x.ty,
      fun r => qcvtC x.ty x.sat x.rm (r .f32 x.a) (r .b32 x.b % 2 ^ 8)⟩
  | .bscale x => some ⟨x.g, [(32, x.a)], x.d, .n32, fun r => bscaleC x.ty (r .f32 x.a)⟩
  | _ => none

/-- A family of words completes with the results of its table: at a word of the family that is about to issue, whose
sources hold no poison, the step goes on with the results written in the active lanes (R48, R186-R191). -/
def LaneResults (table : Instr → Option LaneShape) : Prop :=
  ∀ (i : Instr) (w : LaneShape), table i = some w → i.wf = true → ∀ (s : State) (p : Spot), p.Issues s → p.Follows s →
    p.g.poisonTrap (p.ctx s w.gd).active w.srcs = none →
    exec i s = .next (p.after s s ((p.ctx s w.gd).result p.g w.ty w.d true fun l => w.f fun t a => (p.ctx s w.gd).val p.g t l a))


/-! ### Words over the lanes of a group -/

/-- What a rule says of a word that changes only its group: the guard, when no source is poisoned, and the group behind it. -/
structure GroupShape where
  gd : Guard
  clean : Ctx → Group → Prop
  out : Ctx → Group → Group

def unpoisoned (srcs : List (Nat × Src)) (x : Ctx) (g : Group) : Prop := g.poisonTrap x.active srcs = none

/-- Conditions over two numbers (R217). -/
def rel : Cond → Int → Int → Bool
  | .eq, a, b => a == b
  | .ne, a, b => a != b
  | .lt, a, b => decide (a < b)
  | .le, a, b => decide (a ≤ b)
  | .gt, a, b => decide (b < a)
  | .ge, a, b => decide (b ≤ a)

/-- A predicate takes a value in the active lanes, and keeps the others (R192). -/
def setPred (x : Ctx) (g : Group) (pd : Fin 8) (f : Nat → Bool) : Group := g.putPred x.act pd.val f

/-- A predicate as the word reads it in a lane (R52). -/
def predBit (x : Ctx) (g : Group) (p : Fin 8) (l : Nat) : Bool := (x.pred g p.val).getLsbD l

/-- Comparisons, selection and predicates (R217, R218, R222, R227, R247). -/
def predicates : Instr → Option GroupShape
  | .nop g => some ⟨g, fun _ _ => True, fun _ g => g⟩
  | .isetp y => some ⟨y.g, unpoisoned [(y.ty.bits, y.a), (y.ty.bits, y.b)], fun x g =>
      setPred x g y.pd fun l => rel y.cond (num y.ty (x.val g y.ty l y.a)) (num y.ty (x.val g y.ty l y.b))⟩
  | .isetpImm gd cond uns pd a imm => some ⟨gd, unpoisoned [(32, a)], fun x g => setPred x g pd fun l =>
      if uns then rel cond (num .n32 (x.val g .n32 l a)) imm.toNat
      else rel cond (num .i32 (x.val g .i32 l a)) imm.toInt⟩
  | .fsetp y => some ⟨y.g, unpoisoned [(y.ty.bits, y.a), (y.ty.bits, y.b)], fun x g =>
      setPred x g y.pd fun l => Cond.fholds y.cond (fcmp y.ty (x.val g y.ty l y.a) (x.val g y.ty l y.b))⟩
  | .fsetpImm gd cond pd a imm => some ⟨gd, unpoisoned [(32, a)], fun x g =>
      setPred x g pd fun l => Cond.fholds cond (fcmp .f32 (x.val g .f32 l a) (imm.toNat * 2 ^ 5))⟩
  | .sel gd ty d a b pc => some ⟨gd, unpoisoned [(ty.bits, a), (ty.bits, b)], fun x g =>
      x.result g ty d true fun l => x.val g ty l (if predBit x g pc l then a else b)⟩
  | .pand y => some ⟨y.g, fun _ _ => True, fun x g => setPred x g y.pd fun l => predBit x g y.pa l && predBit x g y.pb l⟩
  | .por y => some ⟨y.g, fun _ _ => True, fun x g => setPred x g y.pd fun l => predBit x g y.pa l || predBit x g y.pb l⟩
  | .pxor y => some ⟨y.g, fun _ _ => True, fun x g => setPred x g y.pd fun l => predBit x g y.pa l != predBit x g y.pb l⟩
  | .pnot y => some ⟨y.g, fun _ _ => True, fun x g => setPred x g y.pd fun l => !predBit x g y.pa l⟩
  | .vany y => some ⟨y.g, fun _ _ => True, fun x g => setPred x g y.pd fun _ => x.active.any (predBit x g y.pa)⟩
  | .vall y => some ⟨y.g, fun _ _ => True, fun x g => setPred x g y.pd fun _ => x.active.all (predBit x g y.pa)⟩
  | _ => none

/-- The lane that a lane names (R243). -/
def named (x : Ctx) (g : Group) (b : Src) (l : Nat) : Nat := x.val g .n32 l b % g.width

/-- The pair-wise tree of the lanes that take part (R205, R206). -/
def tree (y : Red) (x : Ctx) (g : Group) : Option Nat :=
  treeNode (redOp y.op y.ty) (fun l => if x.act.getLsbD l then some (x.val g y.ty l y.a) else none) 6 0
def scan (y : Red) (x : Ctx) (g : Group) (n : Nat) : Option Nat :=
  scanTo (redOp y.op y.ty) (fun l => if x.act.getLsbD l then some (x.val g y.ty l y.a) else none) n

/-- The participating lanes whose predicate is set (R248). -/
def voters (x : Ctx) (g : Group) (p : Fin 8) : List Nat := x.active.filter (predBit x g p)

/-- The highest lane that names lane `t` (R245). -/
def pusherOf (x : Ctx) (g : Group) (b : Src) (t : Nat) : Option Nat := (x.active.filter fun l => named x g b l == t).getLast?

/-- `XPUSH`: a lane that some lane names takes its pusher's value; a scalar takes the lowest participating lane's, if that
lane is named (R243, R245). -/
def pushOut (y : F2) (x : Ctx) (g : Group) : Group :=
  let hit := x.active.filter fun t => (pusherOf x g y.b t).isSome
  let v (t : Nat) : Nat := x.val g y.ty ((pusherOf x g y.b t).getD 0) y.a
  let g' := hit.foldl (fun h t => h.laneResult y.ty y.d true t (v t)) g
  match y.d with
  | .s _ => if x.act ≠ 0 ∧ (pusherOf x g y.b (lowest x.act)).isSome then g'.writeDst y.ty (lowest x.act) y.d (v (lowest x.act)) else g'
  | _ => g'

/-- Cross-lane words (R243-R251). A push that several lanes make to one lane leaves the highest lane's value (R245). -/
def crossLane : Instr → Option GroupShape
  | .xpull y => some ⟨y.g, fun x g => ∀ l ∈ x.active, g.poisonAt l [(32, y.b)] = none ∧
      g.poisonAt (named x g y.b l) [(y.ty.bits, y.a)] = none,
      fun x g => x.result g y.ty y.d true fun l => x.val g y.ty (named x g y.b l) y.a⟩
  | .xpush y => some ⟨y.g, fun x g => ∀ l ∈ x.active, g.poisonAt l [(y.ty.bits, y.a)] = none ∧ g.poisonAt l [(32, y.b)] = none,
      fun x g => pushOut y x g⟩
  | .xbcast y => some ⟨y.g, fun x g => ∀ l ∈ x.active, g.poisonAt (lowest x.act) [(32, y.b)] = none ∧
      g.poisonAt (named x g y.b (lowest x.act)) [(y.ty.bits, y.a)] = none,
      fun x g => x.result g y.ty y.d true fun _ => x.val g y.ty (named x g y.b (lowest x.act)) y.a⟩
  | .xbcastImm gd d a lane => some ⟨gd, fun x g => ∀ l ∈ x.active, g.poisonAt (lane.val % g.width) [(32, a)] = none,
      fun x g => x.result g .b32 d true fun _ => x.val g .b32 (lane.val % g.width) a⟩
  | .vbal y => some ⟨y.g, fun _ _ => True, fun x g =>
      x.result g y.ty y.d true fun _ => ofBits y.ty.bits fun l => x.act.getLsbD l && predBit x g y.pa l⟩
  | .vfirst y => some ⟨y.g, fun _ _ => True, fun x g => x.result g .n32 y.d true fun _ => (voters x g y.pa).head?.getD g.width⟩
  | .vcount y => some ⟨y.g, fun _ _ => True, fun x g => x.result g .n32 y.d true fun _ => (voters x g y.pa).length⟩
  | .redg y => some ⟨y.g, unpoisoned [(y.ty.bits, y.a)], fun x g => x.result g y.ty y.d true fun _ => (tree y x g).getD 0⟩
  | .scang y => some ⟨y.g, unpoisoned [(y.ty.bits, y.a)], fun x g => x.result g y.ty y.d true fun l => (scan y x g (l + 1)).getD 0⟩
  | .scangEx y => some ⟨y.g, unpoisoned [(y.ty.bits, y.a)], fun x g =>
      x.result g y.ty y.d true fun l => (scan y x g l).getD (redIdentity y.op y.ty)⟩
  | .matchLanes y => some ⟨y.g, unpoisoned [(y.ty.bits, y.a)], fun x g =>
      x.result g .b64 y.d true fun l => ofBits 64 fun m => x.act.getLsbD m && x.val g y.ty m y.a == x.val g y.ty l y.a⟩
  | _ => none

/-! ### Pair words (R44-R46) -/

/-- Effect of a slot (Table 2.6) on its D and A. -/
def slotC : PairOp → Nat → Nat → Nat → Nat
  | .iadd, _, d, a => addC .i32 false d a
  | .isub, _, d, a => subC .i32 false d a
  | .imul, _, d, a => mulC .i32 d a
  | .iminI32, _, d, a => minC .i32 d a
  | .imaxI32, _, d, a => maxC .i32 d a
  | .iminN32, _, d, a => minC .n32 d a
  | .imaxN32, _, d, a => maxC .n32 d a
  | .and, _, d, a => andC .b32 d a
  | .or, _, d, a => orC .b32 d a
  | .xor, _, d, a => xorC .b32 d a
  | .andn, _, d, a => andnC .b32 d a
  | .shl, k, _, a => shlC .b32 a k
  | .shr, k, _, a => shrC .b32 a k
  | .sar, k, _, a => sarC .i32 a k
  | .mov, _, _, a => a
  | .movi, k, _, _ => k
  | .fadd, k, d, a => fop .f32 (pairRm k) false (addV (pairRm k)) d a
  | .fsub, k, d, a => fop .f32 (pairRm k) false (fsubV (pairRm k)) d a
  | .fmul, k, d, a => fop .f32 (pairRm k) false mulV d a
  | .fmin, _, d, a => fminC .f32 d a
  | .fmax, _, d, a => fmaxC .f32 d a

/-- The lanes in which a slot acts; guard 3 is always (R45). -/
def slotLanes (x : Ctx) (g : Group) (p : PairArgs) : Mask := x.lanes &&& (if p.guard.val = 3 then BitVec.allOnes 64 else x.pred g p.guard.val)

/-- The result of a slot in a lane, from the registers as they stood before the word (R46). -/
def slotValue (x : Ctx) (g : Group) (y : PairSlot) (l : Nat) : Nat :=
  slotC y.op y.x.imm.val (x.val g (pairTy y.op) l (dstSrc (pairDst y.x))) (x.val g (pairTy y.op) l (pairSrc y.x))

def pairShape (a b : PairSlot) : GroupShape :=
  ⟨always, fun x g => g.poisonTrap (lanesOf (slotLanes x g a.x)) (pairReads a) = none ∧
      g.poisonTrap (lanesOf (slotLanes x g b.x)) (pairReads b) = none,
    fun x g =>
      let g1 := { x with act := slotLanes x g a.x }.result g (pairTy a.op) (pairDst a.x) true (slotValue x g a)
      { x with act := slotLanes x g b.x }.result g1 (pairTy b.op) (pairDst b.x) true (slotValue x g b)⟩

def pairs : Instr → Option GroupShape
  | .pairIadd x y => some (pairShape ⟨.iadd, x⟩ y)
  | .pairIsub x y => some (pairShape ⟨.isub, x⟩ y)
  | .pairImul x y => some (pairShape ⟨.imul, x⟩ y)
  | .pairIminI32 x y => some (pairShape ⟨.iminI32, x⟩ y)
  | .pairImaxI32 x y => some (pairShape ⟨.imaxI32, x⟩ y)
  | .pairIminN32 x y => some (pairShape ⟨.iminN32, x⟩ y)
  | .pairImaxN32 x y => some (pairShape ⟨.imaxN32, x⟩ y)
  | .pairAnd x y => some (pairShape ⟨.and, x⟩ y)
  | .pairOr x y => some (pairShape ⟨.or, x⟩ y)
  | .pairXor x y => some (pairShape ⟨.xor, x⟩ y)
  | .pairAndn x y => some (pairShape ⟨.andn, x⟩ y)
  | .pairShl x y => some (pairShape ⟨.shl, x⟩ y)
  | .pairShr x y => some (pairShape ⟨.shr, x⟩ y)
  | .pairSar x y => some (pairShape ⟨.sar, x⟩ y)
  | .pairMov x y => some (pairShape ⟨.mov, x⟩ y)
  | .pairMovi x y => some (pairShape ⟨.movi, x⟩ y)
  | .pairFadd x y => some (pairShape ⟨.fadd, x⟩ y)
  | .pairFsub x y => some (pairShape ⟨.fsub, x⟩ y)
  | .pairFmul x y => some (pairShape ⟨.fmul, x⟩ y)
  | .pairFmin x y => some (pairShape ⟨.fmin, x⟩ y)
  | .pairFmax x y => some (pairShape ⟨.fmax, x⟩ y)
  | _ => none

/-- The words of a table complete with the group that it gives. -/
def GroupResults (table : Instr → Option GroupShape) : Prop :=
  ∀ (i : Instr) (w : GroupShape), table i = some w → i.wf = true → ∀ (s : State) (p : Spot), p.Issues s → p.Follows s →
    w.clean (p.ctx s w.gd) p.g → exec i s = .next (p.after s s (w.out (p.ctx s w.gd) p.g))

/-! ### Words of the special-function queue (R237-R241) -/

/-- The function and its operands, each an FP32 code. -/
def sfqShape : Instr → Option (Sfq × List Src × ((Src → Nat) → Nat))
  | .sfqRcp w => some (w, [w.a], fun r => rcpCode (r w.a))
  | .sfqRsq w => some (w, [w.a], fun r => rsqCode (r w.a))
  | .sfqSqrt w => some (w, [w.a], fun r => sqrtCode (r w.a))
  | .sfqExp2 w => some (w, [w.a], fun r => exp2Code (r w.a))
  | .sfqLog2 w => some (w, [w.a], fun r => log2Code (r w.a))
  | .sfqSin w => some (w, [w.a], fun r => trigCode 5 0 (r w.a))
  | .sfqCos w => some (w, [w.a], fun r => trigCode 6 1 (r w.a))
  | .sfqTanh w => some (w, [w.a], fun r => tanhCode (r w.a))
  | .sfqExp2s w => some (w, [w.a, w.b, w.c], fun r => exp2sCode (r w.a) (r w.b) (r w.c))
  | .sfqGnoise w => some (w, [w.a], fun r => gnoiseCode (r w.a))
  | .sfqDiv w => some (w, [w.a, w.b], fun r => divCode (r w.a) (r w.b))
  | _ => none

/-- The gang-issue that a word of the queue hands over: one lane's result for each active lane. -/
def sfqJob (w : Sfq) (f : (Src → Nat) → Nat) (x : Ctx) (s : State) (g : Group) : SfqJob :=
  { id := s.next, slot := x.slot, gid := g.gid, tok := w.tok.val, dst := w.d,
    res := x.active.map fun l => (l, BitVec.ofNat 32 (f fun a => x.val g .f32 l a)) }

/-! ### Control words (R306-R327) -/

/-- The word at an address can be fetched, and is a header (R309). -/
def HeaderAt (s : State) (p : Spot) (pc : Word) : Prop :=
  ∃ w, s.fetch p.c p.g.part p.g.asid pc = .ok w ∧ bits w 63 56 = 1

/-- Where the lanes at issue go: the active ones to `f`, the others behind the clause (R307, R308). -/
def goTo (x : Ctx) (f : Nat → Word) (l : Nat) : Word := if x.act.getLsbD l then f l else x.pc + 8

def relTo (x : Ctx) (y : RelArgs) : Nat → Word := goTo x fun _ => x.pc + y.disp.signExtend 64 * 8
def indTo (x : Ctx) (g : Group) (y : IndArgs) : Nat → Word :=
  goTo x fun l => BitVec.ofNat 64 (x.value g 64 l y.a) + y.n.signExtend 64 * 8
/-- A `RET` goes to the newest return address; where `STACKBASE` has been written over spilled entries, to an unspecified one
(R286). -/
def retTo (x : Ctx) (g : Group) : Nat → Word := goTo x fun l =>
  if (g.thread l).astray then Config.freeWord x.fr (stackKey l 0) else (g.thread l).rstack.head?.getD 0

/-- A transfer that its word claims to be uniform sends every lane at issue to one header (R285). -/
def Agree (uni : Bool) (m : Mask) (dest : Nat → Word) : Prop := uni = true → ∀ l ∈ lanesOf m, ∀ k ∈ lanesOf m, dest l = dest k

/-- The lanes at issue wait at their next headers. -/
def arrivedAt (s : State) (p : Spot) (g : Group) (dest : Nat → Word) : Group :=
  g.threads p.m fun l t => { t with pc := dest l, hdr := none, arr := s.now p.g.part, st := .ready }

/-- The state behind a terminator that leaves its group as `g`. -/
def moved (s : State) (p : Spot) (g : Group) : State := (s.setGroup p.c p.slot g).finishWord p.c p.e

/-- Every header that a transfer goes to can be fetched, and the lanes agree where they must. -/
def Reaches (s : State) (p : Spot) (uni : Bool) (dest : Nat → Word) : Prop :=
  (∀ l ∈ lanesOf p.m, HeaderAt s p (dest l)) ∧ Agree uni p.m dest

/-- The active lanes whose return stack is full, or of a `RET` those with nothing but spilled entries (R286). -/
def spilling (g : Group) (x : Ctx) : List Nat := x.active.filter fun l => decide (4 ≤ (g.thread l).rstack.length)
def filling (g : Group) (x : Ctx) : List Nat :=
  x.active.filter fun l => (g.thread l).rstack == [] && (g.thread l).top != (g.thread l).base

/-- The next address of a spill area, and the one before it: [63:56] and [2:0] are zero (Table 12.7). -/
def nextTop (t : Thread) : Word := (t.top + 8) &&& 0x00FFFFFFFFFFFFF8
def lastTop (t : Thread) : Word := (t.top - 8) &&& 0x00FFFFFFFFFFFFF8

/-- The active lanes push the address behind the clause, a full stack giving up its oldest entry; the marks of errors in the stack
move along (R194, R286). -/
def pushed (x : Ctx) (g : Group) : Group := g.threads x.act fun _ t =>
  { t with rstack := (x.pc + 8) :: t.rstack.take 3, rbad := if t.rbad = [] then [] else 0 :: t.rbad.take 3,
           top := if t.rstack.length < 4 then t.top else nextTop t }

/-- A page takes a spilled entry, or gives one back (R287, R351): the core knows the page, which grants the access, is an ordinary
one, or for a read of a class that weak loads may read, and whose translation has no late cause. -/
def StackOk (s : State) (p : Spot) (va : Nat) (write : Bool) : Prop :=
  ∃ e w pa, s.plbAt p.c p.g.part (easidOf p.g.asid va) va = .hit e ∧ e.r = true ∧
    (write = true → e.w = true ∧ e.sealed = false) ∧ (e.cls = 0 ∨ (write = false ∧ e.cls ≠ 2)) ∧
    s.leafOf p.g.part (easidOf p.g.asid va) va = .leaf w pa ∧ s.lateCause p.g.part (easidOf p.g.asid va) va w false = none

/-- Every full stack can spill: its oldest entry is not poisoned, its page takes it, and the store buffer has room. -/
def CanSpill (s : State) (p : Spot) (x : Ctx) : Prop :=
  (∀ l ∈ spilling p.g x, (p.g.thread l).rbad.getD 3 0 = 0 ∧ StackOk s p (p.g.thread l).top.toNat true) ∧
    (spilling p.g x ≠ [] → sbUsed (s.core p.c) + (spilling p.g x).length ≤ Config.storeBuffer)

/-- A request of the group joins those of its core under the group's next sequence number, with the identity and the team's values
of the moment. -/
def asking (s : State) (p : Spot) (q : Req) : State :=
  (s.modCore p.c fun k => { k with reqs := k.reqs ++ [(s.run p.g.run).stamp
    { q with id := s.next, idn := s.identOf p.c p.slot, pc := p.ga.pc, seq := p.g.seq, hdepth := p.g.depth }] }).bump

/-- The oldest entries of full stacks go to the tops of their spill areas, as weak stores of `.grp` scope that no flag counts
(R286, R287). -/
def spillAsk (p : Spot) (x : Ctx) : Req :=
  { kind := .spill, size := 8, scope := .grp,
    accs := (spilling p.g x).map fun l =>
      let va := (p.g.thread l).top.toNat
      { lane := l, va := va, size := 8, mask := byteMask va 8,
        data := placeBytes va 8 ((p.g.thread l).rstack.getLast?.getD 0).toNat } }

/-- The state behind a call: what full stacks give up is being stored, and the lanes wait at their targets. -/
def called (s : State) (p : Spot) (x : Ctx) (dest : Nat → Word) : State :=
  if spilling p.g x = [] then moved s p (arrivedAt s p (pushed x p.g) dest)
  else moved (asking s p (spillAsk p x)) p (arrivedAt s p (pushed x { p.g with seq := p.g.seq + 1 }) dest)

/-- The newest spilled entries are read, by weak loads that no flag counts, for the lanes with an empty stack; one that the L1 has
not got starts as a miss (R120, R287). -/
def fillAsk (s : State) (p : Spot) (x : Ctx) (uni : Bool) : Req :=
  { kind := .fill, size := 8, scope := .grp, sx := uni, mask := x.act,
    accs := (filling p.g x).map fun l =>
      let va := (lastTop (p.g.thread l)).toNat
      { lane := l, va := va, size := 8,
        st := if (s.core p.c).l1Hit (sectorTag p.g.part (easidOf p.g.asid va) va) va 8 then .waiting else .rejected 0 } }

/-- The first lane that goes elsewhere than the lowest lane at issue (R285). -/
def Splits (m : Mask) (dest : Nat → Word) (l : Nat) : Prop :=
  l ∈ lanesOf m ∧ dest l ≠ dest (lowest m) ∧ ∀ k ∈ lanesOf m, k < l → dest k = dest (lowest m)

/-- The group of a `REJOIN`: the mask of the lowest active lane's operand, where there is one, and the active lanes of the
mask asleep at the header behind (R284, R312). -/
def rejoined (s : State) (p : Spot) (gd : Guard) (a : Option Src) : Group :=
  let x := p.ctx s gd
  let g := match a with
    | some r => if x.act = 0 then p.g
        else { p.g with rejoinm := BitVec.ofNat 64 (x.value p.g 64 (lowest x.act) r % 2 ^ p.g.width) }
    | none => p.g
  ((p.ahead s g).threads x.act fun l t => if g.rejoinm.getLsbD l then { t with st := .rejoin } else t).rejoinTest
    (s.now p.g.part)

/-- The active lanes go behind the clause in a state of their own. -/
def parkedAs (s : State) (p : Spot) (gd : Guard) (st : ThrSt) : Group :=
  (p.ahead s p.g).threads (p.ctx s gd).act fun _ t => { t with st := st }

/-- Whether a mark of a register that a word of the queue will write is on one of the tokens that a `WTOK` names; and whether
another word has written that register since, so that either value may stand (R238). -/
def awaits (m : BitVec 4) (q : Pend) : Bool := (q.tok.map fun n => m.getLsbD n).getD false
def doubtful (m : BitVec 4) (q : Pend) : Bool := awaits m q && q.dup && q.alt.isSome

/-- Whether a yielding or a sleeping thread's wait is over at a time (R316). -/
def yieldOver (now : Word) : ThrSt → Bool
  | .yield others due => others == [] || decide (due ≤ now)
  | _ => false
def sleepOver (now : Word) : ThrSt → Bool
  | .sleep due => decide (due ≤ now)
  | _ => false

/-- A thread whose wait is over is ready; its class has waited since then (R281). -/
def awoken (g : Group) (lane : Nat) (done : ThrSt → Bool) (now : Nat) : Group :=
  { g with thr := g.thr.map fun x =>
      if x.2.st = (g.thread lane).st ∧ x.2.pc = (g.thread lane).pc ∧ done x.2.st = true then
        (x.1, { x.2 with st := .ready, arr := now })
      else x }

/-- A barrier word may act: its count is allowed and consistent (R320), nothing that a pair's release has to write back is
left (R113), and every earlier access of the group has performed at `.team` (R319). -/
def BarReady (s : State) (p : Spot) (y : BarArgs) : Prop :=
  let w := reachOf (s.run p.g.run).paired .team
  (p.ctx s y.g).act ≠ 0 ∧ barrierBad (s.run p.g.run) p.g.handler y.b.val y.c.val = false ∧
    s.flushFor p.c w = (s, true) ∧ (s.core p.c).performed p.g.gid s.next w = true

/-- The marks of a group's barrier behind a word, and that a live thread is still missing. -/
def marksAfter (s : State) (p : Spot) (y : BarArgs) : Mask := (p.g.bar y.b.val).marks ||| (p.ctx s y.g).act
def Missing (s : State) (p : Spot) (y : BarArgs) : Prop := ∃ l ∈ p.g.live, (marksAfter s p y).getLsbD l = false

/-- `FAULTINFO` of a trap word (Table 16.2): cause, lowest active lane, code. -/
def trapInfo (cause lane : Nat) (code : BitVec 16) : Word :=
  BitVec.ofNat 64 (cause * 2 ^ 56 + lane * 2 ^ 48 + code.toNat * 2 ^ 32)

/-- A group halts its team at the word: what is saved, and where its threads resume (R352, R353, R325). -/
def HaltedBehind (_s t : State) (p : Spot) (info : Word) : Prop :=
  ∃ g, t.group? p.c p.slot = some g ∧ g.faultpc = p.ga.pc ∧ g.faultinfo = info ∧ g.halt = .stopped ∧ g.atFault = p.m ∧
    g.mode = p.g.mode ∧ g.vo = p.g.vo ∧ g.l = p.g.l ∧ g.sc = p.g.sc ∧ g.preds = p.g.preds ∧
    g.thr = p.g.thr.map (fun x => if p.m.getLsbD x.1 then (x.1, { x.2 with pc := p.ga.pc + 8, hdr := none }) else x) ∧
    (t.run p.g.run).halt = some { core := p.c, slot := p.slot }

/-- The three words that trap. -/
def trapOf : Instr → Option (CodeArgs × Nat)
  | .trap y => some (y, 0x11)
  | .brk y => some (y, 0x12)
  | .sysc y => some (y, 0x13)
  | _ => none

/-- The word has one half with active lanes, whose lowest lane is `l` (R155, R282), and no half of it has issued before. -/
def OneHalf (s : State) (p : Spot) (gd : Guard) (l : Nat) (m : Mask) : Prop :=
  (p.ctx s gd).leads = [(l, m)] ∧ p.g.spawned &&& m = 0

/-- What is seen by the lanes of one half. -/
def half (x : Ctx) (m : Mask) : Ctx := { x with act := m }

/-! ### Matrix words (R255-R268) -/

/-- The reservation that the operands of `OBRES` name (R259). -/
def resvOf (ty : Ty) (a b : Nat) : Resv :=
  let r : Resv := { v := true, fmt := ty, sc := nbit b 16, base := b % 2 ^ 9, ksteps := a / 2 ^ 16 % 2 ^ 11, rowsm1 := a % 2 ^ 12 }
  { r with soff := if r.sc then r.base + r.dunits else 0 }

/-- Its checks: fields in range, reserved bits zero, scales only where the format has them, inside the team's share, and no
overlap with a live reservation (R259). -/
def ObresOk (s : State) (p : Spot) (ty : Ty) (a b : Nat) : Prop :=
  let r := resvOf ty a b
  a / 2 ^ 12 % 2 ^ 4 = 0 ∧ a < 2 ^ 27 ∧ b / 2 ^ 9 % 2 ^ 7 = 0 ∧ b < 2 ^ 17 ∧ r.ksteps ≠ 0 ∧ (r.sc = true → oxScaled ty = true) ∧
    r.base + (r.dunits + r.sunits) ≤ 16 * (s.obShare p.g.run p.c).2 ∧
    ∀ n < 16, (s.resvOf p.g.run p.c n).v = true →
      ¬((s.resvOf p.g.run p.c n).base < r.base + (r.dunits + r.sunits) ∧
        r.base < (s.resvOf p.g.run p.c n).base + ((s.resvOf p.g.run p.c n).dunits + (s.resvOf p.g.run p.c n).sunits))

/-- A word over accumulator rows acts: no poison, every row in the group's window, and none that a queued quarter writes. -/
def RowsOk (s : State) (p : Spot) (gd : Guard) (a : Src) (srcs : List (Nat × Src)) : Prop :=
  p.g.poisonTrap (p.ctx s gd).active srcs = none ∧
    ∀ l ∈ (p.ctx s gd).active, p.g.awbase ≤ (p.ctx s gd).value p.g 32 l a ∧ (p.ctx s gd).value p.g 32 l a < p.g.awlimit ∧
      s.rowBusy p.g.run p.c ((p.ctx s gd).value p.g 32 l a) = false

/-- The accumulator element that a lane names: its row, in the team's share, and its column. -/
def accOf (s : State) (p : Spot) (gd : Guard) (a b : Src) (l : Nat) : Nat :=
  s.physRow p.g.run p.c ((p.ctx s gd).value p.g 32 l a) * 64 + (p.ctx s gd).value p.g 32 l b % 64

/-! ### Memory words (R152-R185) -/

/-- What each memory word does, as Machine/Memory.lean gives it. -/
def memWordOf : Instr → Option (Guard × MemWord)
  | .ld y => some (y.g, ldMem y)
  | .st y => some (y.g, stMem y)
  | .atom32 y => some (y.g, atomMem y 4 .atom)
  | .atom64 y => some (y.g, atomMem y 8 .atom)
  | .fatom32 y => some (y.g, atomMem y 4 .fatom)
  | .fatom64 y => some (y.g, atomMem y 8 .fatom)
  | .fence y => some (y.g, fenceMem y)
  | .acqr y => some (y.g, acqrMem y)
  | .cflush y => some (y.g, cacheMem y .cflush)
  | .cinv y => some (y.g, cacheMem y .cinv)
  | .seal y => some (y.g, sealMem y .seal)
  | .unseal y => some (y.g, sealMem y .unseal)
  | .harvest y => some (y.g, harvestMem y)
  | .carve y => some (y.g, carveMem y)
  | .waita y => some (y.g, waitaMem y)
  | .probe y => some (y.g, probeMem y)
  | .tcopy y => some (y.g, tcopyMem y)
  | .ldg y => some (y.g, ldgMem y)
  | .stg y => some (y.g, gstoreMem y .stg)
  | .amend y => some (y.g, gstoreMem y .amend)
  | .grd y => some (y.g, grdMem y)
  | .ginit y => some (y.g, gopMem y .ginit 64)
  | .gadd y => some (y.g, gopMem y .gadd 32)
  | .gread y => some (y.g, greadMem y)
  | .gspread y => some (y.g, gspreadMem y)
  | .gfence y => some (y.g, gfenceMem y)
  | .gstep y => some (y.g, gstepMem y)
  | .fput y => some (y.g, fputMem y)
  | .fget y => some (y.g, fgetMem y)
  | .ffence y => some (y.g, ffenceMem y)
  | .acset y => some (y.g, acsetMem y)
  | .acwait y => some (y.g, acwaitMem y)
  | .mload y => some (y.g, mloadMem y)
  | .mstore y => some (y.g, mstoreMem y)
  | _ => none

/-- The lanes a memory word acts for: the active ones, or the lowest of each half. -/
def actLanes (w : MemWord) (x : Ctx) : List Nat := if w.group then x.leads.map (·.1) else x.active

/-- What is left of a word of which a half has issued before (R282). -/
def Left (p : Spot) (x : Ctx) : Ctx := { x with act := x.act &&& ~~~p.g.spawned }

/-- A memory word may put out its requests: it has an active lane, no source is poisoned, its checks pass in every lane
(R156), nothing holds it (R85, R159), and its flag has room (R49). -/
def MemReady (s : State) (p : Spot) (gd : Guard) (w : MemWord) : Prop :=
  let x := p.ctx s gd
  let y := Left p x
  x.act ≠ 0 ∧ w.early y s p.g (actLanes w y) = none ∧ p.g.poisonTrap (actLanes w y) w.srcs = none ∧
    s.check y p.g w.scope (w.touches y s p.g (actLanes w y)) (w.desc y s p.g (actLanes w y)) = none ∧
    w.more y s p.g (actLanes w y) = none ∧ (w.ordered = true → (s.core p.c).mayIssue p.g.gid = true) ∧
    ∀ f, x.setFlag w.fb = some f → p.g.flag f + y.parts.length ≤ 63

/-- The halves of a memory word put out their requests in turn, while the store buffer has room (R84, R282); each is tried at
once where its kind is. -/
def putOut (w : MemWord) (x : Ctx) (g : Group) : List Mask → State → Option State
  | [], s => some s
  | m :: ms, s =>
    if w.ordered = true ∧ (s.core x.core).roomFor ((w.req x s g m).entries fun _ => true) = false then none
    else (s.countHalf x w.fb m (w.req x s g m) (w.keys m)).bind fun s' =>
      putOut w x g ms (w.start x s' ((s'.core x.core).since s.next))

/-- The bins of the core's cluster with a `SPAWN`'s threads, and the lanes that found a place (R288). -/
def spawnInto (s : State) (p : Spot) (gd : Guard) (entry : Word) (a : Src) : List SpawnBin × Mask :=
  let r := s.run p.g.run
  let key : SpawnBin :=
    { part := p.g.part, task := r.task, entry := entry, start := s.clock p.g.part, run := p.g.run, asid := p.g.asid,
      team := r.team, width := p.g.width, regs := p.g.regs, kern := p.g.kern, gen := r.gen, refire := r.refire }
  enterLanes key (fun l => BitVec.ofNat 64 ((p.ctx s gd).value p.g 64 l a))
    ((p.ctx s gd).active.filter fun l => !p.g.spawned.getLsbD l) (AMap.get s.bins (clusterOf p.c) [], 0)

/-- The access that a `TLAUNCH` makes to its record (R321). -/
def recordTouch (l va : Nat) : Touch :=
  { lane := l, space := .glb, va := va, size := 256, r := true, w := false, cls := clsOrdinary, store := false }

/-- An `MMA` may queue its quarters: operands without poison, reservations and rows that exist, rows in the window, no lost
reservation, room in the queue (R264, R265). -/
def MmaOk (s : State) (p : Spot) (y : Reg3) (all : Bool) : Prop :=
  let x := p.ctx s y.g
  let asks := mmaAsks y all x p.g
  p.g.poisonTrap (asks.map (·.from_)).eraseDups [(32, y.a), (32, y.b), (32, y.c)] = none ∧
    (∀ a ∈ asks,
      s.mmaDesc p.c (all && decide (65536 ≤ x.value p.g 32 a.from_ y.b / 65536 + 8 * (p.g.width / 8) - 8)) a.q = false ∧
      a.q.row0 % 8 = 0 ∧ (∀ j ∈ a.q.lanes, p.g.awbase ≤ a.q.row0 + j ∧ a.q.row0 + j < p.g.awlimit) ∧
      (s.resvOf p.g.run p.c (wordSlot a.q.aw)).lost = false ∧ (s.resvOf p.g.run p.c (wordSlot a.q.bw)).lost = false) ∧
    (s.core p.c).oxq.length + asks.length ≤ Config.oxQueue

/-- The physical accumulator row that a lane names. -/
def accRowOf (s : State) (p : Spot) (gd : Guard) (a : Src) (l : Nat) : Nat :=
  s.physRow p.g.run p.c ((p.ctx s gd).value p.g 32 l a)

/-! ### Requests in flight (R84, R85, R160, R164) -/

/-- The translations that an access goes through are there, or can be walked for now (R69). -/
def Reached (s : State) (q : Req) (a : Acc) : Prop :=
  State.walkPages q.idn.part ((q.pagesOf a).map fun va => (easidOf q.idn.asid va, va)) s = (s, true)

/-- It is an access's turn: still to perform, no earlier access of its group before it at its place (R164), none to one of its
pages in the operand log (R85), and its translations at hand (R69). -/
def Turn (s : State) (c id idx : Nat) (q : Req) (a : Acc) : Prop :=
  s.acc? c id idx = some (q, a) ∧ (a.st = .waiting ∨ a.st = .miss) ∧ s.blocked c q idx a = false ∧
    (s.core c).pageLogged q a = false ∧ Reached s q a

/-- The access has finished: performed or dropped, or its request is gone with it. -/
def Ended (t : State) (c id idx : Nat) : Prop := ∀ q a, t.acc? c id idx = some (q, a) → a.finished = true

/-- The access is in a state. -/
def InSt (t : State) (c id idx : Nat) (st : AccSt) : Prop := ∃ q a, t.acc? c id idx = some (q, a) ∧ a.st = st

/-- What a release waits for: every earlier access of its group performed at its scope (R113, R159). -/
def Earlier (s : State) (c : Nat) (q : Req) : Bool := (s.core c).performed q.idn.gid q.id (q.reach s)

/-- Nothing is left for a release to write back or to send out of the combining buffer (R113, R132). -/
def Flushed (s : State) (c : Nat) (q : Req) : Prop :=
  (q.reach s ≠ .narrow → ∀ x ∈ (s.core c).l1, x.2.dirty = 0) ∧ (3 ≤ Scope.rank q.scope → (s.core c).comb = [])

/-- A request may perform as far as its memory order goes: it is no release, or a release with nothing before it. -/
def ReleaseOk (s : State) (c : Nat) (q : Req) : Prop :=
  q.ord = .rel ∨ q.ord = .ar → Flushed s c q ∧ Earlier s c q = true

/-- The lanes of a group that a fill holds (R287, R309). -/
def heldBy (g : Group) (id : Nat) : Mask := maskOf fun l => (g.thread l).st == .fill id

/-- Where a held lane goes once its word's fills are there: an active one to the address read for it, or to the newest on its
stack; one whose `STACKBASE` was written over spilled entries to an unspecified one (R286). -/
def fillTo (s : State) (g : Group) (q : Req) (got : Nat → Option Word) (l : Nat) : Word :=
  if (q.mask &&& heldBy g q.id).getLsbD l then
    if (g.thread l).astray then Config.freeWord s.free (stackKey l 0)
    else (got l).getD ((g.thread l).rstack.head?.getD 0)
  else q.pc + 8

/-- A byte at a place of a core's scratchpad. -/
def padByte (s : State) (c key : Nat) : Byte := Memory.read (s.core c).pad key

/-- A page is memory of the device, its translation in its home's TLB without a late cause, and its sector in no engine's
hands. -/
def Plain (s : State) (p e va : Nat) (w : Word) : Prop :=
  (AMap.find? s.tlb (pageTag p e va)).isSome = true ∧ (∃ pa, s.leafOf p e va = .leaf w pa) ∧
    s.hostWindow p va = false ∧ leafF w = false ∧ s.lateCause p e va w false = none ∧
    s.claimed (leafLoc p e va w).tag = false

/-- A record joins those that wait for the fault queue: behind all of them, but for those of its group about its page that come
from later instructions (R358). -/
def Joins (before after : List FaultRec) (r : FaultRec) : Prop :=
  ∃ pre post, before = pre ++ post ∧ after = pre ++ r :: post ∧ (∀ y ∈ pre, y.behind r = false) ∧
    ∀ y, post.head? = some y → y.behind r = true

/-- A record waits for the fault queue with this cause for this access. -/
def Recorded (s t : State) (q : Req) (a : Acc) (cause : Nat) : Prop :=
  ∃ r, Joins (s.part q.idn.part).records (t.part q.idn.part).records r ∧ r.cause = cause ∧ r.org = q.origin a.lane

/-- What a choice of the issue stage looks at: the core after the clocks that passed and the errors that came, with what waits
there taken up again, gangs rid of groups that may not issue, and the PC table brought up to date (R280). -/
def atChoice (s : State) (c dt : Nat) (err : Option RfErr) : State :=
  let s := (s.passClocks c dt).passFull dt
  let s := match err with
    | none => s
    | some e => s.rfError c e
  let s := (s.settleAll c).spend
  let s := (s.core c).table.foldl (fun s e => s.weedGang c e) s
  ((s.refreshTable c).askHeaders c).stopHeld c

/-- The entry that has issued least recently among the ready ones; ties go to the lower index (R281). -/
def LeastRecent (l : List (Nat × Entry)) (x : Nat × Entry) : Prop :=
  x ∈ l ∧ ∀ y ∈ l, x.2.last < y.2.last ∨ (x.2.last = y.2.last ∧ x.1 ≤ y.1)

/-- The other groups of a group's team have stopped. -/
def OthersStopped (s : State) (c slot : Nat) (g : Group) : Prop :=
  ∀ x ∈ s.groupsOf g.run, x ≠ (c, slot) → ∀ o, s.group? x.1 x.2 = some o → o.halt = .stopped

/-- Nothing of a group is outstanding. -/
def Settled (s : State) (c : Nat) (g : Group) : Prop :=
  (∀ q ∈ (s.core c).reqs, q.idn.gid ≠ g.gid) ∧ ∀ j ∈ (s.core c).sfq, j.gid ≠ g.gid

/-- A group has begun a handler: the mode, every live thread at the vector, and the shadow set aside. -/
def Entered (g h : Group) (m : Mode) (vec : Word) : Prop :=
  h.mode = m ∧ h.halt = .running ∧ h.shadow.length = g.shadow.length + 1 ∧ h.preds = g.preds ∧ h.l = g.l ∧
    ∀ t ∈ h.thr, t.2.st ≠ .exited → t.2.pc = vec ∧ t.2.st = .ready

/-- Nothing is in flight or cached anywhere on the device. -/
def NothingInFlight (s : State) : Prop :=
  s.cached = [] ∧ s.inbox = [] ∧ ∀ k ∈ s.cores, k.2.reqs = [] ∧ k.2.comb = [] ∧ k.2.l1 = []

/-- A core's groups have all ended their pre-emption handlers, and nothing of it is outstanding (R363). -/
def CoreDone (s : State) (c : Nat) : Prop :=
  (∀ g ∈ (s.core c).groups, g.2.mode = .psaveDone) ∧ (s.core c).reqs = [] ∧ (s.core c).sfq = [] ∧ (s.core c).oxq = [] ∧
    (s.core c).l1 = [] ∧ (s.core c).comb = [] ∧ (s.core c).forcing = false ∧ (s.core c).save = none ∧ (s.core c).t0.isSome = true

/-- The bits of a link's status register (Table 6.3). -/
def lkBit (s : State) (n b : Nat) : Bool := (s.hreg (0x1000 + 8 * n)).getLsbD b
def lkCtr (s : State) (n : Nat) : Nat := bits (s.hreg (0x1000 + 8 * n)) 63 16

/-- A link can send a packet of some flits for a plane code to a chip: it has no key, a standby key to switch to, or counter values
left for them (R134, R136). -/
def LinkSends (s : State) (code chip flits : Nat) : Prop :=
  (s.link (s.linkFor code chip)).key = none ∨ (s.link (s.linkFor code chip)).standby.isSome = true ∨
    lkCtr s (s.linkFor code chip) + flits ≤ 2 ^ 48 - 2

/-- The answer to a packet goes out at once: no other waits, its plane is live, and its link sends (R124, R134, R136). -/
def CanReply (s : State) (k : Packet) : Prop :=
  s.replies = [] ∧ s.planeLive (s.planeOf (codeOf k.ifa)) = true ∧ lkBit s (s.linkFor (codeOf k.ifa) k.src) 1 = false ∧
    LinkSends s (codeOf k.ifa) k.src 5

/-- What a host atomic writes, of an operand width (R374). -/
def hostAtom (op : HostAtom) (w old b cmp : Nat) : Nat :=
  match op with
  | .fetchAdd => (old + b) % 2 ^ w
  | .swap => b % 2 ^ w
  | .cas => if old = cmp % 2 ^ w then b % 2 ^ w else old

/-- A request waits on the fabric for the answer of another chip, and one access for it. -/
def OnFabric (s : State) (id : Nat) (r : OutReq) (c rid idx : Nat) (q : Req) (a : Acc) : Prop :=
  s.asked id = some r ∧ r.who = [(c, rid, idx)] ∧
    s.acc? c rid idx = some (q, a) ∧ a.st = .sent id

/-- The machine once a load's access has been answered: its value is delivered, an acquire past the L1 has drained it, and the
access is done. -/
def Answered (s : State) (c idx : Nat) (q : Req) (a : Acc) (v : Nat) : State :=
  ((s.deliver c q (loadTy q.size q.sx) a.lane (v % 2 ^ (8 * q.size))).acquired c q).finishAcc c q.id idx .done

/-- No round of a partition's Gander is being stopped, and no change of STEP is pending. -/
def GanderQuiet (s : State) (p : Nat) : Prop := (s.part p).stepNext = none ∧ ∀ j < 8, (s.gand p j).stopped = []

/-- A message's line can be reached in its region, and is known to the partition already. -/
def LineAt (s : State) (p n line : Nat) (l : Loc) : Prop :=
  s.gossipPlace p (s.regionVa p n line) = some l ∧ (AMap.find? s.tlb (pageTag p (easidOf 0 l.va) l.va)).isSome = true ∧
    line < s.regionLines p n ∧ s.regionOn p n = true

/-- Who may write a partition's block of registers: the hypervisor always, the function's driver while the function is enabled and
its interface is not in ERROR, in RUN only on the function's own stream (R370, R376, R377). -/
def Allowed (s : State) (p : Nat) : Writer → Prop
  | .hyper => True
  | .function on => s.enabled p = true ∧ (s.part p).tdi ≠ .error ∧ ((s.part p).tdi = .run → on = true)

/-- Mailboxes answer once the host link has trained (R378). -/
def Answers (i : Instr) (s : State) (a : Answer) : Prop := ∃ t, exec i s = .next t ∧ t.answers = s.answers ++ [a]

/-- The save of a partition is complete and held: SAVED is set, GO and STUCK are clear, and pre-emption is over. -/
def HeldSave (t : State) (p : Nat) : Prop :=
  t.prectlBit p 63 = false ∧ t.prectlBit p 61 = true ∧ t.prectlBit p 58 = false ∧ (t.part p).inEffect = false ∧
    (t.part p).preempting = false

/-- Nothing changes but one group's record, the PC table and the count of issues of its core, and what is at issue: every
other core, group, run, task, partition and register stays, and every byte of DRAM, of the shared caches, of the L1s, of the
scratchpads and of the operand buffers, and every accumulator. -/
def OnlyGroup (s t : State) (p : Spot) : Prop :=
  { t with cores := s.cores, issue := s.issue, free := s.free } = s ∧ (∀ c, c ≠ p.c → t.core c = s.core c) ∧
    { t.core p.c with groups := (s.core p.c).groups, table := (s.core p.c).table, tick := (s.core p.c).tick } = s.core p.c ∧
    (∀ c n, (c, n) ≠ (p.c, p.slot) → t.group? c n = s.group? c n) ∧
    (∀ a, Memory.read t.mem a = Memory.read s.mem a) ∧
    ∀ c a, Memory.read (t.core c).ways a = Memory.read (s.core c).ways a ∧ Memory.read (t.core c).ob a = Memory.read (s.core c).ob a

/-- Of the group only its registers, predicates and threads change: its flags, tokens, barriers, windows, fault registers and mode
stay, and so do its threads' states and return stacks. -/
def OnlyRegisters (g h : Group) : Prop :=
  { h with vo := g.vo, l := g.l, sc := g.sc, poison := g.poison, pend := g.pend, written := g.written, preds := g.preds,
           thr := g.thr } = g ∧
    ∀ l, (h.thread l).st = (g.thread l).st ∧ (h.thread l).rstack = (g.thread l).rstack

/-- A register code of a lane lies in the set of registers that a result of a type takes. -/
def inDst (ty : Ty) (d : Dst) (code : Nat) : Bool :=
  match d with
  | .v n => decide (n.val ≤ code ∧ code < n.val + (ty.bits + 31) / 32)
  | .o n => decide (768 + n.val ≤ code ∧ code < 768 + n.val + (ty.bits + 31) / 32)
  | _ => false

/-- A scalar lies among those that a result takes. -/
def inScalar (ty : Ty) (d : Dst) (n : Nat) : Bool :=
  match d with
  | .s k => decide (k.val ≤ n ∧ n < k.val + (ty.bits + 63) / 64)
  | _ => false

def lval (g : Group) (lane n : Nat) : Word := AMap.get g.l (lkey lane n) 0
def sval (g : Group) (n : Nat) : Word := AMap.get g.sc n 0

/-- A result of a type, by lane, has been written to a destination in the lanes of a mask, and to nothing else (R186-R191): every
other register of every lane keeps its value, the last-result file shifts where the result updates it, and a scalar takes the
lowest lane's. -/
def Written (g h : Group) (act : Mask) (ty : Ty) (d : Dst) (f : Nat → Nat) : Prop :=
  (∀ l < 64, ∀ code < 776, (act.getLsbD l = false ∨ inDst ty d code = false) → h.vo32 l code = g.vo32 l code) ∧
    (∀ l < 64, act.getLsbD l = true →
      (∀ n, d = .v n → ∀ i < (ty.bits + 31) / 32,
        h.vo32 l (n.val + i) = extend ty (max 32 ty.bits) (f l) / 2 ^ (32 * i) % 2 ^ 32) ∧
      (∀ n, d = .o n → ∀ i < (ty.bits + 31) / 32,
        h.vo32 l (768 + n.val + i) = extend ty (max 32 ty.bits) (f l) / 2 ^ (32 * i) % 2 ^ 32) ∧
      (if d = .l0 ∨ ty.bits ≤ 64 then lval h l 1 = lval g l 0 ∧ lval h l 0 = BitVec.ofNat 64 (extend ty 64 (f l))
        else ∀ n < 2, lval h l n = lval g l n)) ∧
    (∀ l < 64, act.getLsbD l = false → ∀ n < 2, lval h l n = lval g l n) ∧
    (∀ n < 64, (act = 0 ∨ inScalar ty d n = false) → sval h n = sval g n) ∧
    (∀ n, d = .s n → act ≠ 0 → sval h n.val = BitVec.ofNat 64 (extend ty 64 (f (lowest act)))) ∧
    ∀ q < 8, h.pred q = g.pred q

/-- The tables of words of one result for each lane. -/
def laneTables : List (Instr → Option LaneShape) := [arithmetic, logic, fields, floats, conversions]

/-- Register destinations of a predicate, cross-lane or pair word, with the types of their results; and its predicate. -/
def dstsOf : Instr → List (Ty × Dst)
  | .sel _ ty d _ _ _ => [(ty, d)]
  | .xpull y | .xpush y | .xbcast y => [(y.ty, y.d)]
  | .xbcastImm _ d _ _ => [(.b32, d)]
  | .vbal y => [(y.ty, y.d)]
  | .vfirst y | .vcount y => [(.n32, y.d)]
  | .redg y | .scang y | .scangEx y => [(y.ty, y.d)]
  | .matchLanes y => [(.b64, y.d)]
  | i => match i.pair? with
    | some (x, y) => [(pairTy x.op, pairDst x.x), (pairTy y.op, pairDst y.x)]
    | none => []

def predOf : Instr → Option (Fin 8)
  | .isetp y => some y.pd
  | .isetpImm _ _ _ pd _ _ => some pd
  | .fsetp y => some y.pd
  | .fsetpImm _ _ pd _ _ => some pd
  | .pand y | .por y | .pxor y | .pnot y | .vany y | .vall y => some y.pd
  | _ => none

/-- The registers of a group are untouched. -/
def SameRegisters (g h : Group) : Prop :=
  h.vo = g.vo ∧ h.l = g.l ∧ h.sc = g.sc ∧ h.preds = g.preds ∧ h.flags = g.flags ∧ h.toks = g.toks ∧ h.thr = g.thr

/-! ### Special registers (R193, R327) and handlers (R355) -/

/-- What a special register reads as for a lane (Table 9.4); `ROWPROG` is Table 11.6's. -/
def special (s : State) (p : Spot) (x : Ctx) (l : Nat) : Sr → Nat
  | .lane => l
  | .group => p.g.num
  | .team => (s.run p.g.run).team
  | .task => if (s.run p.g.run).disp then 0xFFFFFFFF else (s.run p.g.run).task
  | .core => p.c % 96
  | .pair => (if (s.run p.g.run).paired then 2 else 0) +
      (if (s.run p.g.run).paired ∧ (s.run p.g.run).cores.head? ≠ some p.c then 1 else 0)
  | .cluster => p.c / 96
  | .die => p.c / 96 / 6
  | .chip => ((s.hreg 0x710).extractLsb' 0 12).toNat
  | .gwidth => p.g.width
  | .active => x.act.toNat
  | .rejoinm => p.g.rejoinm.toNat
  | .awbase => p.g.awbase
  | .awlimit => p.g.awlimit
  | .rowprog => rowprog (s.core p.c) p.g.gid
  | .stackbase => (p.g.thread l).base.toNat
  | .stacktop => (p.g.thread l).top.toNat
  | .gradefloor => (s.run p.g.run).floor
  | .amdepth =>
    let r := s.run p.g.run
    (BitVec.ofNat 6 r.gen ++ BitVec.ofBool r.refire ++ 0#1 ++ BitVec.ofNat 4 r.limit ++ BitVec.ofNat 4 r.depth : BitVec 16).toNat
  | .faultpc => p.g.faultpc.toNat
  | .faultinfo => p.g.faultinfo.toNat
  | .skid => p.g.skid.toNat
  | .prebudget => (s.part p.g.part).prebudget
  | .clock => (s.part p.g.part).clock.toNat

/-- Registers that `MTS` may name from a trap handler only. -/
def trapOnly (r : Sr) : Prop := r = .faultpc ∨ r = .faultinfo ∨ r = .skid

/-- An address of a return stack: [63:56] and [2:0] are zero (Table 12.7). -/
def stackWord (v : Nat) : Word := BitVec.ofNat 64 (v % 2 ^ 56 / 8 * 8)

/-- The threads of a group are back where a shadow set says they stood; those that stood at the faulting word resume at
`FAULTPC`, unless they resume behind it (R326, R355). -/
def ThreadsBack (g h : Group) (sh : Shadow) : Prop :=
  ∀ l, (g.thread l).st ≠ .exited →
    (h.thread l).pc = if g.atFault.getLsbD l = true ∧ g.resumeNext = false then g.faultpc
      else (AMap.get sh.thr l (g.thread l)).pc

/-- The source of an `MTS` is not poisoned where it is read: in each active lane for a thread's register, else in the lowest. -/
def Sourced (s : State) (p : Spot) (gd : Guard) (r : Sr) (a : Src) : Prop :=
  p.g.poisonTrap (if r = .stackbase ∨ r = .stacktop then (p.ctx s gd).active else (p.ctx s gd).active.take 1)
    [(r.bits, a)] = none

/-- The shadow set of a handler is put back: `o0`-`o7`, the last-result file, the predicates, `s56`-`s63` and the flags hold what
they held at entry, and `v` and `s0`-`s55` keep what the handler wrote (R355). -/
def ShadowBack (g h : Group) (sh : Shadow) : Prop :=
  h.preds = sh.preds ∧ h.l = sh.l ∧ h.hflags = sh.hflags ∧
    (AMap.rising sh.vo = true → ∀ l < 64, ∀ n < 8, h.vo32 l (768 + n) = (AMap.get sh.vo (rkey l (768 + n)) 0).toNat) ∧
    (AMap.rising sh.sc = true → ∀ n, 56 ≤ n → AMap.get h.sc n 0 = AMap.get sh.sc n 0) ∧
    ((∀ x ∈ sh.vo, 768 ≤ x.1 % 1024) → ∀ l < 64, ∀ n < 768, h.vo32 l n = g.vo32 l n) ∧
    ((∀ x ∈ sh.sc, 56 ≤ x.1) → ∀ n < 56, AMap.get h.sc n 0 = AMap.get g.sc n 0)

/-! ### Group instructions over the halves of an issue (R155, R282) -/

/-- No half of the word at issue has issued before. -/
def Fresh (p : Spot) (x : Ctx) : Prop := p.g.spawned &&& x.act = 0

/-- The state behind a word that has changed `s` into `s'` and may have written its group. -/
def onward (s s' : State) (p : Spot) : State := (s'.modGroup p.c p.slot (p.ahead s)).finishWord p.c p.e

/-- The halves of a group instruction take effect in turn; one that has issued is marked until both have. -/
def EachHalf (p : Spot) (x : Ctx) (f : State → Group → Nat → Mask → State → Prop) : List (Nat × Mask) → State → State → Prop
  | [], s, s' => s' = if x.two then s.modGroup p.c p.slot fun g => { g with spawned := g.spawned &&& ~~~x.act } else s
  | lm :: t, s, s' => ∃ g s1, s.group? p.c p.slot = some g ∧ f s g lm.1 lm.2 s1 ∧ EachHalf p x f t
      (if x.two then s1.modGroup p.c p.slot fun g => { g with spawned := g.spawned ||| lm.2 } else s1) s'

/-- A free reservation slot is taken, its bytes unspecified (R259). -/
def obresDone (s0 : State) (p : Spot) (y : F2) (s : State) (g : Group) (l : Nat) (m : Mask) (t : State) : Prop :=
  let x := p.ctx s0 y.g
  let a := x.value g 32 l y.a
  let b := x.value g 32 l y.b
  let r := resvOf y.ty a b
  g.poisonTrap [l] [(32, y.a), (32, y.b)] = none ∧ ObresOk s p y.ty a b ∧
    ∃ n, (List.range 16).find? (fun k => !(s.resvOf p.g.run p.c k).v) = some n ∧
      t = ((((s.setResv p.g.run p.c n r).modCore p.c fun k =>
        k.blankOb (s.obByte p.g.run p.c r.base) (256 * (r.dunits + r.sunits)) s.free).spend).setGroup p.c p.slot
          ((half x m).result g .n32 y.d false fun _ => n))


/-- A reservation, or only its mark of loss, is given up (R260). -/
def obrelDone (s0 : State) (p : Spot) (gd : Guard) (a : Src) (s : State) (g : Group) (l : Nat) (_ : Mask) (t : State) : Prop :=
  let v := (p.ctx s0 gd).value g 32 l a
  let r := s.resvOf p.g.run p.c (v % 16)
  g.poisonTrap [l] [(32, a)] = none ∧ v < 32 ∧ r.v = true ∧ s.slotBusy p.g.run p.c (v % 16) = false ∧
    t = if 16 ≤ v then s.setResv p.g.run p.c (v % 16) { r with lost := false }
      else (s.setResv p.g.run p.c (v % 16) { r with v := false }).dropLoads p.c p.g.run fun m => m == v % 16

/-- The core's leader gives a group of its team an accumulator window of its own (R255, R268). -/
def awsetDone (s0 : State) (p : Spot) (y : Reg3) (s : State) (g : Group) (l : Nat) (_ : Mask) (t : State) : Prop :=
  let x := p.ctx s0 y.g
  let num := x.value g 32 l y.a % 16
  let b := x.value g 32 l y.b
  let e := x.value g 32 l y.c
  g.poisonTrap [l] [(32, y.a), (32, y.b), (32, y.c)] = none ∧ s.leader p.c g = true ∧ b % 8 = 0 ∧ e % 8 = 0 ∧ b ≤ e ∧
    e ≤ s.accRows p.g.run p.c ∧
    (∀ z ∈ (s.core p.c).groups, z.2.run = p.g.run → z.2.num ≠ num → z.2.awbase < z.2.awlimit → b < e →
      e ≤ z.2.awbase ∨ z.2.awlimit ≤ b) ∧
    ∃ z, (((s.core p.c).groups.filter fun z => z.2.run == p.g.run).find? fun z => z.2.num == num) = some z ∧
      t = s.modGroup p.c z.1 fun h => { h with awbase := b, awlimit := e }

/-- The run's walker gives its next index (R323). -/
def twalkDone (s0 : State) (p : Spot) (gd : Guard) (d : Dst) (s : State) (g : Group) (_ : Nat) (m : Mask) (t : State) : Prop :=
  let r := s.run p.g.run
  let i := walkNext ((p.ctx s0 gd).fr * 64 + r.taken.length) r
  r.disp = false ∧
    t = (s.modRun p.g.run fun r => { r with taken := r.taken ++ i.toList }).setGroup p.c p.slot
      ((half (p.ctx s0 gd) m).result g .n32 d false fun _ => i.getD 0xFFFFFFFF)

/-- Once the release has performed, the completion is recorded; a dispatch or spawned team has none to record (R322). -/
def tdoneDone (p : Spot) (grade : Grade) (s : State) (_ : Group) (_ : Nat) (_ : Mask) (t : State) : Prop :=
  ∃ s1, s.releaseDev p.c p.g.gid = (s1, true) ∧
    t = if (s1.run p.g.run).disp = true ∨ (s1.run p.g.run).spawned = true then s1 else s1.recordCompletion p.g.run grade.code

/-- Once the release has performed, a record is read and checked, and a free slot takes the task (R295, R304, R321). -/
def tlaunchDone (s0 : State) (p : Spot) (gd : Guard) (d : Dst) (a : Src) (s : State) (g : Group) (l : Nat) (m : Mask) (t : State) : Prop :=
  let x := p.ctx s0 gd
  let va := x.value g 64 l a
  g.poisonTrap [l] [(64, a)] = none ∧ s.check x g .dev [recordTouch l va] none = none ∧
    (∀ q ∈ (s.core p.c).reqs, q.kind = .record → q.idn.gid ≠ p.g.gid) ∧
    ∃ s1 s2 loc ws, s.releaseDev p.c p.g.gid = (s1, true) ∧ s1.resolve p.g.part p.g.asid va .noWindow = .ok (.mem loc) ∧
      s1.readRecord p.c loc = some (s2, some ws) ∧ s2.group? p.c p.slot = some g ∧ recordBad ws false = false ∧
      s2.recordClash p.g.part (recordOf ws) = false ∧ s2.freeSlots p.g.part ≠ [] ∧
      let n := (s2.freeSlots p.g.part).getD (Config.freeChoice x.fr 64 % (s2.freeSlots p.g.part).length) 0
      t = ((s2.launch p.g.part n p.g.asid (s2.withTeams p.g.part (recordOf ws))).acquireL1 p.c).modGroup p.c p.slot fun h =>
        (half x m).result h .n32 d false fun _ => n

/-- The group instructions, issued in the state `s0`, that give one half's operands an effect. -/
def halfEffect (s0 : State) (p : Spot) : Instr → Option (Guard × (State → Group → Nat → Mask → State → Prop))
  | .obres y => some (y.g, obresDone s0 p y)
  | .obrel gd a => some (gd, obrelDone s0 p gd a)
  | .awset y => some (y.g, awsetDone s0 p y)
  | .twalk gd d => some (gd, twalkDone s0 p gd d)
  | .tdone gd grade => some (gd, tdoneDone p grade)
  | .tlaunch gd d a => some (gd, tlaunchDone s0 p gd d a)
  | _ => none

/-! ### Requests (R81, R89, R91, R107, R110) -/

/-- No line of an L1 lies in a way that leaves it. -/
def StayingL1 (k : Core) : Prop := ∀ x ∈ k.l1, x.2.way < k.l1Ways

/-- A team has a way of a core's scratchpad, or a save of the core has it. -/
def WayHeld (k : Core) (n : Nat) : Prop := (∃ h ∈ k.holders, h.1 = n) ∨ ∃ i, k.save = some i ∧ ∃ h ∈ i.holders, h.1 = n

/-- A read of a sector's record leaves the team's DEPTH within its LIMIT, where its page counts at all (R91, R94). -/
def CountsOk (s : State) (q : Req) (cls : Nat) (r : Rec) : Prop :=
  cls = 1 ∨ cls = 3 → ∀ run, AMap.find? s.runs q.idn.run = some run →
    max run.depth (r.depth + if run.refire then 1 else 0) ≤ run.limit

/-- The state in which a satisfied lane of an `LDG` has its value and its predicate (R89, R176). -/
def taken (s : State) (c : Nat) (q : Req) (idx : Nat) (a : Acc) (v : Nat) : State :=
  (((s.deliver c q (loadTy q.size false) a.lane v).lanePred q a.lane true).finishAcc c q.id idx .done).feedAged
    Config.agedEntries c

/-! ### Atomics, graded and gossip accesses, engines (R92, R131, R149, R150, R165, R181-R185) -/

/-- What an atomic writes, at a width (Table 8.7). -/
def atomC (fn : AtomFn) (w old b cmp : Nat) : Nat :=
  let o := BitVec.ofNat w old
  let x := BitVec.ofNat w b
  match fn with
  | .add => (o + x).toNat
  | .minS => (if o.slt x then o else x).toNat
  | .maxS => (if o.slt x then x else o).toNat
  | .minU => (if o.ult x then o else x).toNat
  | .maxU | .maxk => (if o.ult x then x else o).toNat
  | .and => (o &&& x).toNat
  | .or => (o ||| x).toNat
  | .xor => (o ^^^ x).toNat
  | .exch => x.toNat
  | .cas => (if o = BitVec.ofNat w cmp then x else o).toNat
  | .fadd => roundF .f32 .rne (addV .rne (decodeF .f32 old) (decodeF .f32 x.toNat))

/-- The machine once an atomic has performed in `u`: the old value goes to its lane, an acquire of wide scope drops clean lines. -/
def atomDone (u : State) (c : Nat) (q : Req) (idx : Nat) (a : Acc) (old : Nat) : State :=
  ((u.deliver c q (if q.size = 8 then .b64 else .b32) a.lane old).acquired c q).finishAcc c q.id idx .done

/-- A state differs from another in no group of any core. -/
def SameGroups (s u : State) : Prop := ∀ d, (u.core d).groups = (s.core d).groups

/-- The core's L1 holds nothing dirty, and a sector's home can grant it to the access now (R116). -/
def Granted (s : State) (c : Nat) (a : Acc) (l : Loc) : Prop :=
  (∀ x ∈ (s.core c).l1, x.2.dirty = 0) ∧ s.noGrant l.tag a.home = false

/-- Table 4.2: the record that a graded write leaves, or its fault. -/
def table42 (amend : Bool) (r : Rec) (g : Grade) (gen depth limit : Nat) : Rec ⊕ Nat :=
  if amend then
    if r.grade = .empty then .inr 0x21
    else if max (r.depth + 1) depth ≤ limit then
      .inl { grade := g, gen := (r.gen + 1) % 64, depth := max (r.depth + 1) depth }
    else .inr 0x22
  else if r.grade = .empty ∨ r.gen ≠ gen ∨ r.grade.code < g.code ∨ (r.grade = g ∧ g ≠ .final) then
    .inl { grade := g, gen := gen, depth := depth }
  else .inr 0x20

/-- A sector record as `GRD` gives it (R178). -/
def recWordC (r : Rec) : Nat := r.grade.code + r.gen % 64 * 4 + r.depth % 16 * 256

/-- The word of Table 8.8 for a global address whose leaf is `w`. -/
def probeC (s : State) (p e va : Nat) (w : Word) : Nat :=
  let host := s.hostWindow p va
  let fab := leafF w && !host
  let out := host || (if fab then !s.inDomain p (chipOf (leafIfa w va)) else s.outwardMem p va)
  let ok := s.lateCause p e va w false = none
  let b (x : Bool) (n : Nat) : Nat := if x then 2 ^ n else 0
  1 + b (w.getLsbD 52) 1 + b (w.getLsbD 56) 2 + b (w.getLsbD 57) 3 + b (w.getLsbD 58) 4 + 2 ^ 5 * leafClass w +
    b (w.getLsbD 60) 7 + b fab 8 + b out 9 + b (decide ok) 10 + b (isLarge va) 11

/-- The FP32 code of `n * 2^e / k`, rounded once to the nearest, for `n` and `k` above 0: the quotient in enough bits, with a last one
that says whether anything is left. -/
def quotC (neg : Bool) (n : Nat) (e : Int) (k : Nat) : Nat :=
  let h := k.log2 + 64
  let q := n * 2 ^ h / k
  roundF .f32 .rne (.num ⟨neg, 2 * q + (if n * 2 ^ h % k = 0 then 0 else 1), e - h - 1⟩)

/-- The estimate of a gossip value (R149): `V * 2^(e+32) / W`, 0 for no weight. -/
def estC (v w : Word) (e : Int) : Nat :=
  if v = 0 ∨ w = 0 then 0 else quotC v.msb v.toInt.natAbs (e + 32) w.toNat

def infC : Nat := 0x7F800000

/-- One comparison of the spread (R150), of two FP32 codes. -/
def spreadC (a b : Nat) : Nat :=
  let at_ (d : Dy) (e : Int) : Int := (if d.neg then -1 else 1) * (d.m * 2 ^ (d.e - e).toNat : Nat)
  match decodeF .f32 a, decodeF .f32 b with
  | .nan, _ | _, .nan => infC
  | .inf x, .inf y => if x = y then 0 else infC
  | .inf _, _ | _, .inf _ => infC
  | .num x, .num y =>
    let e := min x.e y.e
    let i := at_ x e
    let j := at_ y e
    if i = j then 0 else quotC false (i - j).natAbs 0 (max i.natAbs j.natAbs)

/-- The greatest disagreement of a line with a shadow slot. -/
def disagreeC (est slot : Nat → Nat) : Nat := (List.range 31).foldl (fun m i => max m (spreadC (est i) (slot i))) 0

/-- The integer that a `GADD` adds (R149), and whether the line can take it. -/
def gaddC (x : Nat) (e : Int) (v : Word) : Option Int :=
  match decodeF .f32 x with
  | .num d =>
    let q := intRound .rne { d with e := d.e - e }
    if -(2 ^ 63 : Int) ≤ q ∧ q < 2 ^ 63 ∧ -(2 ^ 63 : Int) ≤ v.toInt + q ∧ v.toInt + q < 2 ^ 63 then some q else none
  | _ => none

/-- A gossip line at its home, where no lane meets an error (R139). -/
def GossipAt (s : State) (q : Req) (a : Acc) (l : Loc) : Prop :=
  ∃ w, Plain s q.idn.part (easidOf q.idn.asid a.va) a.va w ∧ l = leafLoc q.idn.part (easidOf q.idn.asid a.va) a.va w

/-- The exponent of the lowest-numbered region whose range holds a line, 0 outside every region (R139). -/
def ExpOf (s : State) (p line : Nat) (e : Int) : Prop :=
  let holds (n : Nat) : Prop := s.regionBase p n ≤ line ∧ line < s.regionBase p n + 256 * s.regionLines p n
  (∃ n < 8, holds n ∧ (∀ m < n, ¬holds m) ∧ e = s.regionExp p n) ∨ ((∀ n < 8, ¬holds n) ∧ e = 0)

/-! ### Fences and page ranges (R113, R114, R118, R119, R151, R159, R184) -/

/-- The request waits for a condition: it is its core's, and neither logged nor withdrawn. -/
def Waits (s : State) (c : Nat) (q : Req) : Prop :=
  (s.core c).req? q.id = some q ∧ ∀ a ∈ q.accs, a.st ≠ .withdrawn ∧ a.st ≠ .logged

/-- The request has completed: it has left its core. -/
def Gone (t : State) (c : Nat) (q : Req) : Prop := (t.core c).req? q.id = none

/-- Every strong read of the group ahead of a request has returned (R335). -/
def ReadsBack (s : State) (c : Nat) (q : Req) : Prop :=
  ∀ r ∈ (s.core c).reqs, r.idn.gid = q.idn.gid → r.id < q.id →
    (r.kind = .ld ∧ r.strong = true) ∨ r.kind ∈ [.atom, .fatom, .ldg, .grd, .gread, .gspread, .waita, .acwait] →
    ∀ a ∈ r.accs, a.finished = true

/-- An L1 holds nothing but sealed lines and dirty bytes: what an acquire leaves of it (R113). -/
def Drained (k : Core) : Prop := ∀ x ∈ k.l1, x.2.sealed = true ∨ x.2.dirty ≠ 0

/-- A combining entry holds bytes of a request's group. -/
def HoldsOf (s : State) (c : Nat) (q : Req) (x : CombEnt) : Prop :=
  ∃ w ∈ x.who, ∃ r, (s.core c).req? w.1 = some r ∧ r.idn.gid = q.idn.gid

/-- An access is out on the fabric: of a word that only goes there, or combined, or sent there. -/
def OutThere (s : State) (r : Req) (a : Acc) : Prop :=
  a.finished = false ∧ (r.kind ∈ [.fput, .fget, .fatom] ∨ a.st = .comb ∨ ∃ n ∈ s.net, a.st = .sent n.id)

/-- Nothing that was checked before has still to write a range (R118): no store, atomic or copy, no dirty bytes in an L1, no sector
in an engine's hands. -/
def Settled4 (s : State) (q : Req) : Prop :=
  (∀ k ∈ s.cores, (∀ r ∈ k.2.reqs, r.kind.store = true ∨ r.kind ∈ [.atom, .fatom, .fget, .tcopy] → ∀ a ∈ r.accs, a.finished = true) ∧
    ∀ x ∈ k.2.l1, q.covers (tagPart x.1) (tagEasid x.1) (tagVa x.1) = true → x.2.dirty = 0) ∧
  ∀ x ∈ s.cached, s.claimed x.1 = false

/-- Every page of a range word is memory of the device (R158). -/
def PlainRange (s : State) (q : Req) : Prop :=
  ∀ va ∈ q.pages, ∃ w, Plain s q.idn.part (easidOf q.idn.asid va) va w

/-- No PLB of a core has a page of the range. -/
def NoPlb (t : State) (q : Req) : Prop :=
  ∀ k ∈ t.cores, ∀ e ∈ k.2.plb, q.covers (e.1 / 2 ^ 40 / 4096) (e.1 / 2 ^ 40 % 4096) (e.1 % 2 ^ 40 * 65536) = false

/-- The leaves of a range that homes know have a bit at a value; for a range of one page and with no cached sector, so has the leaf
in memory. -/
def LeafBit (s t : State) (q : Req) (b : Nat) (v : Bool) : Prop :=
  (∀ va ∈ q.pages, ∀ e, AMap.find? t.tlb (pageTag q.idn.part (easidOf q.idn.asid va) va) = some e → e.leaf.getLsbD b = v) ∧
  (s.cached = [] → ∀ va w pa, q.pages = [va] → (s.reach q.idn.part (easidOf q.idn.asid va) va).2 = .leaf w pa →
    w.getLsbD 63 = true → ∃ u : Word, Memory.readN t.mem pa 8 = u.toNat ∧ u.getLsbD b = v ∧ ∀ i < 64, i ≠ b → u.getLsbD i = w.getLsbD i)

end Sys2Proof.Claims

open Sys2Proof Sys2Proof.Machine Sys2Proof.Claims

/-! ## Words -/

/-- R209-R212: the exact sum, difference, product or extremum, wrapped or clamped. -/
def Obligations.IntegerArithmetic : Prop := LaneResults arithmetic

/-- R213, R214: the bitwise operations, and shifts whose count is the low 32 bits of `b`. -/
def Obligations.LogicAndShifts : Prop := LaneResults logic

/-- R215, R216, R219-R221: counts, bit fields, moves, `LEA` and the hash. Where the spec leaves a point open it follows the
model's choice, log entry 14. -/
def Obligations.CountsFieldsAndMoves : Prop := LaneResults fields

/-- R197, R198, R223-R231: the exact result, rounded once. -/
def Obligations.FloatArithmetic : Prop := LaneResults floats

/-- R232-R236: conversions, packing and order keys. Where the spec leaves a point open it follows the
model's choice, log entries 10 and 17. -/
def Obligations.Conversions : Prop := LaneResults conversions

/-- R217, R218, R222, R227, R247: comparisons, selection, predicate operations and votes. -/
def Obligations.PredicateWords : Prop := GroupResults predicates

/-- R243-R251: words across the lanes of a group. -/
def Obligations.CrossLaneWords : Prop := GroupResults crossLane

/-- R44-R46: both slots of a pair word read before either writes. -/
def Obligations.PairWords : Prop := GroupResults pairs

/-- R237, R238: a word of the queue raises its token's count by one for each half with an active lane, hands the queue that
many gang-issues, of which a scalar takes the result of the word's lowest active lane (R191), and goes on; where the count would
reach 3 it is held. Where the spec leaves a point open it follows the
model's choice, log entry 9. -/
def Obligations.SpecialFunctionWords : Prop :=
  ∀ (i : Instr) (w : Sfq) (srcs : List Src) (f : (Src → Nat) → Nat), sfqShape i = some (w, srcs, f) →
    ∀ (s : State) (p : Spot), p.Issues s → p.Follows s →
    let x := p.ctx s w.g
    p.g.poisonTrap x.active (srcs.map fun a => (32, a)) = none →
    (p.g.tok w.tok.val + x.parts.length ≤ 2 → ∃ t g, exec i s = .next t ∧ t.group? p.c p.slot = some g ∧
      g.tok w.tok.val = p.g.tok w.tok.val + x.parts.length ∧ g.vo = p.g.vo ∧ g.l = p.g.l ∧ g.sc = p.g.sc ∧
      (t.core p.c).sfq = (s.core p.c).sfq ++ x.parts.zipIdx.map fun m =>
        { id := s.next + m.2, slot := p.slot, gid := p.g.gid, tok := w.tok.val, dst := w.d,
          res := if toScalar (some w.d) = true ∧ m.1.getLsbD (lowest x.act) = false then []
            else (lanesOf m.1).map fun l => (l, BitVec.ofNat 32 (f fun a => x.val p.g .f32 l a)) }) ∧
    (2 < p.g.tok w.tok.val + x.parts.length → exec i s = .next (p.held s []))

/-- R285-R287, R308-R310: `BRA`, `BRX`, `CALL`, `CALLX` and `RET` send the active lanes to their targets and the others
behind the clause; a call pushes the address behind its clause, storing the oldest entry of a full stack, and `RET` pops one, or
holds its lanes while it reads the spilled ones. A word that claims that its lanes agree traps with UNIFORM where they do not, and
a `RET` of a lane with nothing to return to with STACK_EMPTY. Where the spec leaves a point open it follows the
model's choice, log entries 24, 25 and 26. -/
def Obligations.Transfers : Prop :=
  ∀ (s : State) (p : Spot), p.Issues s →
    (∀ y : RelArgs, Reaches s p y.uni (relTo (p.ctx s y.g) y) →
      exec (.bra y) s = .next (moved s p (arrivedAt s p p.g (relTo (p.ctx s y.g) y)))) ∧
    (∀ y : RelArgs, Reaches s p y.uni (relTo (p.ctx s y.g) y) → CanSpill s p (p.ctx s y.g) →
      exec (.call y) s = .next (called s p (p.ctx s y.g) (relTo (p.ctx s y.g) y))) ∧
    (∀ y : IndArgs, p.g.poisonTrap (p.ctx s y.g).active [(64, y.a)] = none →
      Reaches s p y.uni (indTo (p.ctx s y.g) p.g y) →
      exec (.brx y) s = .next (moved s p (arrivedAt s p p.g (indTo (p.ctx s y.g) p.g y)))) ∧
    (∀ y : IndArgs, p.g.poisonTrap (p.ctx s y.g).active [(64, y.a)] = none →
      Reaches s p y.uni (indTo (p.ctx s y.g) p.g y) → CanSpill s p (p.ctx s y.g) →
      exec (.callx y) s = .next (called s p (p.ctx s y.g) (indTo (p.ctx s y.g) p.g y))) ∧
    (∀ (gd : Guard) (uni : Bool),
      (∀ l ∈ (p.ctx s gd).active, (p.g.thread l).rstack ≠ [] ∧ (p.g.thread l).rbad.getD 0 0 = 0) →
      Reaches s p uni (retTo (p.ctx s gd) p.g) →
      exec (.ret gd uni) s = .next (moved s p ((arrivedAt s p p.g (retTo (p.ctx s gd) p.g)).threads (p.ctx s gd).act
        fun _ t => { t with rstack := t.rstack.drop 1, rbad := t.rbad.drop 1 }))) ∧
    (∀ (gd : Guard) (uni : Bool),
      let x := p.ctx s gd
      let clean := ∀ l ∈ x.active, (p.g.thread l).rstack ≠ [] → (p.g.thread l).rbad.getD 0 0 = 0
      let empty (l : Nat) := (p.g.thread l).rstack = [] ∧ (p.g.thread l).top = (p.g.thread l).base
      (clean → (∀ l ∈ x.active, ¬empty l) → filling p.g x ≠ [] →
        (∀ l ∈ filling p.g x, StackOk s p (lastTop (p.g.thread l)).toNat false) →
        exec (.ret gd uni) s = .next (moved (asking s p (fillAsk s p x uni)) p { (p.g.threads p.m fun _ t =>
          { t with st := .fill s.next, pc := p.ga.pc, hdr := some p.hdr, len := p.ga.len }) with seq := p.g.seq + 1 })) ∧
      (clean → ∀ l ∈ x.active, empty l → (∀ k ∈ x.active, k < l → ¬empty k) →
        exec (.ret gd uni) s = .next (p.trapped s { cause := 0x0D, lane := l })) ∧
      (clean → (∀ l ∈ x.active, (p.g.thread l).rstack ≠ []) → ∀ l, Splits p.m (retTo x p.g) l →
        exec (.ret gd true) s = .next (p.trapped s { cause := 0x0C, lane := l }))) ∧
    (∀ (y : RelArgs) (l : Nat), y.uni = true → Splits p.m (relTo (p.ctx s y.g) y) l →
      exec (.bra y) s = .next (p.trapped s { cause := 0x0C, lane := l }) ∧
      ((∀ k ∈ spilling p.g (p.ctx s y.g), (p.g.thread k).rbad.getD 3 0 = 0) →
        exec (.call y) s = .next (p.trapped s { cause := 0x0C, lane := l }))) ∧
    (∀ (y : IndArgs) (l : Nat), y.uni = true → Splits p.m (indTo (p.ctx s y.g) p.g y) l →
      p.g.poisonTrap (p.ctx s y.g).active [(64, y.a)] = none →
      exec (.brx y) s = .next (p.trapped s { cause := 0x0C, lane := l }) ∧
      ((∀ k ∈ spilling p.g (p.ctx s y.g), (p.g.thread k).rbad.getD 3 0 = 0) →
        exec (.callx y) s = .next (p.trapped s { cause := 0x0C, lane := l })))

/-- R284, R312, R313: `REJOIN` puts the active lanes of its mask to sleep and releases those whose set is complete; `EXIT`
ends the active lanes, and the group with its last live thread. Where the spec leaves a point open it follows the
model's choice, log entry 27. -/
def Obligations.RejoinAndExit : Prop :=
  ∀ (s : State) (p : Spot) (gd : Guard), p.Issues s →
    (∀ a : Option Src, (∀ r, a = some r → p.g.poisonTrap ((p.ctx s gd).active.take 1) [(64, r)] = none) →
      HeaderAt s p (p.ga.pc + 8) → exec (.rejoin gd a) s = .next (moved s p (rejoined s p gd a))) ∧
    ((∀ l ∈ p.g.live, (p.ctx s gd).act.getLsbD l = true) → p.m &&& ~~~(p.ctx s gd).act = 0 → (p.ctx s gd).act ≠ 0 →
      ∃ t, exec (.exit gd) s = .next t ∧ t.group? p.c p.slot = none) ∧
    ((∃ l ∈ p.g.live, (p.ctx s gd).act.getLsbD l = false) → HeaderAt s p (p.ga.pc + 8) →
      ∃ t g, exec (.exit gd) s = .next t ∧ t.group? p.c p.slot = some g ∧
        ∀ x ∈ g.thr, (p.ctx s gd).act.getLsbD x.1 = true → x.2.st = .exited)

/-- R238, R316, R317: `YIELD` and `SLEEP` put the active lanes to sleep behind the clause and the wakes end it; `WTOK` and `WFLAG`
go on when their counts are zero, and are held while one is not. Behind a `WTOK` nothing changes but what a register holds that
was written twice, of which either value may stand. Where the spec leaves a point open it follows the model's choice, log entry 9. -/
def Obligations.SleepingAndWaiting : Prop :=
  (∀ (s : State) (p : Spot) (gd : Guard), p.Issues s → HeaderAt s p (p.ga.pc + 8) →
    exec (.yield gd) s = .next (moved s p (parkedAs s p gd
      (.yield ((s.readyEntries p.c).filter (· != p.e)) (s.clock p.g.part + 256)))) ∧
    ∀ n : BitVec 27, exec (.sleep gd n) s = .next (moved s p (parkedAs s p gd (.sleep (s.clock p.g.part + n.setWidth 64))))) ∧
  (∀ (s : State) (c slot lane : Nat) (g : Group), s.group? c slot = some g →
    exec (.yieldWake c slot lane) s = .next (s.setGroup c slot (awoken g lane (yieldOver (s.clock g.part)) (s.now g.part))) ∧
    exec (.sleepWake c slot lane) s = .next (s.setGroup c slot (awoken g lane (sleepOver (s.clock g.part)) (s.now g.part)))) ∧
  (∀ (s : State) (p : Spot) (gd : Guard), p.Issues s → p.Follows s → (p.ctx s gd).act ≠ 0 →
    (∀ m : BitVec 4, (∀ n < 4, m.getLsbD n = true → p.g.tok n = 0) →
      ∃ h, exec (.wtok gd m) s = .next (p.after s s.spend h) ∧ h.pend = p.g.pend.filter (fun q => !awaits m q) ∧
        ((∀ q ∈ p.g.pend, doubtful m q = false) → h = { p.g with pend := h.pend }) ∧
        ∀ l < 64, ∀ code < 776, (∀ q ∈ p.g.pend, doubtful m q = true → q.key ≠ rkey l code) →
          h.vo32 l code = p.g.vo32 l code) ∧
    (∀ m : BitVec 4, (∃ n < 4, m.getLsbD n = true ∧ p.g.tok n ≠ 0) → exec (.wtok gd m) s = .next (p.held s [])) ∧
    (∀ m : BitVec 12, (∀ n < 12, m.getLsbD n = true → p.g.flag n = 0) → exec (.wflag gd m) s = .next (p.after s s p.g)) ∧
    (∀ m : BitVec 12, (∃ n < 12, m.getLsbD n = true ∧ p.g.flag n ≠ 0) → exec (.wflag gd m) s = .next (p.held s [])))

/-- R318-R320: `BARA` marks the active lanes and goes on; `BAR` marks them and puts them to sleep on the barrier; `BARW` only
puts them to sleep, unless the phase it waits for is over. With its last mark the group arrives: a team of one group
completes the barrier. Where the spec leaves a point open it follows the
model's choice, log entry 27. -/
def Obligations.Barriers : Prop :=
  (∀ (s : State) (p : Spot) (y : BarArgs), p.Issues s → p.Follows s → BarReady s p y → Missing s p y →
    (exec (.bara y) s = .next (p.after s s (p.g.setBar y.b.val
      { p.g.bar y.b.val with marks := marksAfter s p y, count := y.c.val }))) ∧
    ((p.g.bar y.b.val).gs = ((s.run p.g.run).bar p.g.handler y.b.val).bc →
      ∃ t g, exec (.bar y) s = .next t ∧ t.group? p.c p.slot = some g ∧ (g.bar y.b.val).marks = marksAfter s p y ∧
        ∀ x ∈ g.thr, (p.ctx s y.g).act.getLsbD x.1 = true → x.2.st = .bar y.b.val)) ∧
  (∀ (s : State) (p : Spot) (y : BarArgs), p.Issues s → p.Follows s → BarReady s p y →
    (∀ l ∈ p.g.live, (marksAfter s p y).getLsbD l = true) → y.c.val = 0 → (s.run p.g.run).ngroups = (s.run p.g.run).ended + 1 →
    ((s.run p.g.run).bar p.g.handler y.b.val).exp = none → ((s.run p.g.run).bar p.g.handler y.b.val).arr = 0 →
    ∃ t, exec (.bara y) s = .next t ∧
      ((t.run p.g.run).bar p.g.handler y.b.val).bc = ((s.run p.g.run).bar p.g.handler y.b.val).bc + 1) ∧
  (∀ (s : State) (p : Spot) (gd : Guard) (b : Fin 16), p.Issues s → p.Follows s → (p.ctx s gd).act ≠ 0 →
    (p.g.bar b.val).gs = ((s.run p.g.run).bar p.g.handler b.val).bc →
    ∃ t g, exec (.barw gd b) s = .next t ∧ t.group? p.c p.slot = some g ∧
      ∀ x ∈ g.thr, (p.ctx s gd).act.getLsbD x.1 = true → x.2.st = .bar b.val)

/-- R306, R325, R352, R353: `TRAP`, `BRK` and `SYSC` with an active lane halt the team with their cause and code, and their
threads resume behind the word; `ILL` traps at the word itself. -/
def Obligations.TrapWords : Prop :=
  ∀ (s : State) (p : Spot), p.Issues s → p.g.mode = .normal →
    (∀ (i : Instr) (y : CodeArgs) (cause : Nat), trapOf i = some (y, cause) → (p.ctx s y.g).act ≠ 0 →
      ∃ t, exec i s = .next t ∧ HaltedBehind s t p (trapInfo cause (lowest (p.ctx s y.g).act) y.code)) ∧
    ∃ t g, exec .ill s = .next t ∧ t.group? p.c p.slot = some g ∧ g.faultpc = p.ga.pc ∧ g.halt = .stopped ∧
      g.faultinfo = trapInfo 0x01 (lowest p.m) 0 ∧ g.vo = p.g.vo ∧ g.thr = p.g.thr

/-- R326, R355, R362: once every flag-counted word of the handler has completed, `HRET` puts the shadow set back and ends the
halt, and `PRET` ends the pre-emption handler, or the restore handler's run of the restored code, which enters the pre-emption
handler again while a pre-emption is in effect; until then they are held. `HRET.kill` ends the team's groups. Outside their
handlers they are ILLEGAL. Where the spec leaves a point open it follows the model's choice, log entries 28 and 29. -/
def Obligations.HandlerReturns : Prop :=
  ∀ (s : State) (p : Spot) (gd : Guard), p.Issues s →
    (∀ (sh : Shadow) (rest : List Shadow), p.g.mode = .trap → p.g.shadow = sh :: rest → (s.core p.c).handlerQuiet p.g = true →
      ∃ t g, exec (.hret gd) s = .next t ∧ t.group? p.c p.slot = some g ∧ g.mode = sh.mode ∧ g.shadow = rest ∧
        ShadowBack p.g g sh ∧ ThreadsBack p.g g sh ∧ (t.run p.g.run).halt = none ∧
        ((s.part p.g.part).inEffect = false → g.halt = .running)) ∧
    (p.g.mode = .trap → ∃ t, exec (.hretKill gd) s = .next t ∧ (t.run p.g.run).killed = true ∧ (t.run p.g.run).halt = none ∧
      ∀ x ∈ s.groupsOf p.g.run, t.group? x.1 x.2 = none) ∧
    (p.g.mode = .psave → (s.core p.c).handlerQuiet p.g = true → (s.part p.g.part).inEffect = true →
      ∃ t g, exec (.pret gd) s = .next t ∧ t.group? p.c p.slot = some g ∧ g.mode = .psaveDone ∧ g.halt = .stopped) ∧
    (p.g.mode = .psave → (s.core p.c).handlerQuiet p.g = true → (s.part p.g.part).inEffect = false →
      ∃ t g, exec (.pret gd) s = .next t ∧ t.group? p.c p.slot = some g ∧ g.mode = .prest) ∧
    (p.g.mode = .prest → (s.core p.c).handlerQuiet p.g = true → (s.part p.g.part).inEffect = false →
      ∃ t g, exec (.pret gd) s = .next t ∧ t.group? p.c p.slot = some g ∧ g.mode = .normal ∧ g.halt = .running ∧
        ∀ (sh : Shadow) (rest : List Shadow), p.g.shadow = sh :: rest → ShadowBack p.g g sh) ∧
    (p.g.mode = .prest → (s.core p.c).handlerQuiet p.g = true → (s.part p.g.part).inEffect = true →
      ∃ t g, exec (.pret gd) s = .next t ∧ t.group? p.c p.slot = some g ∧
        g.mode = if (s.preg p.g.part 0x2708).getLsbD 63 then .psave else .psaveDone) ∧
    ((s.core p.c).handlerQuiet p.g = false →
      (p.g.mode = .trap → exec (.hret gd) s = .next (p.held s [])) ∧
      (p.g.mode = .psave ∨ p.g.mode = .prest → exec (.pret gd) s = .next (p.held s []))) ∧
    (p.g.mode ≠ .trap →
      exec (.hret gd) s = .next (p.trapped s { cause := 0x01, lane := lowest p.m }) ∧
      exec (.hretKill gd) s = .next (p.trapped s { cause := 0x01, lane := lowest p.m })) ∧
    (p.g.mode ≠ .psave → p.g.mode ≠ .prest →
      exec (.pret gd) s = .next (p.trapped s { cause := 0x01, lane := lowest p.m }))

/-- R193, R255, R284, R327: what `MFS` reads of every special register, and what `MTS` writes to each that it may name: a thread's
register in each active lane, any other from the lowest active lane. Where the word traps, nothing changes. -/
def Obligations.SpecialRegisterWords : Prop :=
  ∀ (s : State) (p : Spot) (gd : Guard), p.Issues s → p.Follows s →
    (∀ (d : Dst) (r : Sr), exec (.mfs gd d r) s = .next (p.after s s
      ((p.ctx s gd).result p.g (if r.bits = 64 then .b64 else .n32) d true fun l => special s p (p.ctx s gd) l r))) ∧
    (∀ (r : Sr) (a : Src), (p.ctx s gd).act = 0 → (trapOnly r → p.g.mode = .trap) → (r = .prebudget → s.bellwether p.g.part = p.c) →
      exec (.mts gd r a) s = .next (p.after s s p.g)) ∧
    (∀ (r : Sr) (a : Src), (trapOnly r ∧ p.g.mode ≠ .trap) ∨ (r = .prebudget ∧ s.bellwether p.g.part ≠ p.c) →
      exec (.mts gd r a) s = .next (p.trapped s { cause := 0x01, lane := lowest p.m })) ∧
    ((p.ctx s gd).act ≠ 0 → ∀ a : Src,
      let low := lowest (p.ctx s gd).act
      let v := (p.ctx s gd).value p.g 64 low a
      let u := (p.ctx s gd).value p.g 32 low a
      (Sourced s p gd .rejoinm a → exec (.mts gd .rejoinm a) s = .next (p.after s s
        (Group.rejoinTest { p.g with rejoinm := BitVec.ofNat 64 (v % 2 ^ p.g.width) } (s.now p.g.part)))) ∧
      (Sourced s p gd .awbase a → u % 8 = 0 → p.g.awbase ≤ u → u ≤ p.g.awlimit →
        exec (.mts gd .awbase a) s = .next (p.after s s { p.g with awbase := u }) ∧
        exec (.mts gd .awlimit a) s = .next (p.after s s { p.g with awlimit := u })) ∧
      (Sourced s p gd .awbase a → ¬(u % 8 = 0 ∧ p.g.awbase ≤ u ∧ u ≤ p.g.awlimit) →
        exec (.mts gd .awbase a) s = .next (p.trapped s { cause := 0x0F, lane := low }) ∧
        exec (.mts gd .awlimit a) s = .next (p.trapped s { cause := 0x0F, lane := low })) ∧
      (Sourced s p gd .stackbase a →
        exec (.mts gd .stackbase a) s = .next (p.after s s (p.g.threads (p.ctx s gd).act fun l t =>
          { t with base := stackWord ((p.ctx s gd).value p.g 64 l a), top := stackWord ((p.ctx s gd).value p.g 64 l a),
                   astray := t.astray || t.top != t.base })) ∧
        exec (.mts gd .stacktop a) s = .next (p.after s s (p.g.threads (p.ctx s gd).act fun l t =>
          { t with top := stackWord ((p.ctx s gd).value p.g 64 l a) }))) ∧
      (Sourced s p gd .gradefloor a → exec (.mts gd .gradefloor a) s = .next (p.after s
        (s.modRun p.g.run fun r => { r with floor := min r.floor (v % 4) }) p.g)) ∧
      (Sourced s p gd .amdepth a → v % 16 ≤ (s.run p.g.run).limit → exec (.mts gd .amdepth a) s = .next (p.after s
        (s.modRun p.g.run fun r => { r with depth := max r.depth (v % 16) }) p.g)) ∧
      (Sourced s p gd .amdepth a → (s.run p.g.run).limit < v % 16 →
        exec (.mts gd .amdepth a) s = .next (p.trapped s { cause := 0x22, lane := low })) ∧
      (Sourced s p gd .faultpc a → p.g.mode = .trap →
        exec (.mts gd .faultpc a) s = .next (p.after s s { p.g with faultpc := BitVec.ofNat 64 (v % 2 ^ 56) }) ∧
        exec (.mts gd .faultinfo a) s = .next (p.after s s { p.g with faultinfo := BitVec.ofNat 64 v &&& 0xFFFFFFFFFFFF0FFF })) ∧
      (Sourced s p gd .skid a → p.g.mode = .trap →
        exec (.mts gd .skid a) s = .next (p.after s s { p.g with skid := BitVec.ofNat 32 u &&& 0xF000011F })) ∧
      (Sourced s p gd .prebudget a → s.bellwether p.g.part = p.c →
        exec (.mts gd .prebudget a) s = .next (p.after s
          (s.modPart p.g.part fun x => { x with prebudget := max 1024 (min 1048576 u) }) p.g)))

/-- R288, R292, R295, R304, R315, R321-R324: `SPAWN` puts its threads into bins, `TLAUNCH` starts a task in a free slot from its
record, `TDONE` records a completion with its grade and generation (here for one half), and `TSTAT` reads a task's state. Every
half of a group instruction (R155, R282), of `OBRES`, `OBREL`, `AWSET`, `TLAUNCH`, `TDONE` and `TWALK`, takes its effect in turn.
Where the spec leaves a point open it follows the model's choice, log entries 64 and 65.
R323: the index that a walk takes lies below its count and has not been taken, and none is left only when every one has
been. -/
def Obligations.TaskWords : Prop :=
  (∀ (s : State) (p : Spot) (gd : Guard), p.Issues s → p.Follows s →
    let x := p.ctx s gd
    (∀ (disp : BitVec 27) (a : Src), x.act ≠ 0 → p.g.poisonTrap x.active [(64, a)] = none →
      ((s.run p.g.run).disp = true →
        exec (.spawn gd disp a) s = .next (p.trapped s { cause := 0x0B, lane := lowest x.act })) ∧
      ((s.run p.g.run).disp = false → HeaderAt s p (x.pc + disp.signExtend 64 * 8) →
      let out := spawnInto s p gd (x.pc + disp.signExtend 64 * 8) a
      (∀ l ∈ x.active, p.g.spawned.getLsbD l = false → out.2.getLsbD l = true) →
      exec (.spawn gd disp a) s = .next (p.after s { s with bins := AMap.put s.bins (clusterOf p.c) out.1 }
        { p.g with spawned := p.g.spawned &&& ~~~x.act }))) ∧
    (∀ (l : Nat) (m : Mask), OneHalf s p gd l m →
      (∀ (d : Dst) (a : Src) (loc : Loc) (s1 s2 : State) (ws : List Word), p.g.poisonTrap [l] [(64, a)] = none →
        s.check x p.g .dev [recordTouch l (x.value p.g 64 l a)] none = none →
        (∀ q ∈ (s.core p.c).reqs, q.kind = .record → q.idn.gid ≠ p.g.gid) → s.releaseDev p.c p.g.gid = (s1, true) →
        s1.resolve p.g.part p.g.asid (x.value p.g 64 l a) .noWindow = .ok (.mem loc) →
        s1.readRecord p.c loc = some (s2, some ws) → s2.group? p.c p.slot = some p.g → recordBad ws false = false →
        s2.recordClash p.g.part (recordOf ws) = false → s2.freeSlots p.g.part ≠ [] →
        ∃ t n k, exec (.tlaunch gd d a) s = .next t ∧ s2.task? p.g.part n = none ∧ t.task? p.g.part n = some k ∧
          k.asid = p.g.asid ∧ k.desc.entry = (recordOf ws).entry ∧ k.desc.nteams = (recordOf ws).nteams) ∧
      (∀ (grade : Grade) (k : Task), s.releaseDev p.c p.g.gid = (s, true) → (s.run p.g.run).disp = false →
        (s.run p.g.run).spawned = false → (s.run p.g.run).part = p.g.part → (s.run p.g.run).team < 4096 →
        s.task? p.g.part (s.run p.g.run).task = some k → (s.part p.g.part).hold = [] →
        (∀ y ∈ (s.part p.g.part).slots, y.2.desc.deps = []) →
        ∃ t, exec (.tdone gd grade) s = .next t ∧
          (t.comp p.g.part (s.run p.g.run).task (s.run p.g.run).team).grade = min grade.code (s.run p.g.run).floor ∧
          (t.comp p.g.part (s.run p.g.run).task (s.run p.g.run).team).gen = (s.run p.g.run).gen)) ∧
    (∀ (i : Instr) (f : State → Group → Nat → Mask → State → Prop) (s' : State), halfEffect s p i = some (gd, f) → Fresh p x →
      EachHalf p x f x.leads s s' → exec i s = .next (onward s s' p)) ∧
    (∀ (d : Dst) (a : Src), p.g.poisonTrap x.active [(32, a)] = none →
      (∀ l ∈ x.active, x.value p.g 32 l a / 2 ^ 10 % 2 ^ 6 = 0 ∧
        (s.spillOk p.g.part (x.value p.g 32 l a % 2 ^ 10) (x.value p.g 32 l a / 2 ^ 16 % 2 ^ 16) = true ∨
          ∀ k, s.task? p.g.part (x.value p.g 32 l a % 2 ^ 10) = some k → k.desc.nteams ≤ x.value p.g 32 l a / 2 ^ 16 % 2 ^ 16)) →
      exec (.tstat gd d a) s = .next (p.after s s (x.result p.g .n32 d false fun l => s.taskStatus p.g.part (x.value p.g 32 l a))))) ∧
  (∀ (fr : Nat) (r : Run),
    (∀ i, walkNext fr r = some i → i < r.walkn ∧ i ∉ r.taken) ∧ (walkNext fr r = none ↔ ∀ i < r.walkn, i ∈ r.taken))

/-- R255-R268: reservations, windows, tile products and accumulator words. -/
def Obligations.MatrixWords : Prop :=
  ∀ (s : State) (p : Spot), p.Issues s → p.Follows s →
    (∀ (y : F2) (l : Nat) (m : Mask) (n : Nat), OneHalf s p y.g l m → p.g.poisonTrap [l] [(32, y.a), (32, y.b)] = none →
      let a := (p.ctx s y.g).value p.g 32 l y.a
      let b := (p.ctx s y.g).value p.g 32 l y.b
      ObresOk s p y.ty a b → (List.range 16).find? (fun k => !(s.resvOf p.g.run p.c k).v) = some n →
      exec (.obres y) s = .next (p.after s ((s.setResv p.g.run p.c n (resvOf y.ty a b)).modCore p.c fun k =>
          k.blankOb (s.obByte p.g.run p.c (resvOf y.ty a b).base)
            (256 * ((resvOf y.ty a b).dunits + (resvOf y.ty a b).sunits)) s.free).spend
        ((half (p.ctx s y.g) m).result p.g .n32 y.d false fun _ => n))) ∧
    (∀ (gd : Guard) (a : Src) (l : Nat) (m : Mask), OneHalf s p gd l m → p.g.poisonTrap [l] [(32, a)] = none →
      let v := (p.ctx s gd).value p.g 32 l a
      v < 32 → (s.resvOf p.g.run p.c (v % 16)).v = true → s.slotBusy p.g.run p.c (v % 16) = false →
      ∃ t, exec (.obrel gd a) s = .next t ∧
        (v < 16 → (t.resvOf p.g.run p.c v).v = false) ∧ (16 ≤ v → (t.resvOf p.g.run p.c (v % 16)).lost = false)) ∧
    (∀ (y : Reg3) (l : Nat) (m : Mask) (n : Nat) (h : Group), OneHalf s p y.g l m →
      p.g.poisonTrap [l] [(32, y.a), (32, y.b), (32, y.c)] = none → s.leader p.c p.g = true →
      let num := (p.ctx s y.g).value p.g 32 l y.a % 16
      let b := (p.ctx s y.g).value p.g 32 l y.b
      let e := (p.ctx s y.g).value p.g 32 l y.c
      (((s.core p.c).groups.filter fun z => z.2.run == p.g.run).find? fun z => z.2.num == num) = some (n, h) →
      b % 8 = 0 → e % 8 = 0 → b ≤ e → e ≤ s.accRows p.g.run p.c →
      (∀ z ∈ (s.core p.c).groups, z.2.run = p.g.run → z.2.num ≠ num → z.2.awbase < z.2.awlimit → b < e →
        e ≤ z.2.awbase ∨ z.2.awlimit ≤ b) →
      ∃ t g, exec (.awset y) s = .next t ∧ t.group? p.c n = some g ∧ g.awbase = b ∧ g.awlimit = e) ∧
    (∀ (y : Reg3) (all : Bool), MmaOk s p y all →
      exec (if all then .mmaAll y else .mma y) s = .next (p.after s (s.modCore p.c fun k =>
        { k with oxq := k.oxq ++ (mmaAsks y all (p.ctx s y.g) p.g).map (·.q) }) p.g)) ∧
    (∀ (gd : Guard) (a : Src), RowsOk s p gd a [(32, a)] →
      exec (.mzero gd a) s = .next (p.after s ((p.ctx s gd).active.foldl (fun s l =>
        s.modCore p.c fun k => (List.range 64).foldl (fun k col =>
          k.putAcc (accRowOf s p gd a l * 64 + col) 0) k) s) p.g)) ∧
    (∀ (gd : Guard) (d : Dst) (a b : Src), RowsOk s p gd a [(32, a), (32, b)] →
      (∀ l ∈ (p.ctx s gd).active, AMap.find? (s.core p.c).accPoison (accOf s p gd a b l) = none) →
      exec (.mread gd d a b) s = .next (p.after s s ((p.ctx s gd).result p.g .b32 d true fun l =>
        (AMap.get (s.core p.c).acc (accOf s p gd a b l) 0).toNat))) ∧
    (∀ (y : Reg3), RowsOk s p y.g y.a [(32, y.a), (32, y.b), (32, y.c)] →
      exec (.mwrite y) s = .next (p.after s ((p.ctx s y.g).active.foldl (fun s l =>
        s.modCore p.c fun k => k.putAcc (accOf s p y.g y.a y.b l) (BitVec.ofNat 32 ((p.ctx s y.g).value p.g 32 l y.c))) s) p.g))

/-- R49, R84, R152-R161, R282: a memory word that may issue puts out its requests, half by half as the store buffer has room,
tries at once what its kind tries, and goes on; where a half finds none, it is held with that half still to issue.
R49, R84, R87, R191: a half with an active lane puts out one request, counted on the word's flag, under the group's sequence
number, with the identity and the team's values of the moment; a scalar takes its value from the half with the lowest active lane.
Once every half has, the number is used up. -/
def Obligations.MemoryWordsIssue : Prop :=
  (∀ (i : Instr) (gd : Guard) (w : MemWord), memWordOf i = some (gd, w) → ∀ (s : State) (p : Spot), p.Issues s → p.Follows s →
    MemReady s p gd w →
    let x := p.ctx s gd
    (∀ s', putOut w x p.g (Left p x).parts s = some s' →
      exec i s = .next (((s'.closeWord x).modGroup p.c p.slot (p.ahead s)).finishWord p.c p.e)) ∧
    (∀ m ms, (Left p x).parts = m :: ms → w.ordered = true →
      (s.core p.c).roomFor ((w.req x s p.g m).entries fun _ => true) = false → exec i s = .next (p.held s []))) ∧
  (∀ (s s' : State) (p : Spot) (gd : Guard) (fb : Bool) (q : Req) (m : Mask) (keys : List Nat), p.Issues s →
    let x := p.ctx s gd
    s.countHalf x fb m q keys = some s' →
    ∃ g, s'.group? p.c p.slot = some g ∧ g.seq = p.g.seq ∧ g.vo = p.g.vo ∧ g.l = p.g.l ∧ g.sc = p.g.sc ∧
      (∀ l, { g.thread l with cw := (p.g.thread l).cw } = p.g.thread l) ∧
      (∀ f, x.setFlag fb = some f → g.flag f = p.g.flag f + 1 ∧ g.flag f ≤ 63) ∧
      (s'.core p.c).reqs = (s.core p.c).reqs ++ [(s.run p.g.run).stamp { q with
        dst := if toScalar q.dst = true ∧ m.getLsbD (lowest x.act) = false then none else q.dst,
        mask := m, flag := x.setFlag fb, id := s.next, idn := s.identOf p.c p.slot, pc := p.ga.pc, seq := p.g.seq,
        hdepth := p.g.depth }] ∧
      (x.act ≠ 0 → ∃ h, (s'.closeWord x).group? p.c p.slot = some h ∧ h.seq = p.g.seq + 1 ∧ h.flags = g.flags ∧
        h.spawned = g.spawned &&& ~~~x.act ∧ ((s'.closeWord x).core p.c).reqs = (s'.core p.c).reqs))

/-- R152, R162: a load of global memory asks, for each lane, for its size in bytes at base + index + offset * size. -/
def Obligations.LoadAddresses : Prop :=
  ∀ (y : LdArgs) (x : Ctx) (s : State) (g : Group) (m : Mask), y.space = .glb →
    ((ldMem y).req x s g m).accs.map (fun a => (a.lane, a.va, a.size)) = (lanesOf m).map fun l =>
      (l, (BitVec.ofNat 64 (x.value g 64 l y.m.a) +
        (match y.m.b with
          | none => 0
          | some b => (BitVec.ofNat 32 (x.value g 32 l b)).signExtend 64) +
        y.m.off.signExtend 64 * BitVec.ofNat 64 y.size.bytes).toNat, y.size.bytes)

/-- R163, R164: the lanes of a store that write one sector make one access of it, and where several lanes write a byte, the
highest lane's byte is what the store writes there: every access that writes the byte carries it, and one does. -/
def Obligations.HighestLaneStores : Prop :=
  ∀ (sp : Space) (size : Nat) (l : List (Nat × Nat × Nat)) (lane va v i : Nat), 0 < size → size ≤ 16 →
    (∀ e ∈ l, e.2.1 % size = 0 ∧ 64 % size = 0) → (lane, va, v) ∈ l → i < size →
    l.Pairwise (fun a b => a.1 < b.1) → (∀ e ∈ l, lane < e.1 → e.2.1 ≠ va) →
    (sectorAccs sp size l).Pairwise (fun a b => a.va / 64 ≠ b.va / 64) ∧
      (∃ a ∈ sectorAccs sp size l, a.va / 64 = va / 64 ∧ a.mask.getLsbD (va % 64 + i) = true) ∧
      ∀ a ∈ sectorAccs sp size l, a.va / 64 = va / 64 → a.mask.getLsbD (va % 64 + i) = true →
        a.data.toNat / 2 ^ (8 * (va % 64 + i)) % 2 ^ 8 = v / 2 ^ (8 * i) % 2 ^ 8

/-- R156, R157: the checks of a word's accesses come in their order, and the lowest lane that fails the first one traps. Here
of accesses to global memory at a scope that is allowed: an address beyond 2^56, then alignment, then what the PLB says.
R153, R156: a load or store with a lane whose address is not a multiple of its size traps with ALIGN for the lowest such
lane, and puts out nothing. -/
def Obligations.CheckOrder : Prop :=
  (∀ (s : State) (x : Ctx) (g : Group) (sc : Scope) (ts : List Touch) (desc : Option Nat), s.scopeOk g.part sc = true →
    (∀ t ∈ ts, t.space = .glb) →
    (∀ t, ts.find? (fun t => !isCanonical t.va) = some t → s.check x g sc ts desc = some (.trap { cause := 0x04, lane := t.lane })) ∧
    ((∀ t ∈ ts, t.va < 2 ^ 56) → ∀ t, ts.find? (fun t => t.va % t.size != 0) = some t →
      s.check x g sc ts desc = some (.trap { cause := 0x05, lane := t.lane })) ∧
    ((∀ t ∈ ts, t.va < 2 ^ 56 ∧ t.va % t.size = 0 ∧ ∃ e, s.plbFor x.core g t = .hit e ∧ t.cls e.cls = true ∧
        (t.r = true → e.r = true) ∧ (t.w = true → e.w = true ∧ (t.store = true → e.sealed = false))) →
      (desc = none → s.check x g sc ts desc = none) ∧
      ∀ l, desc = some l → s.check x g sc ts desc = some (.trap { cause := 0x0B, lane := l })) ∧
    ((∀ t ∈ ts, t.va < 2 ^ 56 ∧ t.va % t.size = 0 ∧ ∃ e, s.plbFor x.core g t = .hit e) →
      ∀ t, ts.find? (fun t => match s.plbFor x.core g t with
          | .hit e => (t.r && !e.r) || (t.w && (!e.w || (t.store && e.sealed)))
          | _ => false) = some t →
        s.check x g sc ts desc = some (.trap { cause := 0x09, lane := t.lane }))) ∧
  (∀ (i : Instr) (gd : Guard) (w : MemWord), memWordOf i = some (gd, w) → ∀ (s : State) (p : Spot), p.Issues s →
    let x := Left p (p.ctx s gd)
    (p.ctx s gd).act ≠ 0 → (w.ordered = true → (s.core p.c).mayIssue p.g.gid = true) → w.early x s p.g (actLanes w x) = none →
    p.g.poisonTrap (actLanes w x) w.srcs = none → s.scopeOk p.g.part w.scope = true →
    (∀ t ∈ w.touches x s p.g (actLanes w x), t.space = .glb ∧ t.va < 2 ^ 56) →
    ∀ t, (w.touches x s p.g (actLanes w x)).find? (fun t => t.va % t.size != 0) = some t →
      exec i s = .next (p.trapped s { cause := 0x05, lane := t.lane }))

/-! ## Requests and memory -/

/-- R109, R162: a load of a scratchpad that returns gives its lane the bytes at its place, and has performed. R111, R162: so
does a weak load of memory whose sector the L1 holds whole, and a strong one of wide scope, with the sector its home gives. -/
def Obligations.LoadsReturn : Prop :=
  ∀ (s : State) (c id idx : Nat) (q : Req) (a : Acc), Turn s c id idx q a → q.kind = .ld →
    q.together idx a = [(idx, a)] → q.size ∈ [1, 2, 4, 8, 16] → a.va % q.size = 0 →
    (a.space ≠ .glb → ∃ t, exec (.loadReturn c id idx) s = .next t ∧ Ended t c id idx ∧
      t = ((s.deliver c q (loadTy q.size q.sx) a.lane
        (Memory.readN (s.core (placeCore a.va)).pad (placeKey a.va) q.size)).finishAcc c id idx .done).acquired c q) ∧
    (∀ w, a.space = .glb → Plain s q.idn.part (easidOf q.idn.asid a.va) a.va w → leafClass w ≠ 1 → leafClass w ≠ 3 →
      let l := leafLoc q.idn.part (easidOf q.idn.asid a.va) a.va w
      (∀ x, q.strong = false → StayingL1 (s.core c) → AMap.find? (s.core c).l1 l.tag = some x → x.full = true →
        x.poison = false →
        ∃ t, exec (.loadReturn c id idx) s = .next t ∧
          t = (((s.deliver c q (loadTy q.size q.sx) a.lane (sectorValue x.data a.va q.size)).finishAcc c id idx .done).acquired
            c q).feedAged Config.agedEntries c) ∧
      (q.strong = true → q.wide s = true → (∀ x ∈ (s.core c).l1, x.2.dirty = 0) → s.noGrant l.tag a.home = false →
        (s.sector l).poison = false → (s.core c).aged = [] →
        ∃ (t s1 : State), exec (.loadReturn c id idx) s = .next t ∧ Ended t c id idx ∧ s1.runs = s.runs ∧
          (∀ d, (s1.core d).groups = (s.core d).groups) ∧
          t = (((s1.deliver c q (loadTy q.size q.sx) a.lane (sectorValue (s.sector l).data a.va q.size)).finishAcc c id idx
            .done).acquired c q).feedAged Config.agedEntries c))

/-- R111, R163, R164, R269, R287: a store, a row of a matrix store or a spilled return address. One to a scratchpad that is
acknowledged has written the bytes of its mask and no others; a strong one of wide scope to memory has written them under its
die's write grant, and has performed, or in CXL memory waits for the acknowledgment of its port (R159; at every wide scope, which
is the model's choice, log entry 40); another to memory has put them into the L1, which holds them until their write-back. A
release does none of this before its group's earlier accesses have performed at its scope (R113, R159). Where the spec leaves a
point open it follows the model's choice, log entry 33. -/
def Obligations.StoresPerform : Prop :=
  (∀ (s : State) (c id idx : Nat) (q : Req) (a : Acc), Turn s c id idx q a → q.kind ∈ [.st, .mstore, .spill] →
    ReleaseOk s c q →
    (a.space ≠ .glb → ∃ t, exec (.storeAcknowledge c id idx) s = .next t ∧ Ended t c id idx ∧
      ∀ key, padByte t (placeCore a.va) key =
        if placeKey (a.va / 64 * 64) ≤ key ∧ key < placeKey (a.va / 64 * 64) + 64 ∧
            a.mask.getLsbD (key - placeKey (a.va / 64 * 64)) = true then
          BitVec.ofNat 8 (a.data.toNat / 2 ^ (8 * (key - placeKey (a.va / 64 * 64))))
        else padByte s (placeCore a.va) key) ∧
    (∀ w, a.space = .glb → q.strong = true → q.wide s = true →
      Plain s q.idn.part (easidOf q.idn.asid a.va) a.va w → s.outwardMem q.idn.part a.va = false →
      s.inShadow q.idn.part (easidOf q.idn.asid a.va) (a.va / 64 * 64) = false →
      (∀ x ∈ (s.core c).l1, x.2.dirty = 0) → bits (s.hreg (0x400 + 8 * q.idn.part)) 15 0 ≠ 0 →
      let l := leafLoc q.idn.part (easidOf q.idn.asid a.va) a.va w
      s.noGrant l.tag a.home = false →
      ∃ t x, exec (.storeAcknowledge c id idx) s = .next t ∧ t.ownerCopy l.tag = some x ∧ x.st = .m ∧
        x.holder = dieOf c ∧ x.data = mergeSector (s.sector l).data a.data a.mask ∧
        ((∃ n, s.home l.p l.easid l.va = .cxl n) → InSt t c id idx .port) ∧
        ((∀ n, s.home l.p l.easid l.va ≠ .cxl n) → Ended t c id idx)) ∧
    (∀ w x, a.space = .glb → (q.strong && q.wide s) = false →
      Plain s q.idn.part (easidOf q.idn.asid a.va) a.va w → s.outwardMem q.idn.part a.va = false →
      s.inShadow q.idn.part (easidOf q.idn.asid a.va) (a.va / 64 * 64) = false → StayingL1 (s.core c) →
      let l := leafLoc q.idn.part (easidOf q.idn.asid a.va) a.va w
      AMap.find? (s.core c).l1 l.tag = some x →
      ∃ t y, exec (.storeAcknowledge c id idx) s = .next t ∧ InSt t c id idx .l1 ∧
        AMap.find? (t.core c).l1 l.tag = some y ∧ y.data = mergeSector x.data a.data a.mask ∧ y.dirty = x.dirty ||| a.mask)) ∧
  (∀ (s : State) (c id idx : Nat) (q : Req) (a : Acc), Turn s c id idx q a → q.kind ∈ [.st, .mstore, .spill, .atom, .fatom] →
    q.ord = .rel ∨ q.ord = .ar → Flushed s c q → Earlier s c q = false → exec (.storeAcknowledge c id idx) s = .next s ∧
      exec (.loadReturn c id idx) s = .next s) ∧
  ∀ (s : State) (c id idx : Nat) (q : Req) (a : Acc), s.acc? c id idx = some (q, a) → a.st = .port →
    ∃ t, exec (.storeAcknowledge c id idx) s = .next t ∧ Ended t c id idx

/-- R84, R111: a write-back merges the dirty bytes of a sector into its home's copy, frees its stores, and leaves the L1. Where
the spec leaves a point open it follows the model's choice, log entries 32 and 33. -/
def Obligations.WriteBacks : Prop :=
  ∀ (s : State) (c p e va : Nat) (x : L1Sec) (w : Word), p < 16 → e < 4096 → va < 2 ^ 56 → va % 64 = 0 →
    (s.core c).l1 = [(sectorTag p e va, x)] → x.dirty ≠ 0 → Plain s p e va w →
    bits (s.hreg (0x400 + 8 * p)) 15 0 ≠ 0 → s.inShadow p e va = false → s.noGrant (sectorTag p e va) x.home = false →
    (s.core c).l1Held (sectorTag p e va) = false →
    let l := leafLoc p e va w
    ∃ t y, exec (.writeBackMerge c p e va) s = .next t ∧ t.ownerCopy l.tag = some y ∧ y.st = .m ∧
      y.data = mergeSector (s.sector l).data x.data x.dirty ∧ (t.core c).l1 = [] ∧
      ∀ r ∈ (t.core c).reqs, ∀ a ∈ r.accs, a.st = .l1 → accTag r.idn.part r a ≠ sectorTag p e va

/-- R287: the read of a spilled return address returns with the eight bytes there; with the last that its word waits for, the
lanes go on at the addresses read, which leave their return stacks. -/
def Obligations.StackFills : Prop :=
  (∀ (s s2 : State) (c idx : Nat) (q : Req) (a : Acc) (w : Word) (x : L1Sec), Turn s c q.id idx q a → q.kind = .fill →
    ((s.core c).reqs.find? fun r => r.kind == .fill && r.idn.slot == q.idn.slot && s.alive r.idn &&
      r.accs.any fun b => b.lane == a.lane) = some q →
    q.accs.findIdx? (fun b => b.lane == a.lane) = some idx → (∃ b ∈ q.accs, b ≠ a ∧ b.finished = false) →
    Plain s q.idn.part (easidOf q.idn.asid a.va) a.va w → StayingL1 (s.core c) →
    s.countRead q (leafClass w) x.record = .ok s2 →
    AMap.find? (s.core c).l1 (leafLoc q.idn.part (easidOf q.idn.asid a.va) a.va w).tag = some x → x.full = true →
    x.poison = false → a.space = .glb →
    ∃ t r b, exec (.stackFillReturn c q.idn.slot a.lane) s = .next t ∧ t.acc? c q.id idx = some (r, b) ∧ b.st = .done ∧
      b.cmp = BitVec.ofNat 64 (sectorValue x.data a.va 8)) ∧
  ∀ (s s2 : State) (c idx : Nat) (q : Req) (a : Acc) (w : Word) (x : L1Sec) (g : Group), Turn s c q.id idx q a → q.kind = .fill →
    ((s.core c).reqs.find? fun r => r.kind == .fill && r.idn.slot == q.idn.slot && s.alive r.idn &&
      r.accs.any fun b => b.lane == a.lane) = some q →
    q.accs.findIdx? (fun b => b.lane == a.lane) = some idx →
    (∀ k b, q.accs[k]? = some b → k ≠ idx → b.finished = true) →
    Plain s q.idn.part (easidOf q.idn.asid a.va) a.va w → StayingL1 (s.core c) →
    s.countRead q (leafClass w) x.record = .ok s2 →
    AMap.find? (s.core c).l1 (leafLoc q.idn.part (easidOf q.idn.asid a.va) a.va w).tag = some x → x.full = true →
    x.poison = false → a.space = .glb → s.group? c q.idn.slot = some g →
    let got (l : Nat) : Option Word :=
      (q.accs.find? fun b => b.lane == l).map fun b =>
        if b.lane = a.lane then BitVec.ofNat 64 (sectorValue x.data a.va 8) else b.cmp
    (∀ l ∈ lanesOf (heldBy g q.id), ∃ v, s.fetch c g.part g.asid (fillTo s g q got l) = .ok v ∧ bits v 63 56 = 1) →
    Agree q.sx (heldBy g q.id) (fillTo s g q got) →
    ∃ t h, exec (.stackFillReturn c q.idn.slot a.lane) s = .next t ∧ (t.core c).req? q.id = none ∧
      t.group? c q.idn.slot = some h ∧ h = g.threads (heldBy g q.id) fun l u =>
        let u := { u with pc := fillTo s g q got l, hdr := none, arr := s.now g.part, st := .ready }
        if q.mask.getLsbD l = false then u
        else if (got l).isSome = true then { u with top := lastTop u }
        else { u with rstack := u.rstack.drop 1, rbad := u.rbad.drop 1 }

/-- R85, R160: a late fault whose cause can be mended puts its request into the operand log, unperformed, and leaves a record;
one that cannot, a poisoned sector, drops it, as if complete; a record waits in SEQ order (R358). R81: an error that the controller corrects is counted; one that
it cannot poisons the line, and the load that consumes it meets MEM_POISON. Where the spec leaves a point open it follows the
model's choice, log entry 47. -/
def Obligations.LateFaults : Prop :=
  ∀ (s : State) (c id idx : Nat) (q : Req) (a : Acc), Turn s c id idx q a → q.kind = .ld →
    a.space = .glb → (s.core c).aged = [] →
    (∀ n err, n ≠ 0 → s.resolve q.idn.part q.idn.asid a.va .either = .error n →
      ∃ t, exec (.lateFault c id idx err) s = .next t ∧ InSt t c id idx .logged ∧ Recorded s t q a n ∧
        t.softErrors = s.softErrors + (if err = .soft then 1 else 0)) ∧
    (∀ w (x : L1Sec) err, q.strong = false → Plain s q.idn.part (easidOf q.idn.asid a.va) a.va w → StayingL1 (s.core c) →
      AMap.find? (s.core c).l1 (leafLoc q.idn.part (easidOf q.idn.asid a.va) a.va w).tag = some x → x.full = true →
      x.poison = true →
      ∃ t, exec (.lateFault c id idx err) s = .next t ∧ Ended t c id idx ∧ Recorded s t q a 0x29) ∧
    (∀ w, q.strong = false → Plain s q.idn.part (easidOf q.idn.asid a.va) a.va w → (s.core c).l1 = [] → q.size ≠ 0 →
      let l := leafLoc q.idn.part (easidOf q.idn.asid a.va) a.va w
      s.copies l.tag = [] → s.noGrant l.tag a.home = false → q.together idx a = [(idx, a)] →
      ∃ t, exec (.lateFault c id idx .hard) s = .next t ∧ Ended t c id idx ∧ Recorded s t q a 0x29)

/-- R86, R359: a replay command re-issues the logged requests to the page: one whose page still cannot be translated waits, and
none stays in the log; a drop command discards them. Both clear BUSY. A function that does not serve answers UR (R370, R377). -/
def Obligations.ReplayCommands : Prop :=
  (∀ (s : State) (p e page : Nat), s.serves p = false → ∀ i ∈ [Instr.rpcmdReplay p e page, Instr.rpcmdDrop p e page],
    exec i s = .next { s with answers := s.answers ++ [.unsupportedRequest] }) ∧
  ∀ (s : State) (c p e page : Nat) (q : Req) (a : Acc), s.cores = [(c, s.core c)] → (s.core c).reqs = [q] → q.kind = .ld →
    (s.core c).save = none →
    q.accs = [a] → a.st = .logged → a.space = .glb → q.idn.part = p → easidOf q.idn.asid a.va = e → a.va / 2 ^ 16 = page →
    page < 2 ^ 40 → p < 16 → s.serves p = true →
    (∃ t, exec (.rpcmdReplay p e page) s = .next t ∧ (∀ r b, t.acc? c q.id 0 = some (r, b) → b.st ≠ .logged) ∧
      (∀ n, s.resolve p q.idn.asid a.va .either = .error n → InSt t c q.id 0 .waiting) ∧
      (t.preg p 0x2730).getLsbD 63 = false) ∧
    (∃ t, exec (.rpcmdDrop p e page) s = .next t ∧ Ended t c q.id 0 ∧ (t.preg p 0x2730).getLsbD 63 = false)

/-- R116, R117: a recall writes an engine's finished sector to its memory and takes it out of the engine's hands; evicting a
directory entry recalls every copy of its line, and waits while an engine has still to write. -/
def Obligations.Recalls : Prop :=
  ∀ (s : State) (p e va : Nat), p < 16 → e < 4096 → va < 2 ^ 56 →
    (∀ x, AMap.find? s.cached (sectorTag p e va) = some [x] → x.st = .m → 8 ≤ x.holder →
      ∃ t, exec (.engineRecall p e va) s = .next t ∧ t.copies (sectorTag p e va) = [] ∧
        Memory.readN t.mem (x.pa / 64 * 64) 64 = x.data.toNat) ∧
    ((∀ t ∈ lineTags p e va, s.claimed t = false ∧ ∀ x ∈ s.copies t, x.st ≠ .sealed) →
      ∃ t, exec (.directoryEviction p e va) s = .next t ∧ ∀ u ∈ lineTags p e va, t.copies u = []) ∧
    ((∃ t ∈ lineTags p e va, s.claimed t = true) → exec (.directoryEviction p e va) s = .next s)

/-- R64, R71, R72: the home answers a fill with the permissions of its leaf, or with UNMAPPED or BAD_PTE. R69: a page with no
translation waits in its home's queue until it is among those that the walkers have. R69, R74, R75: a walk installs the leaf
in the home's TLB and records the frame's owner; where another address owns the frame, neither changes. A walk waits while an
engine has a sector of a table (R70), and its turn among the walkers. The answer to a fill of a space that is being torn down ends
its thread's group (R368). Where the spec leaves a point open it follows the model's choice, log entries 15 and 20. -/
def Obligations.FillsAndWalks : Prop :=
  (∀ (s : State) (c p e page : Nat), AMap.find? (s.core c).fills (pageTag p e (page * 65536)) = some .asked →
    s.fillsHeld p e (page * 65536) = false →
    let tag := pageTag p e (page * 65536)
    let queue := s.walkList (s.pageHome tag).number
    let early := (if tag ∈ queue then queue.idxOf tag < 32 else queue.length < 32) ∧ (s.reach p e (page * 65536)).2 ≠ .busy
    let s1 := (s.walked tag).installTlb p e (page * 65536)
    ((s.part p).killing.contains e = true → ∃ t, exec (.plbFill c p e page) s = .next t ∧
      AMap.find? (t.core c).fills tag = some .fatal) ∧
    ((s.part p).killing.contains e = false →
    (s.hostWindow p (page * 65536) = true ∨ (AMap.find? s.tlb tag).isSome = true ∨ early →
      (∀ w pa, s1.leafOf p e (page * 65536) = .leaf w pa → ∃ t x, exec (.plbFill c p e page) s = .next t ∧
        AMap.find? (t.core c).plb tag = some x ∧ AMap.find? (t.core c).fills tag = none ∧
        x.r = w.getLsbD 56 ∧ x.w = w.getLsbD 57 ∧ x.x = w.getLsbD 58 ∧ x.cls = bits w 62 61 ∧ x.sealed = w.getLsbD 60) ∧
      (s1.leafOf p e (page * 65536) = .unmapped → ∃ t, exec (.plbFill c p e page) s = .next t ∧
        AMap.find? (t.core c).fills tag = some (.bad 0x07)) ∧
      (s1.leafOf p e (page * 65536) = .bad → ∃ t, exec (.plbFill c p e page) s = .next t ∧
        AMap.find? (t.core c).fills tag = some (.bad 0x08))) ∧
    (s.hostWindow p (page * 65536) = false → AMap.find? s.tlb tag = none → ¬early →
      exec (.plbFill c p e page) s = .next (s.queueWalk tag)))) ∧
  (∀ (s : State) (p e page : Nat) (w : Word) (pa : Nat), (s.part p).killing.contains e = false →
    let va := page * 65536
    let queue := s.walkList (s.pageHome (pageTag p e va)).number
    s.hostWindow p va = false → AMap.find? s.tlb (pageTag p e va) = none → s.walk p e va = .leaf w pa →
    (pageTag p e va ∉ queue ∨ 32 ≤ queue.idxOf (pageTag p e va) → exec (.tableWalk p e page) s = .next s) ∧
    (pageTag p e va ∈ queue → queue.idxOf (pageTag p e va) < 32 →
    (s.lateCause p e va w false = none → ∃ t, exec (.tableWalk p e page) s = .next t ∧
      AMap.find? t.tlb (pageTag p e va) = some { leaf := w, dirty := false } ∧
      (leafF w = false → AMap.find? t.rmap (leafPa w va / 2 ^ 16) = some (rmapEntry p e va))) ∧
    (s.lateCause p e va w false = some 0x1B → ∃ t, exec (.tableWalk p e page) s = .next t ∧
      AMap.find? t.tlb (pageTag p e va) = none ∧ t.rmap = s.rmap)))

/-- R171: a watched word that is read again ends the wait of a lane where it differs from the compare value, and is watched on
where it does not. R89, R90: a parked lane that looks again takes its value where the sector's grade now suffices, or the
value of the write that raised it far enough before, and stays parked where none did; a refused one is issued again: it is
parked where its home has room and else refused once more, its sixteenth refusal making it aged (R120), and without a free miss
entry it is rejected once more. Where the spec leaves a point open it follows the model's choice, log entries 34 and 35. -/
def Obligations.WaitingLanes : Prop :=
  (∀ (s : State) (c id idx lane : Nat) (q : Req) (a : Acc), s.acc? c id idx = some (q, a) → q.kind = .waita → a.lane = lane →
    q.accs.findIdx? (fun b => b.lane == lane) = some idx → a.st = .watching →
    s.blocked c q idx { a with st := .waiting } = false → (s.core c).pageLogged q { a with st := .waiting } = false →
    ∀ i ∈ [Instr.watchNotify c id lane, Instr.watchRecheck c id lane],
      (a.space ≠ .glb →
        let v := Memory.readN (s.core (placeCore a.va)).pad (placeKey a.va) 8
        (v ≠ a.cmp.toNat → ∃ t, exec i s = .next t ∧ Ended t c id idx) ∧
        (v = a.cmp.toNat → ∃ t, exec i s = .next t ∧ InSt t c id idx .watching)) ∧
      (∀ w, a.space = .glb → q.wide s = true → Plain s q.idn.part (easidOf q.idn.asid a.va) a.va w →
        (∀ x ∈ (s.core c).l1, x.2.dirty = 0) →
        let l := leafLoc q.idn.part (easidOf q.idn.asid a.va) a.va w
        s.noGrant l.tag a.home = false → (s.sector l).poison = false →
        let v := sectorValue (s.sector l).data a.va 8
        (v ≠ a.cmp.toNat → ∃ t, exec i s = .next t ∧ Ended t c id idx) ∧
        (v = a.cmp.toNat → ∃ t, exec i s = .next t ∧ InSt t c id idx .watching))) ∧
  (∀ (s : State) (c id idx : Nat) (q : Req) (a : Acc) (w : Word), s.acc? c id idx = some (q, a) → q.kind = .ldg →
    a.space = .glb → q.nowait = false → (s.core c).aged = [] → Plain s q.idn.part (easidOf q.idn.asid a.va) a.va w →
    (∀ x ∈ (s.core c).l1, x.2.dirty = 0) →
    let l := leafLoc q.idn.part (easidOf q.idn.asid a.va) a.va w
    s.noGrant l.tag a.home = false →
    (q.accs.findIdx? (fun b => b.lane == a.lane && b.st == .parked) = some idx → a.st = .parked →
      (q.grade.code ≤ (s.sector l).record.grade.code → (s.sector l).poison = false →
        CountsOk s q (leafClass w) (s.sector l).record →
        ∃ (t s1 : State), exec (.parkWake c id a.lane) s = .next t ∧ Ended t c id idx ∧
          (∀ d, (s1.core d).groups = (s.core d).groups) ∧ t = taken s1 c q idx a (sectorValue (s.sector l).data a.va q.size)) ∧
      ((s.sector l).record.grade.code < q.grade.code → a.got = true → CountsOk s q (leafClass w) (recOf a.cmp.toNat) →
        ∃ (t s1 : State), exec (.parkWake c id a.lane) s = .next t ∧ Ended t c id idx ∧
          (∀ d, (s1.core d).groups = (s.core d).groups) ∧ t = taken s1 c q idx a (sectorValue a.data a.va q.size)) ∧
      ((s.sector l).record.grade.code < q.grade.code → a.got = false →
        ∃ t, exec (.parkWake c id a.lane) s = .next t ∧ InSt t c id idx .parked)) ∧
    (q.accs.findIdx? (fun b => b.lane == a.lane && b.st == .refused) = some idx → a.st = .refused →
      s.blocked c q idx { a with st := .miss } = false →
      (s.core c).pageLogged q { a with st := .miss } = false →
      (s.sector l).record.grade.code < q.grade.code →
      ((s.core c).missTags.length < 64 →
        (s.parkedAt (s.home q.idn.part l.easid a.va) < 4096 →
          ∃ t, exec (.parkRetry c id a.lane) s = .next t ∧ InSt t c id idx .parked) ∧
        (4096 ≤ s.parkedAt (s.home q.idn.part l.easid a.va) →
          ∃ t r b, exec (.parkRetry c id a.lane) s = .next t ∧ t.acc? c id idx = some (r, b) ∧ b.rejects = a.rejects + 1 ∧
            (a.rejects + 1 < 16 → b.st = .refused) ∧ (16 ≤ a.rejects + 1 → b.st = .aged ∨ b.st = .miss))) ∧
      (64 ≤ (s.core c).missTags.length → (s.core c).missTags.contains (a.spot q.idn.part q.idn.asid) = false →
        a.rejects + 1 < 16 →
        ∃ t, exec (.parkRetry c id a.lane) s = .next t ∧ InSt t c id idx (.rejected (a.rejects + 1)))))

/-- R173, R174: a landing of a tile copy writes the next 32 bytes at their place in the cluster's scratchpad and goes on to
the piece behind; the last one writes the notification and completes the copy. None lands while an access that comes before
engines has still to perform (R337). R132: a combining entry that times out leaves
as one packet of its bytes. R101: a store that has stalled its group for 1 ms on a full hold buffer reports HOLD_STALL with
the buffer's fill, under the store's lowest active lane. Where the spec leaves a point open it follows the model's choice, log
entry 50.
R120: a rejected miss that is issued again takes a free miss entry, or joins its sector's (the model's choice, log entry 116), and is rejected once more while
there is none; its sixteenth rejection puts it in the aged queue. R107, R110: a core grows its L1 towards its target by the
ways that no team holds, up to the first that one does, and they lose their contents; it shrinks to its target once the
leaving ways have no dirty sector, and their lines go. `CARVE`s complete when the count has reached the target. -/
def Obligations.CopiesAndBuffers : Prop :=
  ((∀ (s : State) (c id : Nat) (q : Req) (a : Acc), Turn s c id 0 q a → q.kind = .tcopy → (tileOf q.words).toMem = false →
    a.mask = 0 → a.got = true → s.engineReady c q = true →
    let tile := tileOf q.words
    let pl := clusterOf c * 96 * 2 ^ 18 + tile.dest q.n
    let note := clusterOf c * 96 * 2 ^ 18 + tile.naddr
    pl % 32 = 0 → note % 8 = 0 →
    (q.n + 1 < tile.pieces → ∃ t r, exec (.draySectorLand c id) s = .next t ∧ (t.core c).req? id = some r ∧ r.n = q.n + 1 ∧
      Memory.readN (t.core (placeCore pl)).pad (placeKey pl) 32 = a.data.toNat % 2 ^ 256) ∧
    (tile.pieces ≤ q.n + 1 → ∃ t, exec (.draySectorLand c id) s = .next t ∧ Ended t c id 0 ∧
      (tile.silent = true → Memory.readN (t.core (placeCore pl)).pad (placeKey pl) 32 = a.data.toNat % 2 ^ 256) ∧
      (tile.silent = false →
        Memory.readN (t.core (placeCore note)).pad (placeKey note) 8 = tile.nval.toNat))) ∧
  (∀ (s : State) (c id : Nat) (q : Req) (a : Acc), Turn s c id 0 q a → q.kind = .tcopy → a.mask = 0 →
    s.engineReady c q = false → exec (.draySectorLand c id) s = .next s) ∧
  (∀ (s : State) (c i : Nat) (e : CombEnt) (ifa : Word) (cls : Nat), (s.core c).comb[i]? = some e →
    s.resolve e.part e.easid (e.line * 256) .either = .ok (.window ifa cls) →
    (s.outwardVa e.part e.easid (e.line * 256) = true →
      ∀ x ∈ (s.core c).comb, x = e ∨ s.outwardVa x.part x.easid (x.line * 256) = false) →
    ∃ t r, exec (.combineDrainTimeout c i) s = .next t ∧ t.net = s.net ++ [r] ∧ r.ifa = ifa ∧ r.op = .store e.mask e.data ∧
      e ∉ (t.core c).comb) ∧
  (∀ (s : State) (c slot id idx : Nat) (g : Group) (q : Req) (a : Acc), s.group? c slot = some g → g.stalled = some (id, idx) →
    s.acc? c id idx = some (q, a) → 1024 ≤ (s.part g.part).hold.length →
    ∃ t r, exec (.holdStall c slot) s = .next t ∧ Joins (s.part g.part).records (t.part g.part).records r ∧ r.cause = 0x2B ∧
      r.va = a.va ∧ r.detail = (s.part g.part).hold.length ∧ r.org = q.origin (lowest q.mask) ∧
      (t.preg g.part 0x2100).getLsbD 16 = true)) ∧
  ((∀ (s : State) (c id n : Nat) (q : Req) (a : Acc), (s.core c).req? id = some q → q.accs = [a] → a.st = .rejected n →
    (s.core c).aged = [] →
    (((s.core c).missTags.contains (a.spot q.idn.part q.idn.asid) = true ∨ (s.core c).missTags.length < 64) →
      ∃ t, exec (.missReissue c id) s = .next t ∧ InSt t c id 0 .miss) ∧
    ((s.core c).missTags.contains (a.spot q.idn.part q.idn.asid) = false → 64 ≤ (s.core c).missTags.length →
      (n + 1 < 16 → ∃ t, exec (.missReissue c id) s = .next t ∧ InSt t c id 0 (.rejected (n + 1))) ∧
      (16 ≤ n + 1 → ∃ t, exec (.missReissue c id) s = .next t ∧ InSt t c id 0 .aged ∧ (t.core c).aged = [(id, 0)]))) ∧
  (∀ (s : State) (c : Nat),
    ((s.core c).carve ≤ (s.core c).target → (s.core c).target ≤ 7 →
      ∃ t, exec (.wayConvert c) s = .next t ∧ (s.core c).carve ≤ (t.core c).carve ∧ (t.core c).carve ≤ (s.core c).target ∧
        ((t.core c).carve = (s.core c).target ∨ WayHeld (s.core c) (t.core c).carve) ∧
        (∀ n, (s.core c).carve ≤ n → n < (t.core c).carve → ¬WayHeld (s.core c) n ∧
          ∀ x ∈ (t.core c).ways, x.1 / 32768 ≠ n) ∧
        ((t.core c).carve = (s.core c).target → ∀ q ∈ (t.core c).reqs, q.kind ≠ .carve)) ∧
    ((s.core c).target < (s.core c).carve → (∀ x ∈ (s.core c).l1, x.2.dirty = 0) →
      ∃ t, exec (.wayConvert c) s = .next t ∧ (t.core c).carve = (s.core c).target ∧
        (t.core c).l1 = (s.core c).l1.filter (fun x => decide (x.2.way < (s.core c).target)) ∧
        ∀ q ∈ (t.core c).reqs, q.kind ≠ .carve)))

/-! ## Engines, exceptions and tasks -/

/-- R238, R257, R258, R262: an `SFQ` result writes the lanes whose threads still run and lowers its token by one; a pass of the Ox takes up to eight
quarters of one team and B operand from the head of the queue, and its end frees their places with their sums in the
accumulator; a row of an `MLOAD` lands in its place in the operand buffer. -/
def Obligations.EnginesFinish : Prop :=
  (∀ (s : State) (c job : Nat) (j : SfqJob) (g : Group), (s.core c).sfq.find? (fun j => j.id == job) = some j →
    s.group? c j.slot = some g → g.gid = j.gid →
    ∃ t h, exec (.sfqResultArrival c job) s = .next t ∧ t.group? c j.slot = some h ∧ h.tok j.tok = g.tok j.tok - 1 ∧
      (∀ k ∈ (t.core c).sfq, k.id ≠ job) ∧
      ∀ n, j.dst = .v n → (j.res.map (·.1)).Nodup → g.pend = [] → ∀ x ∈ j.res,
        h.vo32 x.1 n.val = if (g.thread x.1).st = .exited then g.vo32 x.1 n.val else x.2.toNat) ∧
  (∀ (s : State) (c : Nat) (q : Quarter) (rest : List Quarter), (s.core c).pass = none → (s.core c).oxq = q :: rest →
    ∃ t n, exec (.oxPassStart c) s = .next t ∧ (t.core c).pass = some n ∧ 1 ≤ n ∧ n ≤ 8 ∧ n ≤ rest.length + 1 ∧
      (t.core c).oxq = (s.core c).oxq ∧ ∀ x ∈ (q :: rest).take n, x.run = q.run ∧ x.bw = q.bw) ∧
  (∀ (s : State) (c n : Nat), (s.core c).pass = some n →
    ∃ t, exec (.oxPassEnd c) s = .next t ∧ (t.core c).pass = none ∧ (t.core c).oxq = (s.core c).oxq.drop n ∧
      ∀ q j col, (s.core c).oxq.take n = [q] → q.lanes = [j] → col < 64 →
        let a := s.operand q.run c q.aw s.free
        let b := s.operand q.run c q.bw (s.free + 1)
        let key := s.physRow q.run c (q.row0 + j) * 64 + col
        AMap.get (t.core c).acc key 0 = BitVec.ofNat 32
          (oxBlocks (fun k => oxProduct (a.elem j k) (b.elem col k) (a.scale j k) (b.scale col k))
            (oxK (s.resvOf q.run c (wordSlot q.aw)).fmt / 16) 0 (AMap.get (s.core c).acc key 0).toNat)) ∧
  (∀ (s u : State) (c idx v : Nat) (q : Req) (a : Acc), (s.core c).req? q.id = some q → q.kind = .mload →
    q.accs.zipIdx.find? (fun b => b.1.st == .waiting) = some (a, idx) → (∀ b ∈ q.accs.zipIdx, b.2 < idx → b.1.finished = true) →
    s.engineReady c q = true →
    (a.space = .glb → s.hostWindow q.idn.part a.va = false ∧ s.hostWindow q.idn.part (a.va + a.size - 1) = false) →
    s.readPieces c q a.space ((a.va % 32 + a.size + 31) / 32) (a.va / 32 * 32) 0 0 = (.done u, v) →
    let pl := s.rowPlace c q a.cmp.toNat
    ∃ t, exec (.mloadRowLand c q.id) s = .next t ∧ Ended t c q.id idx ∧
      Memory.readN (t.core c).ob pl.1 pl.2 = v / 2 ^ (8 * (a.va % 32)) % 256 ^ pl.2)

/-- R279-R281: the issue stage hands on the word of the ready entry that has issued least recently, where its gang stands in a
clause; where none is ready it hands on none, and what is at issue stays; else it forms a gang at the entry's header, of the classes that stand at one word. Where the spec leaves a point open it follows the
model's choice, log entry 53. -/
def Obligations.IssueChoices : Prop :=
  ∀ (s : State) (c dt : Nat) (err : Option RfErr),
    let u := atChoice s c dt err
    let ready := (u.core c).table.filter fun e => u.entryReady c e.2
    (ready = [] → ∃ t, exec (.gangIssue c dt err) s = .next t ∧ t.issue = u.issue ∧ (t.core c).groups = (u.core c).groups) ∧
    (∀ x, LeastRecent ready x → AMap.rising (u.core c).table = true →
      (x.2.gang.isSome = true → ∃ t, exec (.gangIssue c dt err) s = .next t ∧ t.issue = some { core := c, entry := x.1 }) ∧
      (∀ y ys at_ w h, x.2.gang = none →
        let v := u.modCore c fun k => k.sawEntry x.1
        oneWord (((v.core c).cands x.2.kern x.2.hdr).filter (v.candReady c x.2.hdr)) = (y :: ys, at_) →
        v.headerAt c y.g x.2.hdr = .ok w → decodeHeader w.toNat = some h →
        ∃ t e ga, exec (.gangIssue c dt err) s = .next t ∧ t.issue = some { core := c, entry := x.1 } ∧
          AMap.find? (t.core c).table x.1 = some e ∧ e.gang = some ga ∧ ga.pc = at_.getD (x.2.hdr + 8) ∧
          ga.len = h.len.val ∧ ga.members = (gangMembers (y :: ys)).1))

/-- R352-R358, R362: the fault queue takes its oldest record where it has room, unless an earlier request of its group to its page
may still fault; a group takes its late trap at its next word; a sibling in its skid stops at a word, but not while a word of it runs
on (R329); a stopped group enters its handler once its team has stopped and nothing of it is
outstanding, or ends its team where there is none; and a group that a pre-emption has stopped enters the pre-emption handler,
or is done where there is none. Where the spec leaves a point open it follows the
model's choice, log entries 59 and 60. -/
def Obligations.TrapsProceed : Prop :=
  (∀ (s : State) (p : Nat) (r : FaultRec) (rest : List FaultRec) (w : Word), (s.part p).records = r :: rest →
    (s.preg p 0x2718).getLsbD 63 = true → bits (s.hreg (0x400 + 8 * p)) 15 0 ≠ 0 →
    let tail := (s.preg p 0x2728).toNat % 8192
    (tail % 4096 + 1) % 4096 ≠ bits (s.preg p 0x2720) 11 0 →
    let va := bits (s.preg p 0x2718) 55 18 * 2 ^ 18 + 64 * (tail % 4096)
    let out := if r.halted = true ∧ s.lives r.org.idn = false then { r with halted := false, exited := true } else r
    s.recordWaits r = false → Plain s p (easidOf 0 va) va w → w.getLsbD 60 = false →
    s.inShadow p (easidOf 0 va) va = false →
    ∃ t x, exec (.faultRecordWrite p) s = .next t ∧ (t.part p).records = rest ∧
      t.preg p 0x2728 = BitVec.ofNat 64 ((tail + 1) % 8192) ∧
      t.ownerCopy (leafLoc p (easidOf 0 va) va w).tag = some x ∧ x.data = sectorOf (out.words (decide (tail < 4096)))) ∧
  (∀ (s : State) (c slot cause seq idx lane : Nat) (g : Group) (l : Nat) (u : Thread), s.group? c slot = some g →
    g.lateTrap = some (cause, seq, idx, lane) → List.find? (fun (x : Nat × Thread) => x.2.st == .ready) g.thr = some (l, u) →
    g.halt = .running → g.mode = .normal →
    ∃ t h, exec (.lateTrap c slot) s = .next t ∧ t.group? c slot = some h ∧ h.halt = .stopped ∧ h.lateTrap = none ∧
      h.faultpc = u.pc ∧ h.faultinfo = BitVec.ofNat 64
        (cause % 256 * 2 ^ 56 + 2 ^ 55 + lane % 64 * 2 ^ 48 + seq % 65536 * 2 ^ 16 + idx % 4096) ∧
      (t.run g.run).halt = some { core := c, slot := slot }) ∧
  (∀ (s : State) (c slot n : Nat) (g : Group), s.group? c slot = some g → g.halt = .skid n →
    (s.runsOn c slot g = true → exec (.siblingStop c slot) s = .next s) ∧
    (s.runsOn c slot g = false →
      ∃ t h, exec (.siblingStop c slot) s = .next t ∧ t.group? c slot = some h ∧ h.halt = .stopped ∧
        (∀ l, g.mode = .normal → g.live.head? = some l → h.faultpc = (g.thread l).pc) ∧
        (g.mode ≠ .normal → h.faultpc = g.faultpc) ∧ h.thr = g.thr ∧ h.vo = g.vo)) ∧
  (∀ (s : State) (c slot : Nat) (g : Group), s.group? c slot = some g → g.halt = .stopped → Settled s c g →
    (OthersStopped s c slot g → (s.run g.run).halt = some { core := c, slot := slot } →
      ((s.preg g.part 0x2700).getLsbD 63 = true → ∃ t h, exec (.trapHandlerEntry c slot) s = .next t ∧
        t.group? c slot = some h ∧ Entered g h .trap (s.preg g.part 0x2700 &&& 0x00FFFFFFFFFFFFF8)) ∧
      ((s.preg g.part 0x2700).getLsbD 63 = false → c ∈ (s.run g.run).cores →
        ∃ t r, exec (.trapHandlerEntry c slot) s = .next t ∧ (t.run g.run).killed = true ∧ t.group? c slot = none ∧
          Joins (s.part g.part).records (t.part g.part).records r ∧ r.cause = 0x32)) ∧
    ((s.run g.run).halt = none → g.mode = .normal → (s.part g.part).inEffect = true →
      ∃ t h, exec (.trapHandlerEntry c slot) s = .next t ∧ t.group? c slot = some h ∧ h.faultinfo = 0x3000000000000000 ∧
        ((s.preg g.part 0x2708).getLsbD 63 = true → Entered g h .psave (s.preg g.part 0x2708 &&& 0x00FFFFFFFFFFFFF8)) ∧
        ((s.preg g.part 0x2708).getLsbD 63 = false → h.mode = .psaveDone ∧ h.halt = .stopped)))

/-- R94, R97, R288, R299, R301, R302: the task unit starts the team at the head of the queue on a core that it fits, with the floor and
the depth of the latest completions that it maps; a spawn bin with a full group's threads starts a group of its task; a team whose re-fire bin fires is tested anew, and
keeps its state while the test has to wait (Table 13.4). Where the spec leaves a point open it follows the
model's choice, log entries 64, 65 and 66.
R255, R277, R289, R311: a run that starts on one core, or as a pair on two, puts a group into each slot that it takes, with the
task's sixteen parameters in `s0` to `s15`, every lane of it at the entry header, its registers as the spec leaves them, and the
run's first threads alive; of a pair, group `n` stands on core `n mod 2`, and the lowest group of each core has its accumulator
window. Where the spec leaves a point open it follows the
model's choice, log entries 64 and 91. -/
def Obligations.TeamsStart : Prop :=
  ((∀ (s : State) (p c slot team n : Nat) (k : Task) (f : List (Nat × CoreFit)), s.taskHeld p = false →
    let u := (s.retestSpilled p).headTarget p
    u.placeable p = [(slot, team, n)] → u.task? p slot = some k → u.fitTeam p k.desc c = some f → c ∈ u.partCores p →
    AMap.find? k.ran team = none →
    let w := u.modPart p id
    let v := ((w.dequeue p slot team).setComp p slot team { w.comp p slot team with st := .run, pend := false }).modTask p slot
      fun x => { x with ran := AMap.put x.ran team 0 }
    let r : Run :=
      { part := p, asid := k.asid, task := slot, team := team, ngroups := k.desc.groups,
        floor := (v.mapped p k team).foldl (fun m x => min m x.1.grade) 3, gen := 0, refire := false, limit := k.desc.limit,
        depth := (v.mapped p k team).foldl (fun m x => max m x.1.depth) 0, walkn := k.desc.walkn }
    let x := v.startRun r k.desc.width k.desc.regs (kernOf k.asid k.desc.entry k.desc.regs k.desc.width) k.desc.obunits
      k.desc.accu k.desc.entry k.desc.params f none
    exec (.placeTeam p c) s = .next ((x.1.enterRun x.2 k.desc.entry).headTarget p)) ∧
  (∀ (s : State) (cl c i : Nat) (b : SpawnBin), (AMap.get s.bins cl [])[i]? = some b → s.taskHeld b.part = false →
    b.width ≤ b.items.length →
    (∀ k f, clusterOf c = cl → s.inPart b.part c = true → c ≠ s.bellwether b.part → s.task? b.part b.task = some k →
      s.fitCore c 1 b.width b.regs 0 0 0 = some f →
      let u : State := { s with bins := AMap.put s.bins cl ((AMap.get s.bins cl []).eraseIdx i) }
      let r : Run :=
        { part := b.part, asid := b.asid, task := b.task, team := b.team, spawned := true,
          floor := (s.mapped b.part k b.team).foldl (fun m x => min m x.1.grade) 3, gen := b.gen, refire := b.refire,
          limit := k.desc.limit,
          depth := (s.mapped b.part k b.team).foldl (fun m x => max m x.1.depth) 0 + (if b.refire then 1 else 0),
          walkn := k.desc.walkn }
      let x := u.startRun r b.width b.regs b.kern 0 0 b.entry k.desc.params [(c, f)] (some b.items)
      exec (.spawnBinFire cl i c) s = .next (x.1.enterRun x.2 b.entry)) ∧
    (clusterOf c ≠ cl → exec (.spawnBinFire cl i c) s = .next
      { s with bins := AMap.put s.bins cl ((AMap.get s.bins cl []).set i { b with fired := true }) })) ∧
  (∀ (s : State) (p task team : Nat) (b : RefireBin) (k : Task), (s.part p).refire = [b] → b.task = task → b.items = [team] →
    s.binDue p b.start = true → s.taskHeld p = false → (s.part p).refireWait = [] → s.task? p task = some k → team < 4096 →
    (s.testWaits p k team = true → ∃ t, exec (.refireBinFire p task) s = .next t ∧ (t.part p).refire = [] ∧
      (t.comp p task team).st = (s.comp p task team).st ∧ (task, team) ∈ (t.part p).fired) ∧
    (s.testWaits p k team = false →
    (k.desc.limit < s.startDepth p k team + 1 → ∃ t, exec (.refireBinFire p task) s = .next t ∧
      (t.comp p task team).st = .stale) ∧
    (s.startDepth p k team + 1 ≤ k.desc.limit → ∃ t, exec (.refireBinFire p task) s = .next t ∧ (t.part p).refire = [] ∧
      ((t.comp p task team).st = .idle ∨ (t.comp p task team).st = .elig))))) ∧
  (∀ (s : State) (r : Run) (width regs kern obu accu : Nat) (entry : Word) (params : List Word) (c : Nat) (f : CoreFit)
    (fits : List (Nat × CoreFit)), (fits = [(c, f)] ∨ ∃ d h, d ≠ c ∧ fits = [(c, f), (d, h)]) →
    (∀ y ∈ fits, (y.2.places.map (·.1)).Nodup) →
    let x := s.startRun r width regs kern obu accu entry params fits none
    x.2 = s.next ∧ (x.1.run s.next).part = r.part ∧ (x.1.run s.next).cores = fits.map (·.1) ∧
      (x.1.run s.next).paired = (fits.length == 2) ∧
      ∀ (i j slot pos : Nat) (y : Nat × CoreFit), fits[i]? = some y → y.2.places[j]? = some (slot, pos) →
      ∃ g, x.1.group? y.1 slot = some g ∧ g.run = s.next ∧ g.part = r.part ∧ g.asid = r.asid ∧ g.width = width ∧
        g.num = (if fits.length = 2 then 2 * j + i else j) ∧ g.pos = pos ∧
        g.regs = regs ∧ g.vo = [] ∧ g.l = [] ∧ g.flags = [] ∧ g.toks = [] ∧ g.mode = .normal ∧ g.halt = .running ∧
        g.awbase = 0 ∧ g.awlimit = (if j = 0 then 8 * accu else 0) ∧
        (∀ n < 16, AMap.get g.sc n 0 = params.getD n 0) ∧
        ∀ l < width, (g.thread l).pc = entry ∧ (g.thread l).st = .ready ∧ (g.thread l).hdr = none)

/-- R292, R294, R299, R303: the end of a run frees its places and moves its team on: to DONE, with the completion that
`TDONE.final` would have recorded where it recorded none, or back to its re-fire; a task whose teams have all completed FINAL
retires, its DONEVAL written; ending a graph and starting the dispatch team answer in their registers. Where the spec leaves a
point open it follows the model's choice, log entries 67, 68, 69 and 71. -/
def Obligations.TasksEnd : Prop :=
  (∀ (s : State) (rn : Nat) (r : Run), AMap.find? s.runs rn = some r → r.ngroups ≤ r.ended →
    (∀ c ∈ r.cores, ∀ q ∈ (s.core c).oxq, q.run ≠ rn) →
    (r.disp = true → ∃ t, exec (.teamEnd rn) s = .next t ∧ AMap.find? t.runs rn = none ∧ (t.part r.part).dispatch = none ∧
      (t.preg r.part 0x2610).getLsbD 63 = false) ∧
    (r.disp = false → r.spawned = true → ∃ t, exec (.teamEnd rn) s = .next t ∧ AMap.find? t.runs rn = none) ∧
    (∀ k, r.disp = false → r.spawned = false → r.team < 4096 → s.task? r.part r.task = some k →
      (s.comp r.part r.task r.team).pend = false →
      ((r.completed = true ∨ r.killed = true) →
        ∃ t, exec (.teamEnd rn) s = .next t ∧ AMap.find? t.runs rn = none ∧ (t.comp r.part r.task r.team).st = .done ∧
          (t.comp r.part r.task r.team).grade = (s.comp r.part r.task r.team).grade ∧
          ∀ c ∈ r.cores, ∀ h ∈ (t.core c).holders, h.2 ≠ rn) ∧
      (∀ s1, r.completed = false → r.killed = false → s.releaseRun rn r = (s1, true) →
        (∀ x ∈ (s.part r.part).slots, ∀ d ∈ x.2.desc.deps, d.producer ≠ r.task) →
        ∃ t, exec (.teamEnd rn) s = .next t ∧ AMap.find? t.runs rn = none ∧ (t.comp r.part r.task r.team).st = .done ∧
          (t.comp r.part r.task r.team).grade = min 3 r.floor ∧ (t.comp r.part r.task r.team).gen = r.gen)) ∧
    (∀ k, r.disp = false → r.spawned = false → r.team < 4096 → s.task? r.part r.task = some k →
      (s.comp r.part r.task r.team).pend = true → (r.completed = true ∨ r.killed = true) →
      k.desc.graph ∉ (s.part r.part).ending →
      ∃ t, exec (.teamEnd rn) s = .next t ∧ AMap.find? t.runs rn = none ∧
        ((t.comp r.part r.task r.team).st = .refq ∨ (t.comp r.part r.task r.team).st = .stale))) ∧
  (∀ (s : State) (p slot : Nat) (k : Task), s.task? p slot = some k → (s.part p).ending = [] → s.runs = [] → s.bins = [] →
    (s.part p).hold = [] → s.net = [] → s.host = [] → k.desc.deps = [] →
    (∀ u < k.desc.nteams, (s.comp p slot u).st = .done ∧ (s.comp p slot u).grade = 3) →
    (k.desc.doneva = 0 → ∃ t, exec (.taskRetire p slot) s = .next t ∧ t.task? p slot = none) ∧
    (∀ w, let va := k.desc.doneva.toNat
      va ≠ 0 → (∀ c ∈ s.cores, c.2.reqs = [] ∧ c.2.comb = [] ∧ c.2.l1 = []) → s.storeCause p k.asid va 8 = none → Plain s p (easidOf k.asid va) va w →
      bits (s.hreg (0x400 + 8 * p)) 15 0 ≠ 0 → s.inShadow p (easidOf k.asid va) (va / 64 * 64) = false →
      let l := leafLoc p (easidOf k.asid va) va w
      ∃ t x, exec (.taskRetire p slot) s = .next t ∧ t.task? p slot = none ∧ t.ownerCopy l.tag = some x ∧
        sectorValue x.data va 8 = k.desc.doneval.toNat)) ∧
  (∀ (s : State) (p : Nat) (v : Word), s.serves p = false → ∀ i ∈ [Instr.tgctlEndGraph p v, Instr.bwctlStart p v],
    exec i s = .next { s with answers := s.answers ++ [.unsupportedRequest] }) ∧
  (∀ (s : State) (p : Nat) (v : Word), p < 16 → s.serves p = true → (s.preg p 0x2600).getLsbD 63 = false → v.getLsbD 63 = true →
    ((∀ x ∈ (s.part p).slots, x.2.desc.graph ≠ bits v 7 0) → ∃ t, exec (.tgctlEndGraph p v) s = .next t ∧
      (t.preg p 0x2600).getLsbD 63 = false) ∧
    ((∃ x ∈ (s.part p).slots, x.2.desc.graph = bits v 7 0) → ∃ t, exec (.tgctlEndGraph p v) s = .next t ∧
      (t.preg p 0x2600).getLsbD 63 = true ∧ bits v 7 0 ∈ (t.part p).ending)) ∧
  (∀ (s : State) (p : Nat) (v w : Word), p < 16 → s.serves p = true → (s.preg p 0x2610).getLsbD 63 = false →
    v.getLsbD 63 = true →
    let va := bits v 55 8 * 256
    (nbit va 55 = false → ∃ t, exec (.bwctlStart p v) s = .next t ∧
      (t.preg p 0x2610).getLsbD 63 = false ∧ (t.preg p 0x2610).getLsbD 62 = true) ∧
    (nbit va 55 = true → Plain s p (easidOf 0 va) va w →
      (w.getLsbD 56 = false ∨ leafClass w ≠ 0 → ∃ t, exec (.bwctlStart p v) s = .next t ∧
        (t.preg p 0x2610).getLsbD 63 = false ∧ (t.preg p 0x2610).getLsbD 62 = true) ∧
      (w.getLsbD 56 = true → leafClass w = 0 →
        let u := s.setPreg p 0x2610 ((v &&& 0x80FFFFFFFFFFFF00) |||
          (if (s.preg p 0x2610).getLsbD 62 = true ∧ v.getLsbD 62 = false then 0x4000000000000000 else 0))
        let l := leafLoc p (easidOf 0 va) va w
        (u.readRecord (s.bellwether p) l = none → ∃ t, exec (.bwctlStart p v) s = .next t ∧
          (t.part p).starting = .reading) ∧
        (∀ s2, u.readRecord (s.bellwether p) l = some (s2, none) → ∃ t, exec (.bwctlStart p v) s = .next t ∧
          (t.preg p 0x2610).getLsbD 63 = false ∧ (t.preg p 0x2610).getLsbD 62 = true) ∧
        (∀ s2 ws, u.readRecord (s.bellwether p) l = some (s2, some ws) →
          let d := recordOf ws
          (recordBad ws true = true → ∃ t, exec (.bwctlStart p v) s = .next t ∧
            (t.preg p 0x2610).getLsbD 63 = false ∧ (t.preg p 0x2610).getLsbD 62 = true) ∧
          (∀ f, recordBad ws true = false → s2.taskHeld p = false →
            s2.fitCore (s2.bellwether p) d.groups d.width d.regs d.spways d.obunits d.accu = some f →
            ∃ t, exec (.bwctlStart p v) s = .next t ∧ (t.part p).dispatch = some s2.next ∧ (t.part p).starting = .idle)))))

/-! ## Pre-emption, management registers and boot -/

/-- R361-R367: GO begins a pre-emption unless a save is held; when it takes effect every core's budget starts and normal code
stops; a core whose budget runs out stops where it stands; a core that is done is saved, without a valid save area into the
fallback, and without a fallback it is STUCK; the last core's save ends the pre-emption; and RESUME, ignored while no save is
held, gives a saved core its teams, ways and carve back as the header and the team entries of its slot say. Where the spec leaves a
point open it follows the model's choice, log entries 55, 62, 73 and 75. -/
def Obligations.Preemption : Prop :=
  (∀ (s : State) (p : Nat), p < 16 →
    (s.prectlBit p 61 = false → s.prectlBit p 63 = false → ∃ t, exec (.prectlGo p) s = .next t ∧ t.prectlBit p 63 = true ∧
      (t.part p).preempting = true ∧ t.cores = s.cores) ∧
    (s.prectlBit p 61 = true → exec (.prectlGo p) s = .next s)) ∧
  (∀ (s : State) (p c slot : Nat) (g : Group), (s.part p).preempting = true → (s.part p).inEffect = false →
    s.residents p = [(c, slot)] → s.group? c slot = some g → g.mode = .normal → g.halt = .running →
    (s.run g.run).halt = none → c ∈ s.partCores p → (s.core c).save = none → AMap.rising s.cores = true →
    ∃ t h, exec (.preemptTakeEffect p) s = .next t ∧ (t.part p).inEffect = true ∧
      (∀ k ∈ s.partCores p, (t.core k).t0 = some (s.clock p)) ∧ t.group? c slot = some h ∧ h.halt ≠ .running ∧
      ((∀ u ∈ g.thr, u.2.st ≠ .ready) → h.halt = .stopped ∧ h.faultpc = g.resumePc)) ∧
  (∀ (s : State) (p c slot : Nat) (g : Group) (t0 : Word), s.partOf c = some p → (s.core c).t0 = some t0 →
    (s.core c).groups = [(slot, g)] → g.mode ≠ .psaveDone → (s.part p).inEffect = true →
    ((s.part p).prebudget ≤ (s.clock p - t0).toNat → s.runsOn c slot g = false → ∃ t h, exec (.preemptBudgetExpiry c) s = .next t ∧
      (t.core c).forcing = true ∧ t.group? c slot = some h ∧ h.halt = .stopped) ∧
    ((s.clock p - t0).toNat < (s.part p).prebudget → exec (.preemptBudgetExpiry c) s = .next s)) ∧
  (∀ (s : State) (p c : Nat), s.partOf c = some p → (s.part p).inEffect = true → CoreDone s c →
    (∀ u, s.saveEn p = true → s.writeSave p c 1 = some u → ∃ t i, exec (.contextSave c) s = .next t ∧
      (t.core c).groups = [] ∧ (t.core c).save = some i ∧ i.kind = 1 ∧ i.infall = false ∧ i.groups = (u.core c).groups ∧
      ((∀ k ∈ s.partCores p, k ≠ c → (s.core k).save.isSome = true) → HeldSave t p)) ∧
    (s.saveEn p = false → s.fallEn p = true → ∃ t i, exec (.contextSave c) s = .next t ∧ (t.core c).groups = [] ∧
      (t.core c).save = some i ∧ i.kind = 1 ∧ i.infall = true ∧ i.groups = (s.core c).groups) ∧
    (s.saveEn p = false → s.fallEn p = false → ∃ t, exec (.contextSave c) s = .next t ∧ t.prectlBit p 58 = true) ∧
    (s.saveEn p = true → s.saveFaults p c = true →
      (s.fallEn p = true → ∃ t i, exec (.saveFault c) s = .next t ∧ .saveFault p c ∈ t.irqs ∧ t.prectlBit p 59 = true ∧
        (t.core c).save = some i ∧ i.infall = true ∧ i.groups = (s.core c).groups) ∧
      (s.fallEn p = false → ∃ t, exec (.saveFault c) s = .next t ∧ .saveFault p c ∈ t.irqs ∧ t.prectlBit p 58 = true))) ∧
  (∀ (s : State) (p : Nat), p < 16 →
    (∀ c i, s.prectlBit p 61 = true → s.prectlBit p 63 = false → (s.part p).resuming = none → s.cached = [] →
      c ∈ s.partCores p → (∀ k ∈ s.partCores p, k ≠ c → (s.core k).save = none) → (s.core c).save = some i →
      let head := s.slotWord64 p c 0
      (bits head 2 0 ≠ 1 → bits head 2 0 ≠ 2 →
        ∃ t, exec (.prectlResume p) s = .next t ∧ (t.core c).save = some i ∧ t.prectlBit p 62 = true) ∧
      (bits head 2 0 = 1 ∨ bits head 2 0 = 2 →
        ∃ t, exec (.prectlResume p) s = .next t ∧ t.prectlBit p 61 = false ∧ t.prectlBit p 60 = false ∧
          t.prectlBit p 62 = false ∧ (t.part p).resuming = none ∧ (t.core c).save = none ∧
          (t.core c).carve = bits head 15 12 ∧ (t.core c).holders = i.holders ∧
          ∀ slot g j, AMap.find? i.groups slot = some g → i.teams[j]? = some (some g.run) → j < bits head 8 4 →
            bits (s.slotWord64 p c (0x1000 + 512 * j)) 1 0 = 0 →
            ∃ h, t.group? c slot = some h ∧ h.gid = g.gid ∧ h.sc = g.sc ∧ h.preds = g.preds ∧
              (bits head 2 0 = 2 → h.l = g.l))) ∧
    (s.prectlBit p 61 = false ∨ s.prectlBit p 63 = true → exec (.prectlResume p) s = .next s))

/-- R73, R76, R82, R121, R368: a shoot-down drops the range's permissions and translations; a released frame has no owner; a key
takes effect with the next epoch of its slot; a teardown discards what is known of an address space. Each clears BUSY at once
where nothing is in flight. A function that does not serve answers UR (R370, R377). Where the spec leaves a point open it follows the
model's choice, log entries 57 and 78. -/
def Obligations.AddressSpaceCommands : Prop :=
  (∀ (s : State) (p : Nat) (v : Word), s.serves p = false → ∀ i ∈ [Instr.shootDown p v, .frameRelease p v, .askill p v],
    exec i s = .next { s with answers := s.answers ++ [.unsupportedRequest] }) ∧
  (∀ (s : State) (p : Nat) (v : Word), p < 16 → s.serves p = true → NothingInFlight s → (s.preg p 0x2008).getLsbD 63 = false → v.getLsbD 63 = true →
    v.getLsbD 62 = true → ∃ t, exec (.shootDown p v) s = .next t ∧ (t.preg p 0x2008).getLsbD 63 = false ∧
      (∀ x ∈ t.tlb, x.1 / 2 ^ 40 ≠ p * 4096 + bits v 11 0) ∧
      ∀ k ∈ t.cores, ∀ x ∈ k.2.plb, x.1 / 2 ^ 40 ≠ p * 4096 + bits v 11 0) ∧
  (∀ (s : State) (p : Nat) (v e : Word), p < 16 → s.serves p = true → NothingInFlight s → (s.preg p 0x2018).getLsbD 63 = false → v.getLsbD 63 = true →
    bits v 5 0 = 0 → AMap.find? s.rmap (bits v 51 16) = some e → e.getLsbD 63 = true →
    ∃ t, exec (.frameRelease p v) s = .next t ∧ (t.preg p 0x2018).getLsbD 63 = false ∧
      AMap.find? t.rmap (bits v 51 16) = none ∧
      AMap.find? t.tlb (pageTag (bits e 62 59) (bits e 58 47) (bits e 46 7 * 65536)) = none) ∧
  (∀ (s : State) (slot key : Nat), NothingInFlight s → slot < 64 → ∃ t, exec (.keyInstall slot key) s = .next t ∧
    t.slot slot = { key := key, epoch := ((s.slot slot).epoch + 1) % 4 } ∧ t.mem = s.mem ∧
    ∀ n, n ≠ slot → t.slot n = s.slot n) ∧
  (∀ (s : State) (p : Nat) (v : Word), p < 16 → s.tdiLocked p = false → s.cached = [] →
    ∃ t, exec (.sccolWrite p v) s = .next t ∧ t.hreg (0x480 + 8 * p) = BitVec.ofNat 64 (bits v 7 0)) ∧
  (∀ (s : State) (p : Nat) (v : Word), (s.preg p 0x2738).getLsbD 63 = false → v.getLsbD 63 = true → s.residents p = [] →
    p < 16 → s.serves p = true → ∃ t, exec (.askill p v) s = .next t ∧ (t.preg p 0x2738).getLsbD 63 = false ∧
      (∀ x ∈ t.tlb, x.1 / 2 ^ 40 ≠ p * 4096 + bits v 11 0) ∧
      (∀ k ∈ t.cores, ∀ q ∈ k.2.reqs, ¬(q.idn.part = p ∧ q.idn.asid = bits v 11 0)) ∧
      ∀ h ∈ (t.part p).hold, h.org.idn.asid ≠ bits v 11 0)

/-- R369-R373, R376, R377: partitions, power and the other registers take the fields that their tables let software write; a write that
R370 or R373 rules out is ignored, so is the partition's own write to a register that is the hypervisor's, and one to a locked
register puts the interface in ERROR; a partition's block takes a write of its function only while the function serves, and in RUN
only on the function's own stream; an interval of 10 µs steps the clock. Where the spec leaves a point open it follows the
model's choice, log entries 79, 80 and 82. -/
def Obligations.RegisterWrites : Prop :=
  (∀ (s : State) (p : Nat) (v : Word), p < 16 → s.tdiLocked p = false →
    (v.getLsbD 63 = true → s.partcfgBad p (v &&& 0x8000000000000FFF) = false → ∃ t, exec (.partcfgWrite p v) s = .next t ∧
      t.hreg (0x300 + 8 * p) = v &&& 0x8000000000000FFF ∧ t.enabled p = true ∧ t.base p = bits v 5 0 ∧ t.limit p = bits v 11 6) ∧
    (v.getLsbD 63 = true → bits v 11 6 < bits v 5 0 → exec (.partcfgWrite p v) s = .next s) ∧
    (v.getLsbD 63 = false → s.enabled p = true → (s.part p).slots ≠ [] → exec (.partcfgWrite p v) s = .next s) ∧
    (s.enabled p = false → ∃ t, exec (.pwrctlWrite p v) s = .next t ∧ t.hreg (0x500 + 8 * p) = v &&& 0xFFFF) ∧
    (s.enabled p = true → 4800 < s.powerSum p (max 50 (bits v 15 0)) → exec (.pwrctlWrite p v) s = .next s) ∧
    (s.prectlBit p 58 = false → ∃ t, exec (.svfallWrite p v) s = .next t ∧
      t.hreg (0x200 + 8 * p) = v &&& 0x800FFFFFFFF00000)) ∧
  (∀ (s : State) (p : Nat) (v : Word), p < 16 → s.tdiLocked p = true → ∃ t, exec (.pwrctlWrite p v) s = .next t ∧
    (t.part p).tdi = .error ∧ t.hreg (0x500 + 8 * p) = s.hreg (0x500 + 8 * p)) ∧
  (∀ (s : State) (p power : Nat), p < 16 → s.enabled p = true → power < 65536 → bits (s.preg p 0x2800) 11 0 ≤ s.serviceMax →
    let mhz := bits (s.preg p 0x2800) 11 0
    let cap := max 50 (bits (s.hreg (0x500 + 8 * p)) 15 0)
    ∃ t, exec (.powerInterval p power) s = .next t ∧ bits (t.preg p 0x2800) 63 48 = power ∧
      (cap < power → bits (t.preg p 0x2800) 11 0 = max 1200 (mhz - 100)) ∧
      (100 * power ≤ 97 * cap → bits (t.preg p 0x2800) 11 0 = min s.serviceMax (mhz + 100)) ∧
      (power ≤ cap → 97 * cap < 100 * power → bits (t.preg p 0x2800) 11 0 = mhz) ∧
      (t.preg p 0x2800).getLsbD 16 = decide (mhz < s.serviceMax)) ∧
  (∀ (s : State) (p off : Nat) (v m : Word) (by_ : Writer), p < 16 → Allowed s p by_ → off % 8 = 0 →
    hyperOnly off = none → plainFields off = some m →
    (off ≠ 0x2010 ∨ (s.preg p 0x2008).getLsbD 63 = false →
      ∃ t, exec (.registerWrite (.part p by_) off v) s = .next t ∧ t.preg p off = v &&& m ∧
        ∀ o, o ≠ off → t.preg p o = s.preg p o) ∧
    (off = 0x2010 → (s.preg p 0x2008).getLsbD 63 = true → exec (.registerWrite (.part p by_) off v) s = .next s)) ∧
  (∀ (s : State) (p off : Nat) (v m : Word), p < 16 → off % 8 = 0 → hyperOnly off = some m →
    (s.tdiLocked p = false → ∃ t, exec (.registerWrite (.part p .hyper) off v) s = .next t ∧ t.preg p off = v &&& m) ∧
    (∀ on, Allowed s p (.function on) → exec (.registerWrite (.part p (.function on)) off v) s = .next s)) ∧
  (∀ (s : State) (p off : Nat) (v : Word) (on : Bool), p < 16 → ¬Allowed s p (.function on) →
    Answers (.registerWrite (.part p (.function on)) off v) s .unsupportedRequest)

/-- R378-R382: mailboxes answer with what the security processor holds, and with an error what they have not got; only L-die 0 opens
sessions, and only in one of them do keys and interfaces change; boot verifies every die's image, trains the host link, and
releases the clusters of a die that attests. Where the spec leaves a point open it follows the
model's choice, log entries 84, 85, 86 and 87. -/
def Obligations.BootAndAttestation : Prop :=
  (∀ (s : State) (d : Nat), s.hostUp = true → d < 10 →
    Answers (.getVersion d) s (.spdm d 0x04 [0x13]) ∧
    Answers (.getCapabilities d) s (.spdm d 0x61 (Config.spdmCapabilities d)) ∧
    Answers (.negotiateAlgorithms d) s (.spdm d 0x63 (Config.spdmAlgorithms d)) ∧
    Answers (.getDigests d) s (.spdm d 0x01 [Config.certDigest d 0, Config.certDigest d 1]) ∧
    (∀ slot nonce, slot < 2 → Answers (.getCertificate d slot) s (.spdm d 0x02 [slot, Config.certificate d slot]) ∧
      Answers (.challenge d slot nonce) s (.spdm d 0x03 [slot, nonce, Config.signature d slot [nonce]]) ∧
      let body := [2, if (s.die d).held then 0 else 1, (s.die d).digest]
      Answers (.getMeasurements d slot 2 nonce) s
        (.spdm d 0x60 (body ++ [slot, nonce, Config.signature d slot (nonce :: body)]))) ∧
    (∀ session, d ≠ 8 → Answers (.keyExchange d 0 session) s (.spdmError d) ∧ Answers (.finish d session) s (.spdmError d))) ∧
  (∀ (s : State) (session : Nat), s.hostUp = true →
    (∃ t, exec (.keyExchange 8 0 session) s = .next t ∧ (session, false) ∈ (t.die 8).sessions) ∧
    ((∃ b, (session, b) ∈ (s.die 8).sessions) → ∃ t, exec (.finish 8 session) s = .next t ∧ t.established session = true) ∧
    (s.established session = true → ∀ stream key, stream < 18 → ∃ t, exec (.ideKm session stream key) s = .next t ∧
      AMap.find? t.ideKeys stream = some key) ∧
    (s.established session = true → ∀ tdi, tdi < 16 →
      ((s.part tdi).tdi = .unlocked → ∃ t, exec (.tdispRequest session tdi .lock) s = .next t ∧ (t.part tdi).tdi = .locked) ∧
      ((s.part tdi).tdi = .locked → ∃ t, exec (.tdispRequest session tdi .start) s = .next t ∧ (t.part tdi).tdi = .run)) ∧
    (s.established session = false → Answers (.ideKm session 0 0) s (.spdmError 8) ∧
      Answers (.tdispRequest session 0 .lock) s (.spdmError 8))) ∧
  (∀ (s : State) (fw : List Firmware), s.hostUp = false → ∃ t, exec (.powerOn fw) s = .next t ∧ t.hostUp = true ∧
    ∀ d < 10, ∀ f, fw[d]? = some f →
      (f.ed25519Ok = true → f.mldsaOk = true → f.minVersion ≤ f.version → (t.die d).held = false ∧ (t.die d).digest = f.digest) ∧
      ((f.ed25519Ok = false ∨ f.mldsaOk = false ∨ f.version < f.minVersion) →
        (t.die d).held = (s.die d).held ∧ (t.hreg 0).getLsbD (48 + d) = true)) ∧
  (∀ (s : State) (d ch : Nat), s.hostUp = true → (s.die d).held = false → d < 8 → ch < 6 → ch ∉ (s.die d).channels →
    ∃ t, exec (.channelTrained d ch) s = .next t ∧ (t.die d).channels = (s.die d).channels ++ [ch]) ∧
  (∀ (s : State) (d : Nat), s.hostUp = true → d < 8 → (s.die d).attested = false → s.failed d = false →
    (s.die d).channels.length = 6 →
    (∃ t, exec (.clusterRelease d true) s = .next t ∧ (t.die d).attested = true ∧
      ∀ c < 6, (t.hreg 0).getLsbD (6 * d + c) = true) ∧
    (∃ t, exec (.clusterRelease d false) s = .next t ∧ (t.die d).attested = false ∧ (t.hreg 0).getLsbD (48 + d) = true)) ∧
  (∀ (s : State) (n : Nat), n < 72 → lkBit s n 0 = false → ∃ t, exec (.fabricLinkTrained n) s = .next t ∧
    (t.link n).trained = true ∧ lkBit t n 3 = (s.link n).key.isSome) ∧
  (∀ (s : State) (n : Nat), n < 4 → n ∉ s.cxl → ∃ t, exec (.cxlPortTrained n) s = .next t ∧ t.cxl = s.cxl ++ [n])

/-! ## The fabric, gossip and the host -/

/-- R125-R131, R137: a packet that no policy entry names, or whose address has no leaf, is refused; a load of a page that it may
read is answered with the line's bytes, or refused where a sector is poisoned; a bulk write into a scratchpad page writes its bytes
and counts them. A request of this chip to itself is answered here. At the source an acknowledgment completes its access with
the data, a refusal drops it with a record, and a lost request reports FABRIC_LOST. Where the spec leaves a point open it follows
the model's choice, log entries 42, 43 and 103. -/
def Obligations.FabricRequests : Prop :=
  (∀ (s : State) (k : Packet), s.inbox = [] → CanReply s k → k.src ≠ bits (s.hreg 0x710) 11 0 →
    (s.policy k.fpid = none → Answers (.fabricPacketArrival k) s (.packetRefused k.src k.id 0x26 0)) ∧
    (∀ i, s.policy k.fpid = some i → (s.fabricWalk i k.ifa).2 = .error 0x27 →
      ∃ t, exec (.fabricPacketArrival k) s = .next t ∧ t.answers = s.answers ++ [.packetRefused k.src k.id 0x27 0] ∧
        t.mem = s.mem ∧ t.cores = s.cores) ∧
    (∀ (i n : Nat) (e : Word) (l : Loc), s.policy k.fpid = some i → (s.fabricWalk i k.ifa).2 = .ok e → k.op = .load n →
      e.getLsbD 56 = true → e.getLsbD 62 = false →
      let s1 := (s.fabricWalk i k.ifa).1
      let x : Loc := { l with va := l.va + k.ifa.toNat % 64, pa := l.pa + k.ifa.toNat % 64 }
      let s2 := s1.installTlb x.p x.easid x.va
      s1.ownerLoc (bits (s.hreg (0x800 + 16 * i)) 3 0) e k.ifa = some l → l.cls ≠ 2 →
      (AMap.find? s1.tlb (pageTag l.p l.easid l.va)).isSome = true →
      (∀ t ∈ lineTags x.p x.easid x.va, s1.noGrant t 0 = false) →
      ∃ t, exec (.fabricPacketArrival k) s = .next t ∧ t.cores = s.cores ∧
        (∀ v, s2.lineRead x (x.va % 256) n = some v → t.answers = s.answers ++
          [.packetDone k.src k.id (BitVec.ofNat 2048 v)
            (recWord (s2.sector { x with va := x.va / 64 * 64, pa := x.pa / 64 * 64 }).record +
              if l.cls = 1 ∨ l.cls = 3 then 2 ^ 16 else 0)]) ∧
        (s2.lineRead x (x.va % 256) n = none → t.answers = s.answers ++ [.packetRefused k.src k.id 0x29 0])) ∧
    (∀ (i pl ctr : Nat) (e : Word) (m : BitVec 256) (d : BitVec 2048) (w : Word), s.policy k.fpid = some i →
      (s.fabricWalk i k.ifa).2 = .ok e → k.op = .bulk m d (some w) → e.getLsbD 57 = true → e.getLsbD 62 = true →
      let s1 := (s.fabricWalk i k.ifa).1
      s1.kindPlace (bits (s.hreg (0x800 + 16 * i)) 3 0) e k.ifa = some pl →
      s1.counterPlace i (bits (s.hreg (0x800 + 16 * i)) 3 0) w = .ok ctr → pl / 256 ≠ ctr / 256 →
      ∃ t, exec (.fabricPacketArrival k) s = .next t ∧ t.answers = s.answers ++ [.packetDone k.src k.id 0 0] ∧
        t.wayRead ctr 8 = (s.wayRead ctr 8 + ((List.range 256).filter m.getLsbD).length) % 2 ^ 64 ∧
        ∀ b < 256, padByte t (placeCore (pl / 256 * 256)) (placeKey (pl / 256 * 256) + b) =
          if m.getLsbD b then BitVec.ofNat 8 (d.toNat / 2 ^ (8 * b)) else
            padByte s (placeCore (pl / 256 * 256)) (placeKey (pl / 256 * 256) + b))) ∧
  (∀ (s : State) (k : Packet) (c rid idx : Nat) (r : OutReq) (q : Req) (a : Acc), s.inbox = [] → s.replies = [] →
    k.src = bits (s.hreg 0x710) 11 0 →
    (s.loopsBack k = false → exec (.fabricPacketArrival k) s = .next s) ∧
    (s.loopsBack k = true → s.policy k.fpid = none → s.net.find? (fun x => x.id == k.id) = some r → r.who = [(c, rid, idx)] →
      (∀ y ∈ s.net, y.id = k.id → y.lost = false) →
      s.acc? c rid idx = some (q, a) → a.st = .sent k.id → q.kind = .ld → (s.core c).aged = [] →
      ∃ t x, exec (.fabricPacketArrival k) s = .next t ∧ Ended t c rid idx ∧ (∀ y ∈ t.net, y.id ≠ k.id) ∧
        Joins (s.part q.idn.part).records (t.part q.idn.part).records x ∧ x.cause = 0x26 ∧ x.aux = r.ifa)) ∧
  (∀ (s : State) (id c rid idx : Nat) (r : OutReq) (q : Req) (a : Acc), OnFabric s id r c rid idx q a →
    (∀ (data : BitVec 2048) rec_ s1, q.kind = .ld →
      ({ s with net := s.net.filter fun x => x.id != id } : State).countRead q (if nbit rec_ 16 then 1 else 0) (recOf rec_) =
        .ok s1 →
      ∃ t, exec (.fabricAcknowledge id data rec_) s = .next t ∧
        t = Answered s1 c idx q a (data.toNat / 2 ^ (8 * (a.va - r.va))) ∧ Ended t c rid idx ∧ ∀ x ∈ t.net, x.id ≠ id) ∧
    (∀ data rec_, q.kind = .st → ∃ t, exec (.fabricAcknowledge id data rec_) s = .next t ∧ Ended t c rid idx ∧
      ∀ x ∈ t.net, x.id ≠ id) ∧
    (∀ cause detail, q.kind = .ld ∨ q.kind = .st → (s.core c).aged = [] → cause ∈ [0x26, 0x27] →
      ∃ t x, exec (.fabricRefusal id cause detail) s = .next t ∧ Ended t c rid idx ∧
        Joins (s.part q.idn.part).records (t.part q.idn.part).records x ∧ x.cause = cause ∧ x.aux = r.ifa)) ∧
  (∀ (s : State) (id c rid idx : Nat) (r : OutReq) (q : Req) (a : Acc) (err : MemErr),
    s.net.find? (fun x => x.id == id && x.lost) = some r →
    r.who = [(c, rid, idx)] → s.acc? c rid idx = some (q, a) → a.st = .sent id → q.kind ≠ .fill → (s.core c).aged = [] →
    ∃ t x, exec (.lateFault c rid idx err) s = .next t ∧ Ended t c rid idx ∧
      Joins (s.part q.idn.part).records (t.part q.idn.part).records x ∧ x.cause = 0x28 ∧ x.aux = r.ifa)

/-- R124, R127, R134-R138: a link that fails takes its plane down and loses what is outstanding on it; every flit uses a counter value of
its own, and keys switch, warn, run out and expire as the counter goes; a plane register takes a mapping only of held codes to live planes, and what is not held is sent;
and a policy entry takes its fields and forgets the leaves cached under it. Where the spec leaves a point open it follows the
model's choice, log entries 44, 104 and 105. -/
def Obligations.FabricLinks : Prop :=
  (∀ (s : State) (n : Nat), n < 72 →
    (∃ t, exec (.linkDown n) s = .next t ∧ lkBit t n 0 = true ∧ lkBit t n 3 = false ∧ t.planeLive (n / 9) = false ∧
      .planeDown (n / 9) ∈ t.irqs ∧ ∀ r ∈ t.net, r.sent = true → t.planeLive (t.planeOf (codeOf r.ifa)) = false → r.lost = true) ∧
    (lkBit s n 2 = false → (s.link n).key.isSome = true →
      (2 ^ 47 ≤ lkCtr s n → ∃ t, exec (.linkKeyWarn n) s = .next t ∧ lkBit t n 2 = true ∧ .linkKeyWarn n ∈ t.irqs) ∧
      (lkCtr s n < 2 ^ 47 → exec (.linkKeyWarn n) s = .next s)) ∧
    (∀ m, (s.link n).key.isSome = true → (s.link n).standby = none →
      let u := s.useFlits n m
      (lkCtr s n + m < 2 ^ 48 - 2 → u.2 = true ∧ lkCtr u.1 n = lkCtr s n + m ∧ lkBit u.1 n 1 = lkBit s n 1 ∧
        (lkCtr s n < 2 ^ 47 → lkBit u.1 n 2 = (lkBit s n 2 || decide (2 ^ 47 ≤ lkCtr s n + m)))) ∧
      (lkCtr s n + m = 2 ^ 48 - 2 → u.2 = true ∧ lkCtr u.1 n = 2 ^ 48 - 2 ∧ lkBit u.1 n 1 = true) ∧
      (2 ^ 48 - 2 < lkCtr s n + m → u.2 = false ∧ lkBit u.1 n 1 = true)) ∧
    (∀ k, (s.link n).standby = some k → ∃ t, exec (.keySwitchFlit n) s = .next t ∧ (t.link n).key = some k ∧
      (t.link n).standby = none ∧ ((∀ r ∈ s.net, r.sent = true) → s.replies = [] → lkCtr t n = 0 ∧ lkBit t n 1 = false)) ∧
    (∀ key salt, ((s.link n).key.isSome = true → ∃ t, exec (.linkKeyInstall n key salt) s = .next t ∧
        (t.link n).standby = some (key, salt) ∧ (t.link n).key = (s.link n).key) ∧
      ((s.link n).key = none → ∃ t, exec (.linkKeyInstall n key salt) s = .next t ∧ (t.link n).key = some (key, salt))) ∧
    ((s.link n).key.isSome = true → (s.link n).standby = none → lkBit s n 1 = false →
      (2 ^ 48 - 2 ≤ lkCtr s n → ∃ t, exec (.linkKeyExhaust n) s = .next t ∧
        lkCtr t n = 2 ^ 48 - 2 ∧ lkBit t n 1 = true ∧ .linkKeyExhaust n ∈ t.irqs) ∧
      (lkCtr s n < 2 ^ 48 - 2 → exec (.linkKeyExhaust n) s = .next s)) ∧
    (lkBit s n 1 = true → ∃ t, exec (.keyRequestFlit n) s = .next t ∧ t.irqs = s.irqs ++ [.keyRequest n (lkCtr s n)]) ∧
    (lkBit s n 1 = true → (s.link n).standby = none → ∃ t, exec (.keyExpire n) s = .next t ∧
      lkCtr t n = 2 ^ 48 - 1 ∧ lkBit t n 0 = true ∧ lkBit t n 1 = false ∧ t.planeLive (n / 9) = false) ∧
    (lkBit s n 0 = true → ∃ t, exec (.linkRetrain n) s = .next t ∧ lkBit t n 0 = false ∧ (t.link n).trained = false)) ∧
  (∀ (s : State) (v : Word),
    (s.drained = true → (∀ c < 8, (bits v (3 * c + 2) (3 * c) = s.planeOf c ∨ s.codeHeld c = true) ∧
        s.planeLive (bits v (3 * c + 2) (3 * c)) = true) →
      ∃ t, exec (.plremapWrite v) s = .next t ∧ (∀ c < 8, t.planeOf c = bits v (3 * c + 2) (3 * c)) ∧
        ∀ n < 8, t.planeLive n = s.planeLive n) ∧
    ((∃ c < 8, bits v (3 * c + 2) (3 * c) ≠ s.planeOf c ∧ s.codeHeld c = false) → exec (.plremapWrite v) s = .next s) ∧
    ((∀ k ∈ s.cores, k.2.comb = []) → ∃ t, exec (.plctlWrite v) s = .next t ∧ (∀ c < 8, t.codeHeld c = v.getLsbD c) ∧
      ∀ r ∈ t.net, r.sent = false → t.netWaits r.ifa = true) ∧
    (∀ i < 64, (∃ t, exec (.fmpolWrite i 0 v) s = .next t ∧ (t.hreg (0x800 + 16 * i)).getLsbD 63 = v.getLsbD 63 ∧
        bits (t.hreg (0x800 + 16 * i)) 47 32 = bits v 47 32 ∧ bits (t.hreg (0x800 + 16 * i)) 3 0 = bits v 3 0 ∧
        ∀ x ∈ t.fmmu, x.1 / 2 ^ 24 ≠ i) ∧
      ∃ t, exec (.fmpolWrite i 1 v) s = .next t ∧ t.hreg (0x808 + 16 * i) = v &&& 0x000FFFFFFFFF8000))

/-- R141-R148: a round of an enabled region with a neighbour starts once none is active with it, and in stepped mode as the
running `GSTEP` takes them; a split halves a line, keeps the rest, and sends the half as a message; one that arrives is refused,
acknowledged as a duplicate, or added to its line; an acknowledgment forgets a message, and a refusal and a reconciliation put it
back; and a region's descriptor and `GSCTL` take their writes from a function that serves. Where the spec leaves a point open it follows the model's choice,
log entries 3, 38 and 108. -/
def Obligations.Gossip : Prop :=
  (∀ (s : State) (p j n : Nat), GanderQuiet s p → s.ganderOn p = true → s.regionOn p n = true →
    (s.neighbour p j).isSome = true → j < 8 → n < 8 → (s.gand p j).active = [] →
    (s.steps = [] → s.stepped p = false →
      ∃ t, exec (.gossipRoundStart p j n) s = .next t ∧ AMap.find? (t.gand p j).active n = some [] ∧
        AMap.get (t.gand p j).counts n 0 = AMap.get (s.gand p j).counts n 0 + 1) ∧
    (∀ c id rest plan q, s.steps = (c, id) :: rest → (s.core c).req? id = some q → q.started = true → q.idn.part = p →
      s.stepPlan = (j, n) :: plan → (∀ i < 8, (s.gand p i).active = []) →
      ∃ t, exec (.gossipRoundStart p j n) s = .next t ∧ AMap.find? (t.gand p j).active n = some [] ∧ t.stepPlan = plan)) ∧
  (∀ (s : State) (p j n line chip : Nat) (taken : List Nat) (l : Loc), AMap.find? (s.gand p j).active n = some taken →
    LineAt s p n line l → line ∉ taken → (s.gand p j).flight.length < 256 → n ∉ (s.gand p j).stopped → s.ganderOn p = true →
    s.neighbour p j = some chip → s.netWaits (messageIfa chip line) = false →
    LinkSends s (codeOf (messageIfa chip line)) chip 5 → (s.stepped p = true → line = taken.length) →
    ∃ t f, exec (.gossipSplit p j n line) s = .next t ∧ (t.gand p j).flight = (s.gand p j).flight ++ [f] ∧
      f.seq = (s.gand p j).seq + 1 ∧ f.region = n ∧ f.line = line ∧ f.fpid = bits (s.hreg (0x600 + 8 * p)) 15 0 ∧
      f.sent = ((s.lineWords l).take 31).map (fun v => v.sshiftRight 1) ∧ f.sentw = (s.lineWords l).getD 31 0 >>> 1 ∧
      (∀ i < 31, (t.lineWords l).getD i 0 = (s.lineWords l).getD i 0 - ((s.lineWords l).getD i 0).sshiftRight 1) ∧
      (t.lineWords l).getD 31 0 = (s.lineWords l).getD 31 0 - (s.lineWords l).getD 31 0 >>> 1) ∧
  (∀ (s : State) (m : GossipMsg), s.policy m.fpid = none → Answers (.gossipMessageArrival m) s (.gossipRefused m.src m.seq)) ∧
  (∀ (s : State) (m : GossipMsg) (i : Nat), s.policy m.fpid = some i →
    let p := bits (s.hreg (0x800 + 16 * i)) 3 0
    let key := (m.src * 65536 + m.fpid % 65536) * 8 + m.entry % 8
    let fresh := newer m.seq (AMap.get s.applied key 0)
    (8 ≤ m.region ∨ s.regionOn p m.region = false ∨ s.regionLines p m.region ≤ m.line ∨
        (fresh = true ∧ s.gossipPlace p (s.regionVa p m.region m.line) = none) →
      Answers (.gossipMessageArrival m) s (.gossipRefused m.src m.seq)) ∧
    (∀ l, m.region < 8 → LineAt s p m.region m.line l →
      (fresh = false → exec (.gossipMessageArrival m) s = .next { s with answers := s.answers ++ [.gossipAck m.src m.seq] }) ∧
      (fresh = true → ∃ t, exec (.gossipMessageArrival m) s = .next t ∧
        t.answers = s.answers ++ [.gossipAck m.src m.seq] ∧ AMap.find? t.applied key = some m.seq ∧
        ((∀ j < 8, s.neighbour p j ≠ some m.src) → t.lineWords l = (addHalves (s.lineWords l) m.sent m.sentw).1)))) ∧
  (∀ (ws sent : List Word) (sentw : Word), ws.length = 32 → sent.length = 31 →
    let r := addHalves ws sent sentw
    r.1.length = 32 ∧ (∀ i < 31, r.1.getD i 0 = ws.getD i 0 + sent.getD i 0) ∧ r.1.getD 31 0 = ws.getD 31 0 + sentw) ∧
  (∀ (s : State) (p j : Nat) (seq : BitVec 32),
    (∃ t, exec (.gossipAck p j seq) s = .next t ∧ ∀ f ∈ (t.gand p j).flight, f.seq = seq → f.lost = true) ∧
    (∀ f l, (s.gand p j).flight.find? (fun f => f.seq == seq && !f.lost) = some f → s.gossipPlace p f.va = some l →
      (AMap.find? s.tlb (pageTag p (easidOf 0 l.va) l.va)).isSome = true →
      ∃ t, exec (.gossipRefusal p j seq) s = .next t ∧ f ∉ (t.gand p j).flight ∧
        bits (t.preg p 0x2348) 63 32 = min (2 ^ 32 - 1) (bits (s.preg p 0x2348) 63 32 + 1) ∧
        t.lineWords l = (addHalves (s.lineWords l) f.sent f.sentw).1) ∧
    ((∃ n < 8, s.planeLive n = true) →
      (∀ f ∈ (s.gand p j).flight, f.lost = true → newer f.seq seq = true → s.canAddBack p f = true) →
      ∃ t, exec (.gossipReconcile p j seq) s = .next t ∧ (∀ f ∈ (t.gand p j).flight, f.lost = false) ∧
        ((∀ f ∈ (s.gand p j).flight, f.lost = true → newer f.seq seq = false) → t.mem = s.mem))) ∧
  (∀ (s : State) (p n word : Nat) (v : Word), s.serves p = false → ∀ i ∈ [Instr.gsregWrite p n word v, .gsctlWrite p v],
    exec i s = .next { s with answers := s.answers ++ [.unsupportedRequest] }) ∧
  (∀ (s : State) (p n : Nat) (v : Word), n < 8 → p < 16 → s.serves p = true →
    (s.regionOn p n = false → v.getLsbD 63 = false → ∃ t, exec (.gsregWrite p n 0 v) s = .next t ∧
      t.gsreg p n 0 = v &&& 0x80FFFFFFFFFFFFFF) ∧
    (s.regionOn p n = false → v.getLsbD 63 = true → v.getLsbD 55 = true → -96 ≤ ((v.setWidth 8 : BitVec 8)).toInt →
      ((v.setWidth 8 : BitVec 8)).toInt ≤ 31 → ∃ t, exec (.gsregWrite p n 0 v) s = .next t ∧
        t.gsreg p n 0 = v &&& 0x80FFFFFFFFFFFFFF ∧ t.regionOn p n = true) ∧
    (v.getLsbD 63 = true → (s.regionOn p n = true ∨ v.getLsbD 55 = false ∨ ((v.setWidth 8 : BitVec 8)).toInt < -96 ∨
      31 < ((v.setWidth 8 : BitVec 8)).toInt) → exec (.gsregWrite p n 0 v) s = .next s) ∧
    (s.regionOn p n = true → v.getLsbD 63 = false → ∃ t, exec (.gsregWrite p n 0 v) s = .next t ∧ t.regionOn p n = false ∧
      ∀ j < 8, ((∀ f ∈ (s.gand p j).flight, f.region ≠ n) → AMap.find? (t.gand p j).active n = none) ∧
        ((∃ f ∈ (s.gand p j).flight, f.region = n) → (AMap.find? (s.gand p j).active n).isSome = true →
          n ∈ (t.gand p j).stopped)) ∧
    (s.regionOn p n = false → (∃ t, exec (.gsregWrite p n 1 v) s = .next t ∧ t.gsreg p n 1 = v &&& 0x00FFFFFFFFFFFC00) ∧
      ∃ t, exec (.gsregWrite p n 2 v) s = .next t ∧ t.gsreg p n 2 = v &&& 0xFFFFFF)) ∧
  (∀ (s : State) (p : Nat) (v : Word), p < 16 → s.serves p = true →
    (s.steps = [] → GanderQuiet s p → s.roundBusy p = false →
      ∃ t, exec (.gsctlWrite p v) s = .next t ∧ t.preg p 0x2300 = v &&& 0xC00000FFFFFFFFFF) ∧
    ((∃ j < 8, (s.gand p j).flight ≠ []) →
      ∃ t, exec (.gsctlWrite p v) s = .next t ∧ t.stepped p = s.stepped p ∧ t.ganderOn p = v.getLsbD 63))

/-- R374, R375: a function that is not enabled, or a range beyond its BAR, answers UR, and a page that the host may not use CA; a read is
answered with the bytes at its address, a write recalls every copy and writes them to memory, and an atomic writes the sum, the new
value, or that where the old one equals the comparand, and answers the old value. A completion gives a device request its data, or NOT_PRESENT. Where the spec leaves a point open it follows the
model's choice, log entries 83 and 92. -/
def Obligations.HostRequests : Prop :=
  (∀ (s : State) (x : Bar2), s.barServes x = false → Answers (.hostBar2Access x) s .unsupportedRequest ∧
    ∀ op cmp, Answers (.hostAtomicOp x op cmp) s .unsupportedRequest) ∧
  (∀ (s : State) (x : Bar2) (w : Word), s.barServes x = true → 0 < x.size → x.size ≤ 64 → (2 ^ 55 + x.off) % 64 + x.size ≤ 64 →
    let va := 2 ^ 55 + x.off
    Plain s x.part 0 va w → leafClass w = 0 →
    let l := leafLoc x.part 0 va w
    s.noGrant l.tag 0 = false →
    (x.write = false → w.getLsbD 56 = true → (s.sector l).poison = false →
      Answers (.hostBar2Access x) s (.completed (BitVec.ofNat 32768 (sectorValue (s.sector l).data va x.size)))) ∧
    (x.write = true → w.getLsbD 57 = true → w.getLsbD 60 = false →
      ∃ t, exec (.hostBar2Access x) s = .next t ∧ t.answers = s.answers ++ [.completed 0] ∧ t.copies l.tag = [] ∧
        Memory.readN t.mem (leafPa w (va / 64 * 64) / 64 * 64) 64 =
          (mergeSector (s.sector l).data (placeBytes va x.size x.data.toNat) (byteMask va x.size)).toNat) ∧
    (∀ op cmp, (x.size = 4 ∨ x.size = 8) → va % x.size = 0 → w.getLsbD 56 = true → w.getLsbD 57 = true → w.getLsbD 60 = false →
      (s.sector l).poison = false →
      (∃ t, exec (.hostAtomicOp x op cmp) s = .next t ∧ t.copies l.tag = [] ∧
        Memory.readN t.mem (leafPa w (va / 64 * 64) / 64 * 64) 64 = (mergeSector (s.sector l).data
          (placeBytes va x.size (hostAtom op (8 * x.size) (sectorValue (s.sector l).data va x.size) x.data.toNat cmp.toNat))
          (byteMask va x.size)).toNat) ∧
      Answers (.hostAtomicOp x op cmp) s (.completed (BitVec.ofNat 32768 (sectorValue (s.sector l).data va x.size))))) ∧
  (∀ (s : State) (x : Bar2) (leaf : Nat → Word), s.barServes x = true → 0 < x.size → x.write = false →
    (∀ i < x.size, let va := 2 ^ 55 + x.off + i
      Plain s x.part 0 va (leaf i) ∧ leafClass (leaf i) = 0 ∧ (leaf i).getLsbD 56 = true ∧
        s.noGrant (leafLoc x.part 0 va (leaf i)).tag 0 = false ∧ (s.sector (leafLoc x.part 0 va (leaf i))).poison = false) →
    ∃ d, Answers (.hostBar2Access x) s (.completed d) ∧ ∀ i < x.size, d.toNat / 2 ^ (8 * i) % 256 =
      sectorValue (s.sector (leafLoc x.part 0 (2 ^ 55 + x.off + i) (leaf i))).data (2 ^ 55 + x.off + i) 1) ∧
  (∀ (s : State) (x : Bar2), s.barServes x = true → 0 < x.size → x.size ≤ 64 → (2 ^ 55 + x.off) % 64 + x.size ≤ 64 →
    s.hostWindow x.part (2 ^ 55 + x.off) = false → s.leafOf x.part 0 (2 ^ 55 + x.off) = .unmapped →
    Answers (.hostBar2Access x) s .completerAbort) ∧
  (∀ (s : State) (id c rid idx : Nat) (r : HostReq) (q : Req) (a : Acc), s.host.find? (fun x => x.id == id) = some r →
    r.who = [(c, rid, idx)] → s.acc? c rid idx = some (q, a) → a.st = .sent id → (q.kind = .ld ∨ q.kind = .st) →
    (∀ data, ∃ t, exec (.hostCompletion id data false) s = .next t ∧
      (q.kind = .ld → t = Answered { s with host := s.host.filter fun x => x.id != id } c idx q a
        (data.toNat / 2 ^ (8 * (a.va - r.va)))) ∧
      Ended t c rid idx ∧ ∀ x ∈ t.host, x.id ≠ id) ∧
    (∀ data, (s.core c).aged = [] → ∃ t x, exec (.hostCompletion id data true) s = .next t ∧ InSt t c rid idx .logged ∧
      Joins (s.part q.idn.part).records (t.part q.idn.part).records x ∧ x.cause = 0x18))

/-! ## Encoding, frames, and what every step keeps -/

/-- R34-R55: every well-formed word decodes from its own encoding, and so does every clause header. -/
def Obligations.RoundTrip : Prop :=
  (∀ i : Instr, i.isWord = true → i.wf = true → decode (encode i) = .ok i ∧ encode i < 2 ^ 64) ∧
    ∀ h : Header, h.len ≠ 0 → (h.sfb = none ∨ h.sfa ≠ h.sfb) → decodeHeader (Header.encode h) = some h

/-- R53, R55: a word is accepted for one instruction, a well-formed one with no bit outside its fields, but for OP 0, which is
`ILL` throughout; and the words that the spec writes out stand for the instructions beside them. -/
def Obligations.WordsDecode : Prop :=
  (∀ w i, decode w = .ok i → i = .ill ∨ (i.wf = true ∧ encode i = w)) ∧ (∀ w < 2 ^ 56, decode w = .ok .ill) ∧
    decode 0x100E002006820008 = .ok (.iadd
      { g := ⟨7, false⟩, ty := .i32, rm := .rne, sat := false, d := .v 1, a := .v 0, b := .s 1 }) ∧
    decode 0x168E004000000002 = .ok (.shlImm { g := ⟨7, false⟩, w := false, d := .v 2, a := .v 0, imm := 2 }) ∧
    decode 0x838060708B412040 = .ok (.pairIadd { guard := 3, bank := 0, d := 3, a := .bank 7, imm := 0 }
      ⟨.fmul, { guard := 3, bank := 1, d := 4, a := .o 2, imm := 0 }⟩) ∧
    decode 0x0302800007FFFFFA = .ok (.bra { g := ⟨1, false⟩, uni := true, disp := -6 }) ∧
    decode 0x090E000000000000 = .ok (.exit ⟨7, false⟩) ∧ decode 0x0D0E000000000023 = .ok (.bar { g := ⟨7, false⟩, b := 3, c := 2 }) ∧
    decodeHeader 0x0140000F00000000 = some { len := 4, wait := 0, sfa := some 0, sfb := none }

/-- R48, R55, R281, log entry 1: with nothing on the schedule, a step executes the word at the chosen gang's PC: the bytes there
decode to a word that is legal for the group and its place, and the step is `exec` of that word. A word that is not legal traps
with ILLEGAL, a page that may not be executed with PERM, and a page that the core does not know is asked for. Else a step runs the
oldest entry of the schedule, or, with nothing at issue, a step that something waits for. Where the spec leaves a point open it follows the
model's choice, log entries 18, 22 and 23. -/
def Obligations.StepRunsDecoded : Prop :=
  (∀ (s : State) (p : Spot), s.agenda = [] → p.Issues s →
    (∀ w, s.fetch p.c p.g.part p.g.asid p.ga.pc = .ok w →
      (∀ i, decode w.toNat = .ok i → i.wfAt p.g.regs = true → (i.terminator = true → p.ga.idx + 1 = p.ga.len) →
        (s.full = true ∨ ∀ ty ∈ wordTypes i, ty ∉ [Ty.f16, .e4m3, .e5m2, .tf8, .tf6, .e8m0]) → step s = exec i s) ∧
      ((∀ i, decode w.toNat ≠ .ok i) → step s = .next (p.trapped s { cause := 0x01, lane := lowest p.m })) ∧
      (∀ i, decode w.toNat = .ok i → (i.wfAt p.g.regs = false ∨ (i.terminator = true ∧ p.ga.idx + 1 ≠ p.ga.len)) →
        step s = .next (p.trapped s { cause := 0x01, lane := lowest p.m }))) ∧
    (∀ n, s.fetch p.c p.g.part p.g.asid p.ga.pc = .bad n → step s = .next (p.trapped s { cause := n, lane := lowest p.m })) ∧
    (∀ n, s.fetch p.c p.g.part p.g.asid p.ga.pc = .miss n → step s = .next (p.held s [n]))) ∧
  (∀ (s : State) (i : Instr) (rest : List Instr), s.agenda = i :: rest →
    step s = if i.isWord then .next { s with agenda := rest } else exec i { s with agenda := rest }) ∧
  (∀ s : State, s.agenda = [] → s.issue = none → step s = exec s.nextStep s.spend) ∧
  (∀ (s : State) (c p asid : Nat) (pc : Word) (e : PlbEnt) (w : Word) (pa : Nat), (s.part p).killing.contains asid = false →
    let va := pc.toNat
    let m := AMap.get s.lmeta (leafPa w va / 256) {}
    let k := s.slot (leafKey w)
    va % 8 = 0 → va < 2 ^ 56 → AMap.find? (s.core c).plb (pageTag p (easidOf asid va) va) = some e →
    s.hostWindow p va = false → s.leafOf p (easidOf asid va) va = .leaf w pa → leafF w = false →
    s.lateCause p (easidOf asid va) va w false = none → s.cached = [] → m.slot = leafKey w → m.epoch = k.epoch → m.key = k.key →
    s.fetch c p asid pc = if e.x then .ok (BitVec.ofNat 64 (Memory.readN s.mem (leafPa w va) 8)) else .bad 0x09)

/-- The state at power-on. The spec gives (Tables 5.4, 6.3, 7.2, 9.4, 12.8, 17.1, 17.2): `GSCTL`, `SPCTL`, a clock of 1,800
MHz, every way and every slice of the shared caches for each partition, 300 W, a pre-emption budget of 16,384 clocks; planes in
their order and live; no partition enabled; four carved ways in each core. The rest is the model's choice: no group, run, cached
sector or translation is there (log entry 3), and memory is in its canonical form, listing what log entry 2 says. -/
def Obligations.ResetValues : Prop :=
  (∀ p < 16, State.reset.preg p 0x2300 = 0x8000003E8 ∧ State.reset.preg p 0x2500 = 2048 ∧ bits (State.reset.preg p 0x2800) 11 0 = 1800 ∧
    State.reset.hreg (0x400 + 8 * p) = 0xFFFF ∧ State.reset.hreg (0x480 + 8 * p) = 0xFF ∧ State.reset.hreg (0x500 + 8 * p) = 300 ∧
    State.reset.enabled p = false ∧ (State.reset.part p).prebudget = 16384) ∧
  (∀ c < 8, State.reset.planeOf c = c) ∧ State.reset.hreg 0x700 = 0xFFFAC688 ∧ State.reset.hreg 0x708 = 0x10000 ∧ (∀ c, (State.reset.core c).groups = [] ∧ (State.reset.core c).carve = 4) ∧
  State.reset.runs = [] ∧ State.reset.cached = [] ∧ State.reset.tlb = [] ∧ State.reset.hostUp = false ∧ State.reset.MemOk

/-- R186-R191, R42, R188: a word of one result for each lane writes its destination in the active lanes, shifts their last-result
files, and changes nothing else: no other register of any lane, no predicate or flag, no other group, no byte of any memory.
R42, R44, R191, R192, R243: a predicate, cross-lane or pair word changes only its destinations, in lanes at issue only (in active
lanes only, but for a pair word, whose slots have guards of their own), the last-result file, and its predicate. -/
def Obligations.LaneFrames : Prop :=
  (∀ table ∈ laneTables, ∀ (i : Instr) (w : LaneShape), table i = some w → i.wf = true → ∀ (s : State) (p : Spot), p.Issues s →
    p.Follows s → p.g.poisonTrap (p.ctx s w.gd).active w.srcs = none →
    ∃ t h, exec i s = .next t ∧ t.group? p.c p.slot = some h ∧ OnlyGroup s t p ∧ OnlyRegisters p.g h ∧
      Written p.g h (p.ctx s w.gd).act w.ty w.d fun l => w.f fun ty a => (p.ctx s w.gd).val p.g ty l a) ∧
  (∀ (i : Instr) (w : GroupShape), (predicates i = some w ∨ crossLane i = some w ∨ pairs i = some w) → i.wf = true →
    ∀ (s : State) (p : Spot), p.Issues s → p.Follows s → w.clean (p.ctx s w.gd) p.g →
    ∃ t h, exec i s = .next t ∧ t.group? p.c p.slot = some h ∧ OnlyGroup s t p ∧ OnlyRegisters p.g h ∧
      (∀ l < 64, ∀ code < 776, ((p.ctx s w.gd).act.getLsbD l = false ∨ ∀ d ∈ dstsOf i, inDst d.1 d.2 code = false) →
        h.vo32 l code = p.g.vo32 l code) ∧
      (∀ l < 64, ∀ n < 2, ((p.ctx s w.gd).act.getLsbD l = false ∨ dstsOf i = []) → lval h l n = lval p.g l n) ∧
      (∀ n < 64, ((p.ctx s w.gd).act = 0 ∨ ∀ d ∈ dstsOf i, inScalar d.1 d.2 n = false) → sval h n = sval p.g n) ∧
      ∀ q : Fin 8, ∀ l < 64, (predOf i ≠ some q ∨ (p.ctx s w.gd).act.getLsbD l = false) →
        (h.pred q.val).getLsbD l = (p.g.pred q.val).getLsbD l)

/-- R42: a word whose guard makes no lane active does nothing: memory words put out nothing, the words that trap fall through, and
so do the transfers. -/
def Obligations.GuardedOff : Prop :=
  ∀ (s : State) (p : Spot) (gd : Guard), p.Issues s → (p.ctx s gd).act = 0 →
    (∀ (i : Instr) (w : MemWord), memWordOf i = some (gd, w) → p.Follows s → exec i s = .next (p.after s s p.g)) ∧
    (HeaderAt s p (p.ga.pc + 8) → p.ga.idx + 1 = p.ga.len →
      (∀ (i : Instr) (y : CodeArgs) (cause : Nat), trapOf i = some (y, cause) → y.g = gd →
        exec i s = .next (moved s p (p.ahead s p.g))) ∧
      (∀ (uni : Bool) (disp : BitVec 27),
        exec (.bra ⟨gd, uni, disp⟩) s = .next (moved s p (arrivedAt s p p.g fun _ => p.ga.pc + 8)) ∧
        exec (.call ⟨gd, uni, disp⟩) s = .next (moved s p (arrivedAt s p p.g fun _ => p.ga.pc + 8))) ∧
      ∀ uni, exec (.ret gd uni) s = .next (moved s p (arrivedAt s p p.g fun _ => p.ga.pc + 8)))

/-- R194, R352, R353: a word that reads a poisoned register in an active lane traps with RF_POISON for the lowest such lane. A precise
trap of normal code leaves the word without effect: the registers stay, `FAULTPC` and `FAULTINFO` say where and why, the team is halted
and every memory is as it was, DRAM and the shared caches, and of every core the scratchpad, the operand buffer, the accumulators,
the L1, the combining buffer, the outstanding requests and the jobs of its engines; one in a trap handler ends the team with a DOUBLE record. -/
def Obligations.PreciseTraps : Prop :=
  (∀ table ∈ laneTables, ∀ (i : Instr) (w : LaneShape) (t : TrapInfo), table i = some w → i.wf = true → ∀ (s : State) (p : Spot),
    p.Issues s → p.g.poisonTrap (p.ctx s w.gd).active w.srcs = some t →
      t.cause = 0x02 ∧ t.lane ∈ (p.ctx s w.gd).active ∧ (∀ l ∈ (p.ctx s w.gd).active, l < t.lane → p.g.poisonAt l w.srcs = none) ∧
        ∃ u, u.cause = 0x02 ∧ u.lane = t.lane ∧ exec i s = .next (p.trapped s u)) ∧
  (∀ (s : State) (p : Spot) (t : TrapInfo), p.Issues s →
    let u := p.trapped s t
    (p.g.mode = .normal → ∀ c, (u.core c).ways = (s.core c).ways ∧ (u.core c).ob = (s.core c).ob ∧ (u.core c).acc = (s.core c).acc ∧
      (u.core c).l1 = (s.core c).l1 ∧ (u.core c).comb = (s.core c).comb ∧ (u.core c).reqs = (s.core c).reqs ∧
      (u.core c).oxq = (s.core c).oxq ∧ (u.core c).sfq = (s.core c).sfq) ∧
    (p.g.mode = .normal → u.mem = s.mem ∧ u.cached = s.cached ∧ (u.run p.g.run).halt = some { core := p.c, slot := p.slot } ∧
      ∃ h, u.group? p.c p.slot = some h ∧ SameRegisters p.g h ∧ h.mode = .normal ∧ h.halt = .stopped ∧ h.faultpc = p.ga.pc ∧
        h.atFault = p.m ∧ h.resumeNext = false ∧ bits h.faultinfo 63 56 = t.cause % 256 ∧ bits h.faultinfo 53 48 = t.lane % 64 ∧
        h.faultinfo.getLsbD 54 = t.fetch ∧ bits h.faultinfo 47 32 = t.code % 65536) ∧
    (p.g.mode = .normal → ∀ e ∈ (u.core p.c).table, ∀ ga, e.2.gang = some ga → ∀ x ∈ ga.members, x.1 ≠ p.slot) ∧
    (p.g.mode = .trap → (u.run p.g.run).killed = true ∧ ∃ r ∈ (u.part p.g.part).records, r.cause = 0x31))

/-- No step stops: in every state, whatever is scheduled or at issue, a step gives a next state (every word and event of the table has
an effect, a wait, or an exception). -/
def Obligations.StepNeverStops : Prop := ∀ s : State, SafeStep s

/-- Every step keeps the canonical form of memory. -/
def Obligations.MemoryStaysCanonical : Prop := ∀ s t : State, s.MemOk → step s = .next t → t.MemOk

/-- R113, R159, R165, R334: an atomic that performs gives its lane what stood at its place and leaves what Table 8.7 says: in a
scratchpad, in memory under its die's write grant at a wide scope, else in the L1. An atomic of scope `.grp` to a scratchpad may
first read, others' writes falling between that and its write; whether it does is free (log entry 93). One through a window is a
request of the fabric. Where the spec leaves a point open it follows the model's choice, log entries 33 and 40. -/
def Obligations.AtomicsPerform : Prop :=
  ∀ (s : State) (c id idx : Nat) (q : Req) (a : Acc), Turn s c id idx q a → q.kind ∈ [.atom, .fatom] → ReleaseOk s c q →
    q.size ∈ [4, 8] → a.va % q.size = 0 →
    let w := 8 * q.size
    let b := a.data.toNat % 2 ^ w
    let cmp := a.cmp.toNat % 2 ^ w
    (a.space ≠ .glb →
      let now := Memory.readN (s.core (placeCore a.va)).pad (placeKey a.va) q.size
      let old := if a.got then a.data.toNat / 2 ^ 64 % 2 ^ w else now
      (q.scope ≠ .grp ∨ a.got = true ∨ Config.freeBit s.free idx = false →
        ∃ t u, exec (.loadReturn c id idx) s = .next t ∧ Ended t c id idx ∧ SameGroups s u ∧ t = atomDone u c q idx a old ∧
          ∀ key, padByte t (placeCore a.va) key =
            if placeKey a.va ≤ key ∧ key < placeKey a.va + q.size then
              BitVec.ofNat 8 (atomC q.fn w old b cmp / 2 ^ (8 * (key - placeKey a.va)))
            else padByte s (placeCore a.va) key) ∧
      (q.scope = .grp → a.got = false → Config.freeBit s.free idx = true →
        ∃ t r x, exec (.loadReturn c id idx) s = .next t ∧ t.acc? c id idx = some (r, x) ∧ x.got = true ∧ x.st = a.st ∧
          x.data.toNat / 2 ^ 64 % 2 ^ w = now ∧ x.data.toNat % 2 ^ 64 = a.data.toNat % 2 ^ 64 ∧
          ∀ key, padByte t (placeCore a.va) key = padByte s (placeCore a.va) key)) ∧
    (∀ v, a.space = .glb → q.kind = .atom → Plain s q.idn.part (easidOf q.idn.asid a.va) a.va v →
      s.outwardMem q.idn.part a.va = false → bits (s.hreg (0x400 + 8 * q.idn.part)) 15 0 ≠ 0 →
      s.inShadow q.idn.part (easidOf q.idn.asid a.va) (a.va / 64 * 64) = false →
      let l := leafLoc q.idn.part (easidOf q.idn.asid a.va) a.va v
      (q.wide s = true → Granted s c a l → (s.sector l).poison = false →
        let old := sectorValue (s.sector l).data a.va q.size
        ∃ t u x, exec (.loadReturn c id idx) s = .next t ∧ Ended t c id idx ∧ SameGroups s u ∧ t = atomDone u c q idx a old ∧
          t.ownerCopy l.tag = some x ∧ x.st = .m ∧ x.holder = dieOf c ∧
          x.data = mergeSector (s.sector l).data (placeBytes a.va q.size (atomC q.fn w old b cmp)) (byteMask a.va q.size)) ∧
      (∀ y, q.wide s = false → StayingL1 (s.core c) →
        AMap.find? (s.core c).l1 l.tag = some y → y.full = true → y.poison = false →
        let old := sectorValue y.data a.va q.size
        ∃ t u z, exec (.loadReturn c id idx) s = .next t ∧ Ended t c id idx ∧ SameGroups s u ∧ t = atomDone u c q idx a old ∧
          AMap.find? (t.core c).l1 l.tag = some z ∧ z.dirty = y.dirty ||| byteMask a.va q.size ∧
          z.data = mergeSector y.data (placeBytes a.va q.size (atomC q.fn w old b cmp)) (byteMask a.va q.size))) ∧
    (∀ v pa, a.space = .glb → q.kind = .fatom → s.leafOf q.idn.part (easidOf q.idn.asid a.va) a.va = .leaf v pa →
      leafF v = true → s.hostWindow q.idn.part a.va = false →
      s.lateCause q.idn.part (easidOf q.idn.asid a.va) a.va v false = none → q.floor = 3 → s.draining q.idn.part q.idn.gid = false →
      (s.core c).comb = [] →
      ∃ t r, exec (.loadReturn c id idx) s = .next t ∧ InSt t c id idx (.sent s.next) ∧ r ∈ t.net ∧ r.id = s.next ∧
        r.ifa = leafIfa v a.va ∧ r.who = [(c, id, idx)] ∧ r.op = .atom q.fn (q.size == 8) (a.data.setWidth 64) a.cmp)

/-- R89-R94, R172, R176-R178: an `LDG` takes the value of a sector of its grade or above, with its predicate set; falls short with
zero and its predicate clear under `.nowait`; else parks at the home, or is refused where that has no room. `STG` and `AMEND` write
their bytes and the record of Table 4.2, which wakes the requests parked for that grade, or fault late and leave the sector as it
is. `GRD` gives the record, and `PROBE` the word of Table 8.8. Where the spec leaves a point open it follows the model's choice,
log entries 34, 35 and 40. -/
def Obligations.GradedPerform : Prop :=
  ∀ (s : State) (c id idx : Nat) (q : Req) (a : Acc), Turn s c id idx q a →
    let p := q.idn.part
    let e := easidOf q.idn.asid a.va
    (∀ w, Plain s p e a.va w → Granted s c a (leafLoc p e a.va w) → (s.core c).aged = [] →
      let l := leafLoc p e a.va w
      let x := s.sector l
      (q.kind = .ldg →
        (q.grade.code ≤ x.record.grade.code → x.poison = false → CountsOk s q (leafClass w) x.record →
          ∃ t u, exec (.loadReturn c id idx) s = .next t ∧ Ended t c id idx ∧ SameGroups s u ∧
            t = taken u c q idx a (sectorValue x.data a.va q.size)) ∧
        (x.record.grade.code < q.grade.code → q.nowait = true →
          ∃ t u, exec (.loadReturn c id idx) s = .next t ∧ Ended t c id idx ∧ SameGroups s u ∧
            t = (((u.deliver c q (loadTy q.size false) a.lane 0).lanePred q a.lane false).finishAcc c id idx .done).feedAged
              Config.agedEntries c) ∧
        (x.record.grade.code < q.grade.code → q.nowait = false →
          (s.parkedAt (s.home p e a.va) < 4096 → ∃ t, exec (.loadReturn c id idx) s = .next t ∧ InSt t c id idx .parked) ∧
          (4096 ≤ s.parkedAt (s.home p e a.va) → a.rejects + 1 < 16 →
            ∃ t, exec (.loadReturn c id idx) s = .next t ∧ InSt t c id idx .refused))) ∧
      (q.kind ∈ [.stg, .amend] → leafClass w ∈ [1, 3] → s.outwardMem p a.va = false → s.inShadow p e (a.va / 64 * 64) = false → bits (s.hreg (0x400 + 8 * p)) 15 0 ≠ 0 →
        (∀ r, table42 (q.kind == .amend) x.record q.grade q.gen q.depth q.limit = .inl r →
          ∃ t y, exec (.storeAcknowledge c id idx) s = .next t ∧ t.ownerCopy l.tag = some y ∧ y.st = .m ∧ y.holder = dieOf c ∧
            y.record = r ∧ y.data = mergeSector x.data a.data a.mask ∧
            ((∃ n, s.home p e l.va = .cxl n) → InSt t c id idx .port) ∧
            ((∀ n, s.home p e l.va ≠ .cxl n) → Ended t c id idx) ∧
            (∀ n, AMap.find? s.runs q.idn.run = some n → ∃ m, AMap.find? t.runs q.idn.run = some m ∧
              m.depth = if q.kind = .amend then max n.depth r.depth else n.depth) ∧
            ∀ c' id' idx' q' a', s.acc? c' id' idx' = some (q', a') → a'.st = .parked → a'.got = false →
              accTag q'.idn.part q' a' = l.tag → q'.grade.code ≤ r.grade.code →
              ∃ q2 a2, t.acc? c' id' idx' = some (q2, a2) ∧ a2.st = .parked ∧ a2.got = true ∧ a2.data = y.data) ∧
        (∀ n, table42 (q.kind == .amend) x.record q.grade q.gen q.depth q.limit = .inr n →
          exec (.storeAcknowledge c id idx) s = .next s ∧
          ∃ t, exec (.lateFault c id idx .none) s = .next t ∧ Ended t c id idx ∧ Recorded s t q a n ∧
            (t.sector l).data = x.data ∧ (t.sector l).record = x.record)) ∧
      (q.kind = .grd → ∃ t u, exec (.loadReturn c id idx) s = .next t ∧ Ended t c id idx ∧ SameGroups s u ∧
        t = (u.deliver c q .b32 a.lane (recWordC x.record)).finishAcc c id idx .done)) ∧
    (q.kind = .probe → ∀ v,
      (a.space ≠ .glb ∧ v = (if a.got then 0x40F else 0)) ∨ (a.space = .glb ∧ isCanonical a.va = false ∧ v = 0) ∨
        (a.space = .glb ∧ isCanonical a.va = true ∧
          ((∃ w pa, s.leafOf p e a.va = .leaf w pa ∧ v = probeC s p e a.va w) ∨
            (s.leafOf p e a.va ∈ [.unmapped, .bad] ∧ v = 0))) →
      ∃ t u, exec (.loadReturn c id idx) s = .next t ∧ Ended t c id idx ∧ SameGroups s u ∧
        t = (u.deliver c q .b32 a.lane v).finishAcc c id idx .done)

/-- R139, R149, R150: `GINIT` writes its word of the line; `GADD` adds its operand in the region's unit, rounded once, or faults late
with GOSSIP_OVERFLOW and leaves the line; `GREAD` gives the estimate, its predicate saying whether the line has a weight; and
`GSPREAD` gives the greatest disagreement with the valid shadow slots, its predicate saying whether it keeps the threshold. Nothing
but the line's bytes changes in memory. The shadow is that of the lowest region whose range holds the line, which is the model's
choice (log entry 119). -/
def Obligations.GossipPerform : Prop :=
  ∀ (s : State) (c id idx : Nat) (q : Req) (a : Acc) (l : Loc) (e : Int), Turn s c id idx q a → GossipAt s q a l →
    s.linePoison l = false → ExpOf s q.idn.part (a.va / 256 * 256) e →
    let i := a.va % 256 / 8
    let ws := s.lineWords l
    let wt := ws.getD 31 0
    let outside (t : State) : Prop := ∀ n, n / 256 ≠ l.pa / 256 → Memory.read t.mem n = Memory.read s.mem n
    (q.kind = .ginit → ∃ t, exec (.storeAcknowledge c id idx) s = .next t ∧ Ended t c id idx ∧ outside t ∧
      t.lineWords l = ws.set i (a.data.setWidth 64)) ∧
    (q.kind = .gadd → i < 31 →
      (∀ n, gaddC (a.data.toNat % 2 ^ 32) e (ws.getD i 0) = some n →
        ∃ t, exec (.storeAcknowledge c id idx) s = .next t ∧ Ended t c id idx ∧ outside t ∧
          t.lineWords l = ws.set i (ws.getD i 0 + BitVec.ofInt 64 n)) ∧
      (gaddC (a.data.toNat % 2 ^ 32) e (ws.getD i 0) = none → exec (.storeAcknowledge c id idx) s = .next s ∧
        ∃ t, exec (.lateFault c id idx .none) s = .next t ∧ Ended t c id idx ∧ Recorded s t q a 0x24 ∧ t.lineWords l = ws)) ∧
    (q.kind = .gread → ∃ t u, exec (.loadReturn c id idx) s = .next t ∧ Ended t c id idx ∧ SameGroups s u ∧
      t = ((u.deliver c q .f32 a.lane (estC (ws.getD i 0) wt e)).lanePred q a.lane (wt != 0)).finishAcc c id idx .done) ∧
    (q.kind = .gspread → a.va % 256 = 0 → ∀ spread : Nat,
      let inRange (n : Nat) : Prop := s.regionBase q.idn.part n ≤ a.va ∧ a.va < s.regionBase q.idn.part n + 256 * s.regionLines q.idn.part n
      ((∀ n < 8, ¬inRange n) → spread = infC) →
      (∀ n < 8, inRange n → (∀ m < n, ¬inRange m) →
        let slot (j k : Nat) : Nat := s.regionShadow q.idn.part n + 1024 * ((a.va - s.regionBase q.idn.part n) / 256) + 128 * j + 4 * k
        ∃ w : Nat → Word, (∀ j < 8, (s.neighbour q.idn.part j).isSome = true → ∀ k < 32,
          Plain s q.idn.part (easidOf 0 (slot j k)) (slot j k) (w j) ∧ (s.sector (leafLoc q.idn.part (easidOf 0 (slot j k)) (slot j k) (w j))).poison = false) ∧
        let word (j k : Nat) : Nat := sectorValue (s.sector (leafLoc q.idn.part (easidOf 0 (slot j k)) (slot j k) (w j))).data (slot j k) 4
        let valid := (List.range 8).filter fun j => (s.neighbour q.idn.part j).isSome && nbit (word j 31) 31
        spread = if valid = [] then infC
          else valid.foldl (fun m j => max m (disagreeC (fun k => estC (ws.getD k 0) wt e) (word j))) (if wt = 0 then infC else 0)) →
      ∃ t u, exec (.loadReturn c id idx) s = .next t ∧ Ended t c id idx ∧ SameGroups s u ∧
        t = ((u.deliver c q .f32 a.lane spread).lanePred q a.lane
          (fcmp .f32 spread (a.cmp.toNat % 2 ^ 32) == some .lt || fcmp .f32 spread (a.cmp.toNat % 2 ^ 32) == some .eq)).finishAcc
            c id idx .done)

/-- R113, R114, R151, R159, R184, R335: a fence, `ACQR`, `FFENCE` and `GFENCE`, which are tried when they are issued and at each turn
of their core's issue stage. A `FENCE` that releases waits until its group's earlier accesses have performed at its scope, one that
acquires until its strong reads have returned (log entry 114); an acquire of wide scope then drops the L1's clean unsealed lines.
`ACQR` writes back what its victim holds dirty when it comes, drops the victim's clean lines, and with the last write-back acquires.
`FFENCE` drains the group's combining entries and waits for its earlier requests of the fabric. `GFENCE` waits for its group's
`GADD`s and then for its number of rounds of each of their regions with every neighbour. -/
def Obligations.FencesComplete : Prop :=
  ∀ (s : State) (c : Nat) (q : Req), Waits s c q →
    let t := s.settleReq c q
    (q.kind = .fence →
      (q.ord = .rel ∨ q.ord = .ar → Flushed s c q → Earlier s c q = false → t = s) ∧
      (ReleaseOk s c q → q.ord = .acq ∨ q.ord = .ar → ¬ReadsBack s c q → t = s) ∧
      (ReleaseOk s c q → (q.ord = .acq ∨ q.ord = .ar → ReadsBack s c q) → Gone t c q ∧
        (q.ord = .acq ∨ q.ord = .ar → q.wide s = true → Drained (t.core c)) ∧
        ((q.ord ≠ .acq ∧ q.ord ≠ .ar) ∨ q.wide s = false → (t.core c).l1 = (s.core c).l1))) ∧
    (q.kind = .acqr → q.started = false → Drained (t.core q.n) ∧ (Gone t c q → Drained (t.core c)) ∧
      ((∀ x ∈ (s.core q.n).l1, x.2.dirty = 0) → Gone t c q) ∧
      (¬Gone t c q → ∃ r, (t.core c).req? q.id = some r ∧ r.started = true ∧ r.rounds ≠ [] ∧
        ∀ y ∈ r.rounds, ((t.core q.n).l1Sec y.1).dirty ≠ 0 ∧ ∃ x ∈ (s.core q.n).l1, x.1 = y.1 ∧ x.2.dirty ≠ 0)) ∧
    (q.kind = .acqr → q.started = true → (∀ y ∈ q.rounds, ((s.core q.n).l1Sec y.1).dirty = 0) → Gone t c q ∧ Drained (t.core c)) ∧
    (q.kind = .ffence →
      (∀ x ∈ (t.core c).comb, ¬HoldsOf s c q x) ∧
      ((∀ x ∈ (s.core c).comb, ¬HoldsOf s c q x) →
        ((∃ r ∈ (s.core c).reqs, r.idn.gid = q.idn.gid ∧ r.id < q.id ∧ ∃ a ∈ r.accs, OutThere s r a) → t = s) ∧
        ((∀ r ∈ (s.core c).reqs, r.idn.gid = q.idn.gid → r.id < q.id → ∀ a ∈ r.accs,
          a.finished = true ∨ (a.space ≠ .glb ∧ ¬OutThere s r a)) → Gone t c q))) ∧
    (q.kind = .gfence →
      let ahead := ∃ r ∈ (s.core c).reqs, r.idn.gid = q.idn.gid ∧ r.kind = .gadd ∧ r.id < q.id
      let valid := (List.range 8).filter fun j => (s.neighbour q.idn.part j).isSome
      (q.started = false → ahead → t = s) ∧
      (q.started = false → ¬ahead → q.n = 0 ∨ valid = [] ∨ q.words = [] → Gone t c q) ∧
      (q.started = false → ¬ahead → q.n ≠ 0 → valid ≠ [] → q.words ≠ [] → ∃ r, (t.core c).req? q.id = some r ∧ r.started = true ∧
        ∀ j n b, (j, n, b) ∈ r.rounds ↔ j ∈ valid ∧ n ∈ q.words.map BitVec.toNat ∧
          b = AMap.get (s.gand q.idn.part j).counts n 0) ∧
      (q.started = true →
        let g (y : Nat × Nat × Nat) : Gander := s.gand q.idn.part y.1
        let ran (y : Nat × Nat × Nat) : Nat := AMap.get (g y).counts y.2.1 0 - y.2.2
        let calm (y : Nat × Nat × Nat) : Prop := (g y).flight = [] ∧ AMap.get (g y).aborted y.2.1 [] = []
        (∀ y ∈ q.rounds, s.neighbour q.idn.part y.1 = none ∨
          (calm y ∧ AMap.find? (g y).active y.2.1 = none ∧ q.n ≤ ran y)) → Gone t c q) ∧
      (q.started = true → ∀ y ∈ q.rounds, (s.neighbour q.idn.part y.1).isSome = true →
        let g := s.gand q.idn.part y.1
        0 < q.n → AMap.get g.counts y.2.1 0 < y.2.2 + q.n ∨
          (AMap.get g.counts y.2.1 0 = y.2.2 + q.n ∧ (AMap.find? g.active y.2.1).isSome = true) → t = s))

/-- R78, R118, R119: `SEAL`, `UNSEAL` and `HARVEST`, which are tried as the fences are. A `SEAL` or `UNSEAL` of memory drops the range's
PLB entries and waits for what was checked before; then S is set in the leaves and every copy, one in an L1 too, is sealed, or S is clear and no
copy is left. A `HARVEST` waits for sectors in an engine's hands, takes the write grants of its range back, and moves the dirty bits
of the range to the leaves. -/
def Obligations.SealsAndHarvests : Prop :=
  ∀ (s : State) (c : Nat) (q : Req) (a : Acc), Waits s c q → q.accs = [a] → a.finished = false →
    let t := s.settleReq c q
    let within (x : Nat) : Prop := q.covers (tagPart x) (tagEasid x) (tagVa x) = true
    (q.kind ∈ [.seal, .unseal] → PlainRange s q →
      (q.started = false → NoPlb t q) ∧
      ((∃ x ∈ s.cached, within x.1 ∧ s.claimed x.1 = true) → q.kind = .seal →
        (∀ k ∈ s.cores, k.2.reqs = [q] ∨ k.2.reqs = []) → (∀ k ∈ s.cores, k.2.l1 = []) →
        ∃ r, (t.core c).req? q.id = some r ∧ r.started = true ∧ r.accs = [a] ∧ t.cached = s.cached ∧ t.tlb = s.tlb) ∧
      (Settled4 s q → Gone t c q ∧
        (q.kind = .seal → LeafBit s t q 60 true ∧ (∀ x, within x → ∀ y ∈ t.copies x, y.st = .sealed) ∧
          ∀ k ∈ t.cores, ∀ x ∈ k.2.l1, within x.1 → x.2.sealed = true) ∧
        (q.kind = .unseal → (q.started = false → LeafBit s t q 60 false) ∧ (∀ x, within x → t.copies x = []) ∧
          ∀ k ∈ t.cores, ∀ x ∈ k.2.l1, ¬within x.1))) ∧
    (q.kind = .harvest →
      ((∃ x ∈ s.cached, within x.1 ∧ s.claimed x.1 = true ∧ s.hostWindow (tagPart x.1) (tagVa x.1) = false ∧
          ∃ w pa, s.leafOf (tagPart x.1) (tagEasid x.1) (tagVa x.1) = .leaf w pa ∧ leafF w = false) → t = s) ∧
      (PlainRange s q → q.idn.asid < 4096 → (∀ va ∈ q.pages, va < 2 ^ 56) → (∀ x ∈ s.cached, s.claimed x.1 = false) → Gone t c q ∧
        (∀ x, within x → ∀ y ∈ t.copies x, y.st ≠ .m ∧ y.st ≠ .e) ∧
        (∀ va ∈ q.pages, ∀ e, AMap.find? t.tlb (pageTag q.idn.part (easidOf q.idn.asid va) va) = some e → e.dirty = false) ∧
        (s.cached = [] → ∀ va e w pa, q.pages = [va] →
          s.tlb = [(pageTag q.idn.part (easidOf q.idn.asid va) va, e)] → e.dirty = true →
          (s.reach q.idn.part (easidOf q.idn.asid va) va).2 = .leaf w pa →
          Memory.readN t.mem pa 8 = (w ||| 0x0800000000000000).toNat)))

/-- R131, R181, R182, R185: an `FPUT` keeps each 32 bytes of its source as they are read, and sends a destination line, once its
bytes are there, as one packet with the counter's address. An `FGET` asks for each source line in one request; a sector of its
destination lands as a whole, behind those of its source lines before it. `ACSET` writes TARGET and leaves COUNT; `ACWAIT` gives
COUNT once it has reached TARGET, which is an acquire, and else watches on. None of the copies starts before what comes before
engines has performed (R337). Where the spec leaves a point open it follows the model's choice, log entries 36, 49 and 112. -/
def Obligations.EnginesMove : Prop :=
  ∀ (s : State) (c id idx : Nat) (q : Req) (a : Acc), Turn s c id idx q a →
    let p := q.idn.part
    let line (v : Nat) : List (Nat × Acc) := (q.accs.zipIdx.map fun x => (x.2, x.1)).filter fun x => x.2.va / 256 == v / 256
    let window (va : Nat) (w : Word) : Prop := (∃ pa, s.leafOf p (easidOf q.idn.asid va) va = .leaf w pa) ∧ leafF w = true ∧
      s.hostWindow p va = false ∧ s.lateCause p (easidOf q.idn.asid va) va w false = none
    (q.kind ∈ [.fput, .fget] → a.got = false → s.engineReady c q = false →
      exec (.storeAcknowledge c id idx) s = .next s ∧ exec (.loadReturn c id idx) s = .next s) ∧
    (q.kind = .fput → a.got = false → s.engineReady c q = true → (∃ x ∈ line a.va, x.1 ≠ idx ∧ x.2.got = false) →
      (q.space ≠ .glb → ∃ t r b, exec (.storeAcknowledge c id idx) s = .next t ∧ t.acc? c id idx = some (r, b) ∧ b.got = true ∧
        b.st = a.st ∧ b.data.toNat = Memory.readN (s.core (placeCore a.cmp.toNat)).pad (placeKey a.cmp.toNat) 32) ∧
      (∀ w, q.space = .glb → Plain s p (easidOf q.idn.asid a.cmp.toNat) a.cmp.toNat w →
        let l := leafLoc p (easidOf q.idn.asid a.cmp.toNat) a.cmp.toNat w
        s.noGrant l.tag id = false → (s.sector l).poison = false → CountsOk s q (leafClass w) (s.sector l).record →
        ∃ t r b, exec (.storeAcknowledge c id idx) s = .next t ∧ t.acc? c id idx = some (r, b) ∧ b.got = true ∧ b.st = a.st ∧
          b.data.toNat = sectorValue (s.sector l).data a.cmp.toNat 32)) ∧
    (∀ w, q.kind = .fput → (∀ x ∈ line a.va, x.2.got = true ∧ x.2.st = .waiting ∧ x.2.va % 32 = 0 ∧ x.2.data.toNat < 2 ^ 256) →
      (line a.va).Pairwise (fun x y => x.2.va ≠ y.2.va) → window a.va w → q.floor = 3 → s.draining p q.idn.gid = false →
      (s.core c).comb = [] → (∀ ctr, q.words[3]? = some ctr → ctr = BitVec.allOnes 64 ∨ chipOf ctr = chipOf (leafIfa w a.va)) →
      ∃ t r m d ctr, exec (.storeAcknowledge c id idx) s = .next t ∧ r ∈ t.net ∧ r.id = s.next ∧ r.op = .bulk m d ctr ∧
        r.ifa = leafIfa w (a.va / 256 * 256) ∧ r.who = (line a.va).map (fun x => (c, id, x.1)) ∧
        ctr = (q.words[3]?.bind fun x => if x = BitVec.allOnes 64 then none else some x) ∧
        (∀ x ∈ line a.va, InSt t c id x.1 (.sent s.next) ∧ ∀ i < 32, m.getLsbD (x.2.va % 256 + i) = true ∧
          d.toNat / 2 ^ (8 * (x.2.va % 256 + i)) % 256 = x.2.data.toNat / 2 ^ (8 * i) % 256) ∧
        ∀ i < 256, m.getLsbD i = true → ∃ x ∈ line a.va, x.2.va % 256 ≤ i ∧ i < x.2.va % 256 + 32) ∧
    (∀ w, q.kind = .fget → a.got = false → s.engineReady c q = true → (a.space = .glb → q.floor = 3) → (s.core c).comb = [] →
      let l := (q.accs.zipIdx.map fun x => (x.2, x.1)).filter fun x =>
        x.2.cmp.toNat / 256 == a.cmp.toNat / 256 && x.2.st == .waiting && !x.2.got
      a.st = .waiting → (∀ x ∈ l, window x.2.cmp.toNat w) →
      ∃ t r n, exec (.loadReturn c id idx) s = .next t ∧ r ∈ t.net ∧ r.id = s.next ∧ r.op = .fetch n ∧
        r.who = l.map (fun x => (c, id, x.1)) ∧ r.ifa = leafIfa w r.va ∧ (∃ x ∈ l, r.va = x.2.cmp.toNat) ∧
        (∃ x ∈ l, r.va + n = x.2.cmp.toNat + 32) ∧
        ∀ x ∈ l, InSt t c id x.1 (.sent s.next) ∧ r.va ≤ x.2.cmp.toNat ∧ x.2.cmp.toNat + 32 ≤ r.va + n) ∧
    (q.kind = .fget → a.got = true → a.st = .waiting →
      let l := (q.accs.zipIdx.map fun x => (x.2, x.1)).filter fun x => x.1 == idx || (x.2.va / 64 == a.va / 64 && x.2.going)
      let first := ∀ x ∈ l, ∀ b ∈ q.accs.zipIdx, b.2 < x.1 → b.1.cmp.toNat / 256 = x.2.cmp.toNat / 256 → b.1.going = true →
        ∃ y ∈ l, y.1 = b.2
      ((∃ x ∈ l, x.2.got = false ∨ x.2.st ≠ .waiting) ∨ ¬first → exec (.loadReturn c id idx) s = .next s) ∧
      ((∀ x ∈ l, x.2.got = true ∧ x.2.st = .waiting ∧ x.2.va % 32 = 0 ∧ x.2.space = a.space) → first →
        l.Pairwise (fun x y => x.2.va ≠ y.2.va) →
        (a.space ≠ .glb → ∃ t, exec (.loadReturn c id idx) s = .next t ∧ (∀ x ∈ l, Ended t c id x.1 ∧
            Memory.readN (t.core (placeCore a.va)).pad (placeKey x.2.va) 32 = x.2.data.toNat % 2 ^ 256) ∧
          ∀ key, (∀ x ∈ l, key < placeKey x.2.va ∨ placeKey x.2.va + 32 ≤ key) →
            padByte t (placeCore a.va) key = padByte s (placeCore a.va) key) ∧
        (∀ w, a.space = .glb → (∃ pa, s.leafOf p (easidOf q.idn.asid a.va) a.va = .leaf w pa) → leafF w = false →
          s.hostWindow p a.va = false → s.lateCause p (easidOf q.idn.asid a.va) a.va w false = none →
          (AMap.find? s.tlb (pageTag p (easidOf q.idn.asid a.va) a.va)).isSome = true →
          s.outwardMem p a.va = false → bits (s.hreg (0x400 + 8 * p)) 15 0 ≠ 0 →
          s.inShadow p (easidOf q.idn.asid a.va) (a.va / 64 * 64) = false →
          let loc := leafLoc p (easidOf q.idn.asid a.va) a.va w
          (∃ y, s.copies loc.tag = [y] ∧ y.st = .e ∧ y.holder = s.fgetPort q (a.va / 64)) →
          ∃ t z, exec (.loadReturn c id idx) s = .next t ∧ t.ownerCopy loc.tag = some z ∧ z.st = .m ∧
            (∀ x ∈ l, Ended t c id x.1 ∧ sectorValue z.data x.2.va 32 = x.2.data.toNat % 2 ^ 256) ∧
            ∀ i < 64, (∀ x ∈ l, i < x.2.va % 64 ∨ x.2.va % 64 + 32 ≤ i) →
              sectorValue z.data i 1 = sectorValue (s.sector loc).data i 1))) ∧
    (q.kind = .acset → a.va % 16 = 0 → ∃ t, exec (.storeAcknowledge c id idx) s = .next t ∧ Ended t c id idx ∧
      ∀ key, padByte t (placeCore a.va) key =
        if placeKey a.va + 8 ≤ key ∧ key < placeKey a.va + 16 then
          BitVec.ofNat 8 (a.data.toNat / 2 ^ (8 * (key - (placeKey a.va + 8))))
        else padByte s (placeCore a.va) key) ∧
    (q.kind = .acwait → a.va % 16 = 0 →
      let m := (s.core (placeCore a.va)).pad
      let count := Memory.readN m (placeKey a.va) 8
      let target := Memory.readN m (placeKey a.va + 8) 8
      (target ≤ count → ∃ t, exec (.loadReturn c id idx) s = .next t ∧ Ended t c id idx ∧ Drained (t.core c) ∧
        t = ((s.deliver c q .b64 a.lane count).modCore c Core.dropClean).finishAcc c q.id idx .done) ∧
      (count < target → ∃ t, exec (.loadReturn c id idx) s = .next t ∧ InSt t c id idx .watching))
end

