-- ==== Sys2Proof/Laws/Maps.lean ====
section
/-! SUPPORT. Laws of finite maps and of byte memory: a read after a write, what a write leaves alone, and that every
memory operation keeps the canonical form. -/

namespace Sys2Proof.Machine

/-! ### Finite maps -/

@[simp] theorem AMap.find?_put_same {α : Type} (m : AMap α) (k : Nat) (v : α) : AMap.find? (AMap.put m k v) k = some v := by
  induction m with
  | nil => simp [AMap.put, AMap.find?]
  | cons x t ih =>
    simp only [AMap.put]
    split
    · simp [AMap.find?]
    · split
      · simp [AMap.find?]
      · rename_i h
        simp [AMap.find?, Ne.symm h, ih]

theorem AMap.find?_put_other {α : Type} (m : AMap α) {k j : Nat} (v : α) (h : j ≠ k) :
    AMap.find? (AMap.put m k v) j = AMap.find? m j := by
  induction m with
  | nil => simp [AMap.put, AMap.find?, Ne.symm h]
  | cons x t ih =>
    simp only [AMap.put]
    split
    · simp [AMap.find?, Ne.symm h]
    · split
      · rename_i e
        simp [AMap.find?, ← e, Ne.symm h]
      · simp [AMap.find?, ih]

@[simp] theorem AMap.put_put {α : Type} (m : AMap α) (k : Nat) (v w : α) :
    AMap.put (AMap.put m k v) k w = AMap.put m k w := by
  induction m with
  | nil => simp [AMap.put]
  | cons x t ih =>
    simp only [AMap.put]
    split
    · simp [AMap.put]
    · split
      · simp [AMap.put]
      · rename_i h1 h2
        simp [AMap.put, h1, h2, ih]

@[simp] theorem AMap.get_put_same {α : Type} (m : AMap α) (k : Nat) (v d : α) : AMap.get (AMap.put m k v) k d = v := by
  simp [AMap.get]

theorem AMap.get_put_other {α : Type} (m : AMap α) {k j : Nat} (v d : α) (h : j ≠ k) :
    AMap.get (AMap.put m k v) j d = AMap.get m j d := by
  simp [AMap.get, AMap.find?_put_other m v h]

@[simp] theorem AMap.find?_del_same {α : Type} (m : AMap α) (k : Nat) : AMap.find? (AMap.del m k) k = none := by
  induction m with
  | nil => rfl
  | cons x t ih =>
    unfold AMap.del at ih ⊢
    rw [List.filter_cons]
    by_cases h : x.1 = k
    · rw [if_neg (by simpa using h)]
      exact ih
    · rw [if_pos (by simpa using h)]
      simp only [AMap.find?, if_neg h]
      exact ih

theorem AMap.find?_del_other {α : Type} (m : AMap α) {k j : Nat} (h : j ≠ k) :
    AMap.find? (AMap.del m k) j = AMap.find? m j := by
  induction m with
  | nil => rfl
  | cons x t ih =>
    unfold AMap.del at ih ⊢
    rw [List.filter_cons]
    by_cases e : x.1 = k
    · rw [if_neg (by simpa using e)]
      simp only [AMap.find?, e, if_neg (Ne.symm h)]
      exact ih
    · rw [if_pos (by simpa using e)]
      simp only [AMap.find?, ih]

@[simp] theorem AMap.find?_upd_same {α : Type} (m : AMap α) (k : Nat) (f : α → α) :
    AMap.find? (AMap.upd m k f) k = (AMap.find? m k).map f := by
  induction m with
  | nil => rfl
  | cons x t ih =>
    unfold AMap.upd at ih ⊢
    by_cases e : x.1 = k
    · simp [e, AMap.find?]
    · simp [e, AMap.find?, ih]

theorem AMap.find?_upd_other {α : Type} (m : AMap α) {k j : Nat} (f : α → α) (h : j ≠ k) :
    AMap.find? (AMap.upd m k f) j = AMap.find? m j := by
  induction m with
  | nil => rfl
  | cons x t ih =>
    unfold AMap.upd at ih ⊢
    by_cases e : x.1 = k
    · simp [e, AMap.find?, ih, Ne.symm h]
    · simp [e, AMap.find?, ih]

/-- A map lists a key where a key is at least as great as every entry below. -/
theorem AMap.find?_of_lt {α : Type} (m : AMap α) (k : Nat) (h : ∀ x ∈ m, k < x.1) : AMap.find? m k = none := by
  induction m with
  | nil => rfl
  | cons x t ih =>
    have h1 := h x (by simp)
    simp only [AMap.find?]
    rw [if_neg (by omega)]
    exact ih fun y hy => h y (by simp [hy])

/-- Strictly rising keys, said of all pairs. -/
theorem AMap.rising_iff {α : Type} (m : AMap α) : AMap.rising m = true ↔ m.Pairwise fun a b => a.1 < b.1 := by
  induction m with
  | nil => simp [AMap.rising]
  | cons x t ih =>
    cases t with
    | nil => simp [AMap.rising]
    | cons y u =>
      simp only [AMap.rising, Bool.and_eq_true, decide_eq_true_eq, ih]
      constructor
      · rintro ⟨h1, h2⟩
        refine List.Pairwise.cons ?_ h2
        intro z hz
        rcases List.mem_cons.mp hz with rfl | hz
        · exact h1
        · exact Nat.lt_trans h1 ((List.pairwise_cons.mp h2).1 z hz)
      · intro h
        have h' := List.pairwise_cons.mp h
        exact ⟨h'.1 y (by simp), h'.2⟩

theorem AMap.mem_put {α : Type} (m : AMap α) (k : Nat) (v : α) (x : Nat × α) (h : x ∈ AMap.put m k v) :
    x = (k, v) ∨ x ∈ m := by
  induction m with
  | nil => simpa [AMap.put] using h
  | cons y t ih =>
    simp only [AMap.put] at h
    split at h
    · simpa using h
    · split at h
      · rcases List.mem_cons.mp h with h | h
        · exact .inl h
        · exact .inr (by simp [h])
      · rcases List.mem_cons.mp h with h | h
        · exact .inr (by simp [h])
        · rcases ih h with h | h
          · exact .inl h
          · exact .inr (by simp [h])

theorem AMap.rising_put {α : Type} (m : AMap α) (k : Nat) (v : α) (h : AMap.rising m = true) :
    AMap.rising (AMap.put m k v) = true := by
  rw [AMap.rising_iff] at h ⊢
  induction m with
  | nil => simp [AMap.put]
  | cons x t ih =>
    have hx := List.pairwise_cons.mp h
    simp only [AMap.put]
    split
    · rename_i hk
      refine List.Pairwise.cons ?_ h
      intro z hz
      rcases List.mem_cons.mp hz with rfl | hz
      · exact hk
      · exact Nat.lt_trans hk (hx.1 z hz)
    · split
      · rename_i hk
        subst hk
        exact List.Pairwise.cons hx.1 hx.2
      · refine List.Pairwise.cons ?_ (ih hx.2)
        intro z hz
        rcases AMap.mem_put t k v z hz with rfl | hz
        · simp only; omega
        · exact hx.1 z hz

theorem AMap.rising_del {α : Type} (m : AMap α) (k : Nat) (h : AMap.rising m = true) :
    AMap.rising (AMap.del m k) = true := by
  rw [AMap.rising_iff] at h ⊢
  exact h.filter _

/-! ### Byte memory -/

@[simp] theorem Memory.read_write_same (m : Memory) (a : Nat) (b : Byte) : Memory.read (Memory.write m a b) a = b := by
  unfold Memory.read Memory.write
  split
  · rename_i h
    simp [AMap.get, h]
  · simp

theorem Memory.read_write_other (m : Memory) {a j : Nat} (b : Byte) (h : j ≠ a) :
    Memory.read (Memory.write m a b) j = Memory.read m j := by
  unfold Memory.read Memory.write
  split
  · simp [AMap.get, AMap.find?_del_other m h]
  · exact AMap.get_put_other m b _ h

theorem Memory.wf_write (m : Memory) (a : Nat) (b : Byte) (h : Memory.wf m = true) :
    Memory.wf (Memory.write m a b) = true := by
  simp only [Memory.wf, Bool.and_eq_true, List.all_eq_true] at h ⊢
  unfold Memory.write
  split
  · refine ⟨AMap.rising_del m a h.1, fun x hx => h.2 x ?_⟩
    exact (List.mem_filter.mp hx).1
  · rename_i hb
    refine ⟨AMap.rising_put m a b h.1, fun x hx => ?_⟩
    rcases AMap.mem_put m a b x hx with rfl | hx
    · simpa using hb
    · exact h.2 x hx

theorem Memory.wf_writeN (m : Memory) (a n v : Nat) (h : Memory.wf m = true) :
    Memory.wf (Memory.writeN m a n v) = true := by
  induction n generalizing m a v with
  | zero => exact h
  | succ n ih => exact ih _ _ _ (Memory.wf_write m a _ h)

/-- A wide write leaves every byte outside its range alone. -/
theorem Memory.read_writeN_other (m : Memory) (a n v j : Nat) (h : j < a ∨ a + n ≤ j) :
    Memory.read (Memory.writeN m a n v) j = Memory.read m j := by
  induction n generalizing m a v with
  | zero => rfl
  | succ n ih =>
    simp only [Memory.writeN]
    rw [ih _ _ _ (by omega), Memory.read_write_other m _ (by omega)]

/-- The byte at offset `i` of a wide write is byte `i` of the value, little-endian (R7). -/
theorem Memory.read_writeN (m : Memory) (a n v i : Nat) (h : i < n) :
    Memory.read (Memory.writeN m a n v) (a + i) = BitVec.ofNat 8 (v / 256 ^ i) := by
  induction n generalizing m a v i with
  | zero => omega
  | succ n ih =>
    simp only [Memory.writeN]
    cases i with
    | zero =>
      rw [Memory.read_writeN_other _ _ _ _ _ (by omega)]
      simp
    | succ i =>
      rw [show a + (i + 1) = a + 1 + i by omega, ih _ _ _ _ (by omega), Nat.pow_succ, Nat.mul_comm, Nat.div_div_eq_div_mul]

theorem Memory.readN_congr (m m' : Memory) (a n : Nat) (h : ∀ j, a ≤ j → j < a + n → Memory.read m' j = Memory.read m j) :
    Memory.readN m' a n = Memory.readN m a n := by
  induction n generalizing a with
  | zero => rfl
  | succ n ih =>
    simp only [Memory.readN]
    rw [h a (by omega) (by omega), ih (a + 1) fun j h1 h2 => h j (by omega) (by omega)]

/-- What a wide write stores, a wide read of the same range reads. -/
theorem Memory.readN_writeN (m : Memory) (a n v : Nat) : Memory.readN (Memory.writeN m a n v) a n = v % 256 ^ n := by
  induction n generalizing m a v with
  | zero => simp [Memory.readN, Nat.mod_one]
  | succ n ih =>
    simp only [Memory.readN, Memory.writeN]
    rw [ih, Memory.read_writeN_other _ _ _ _ _ (by omega)]
    rw [Memory.read_write_same, BitVec.toNat_ofNat, show 256 ^ (n + 1) = 256 * 256 ^ n by rw [Nat.pow_succ, Nat.mul_comm],
      Nat.mod_mul]

end Sys2Proof.Machine
end

