-- ==== Sys2Proof/Laws/State.lean ====
section
/-! SUPPORT. What each update of the state leaves alone, field by field, and what reads of the updated part give. -/

namespace Sys2Proof.Machine

/-! ### `State.setCore` -/

@[simp] theorem State.setCore_agenda (s : State) (c : Nat) (k : Core) : (s.setCore c k).agenda = s.agenda := rfl
@[simp] theorem State.setCore_issue (s : State) (c : Nat) (k : Core) : (s.setCore c k).issue = s.issue := rfl
@[simp] theorem State.setCore_free (s : State) (c : Nat) (k : Core) : (s.setCore c k).free = s.free := rfl
@[simp] theorem State.setCore_next (s : State) (c : Nat) (k : Core) : (s.setCore c k).next = s.next := rfl
@[simp] theorem State.setCore_runs (s : State) (c : Nat) (k : Core) : (s.setCore c k).runs = s.runs := rfl
@[simp] theorem State.setCore_parts (s : State) (c : Nat) (k : Core) : (s.setCore c k).parts = s.parts := rfl
@[simp] theorem State.setCore_hregs (s : State) (c : Nat) (k : Core) : (s.setCore c k).hregs = s.hregs := rfl
@[simp] theorem State.setCore_mem (s : State) (c : Nat) (k : Core) : (s.setCore c k).mem = s.mem := rfl
@[simp] theorem State.setCore_lmeta (s : State) (c : Nat) (k : Core) : (s.setCore c k).lmeta = s.lmeta := rfl
@[simp] theorem State.setCore_rmap (s : State) (c : Nat) (k : Core) : (s.setCore c k).rmap = s.rmap := rfl
@[simp] theorem State.setCore_tlb (s : State) (c : Nat) (k : Core) : (s.setCore c k).tlb = s.tlb := rfl
@[simp] theorem State.setCore_cached (s : State) (c : Nat) (k : Core) : (s.setCore c k).cached = s.cached := rfl
@[simp] theorem State.setCore_keys (s : State) (c : Nat) (k : Core) : (s.setCore c k).keys = s.keys := rfl
@[simp] theorem State.setCore_bins (s : State) (c : Nat) (k : Core) : (s.setCore c k).bins = s.bins := rfl
@[simp] theorem State.setCore_net (s : State) (c : Nat) (k : Core) : (s.setCore c k).net = s.net := rfl
@[simp] theorem State.setCore_host (s : State) (c : Nat) (k : Core) : (s.setCore c k).host = s.host := rfl
@[simp] theorem State.setCore_gander (s : State) (c : Nat) (k : Core) : (s.setCore c k).gander = s.gander := rfl
@[simp] theorem State.setCore_softErrors (s : State) (c : Nat) (k : Core) : (s.setCore c k).softErrors = s.softErrors := rfl
@[simp] theorem State.setCore_errorLog (s : State) (c : Nat) (k : Core) : (s.setCore c k).errorLog = s.errorLog := rfl
@[simp] theorem State.setCore_replies (s : State) (c : Nat) (k : Core) : (s.setCore c k).replies = s.replies := rfl
@[simp] theorem State.setCore_walks (s : State) (c : Nat) (k : Core) : (s.setCore c k).walks = s.walks := rfl
@[simp] theorem State.setCore_inbox (s : State) (c : Nat) (k : Core) : (s.setCore c k).inbox = s.inbox := rfl
@[simp] theorem State.setCore_steps (s : State) (c : Nat) (k : Core) : (s.setCore c k).steps = s.steps := rfl
@[simp] theorem State.setCore_stepPlan (s : State) (c : Nat) (k : Core) : (s.setCore c k).stepPlan = s.stepPlan := rfl
@[simp] theorem State.setCore_shades (s : State) (c : Nat) (k : Core) : (s.setCore c k).shades = s.shades := rfl
@[simp] theorem State.setCore_applied (s : State) (c : Nat) (k : Core) : (s.setCore c k).applied = s.applied := rfl
@[simp] theorem State.setCore_fmmu (s : State) (c : Nat) (k : Core) : (s.setCore c k).fmmu = s.fmmu := rfl
@[simp] theorem State.setCore_links (s : State) (c : Nat) (k : Core) : (s.setCore c k).links = s.links := rfl
@[simp] theorem State.setCore_dies (s : State) (c : Nat) (k : Core) : (s.setCore c k).dies = s.dies := rfl
@[simp] theorem State.setCore_cxl (s : State) (c : Nat) (k : Core) : (s.setCore c k).cxl = s.cxl := rfl
@[simp] theorem State.setCore_ideKeys (s : State) (c : Nat) (k : Core) : (s.setCore c k).ideKeys = s.ideKeys := rfl
@[simp] theorem State.setCore_hostUp (s : State) (c : Nat) (k : Core) : (s.setCore c k).hostUp = s.hostUp := rfl
@[simp] theorem State.setCore_full (s : State) (c : Nat) (k : Core) : (s.setCore c k).full = s.full := rfl
@[simp] theorem State.setCore_fullPending (s : State) (c : Nat) (k : Core) : (s.setCore c k).fullPending = s.fullPending := rfl
@[simp] theorem State.setCore_irqs (s : State) (c : Nat) (k : Core) : (s.setCore c k).irqs = s.irqs := rfl
@[simp] theorem State.setCore_answers (s : State) (c : Nat) (k : Core) : (s.setCore c k).answers = s.answers := rfl

/-! ### `State.modCore` -/

@[simp] theorem State.modCore_agenda (s : State) (c : Nat) (f : Core → Core) : (s.modCore c f).agenda = s.agenda := rfl
@[simp] theorem State.modCore_issue (s : State) (c : Nat) (f : Core → Core) : (s.modCore c f).issue = s.issue := rfl
@[simp] theorem State.modCore_free (s : State) (c : Nat) (f : Core → Core) : (s.modCore c f).free = s.free := rfl
@[simp] theorem State.modCore_next (s : State) (c : Nat) (f : Core → Core) : (s.modCore c f).next = s.next := rfl
@[simp] theorem State.modCore_runs (s : State) (c : Nat) (f : Core → Core) : (s.modCore c f).runs = s.runs := rfl
@[simp] theorem State.modCore_parts (s : State) (c : Nat) (f : Core → Core) : (s.modCore c f).parts = s.parts := rfl
@[simp] theorem State.modCore_hregs (s : State) (c : Nat) (f : Core → Core) : (s.modCore c f).hregs = s.hregs := rfl
@[simp] theorem State.modCore_mem (s : State) (c : Nat) (f : Core → Core) : (s.modCore c f).mem = s.mem := rfl
@[simp] theorem State.modCore_lmeta (s : State) (c : Nat) (f : Core → Core) : (s.modCore c f).lmeta = s.lmeta := rfl
@[simp] theorem State.modCore_rmap (s : State) (c : Nat) (f : Core → Core) : (s.modCore c f).rmap = s.rmap := rfl
@[simp] theorem State.modCore_tlb (s : State) (c : Nat) (f : Core → Core) : (s.modCore c f).tlb = s.tlb := rfl
@[simp] theorem State.modCore_cached (s : State) (c : Nat) (f : Core → Core) : (s.modCore c f).cached = s.cached := rfl
@[simp] theorem State.modCore_keys (s : State) (c : Nat) (f : Core → Core) : (s.modCore c f).keys = s.keys := rfl
@[simp] theorem State.modCore_bins (s : State) (c : Nat) (f : Core → Core) : (s.modCore c f).bins = s.bins := rfl
@[simp] theorem State.modCore_net (s : State) (c : Nat) (f : Core → Core) : (s.modCore c f).net = s.net := rfl
@[simp] theorem State.modCore_host (s : State) (c : Nat) (f : Core → Core) : (s.modCore c f).host = s.host := rfl
@[simp] theorem State.modCore_gander (s : State) (c : Nat) (f : Core → Core) : (s.modCore c f).gander = s.gander := rfl
@[simp] theorem State.modCore_softErrors (s : State) (c : Nat) (f : Core → Core) : (s.modCore c f).softErrors = s.softErrors := rfl
@[simp] theorem State.modCore_errorLog (s : State) (c : Nat) (f : Core → Core) : (s.modCore c f).errorLog = s.errorLog := rfl
@[simp] theorem State.modCore_replies (s : State) (c : Nat) (f : Core → Core) : (s.modCore c f).replies = s.replies := rfl
@[simp] theorem State.modCore_walks (s : State) (c : Nat) (f : Core → Core) : (s.modCore c f).walks = s.walks := rfl
@[simp] theorem State.modCore_inbox (s : State) (c : Nat) (f : Core → Core) : (s.modCore c f).inbox = s.inbox := rfl
@[simp] theorem State.modCore_steps (s : State) (c : Nat) (f : Core → Core) : (s.modCore c f).steps = s.steps := rfl
@[simp] theorem State.modCore_stepPlan (s : State) (c : Nat) (f : Core → Core) : (s.modCore c f).stepPlan = s.stepPlan := rfl
@[simp] theorem State.modCore_shades (s : State) (c : Nat) (f : Core → Core) : (s.modCore c f).shades = s.shades := rfl
@[simp] theorem State.modCore_applied (s : State) (c : Nat) (f : Core → Core) : (s.modCore c f).applied = s.applied := rfl
@[simp] theorem State.modCore_fmmu (s : State) (c : Nat) (f : Core → Core) : (s.modCore c f).fmmu = s.fmmu := rfl
@[simp] theorem State.modCore_links (s : State) (c : Nat) (f : Core → Core) : (s.modCore c f).links = s.links := rfl
@[simp] theorem State.modCore_dies (s : State) (c : Nat) (f : Core → Core) : (s.modCore c f).dies = s.dies := rfl
@[simp] theorem State.modCore_cxl (s : State) (c : Nat) (f : Core → Core) : (s.modCore c f).cxl = s.cxl := rfl
@[simp] theorem State.modCore_ideKeys (s : State) (c : Nat) (f : Core → Core) : (s.modCore c f).ideKeys = s.ideKeys := rfl
@[simp] theorem State.modCore_hostUp (s : State) (c : Nat) (f : Core → Core) : (s.modCore c f).hostUp = s.hostUp := rfl
@[simp] theorem State.modCore_full (s : State) (c : Nat) (f : Core → Core) : (s.modCore c f).full = s.full := rfl
@[simp] theorem State.modCore_fullPending (s : State) (c : Nat) (f : Core → Core) : (s.modCore c f).fullPending = s.fullPending := rfl
@[simp] theorem State.modCore_irqs (s : State) (c : Nat) (f : Core → Core) : (s.modCore c f).irqs = s.irqs := rfl
@[simp] theorem State.modCore_answers (s : State) (c : Nat) (f : Core → Core) : (s.modCore c f).answers = s.answers := rfl

/-! ### `State.setGroup` -/

@[simp] theorem State.setGroup_agenda (s : State) (c n : Nat) (g : Group) : (s.setGroup c n g).agenda = s.agenda := rfl
@[simp] theorem State.setGroup_issue (s : State) (c n : Nat) (g : Group) : (s.setGroup c n g).issue = s.issue := rfl
@[simp] theorem State.setGroup_free (s : State) (c n : Nat) (g : Group) : (s.setGroup c n g).free = s.free := rfl
@[simp] theorem State.setGroup_next (s : State) (c n : Nat) (g : Group) : (s.setGroup c n g).next = s.next := rfl
@[simp] theorem State.setGroup_runs (s : State) (c n : Nat) (g : Group) : (s.setGroup c n g).runs = s.runs := rfl
@[simp] theorem State.setGroup_parts (s : State) (c n : Nat) (g : Group) : (s.setGroup c n g).parts = s.parts := rfl
@[simp] theorem State.setGroup_hregs (s : State) (c n : Nat) (g : Group) : (s.setGroup c n g).hregs = s.hregs := rfl
@[simp] theorem State.setGroup_mem (s : State) (c n : Nat) (g : Group) : (s.setGroup c n g).mem = s.mem := rfl
@[simp] theorem State.setGroup_lmeta (s : State) (c n : Nat) (g : Group) : (s.setGroup c n g).lmeta = s.lmeta := rfl
@[simp] theorem State.setGroup_rmap (s : State) (c n : Nat) (g : Group) : (s.setGroup c n g).rmap = s.rmap := rfl
@[simp] theorem State.setGroup_tlb (s : State) (c n : Nat) (g : Group) : (s.setGroup c n g).tlb = s.tlb := rfl
@[simp] theorem State.setGroup_cached (s : State) (c n : Nat) (g : Group) : (s.setGroup c n g).cached = s.cached := rfl
@[simp] theorem State.setGroup_keys (s : State) (c n : Nat) (g : Group) : (s.setGroup c n g).keys = s.keys := rfl
@[simp] theorem State.setGroup_bins (s : State) (c n : Nat) (g : Group) : (s.setGroup c n g).bins = s.bins := rfl
@[simp] theorem State.setGroup_net (s : State) (c n : Nat) (g : Group) : (s.setGroup c n g).net = s.net := rfl
@[simp] theorem State.setGroup_host (s : State) (c n : Nat) (g : Group) : (s.setGroup c n g).host = s.host := rfl
@[simp] theorem State.setGroup_gander (s : State) (c n : Nat) (g : Group) : (s.setGroup c n g).gander = s.gander := rfl
@[simp] theorem State.setGroup_softErrors (s : State) (c n : Nat) (g : Group) : (s.setGroup c n g).softErrors = s.softErrors := rfl
@[simp] theorem State.setGroup_errorLog (s : State) (c n : Nat) (g : Group) : (s.setGroup c n g).errorLog = s.errorLog := rfl
@[simp] theorem State.setGroup_replies (s : State) (c n : Nat) (g : Group) : (s.setGroup c n g).replies = s.replies := rfl
@[simp] theorem State.setGroup_walks (s : State) (c n : Nat) (g : Group) : (s.setGroup c n g).walks = s.walks := rfl
@[simp] theorem State.setGroup_inbox (s : State) (c n : Nat) (g : Group) : (s.setGroup c n g).inbox = s.inbox := rfl
@[simp] theorem State.setGroup_steps (s : State) (c n : Nat) (g : Group) : (s.setGroup c n g).steps = s.steps := rfl
@[simp] theorem State.setGroup_stepPlan (s : State) (c n : Nat) (g : Group) : (s.setGroup c n g).stepPlan = s.stepPlan := rfl
@[simp] theorem State.setGroup_shades (s : State) (c n : Nat) (g : Group) : (s.setGroup c n g).shades = s.shades := rfl
@[simp] theorem State.setGroup_applied (s : State) (c n : Nat) (g : Group) : (s.setGroup c n g).applied = s.applied := rfl
@[simp] theorem State.setGroup_fmmu (s : State) (c n : Nat) (g : Group) : (s.setGroup c n g).fmmu = s.fmmu := rfl
@[simp] theorem State.setGroup_links (s : State) (c n : Nat) (g : Group) : (s.setGroup c n g).links = s.links := rfl
@[simp] theorem State.setGroup_dies (s : State) (c n : Nat) (g : Group) : (s.setGroup c n g).dies = s.dies := rfl
@[simp] theorem State.setGroup_cxl (s : State) (c n : Nat) (g : Group) : (s.setGroup c n g).cxl = s.cxl := rfl
@[simp] theorem State.setGroup_ideKeys (s : State) (c n : Nat) (g : Group) : (s.setGroup c n g).ideKeys = s.ideKeys := rfl
@[simp] theorem State.setGroup_hostUp (s : State) (c n : Nat) (g : Group) : (s.setGroup c n g).hostUp = s.hostUp := rfl
@[simp] theorem State.setGroup_full (s : State) (c n : Nat) (g : Group) : (s.setGroup c n g).full = s.full := rfl
@[simp] theorem State.setGroup_fullPending (s : State) (c n : Nat) (g : Group) : (s.setGroup c n g).fullPending = s.fullPending := rfl
@[simp] theorem State.setGroup_irqs (s : State) (c n : Nat) (g : Group) : (s.setGroup c n g).irqs = s.irqs := rfl
@[simp] theorem State.setGroup_answers (s : State) (c n : Nat) (g : Group) : (s.setGroup c n g).answers = s.answers := rfl

/-! ### `State.modReq` -/

@[simp] theorem State.modReq_agenda (s : State) (c n : Nat) (f : Req → Req) : (s.modReq c n f).agenda = s.agenda := rfl
@[simp] theorem State.modReq_issue (s : State) (c n : Nat) (f : Req → Req) : (s.modReq c n f).issue = s.issue := rfl
@[simp] theorem State.modReq_free (s : State) (c n : Nat) (f : Req → Req) : (s.modReq c n f).free = s.free := rfl
@[simp] theorem State.modReq_next (s : State) (c n : Nat) (f : Req → Req) : (s.modReq c n f).next = s.next := rfl
@[simp] theorem State.modReq_runs (s : State) (c n : Nat) (f : Req → Req) : (s.modReq c n f).runs = s.runs := rfl
@[simp] theorem State.modReq_parts (s : State) (c n : Nat) (f : Req → Req) : (s.modReq c n f).parts = s.parts := rfl
@[simp] theorem State.modReq_hregs (s : State) (c n : Nat) (f : Req → Req) : (s.modReq c n f).hregs = s.hregs := rfl
@[simp] theorem State.modReq_mem (s : State) (c n : Nat) (f : Req → Req) : (s.modReq c n f).mem = s.mem := rfl
@[simp] theorem State.modReq_lmeta (s : State) (c n : Nat) (f : Req → Req) : (s.modReq c n f).lmeta = s.lmeta := rfl
@[simp] theorem State.modReq_rmap (s : State) (c n : Nat) (f : Req → Req) : (s.modReq c n f).rmap = s.rmap := rfl
@[simp] theorem State.modReq_tlb (s : State) (c n : Nat) (f : Req → Req) : (s.modReq c n f).tlb = s.tlb := rfl
@[simp] theorem State.modReq_cached (s : State) (c n : Nat) (f : Req → Req) : (s.modReq c n f).cached = s.cached := rfl
@[simp] theorem State.modReq_keys (s : State) (c n : Nat) (f : Req → Req) : (s.modReq c n f).keys = s.keys := rfl
@[simp] theorem State.modReq_bins (s : State) (c n : Nat) (f : Req → Req) : (s.modReq c n f).bins = s.bins := rfl
@[simp] theorem State.modReq_net (s : State) (c n : Nat) (f : Req → Req) : (s.modReq c n f).net = s.net := rfl
@[simp] theorem State.modReq_host (s : State) (c n : Nat) (f : Req → Req) : (s.modReq c n f).host = s.host := rfl
@[simp] theorem State.modReq_gander (s : State) (c n : Nat) (f : Req → Req) : (s.modReq c n f).gander = s.gander := rfl
@[simp] theorem State.modReq_softErrors (s : State) (c n : Nat) (f : Req → Req) : (s.modReq c n f).softErrors = s.softErrors := rfl
@[simp] theorem State.modReq_errorLog (s : State) (c n : Nat) (f : Req → Req) : (s.modReq c n f).errorLog = s.errorLog := rfl
@[simp] theorem State.modReq_replies (s : State) (c n : Nat) (f : Req → Req) : (s.modReq c n f).replies = s.replies := rfl
@[simp] theorem State.modReq_walks (s : State) (c n : Nat) (f : Req → Req) : (s.modReq c n f).walks = s.walks := rfl
@[simp] theorem State.modReq_inbox (s : State) (c n : Nat) (f : Req → Req) : (s.modReq c n f).inbox = s.inbox := rfl
@[simp] theorem State.modReq_steps (s : State) (c n : Nat) (f : Req → Req) : (s.modReq c n f).steps = s.steps := rfl
@[simp] theorem State.modReq_stepPlan (s : State) (c n : Nat) (f : Req → Req) : (s.modReq c n f).stepPlan = s.stepPlan := rfl
@[simp] theorem State.modReq_shades (s : State) (c n : Nat) (f : Req → Req) : (s.modReq c n f).shades = s.shades := rfl
@[simp] theorem State.modReq_applied (s : State) (c n : Nat) (f : Req → Req) : (s.modReq c n f).applied = s.applied := rfl
@[simp] theorem State.modReq_fmmu (s : State) (c n : Nat) (f : Req → Req) : (s.modReq c n f).fmmu = s.fmmu := rfl
@[simp] theorem State.modReq_links (s : State) (c n : Nat) (f : Req → Req) : (s.modReq c n f).links = s.links := rfl
@[simp] theorem State.modReq_dies (s : State) (c n : Nat) (f : Req → Req) : (s.modReq c n f).dies = s.dies := rfl
@[simp] theorem State.modReq_cxl (s : State) (c n : Nat) (f : Req → Req) : (s.modReq c n f).cxl = s.cxl := rfl
@[simp] theorem State.modReq_ideKeys (s : State) (c n : Nat) (f : Req → Req) : (s.modReq c n f).ideKeys = s.ideKeys := rfl
@[simp] theorem State.modReq_hostUp (s : State) (c n : Nat) (f : Req → Req) : (s.modReq c n f).hostUp = s.hostUp := rfl
@[simp] theorem State.modReq_full (s : State) (c n : Nat) (f : Req → Req) : (s.modReq c n f).full = s.full := rfl
@[simp] theorem State.modReq_fullPending (s : State) (c n : Nat) (f : Req → Req) : (s.modReq c n f).fullPending = s.fullPending := rfl
@[simp] theorem State.modReq_irqs (s : State) (c n : Nat) (f : Req → Req) : (s.modReq c n f).irqs = s.irqs := rfl
@[simp] theorem State.modReq_answers (s : State) (c n : Nat) (f : Req → Req) : (s.modReq c n f).answers = s.answers := rfl

/-! ### `State.setRun` -/

@[simp] theorem State.setRun_agenda (s : State) (r : Nat) (x : Run) : (s.setRun r x).agenda = s.agenda := rfl
@[simp] theorem State.setRun_issue (s : State) (r : Nat) (x : Run) : (s.setRun r x).issue = s.issue := rfl
@[simp] theorem State.setRun_free (s : State) (r : Nat) (x : Run) : (s.setRun r x).free = s.free := rfl
@[simp] theorem State.setRun_next (s : State) (r : Nat) (x : Run) : (s.setRun r x).next = s.next := rfl
@[simp] theorem State.setRun_cores (s : State) (r : Nat) (x : Run) : (s.setRun r x).cores = s.cores := rfl
@[simp] theorem State.setRun_parts (s : State) (r : Nat) (x : Run) : (s.setRun r x).parts = s.parts := rfl
@[simp] theorem State.setRun_hregs (s : State) (r : Nat) (x : Run) : (s.setRun r x).hregs = s.hregs := rfl
@[simp] theorem State.setRun_mem (s : State) (r : Nat) (x : Run) : (s.setRun r x).mem = s.mem := rfl
@[simp] theorem State.setRun_lmeta (s : State) (r : Nat) (x : Run) : (s.setRun r x).lmeta = s.lmeta := rfl
@[simp] theorem State.setRun_rmap (s : State) (r : Nat) (x : Run) : (s.setRun r x).rmap = s.rmap := rfl
@[simp] theorem State.setRun_tlb (s : State) (r : Nat) (x : Run) : (s.setRun r x).tlb = s.tlb := rfl
@[simp] theorem State.setRun_cached (s : State) (r : Nat) (x : Run) : (s.setRun r x).cached = s.cached := rfl
@[simp] theorem State.setRun_keys (s : State) (r : Nat) (x : Run) : (s.setRun r x).keys = s.keys := rfl
@[simp] theorem State.setRun_bins (s : State) (r : Nat) (x : Run) : (s.setRun r x).bins = s.bins := rfl
@[simp] theorem State.setRun_net (s : State) (r : Nat) (x : Run) : (s.setRun r x).net = s.net := rfl
@[simp] theorem State.setRun_host (s : State) (r : Nat) (x : Run) : (s.setRun r x).host = s.host := rfl
@[simp] theorem State.setRun_gander (s : State) (r : Nat) (x : Run) : (s.setRun r x).gander = s.gander := rfl
@[simp] theorem State.setRun_softErrors (s : State) (r : Nat) (x : Run) : (s.setRun r x).softErrors = s.softErrors := rfl
@[simp] theorem State.setRun_errorLog (s : State) (r : Nat) (x : Run) : (s.setRun r x).errorLog = s.errorLog := rfl
@[simp] theorem State.setRun_replies (s : State) (r : Nat) (x : Run) : (s.setRun r x).replies = s.replies := rfl
@[simp] theorem State.setRun_walks (s : State) (r : Nat) (x : Run) : (s.setRun r x).walks = s.walks := rfl
@[simp] theorem State.setRun_inbox (s : State) (r : Nat) (x : Run) : (s.setRun r x).inbox = s.inbox := rfl
@[simp] theorem State.setRun_steps (s : State) (r : Nat) (x : Run) : (s.setRun r x).steps = s.steps := rfl
@[simp] theorem State.setRun_stepPlan (s : State) (r : Nat) (x : Run) : (s.setRun r x).stepPlan = s.stepPlan := rfl
@[simp] theorem State.setRun_shades (s : State) (r : Nat) (x : Run) : (s.setRun r x).shades = s.shades := rfl
@[simp] theorem State.setRun_applied (s : State) (r : Nat) (x : Run) : (s.setRun r x).applied = s.applied := rfl
@[simp] theorem State.setRun_fmmu (s : State) (r : Nat) (x : Run) : (s.setRun r x).fmmu = s.fmmu := rfl
@[simp] theorem State.setRun_links (s : State) (r : Nat) (x : Run) : (s.setRun r x).links = s.links := rfl
@[simp] theorem State.setRun_dies (s : State) (r : Nat) (x : Run) : (s.setRun r x).dies = s.dies := rfl
@[simp] theorem State.setRun_cxl (s : State) (r : Nat) (x : Run) : (s.setRun r x).cxl = s.cxl := rfl
@[simp] theorem State.setRun_ideKeys (s : State) (r : Nat) (x : Run) : (s.setRun r x).ideKeys = s.ideKeys := rfl
@[simp] theorem State.setRun_hostUp (s : State) (r : Nat) (x : Run) : (s.setRun r x).hostUp = s.hostUp := rfl
@[simp] theorem State.setRun_full (s : State) (r : Nat) (x : Run) : (s.setRun r x).full = s.full := rfl
@[simp] theorem State.setRun_fullPending (s : State) (r : Nat) (x : Run) : (s.setRun r x).fullPending = s.fullPending := rfl
@[simp] theorem State.setRun_irqs (s : State) (r : Nat) (x : Run) : (s.setRun r x).irqs = s.irqs := rfl
@[simp] theorem State.setRun_answers (s : State) (r : Nat) (x : Run) : (s.setRun r x).answers = s.answers := rfl

/-! ### `State.modRun` -/

@[simp] theorem State.modRun_agenda (s : State) (r : Nat) (f : Run → Run) : (s.modRun r f).agenda = s.agenda := rfl
@[simp] theorem State.modRun_issue (s : State) (r : Nat) (f : Run → Run) : (s.modRun r f).issue = s.issue := rfl
@[simp] theorem State.modRun_free (s : State) (r : Nat) (f : Run → Run) : (s.modRun r f).free = s.free := rfl
@[simp] theorem State.modRun_next (s : State) (r : Nat) (f : Run → Run) : (s.modRun r f).next = s.next := rfl
@[simp] theorem State.modRun_cores (s : State) (r : Nat) (f : Run → Run) : (s.modRun r f).cores = s.cores := rfl
@[simp] theorem State.modRun_parts (s : State) (r : Nat) (f : Run → Run) : (s.modRun r f).parts = s.parts := rfl
@[simp] theorem State.modRun_hregs (s : State) (r : Nat) (f : Run → Run) : (s.modRun r f).hregs = s.hregs := rfl
@[simp] theorem State.modRun_mem (s : State) (r : Nat) (f : Run → Run) : (s.modRun r f).mem = s.mem := rfl
@[simp] theorem State.modRun_lmeta (s : State) (r : Nat) (f : Run → Run) : (s.modRun r f).lmeta = s.lmeta := rfl
@[simp] theorem State.modRun_rmap (s : State) (r : Nat) (f : Run → Run) : (s.modRun r f).rmap = s.rmap := rfl
@[simp] theorem State.modRun_tlb (s : State) (r : Nat) (f : Run → Run) : (s.modRun r f).tlb = s.tlb := rfl
@[simp] theorem State.modRun_cached (s : State) (r : Nat) (f : Run → Run) : (s.modRun r f).cached = s.cached := rfl
@[simp] theorem State.modRun_keys (s : State) (r : Nat) (f : Run → Run) : (s.modRun r f).keys = s.keys := rfl
@[simp] theorem State.modRun_bins (s : State) (r : Nat) (f : Run → Run) : (s.modRun r f).bins = s.bins := rfl
@[simp] theorem State.modRun_net (s : State) (r : Nat) (f : Run → Run) : (s.modRun r f).net = s.net := rfl
@[simp] theorem State.modRun_host (s : State) (r : Nat) (f : Run → Run) : (s.modRun r f).host = s.host := rfl
@[simp] theorem State.modRun_gander (s : State) (r : Nat) (f : Run → Run) : (s.modRun r f).gander = s.gander := rfl
@[simp] theorem State.modRun_softErrors (s : State) (r : Nat) (f : Run → Run) : (s.modRun r f).softErrors = s.softErrors := rfl
@[simp] theorem State.modRun_errorLog (s : State) (r : Nat) (f : Run → Run) : (s.modRun r f).errorLog = s.errorLog := rfl
@[simp] theorem State.modRun_replies (s : State) (r : Nat) (f : Run → Run) : (s.modRun r f).replies = s.replies := rfl
@[simp] theorem State.modRun_walks (s : State) (r : Nat) (f : Run → Run) : (s.modRun r f).walks = s.walks := rfl
@[simp] theorem State.modRun_inbox (s : State) (r : Nat) (f : Run → Run) : (s.modRun r f).inbox = s.inbox := rfl
@[simp] theorem State.modRun_steps (s : State) (r : Nat) (f : Run → Run) : (s.modRun r f).steps = s.steps := rfl
@[simp] theorem State.modRun_stepPlan (s : State) (r : Nat) (f : Run → Run) : (s.modRun r f).stepPlan = s.stepPlan := rfl
@[simp] theorem State.modRun_shades (s : State) (r : Nat) (f : Run → Run) : (s.modRun r f).shades = s.shades := rfl
@[simp] theorem State.modRun_applied (s : State) (r : Nat) (f : Run → Run) : (s.modRun r f).applied = s.applied := rfl
@[simp] theorem State.modRun_fmmu (s : State) (r : Nat) (f : Run → Run) : (s.modRun r f).fmmu = s.fmmu := rfl
@[simp] theorem State.modRun_links (s : State) (r : Nat) (f : Run → Run) : (s.modRun r f).links = s.links := rfl
@[simp] theorem State.modRun_dies (s : State) (r : Nat) (f : Run → Run) : (s.modRun r f).dies = s.dies := rfl
@[simp] theorem State.modRun_cxl (s : State) (r : Nat) (f : Run → Run) : (s.modRun r f).cxl = s.cxl := rfl
@[simp] theorem State.modRun_ideKeys (s : State) (r : Nat) (f : Run → Run) : (s.modRun r f).ideKeys = s.ideKeys := rfl
@[simp] theorem State.modRun_hostUp (s : State) (r : Nat) (f : Run → Run) : (s.modRun r f).hostUp = s.hostUp := rfl
@[simp] theorem State.modRun_full (s : State) (r : Nat) (f : Run → Run) : (s.modRun r f).full = s.full := rfl
@[simp] theorem State.modRun_fullPending (s : State) (r : Nat) (f : Run → Run) : (s.modRun r f).fullPending = s.fullPending := rfl
@[simp] theorem State.modRun_irqs (s : State) (r : Nat) (f : Run → Run) : (s.modRun r f).irqs = s.irqs := rfl
@[simp] theorem State.modRun_answers (s : State) (r : Nat) (f : Run → Run) : (s.modRun r f).answers = s.answers := rfl

/-! ### `State.setPart` -/

@[simp] theorem State.setPart_agenda (s : State) (p : Nat) (x : Part) : (s.setPart p x).agenda = s.agenda := rfl
@[simp] theorem State.setPart_issue (s : State) (p : Nat) (x : Part) : (s.setPart p x).issue = s.issue := rfl
@[simp] theorem State.setPart_free (s : State) (p : Nat) (x : Part) : (s.setPart p x).free = s.free := rfl
@[simp] theorem State.setPart_next (s : State) (p : Nat) (x : Part) : (s.setPart p x).next = s.next := rfl
@[simp] theorem State.setPart_cores (s : State) (p : Nat) (x : Part) : (s.setPart p x).cores = s.cores := rfl
@[simp] theorem State.setPart_runs (s : State) (p : Nat) (x : Part) : (s.setPart p x).runs = s.runs := rfl
@[simp] theorem State.setPart_hregs (s : State) (p : Nat) (x : Part) : (s.setPart p x).hregs = s.hregs := rfl
@[simp] theorem State.setPart_mem (s : State) (p : Nat) (x : Part) : (s.setPart p x).mem = s.mem := rfl
@[simp] theorem State.setPart_lmeta (s : State) (p : Nat) (x : Part) : (s.setPart p x).lmeta = s.lmeta := rfl
@[simp] theorem State.setPart_rmap (s : State) (p : Nat) (x : Part) : (s.setPart p x).rmap = s.rmap := rfl
@[simp] theorem State.setPart_tlb (s : State) (p : Nat) (x : Part) : (s.setPart p x).tlb = s.tlb := rfl
@[simp] theorem State.setPart_cached (s : State) (p : Nat) (x : Part) : (s.setPart p x).cached = s.cached := rfl
@[simp] theorem State.setPart_keys (s : State) (p : Nat) (x : Part) : (s.setPart p x).keys = s.keys := rfl
@[simp] theorem State.setPart_bins (s : State) (p : Nat) (x : Part) : (s.setPart p x).bins = s.bins := rfl
@[simp] theorem State.setPart_net (s : State) (p : Nat) (x : Part) : (s.setPart p x).net = s.net := rfl
@[simp] theorem State.setPart_host (s : State) (p : Nat) (x : Part) : (s.setPart p x).host = s.host := rfl
@[simp] theorem State.setPart_gander (s : State) (p : Nat) (x : Part) : (s.setPart p x).gander = s.gander := rfl
@[simp] theorem State.setPart_softErrors (s : State) (p : Nat) (x : Part) : (s.setPart p x).softErrors = s.softErrors := rfl
@[simp] theorem State.setPart_errorLog (s : State) (p : Nat) (x : Part) : (s.setPart p x).errorLog = s.errorLog := rfl
@[simp] theorem State.setPart_replies (s : State) (p : Nat) (x : Part) : (s.setPart p x).replies = s.replies := rfl
@[simp] theorem State.setPart_walks (s : State) (p : Nat) (x : Part) : (s.setPart p x).walks = s.walks := rfl
@[simp] theorem State.setPart_inbox (s : State) (p : Nat) (x : Part) : (s.setPart p x).inbox = s.inbox := rfl
@[simp] theorem State.setPart_steps (s : State) (p : Nat) (x : Part) : (s.setPart p x).steps = s.steps := rfl
@[simp] theorem State.setPart_stepPlan (s : State) (p : Nat) (x : Part) : (s.setPart p x).stepPlan = s.stepPlan := rfl
@[simp] theorem State.setPart_shades (s : State) (p : Nat) (x : Part) : (s.setPart p x).shades = s.shades := rfl
@[simp] theorem State.setPart_applied (s : State) (p : Nat) (x : Part) : (s.setPart p x).applied = s.applied := rfl
@[simp] theorem State.setPart_fmmu (s : State) (p : Nat) (x : Part) : (s.setPart p x).fmmu = s.fmmu := rfl
@[simp] theorem State.setPart_links (s : State) (p : Nat) (x : Part) : (s.setPart p x).links = s.links := rfl
@[simp] theorem State.setPart_dies (s : State) (p : Nat) (x : Part) : (s.setPart p x).dies = s.dies := rfl
@[simp] theorem State.setPart_cxl (s : State) (p : Nat) (x : Part) : (s.setPart p x).cxl = s.cxl := rfl
@[simp] theorem State.setPart_ideKeys (s : State) (p : Nat) (x : Part) : (s.setPart p x).ideKeys = s.ideKeys := rfl
@[simp] theorem State.setPart_hostUp (s : State) (p : Nat) (x : Part) : (s.setPart p x).hostUp = s.hostUp := rfl
@[simp] theorem State.setPart_full (s : State) (p : Nat) (x : Part) : (s.setPart p x).full = s.full := rfl
@[simp] theorem State.setPart_fullPending (s : State) (p : Nat) (x : Part) : (s.setPart p x).fullPending = s.fullPending := rfl
@[simp] theorem State.setPart_irqs (s : State) (p : Nat) (x : Part) : (s.setPart p x).irqs = s.irqs := rfl
@[simp] theorem State.setPart_answers (s : State) (p : Nat) (x : Part) : (s.setPart p x).answers = s.answers := rfl

/-! ### `State.modPart` -/

@[simp] theorem State.modPart_agenda (s : State) (p : Nat) (f : Part → Part) : (s.modPart p f).agenda = s.agenda := rfl
@[simp] theorem State.modPart_issue (s : State) (p : Nat) (f : Part → Part) : (s.modPart p f).issue = s.issue := rfl
@[simp] theorem State.modPart_free (s : State) (p : Nat) (f : Part → Part) : (s.modPart p f).free = s.free := rfl
@[simp] theorem State.modPart_next (s : State) (p : Nat) (f : Part → Part) : (s.modPart p f).next = s.next := rfl
@[simp] theorem State.modPart_cores (s : State) (p : Nat) (f : Part → Part) : (s.modPart p f).cores = s.cores := rfl
@[simp] theorem State.modPart_runs (s : State) (p : Nat) (f : Part → Part) : (s.modPart p f).runs = s.runs := rfl
@[simp] theorem State.modPart_hregs (s : State) (p : Nat) (f : Part → Part) : (s.modPart p f).hregs = s.hregs := rfl
@[simp] theorem State.modPart_mem (s : State) (p : Nat) (f : Part → Part) : (s.modPart p f).mem = s.mem := rfl
@[simp] theorem State.modPart_lmeta (s : State) (p : Nat) (f : Part → Part) : (s.modPart p f).lmeta = s.lmeta := rfl
@[simp] theorem State.modPart_rmap (s : State) (p : Nat) (f : Part → Part) : (s.modPart p f).rmap = s.rmap := rfl
@[simp] theorem State.modPart_tlb (s : State) (p : Nat) (f : Part → Part) : (s.modPart p f).tlb = s.tlb := rfl
@[simp] theorem State.modPart_cached (s : State) (p : Nat) (f : Part → Part) : (s.modPart p f).cached = s.cached := rfl
@[simp] theorem State.modPart_keys (s : State) (p : Nat) (f : Part → Part) : (s.modPart p f).keys = s.keys := rfl
@[simp] theorem State.modPart_bins (s : State) (p : Nat) (f : Part → Part) : (s.modPart p f).bins = s.bins := rfl
@[simp] theorem State.modPart_net (s : State) (p : Nat) (f : Part → Part) : (s.modPart p f).net = s.net := rfl
@[simp] theorem State.modPart_host (s : State) (p : Nat) (f : Part → Part) : (s.modPart p f).host = s.host := rfl
@[simp] theorem State.modPart_gander (s : State) (p : Nat) (f : Part → Part) : (s.modPart p f).gander = s.gander := rfl
@[simp] theorem State.modPart_softErrors (s : State) (p : Nat) (f : Part → Part) : (s.modPart p f).softErrors = s.softErrors := rfl
@[simp] theorem State.modPart_errorLog (s : State) (p : Nat) (f : Part → Part) : (s.modPart p f).errorLog = s.errorLog := rfl
@[simp] theorem State.modPart_replies (s : State) (p : Nat) (f : Part → Part) : (s.modPart p f).replies = s.replies := rfl
@[simp] theorem State.modPart_walks (s : State) (p : Nat) (f : Part → Part) : (s.modPart p f).walks = s.walks := rfl
@[simp] theorem State.modPart_inbox (s : State) (p : Nat) (f : Part → Part) : (s.modPart p f).inbox = s.inbox := rfl
@[simp] theorem State.modPart_steps (s : State) (p : Nat) (f : Part → Part) : (s.modPart p f).steps = s.steps := rfl
@[simp] theorem State.modPart_stepPlan (s : State) (p : Nat) (f : Part → Part) : (s.modPart p f).stepPlan = s.stepPlan := rfl
@[simp] theorem State.modPart_shades (s : State) (p : Nat) (f : Part → Part) : (s.modPart p f).shades = s.shades := rfl
@[simp] theorem State.modPart_applied (s : State) (p : Nat) (f : Part → Part) : (s.modPart p f).applied = s.applied := rfl
@[simp] theorem State.modPart_fmmu (s : State) (p : Nat) (f : Part → Part) : (s.modPart p f).fmmu = s.fmmu := rfl
@[simp] theorem State.modPart_links (s : State) (p : Nat) (f : Part → Part) : (s.modPart p f).links = s.links := rfl
@[simp] theorem State.modPart_dies (s : State) (p : Nat) (f : Part → Part) : (s.modPart p f).dies = s.dies := rfl
@[simp] theorem State.modPart_cxl (s : State) (p : Nat) (f : Part → Part) : (s.modPart p f).cxl = s.cxl := rfl
@[simp] theorem State.modPart_ideKeys (s : State) (p : Nat) (f : Part → Part) : (s.modPart p f).ideKeys = s.ideKeys := rfl
@[simp] theorem State.modPart_hostUp (s : State) (p : Nat) (f : Part → Part) : (s.modPart p f).hostUp = s.hostUp := rfl
@[simp] theorem State.modPart_full (s : State) (p : Nat) (f : Part → Part) : (s.modPart p f).full = s.full := rfl
@[simp] theorem State.modPart_fullPending (s : State) (p : Nat) (f : Part → Part) : (s.modPart p f).fullPending = s.fullPending := rfl
@[simp] theorem State.modPart_irqs (s : State) (p : Nat) (f : Part → Part) : (s.modPart p f).irqs = s.irqs := rfl
@[simp] theorem State.modPart_answers (s : State) (p : Nat) (f : Part → Part) : (s.modPart p f).answers = s.answers := rfl

/-! ### `State.setPreg` -/

@[simp] theorem State.setPreg_agenda (s : State) (p off : Nat) (v : Word) : (s.setPreg p off v).agenda = s.agenda := rfl
@[simp] theorem State.setPreg_issue (s : State) (p off : Nat) (v : Word) : (s.setPreg p off v).issue = s.issue := rfl
@[simp] theorem State.setPreg_free (s : State) (p off : Nat) (v : Word) : (s.setPreg p off v).free = s.free := rfl
@[simp] theorem State.setPreg_next (s : State) (p off : Nat) (v : Word) : (s.setPreg p off v).next = s.next := rfl
@[simp] theorem State.setPreg_cores (s : State) (p off : Nat) (v : Word) : (s.setPreg p off v).cores = s.cores := rfl
@[simp] theorem State.setPreg_runs (s : State) (p off : Nat) (v : Word) : (s.setPreg p off v).runs = s.runs := rfl
@[simp] theorem State.setPreg_hregs (s : State) (p off : Nat) (v : Word) : (s.setPreg p off v).hregs = s.hregs := rfl
@[simp] theorem State.setPreg_mem (s : State) (p off : Nat) (v : Word) : (s.setPreg p off v).mem = s.mem := rfl
@[simp] theorem State.setPreg_lmeta (s : State) (p off : Nat) (v : Word) : (s.setPreg p off v).lmeta = s.lmeta := rfl
@[simp] theorem State.setPreg_rmap (s : State) (p off : Nat) (v : Word) : (s.setPreg p off v).rmap = s.rmap := rfl
@[simp] theorem State.setPreg_tlb (s : State) (p off : Nat) (v : Word) : (s.setPreg p off v).tlb = s.tlb := rfl
@[simp] theorem State.setPreg_cached (s : State) (p off : Nat) (v : Word) : (s.setPreg p off v).cached = s.cached := rfl
@[simp] theorem State.setPreg_keys (s : State) (p off : Nat) (v : Word) : (s.setPreg p off v).keys = s.keys := rfl
@[simp] theorem State.setPreg_bins (s : State) (p off : Nat) (v : Word) : (s.setPreg p off v).bins = s.bins := rfl
@[simp] theorem State.setPreg_net (s : State) (p off : Nat) (v : Word) : (s.setPreg p off v).net = s.net := rfl
@[simp] theorem State.setPreg_host (s : State) (p off : Nat) (v : Word) : (s.setPreg p off v).host = s.host := rfl
@[simp] theorem State.setPreg_gander (s : State) (p off : Nat) (v : Word) : (s.setPreg p off v).gander = s.gander := rfl
@[simp] theorem State.setPreg_softErrors (s : State) (p off : Nat) (v : Word) : (s.setPreg p off v).softErrors = s.softErrors := rfl
@[simp] theorem State.setPreg_errorLog (s : State) (p off : Nat) (v : Word) : (s.setPreg p off v).errorLog = s.errorLog := rfl
@[simp] theorem State.setPreg_replies (s : State) (p off : Nat) (v : Word) : (s.setPreg p off v).replies = s.replies := rfl
@[simp] theorem State.setPreg_walks (s : State) (p off : Nat) (v : Word) : (s.setPreg p off v).walks = s.walks := rfl
@[simp] theorem State.setPreg_inbox (s : State) (p off : Nat) (v : Word) : (s.setPreg p off v).inbox = s.inbox := rfl
@[simp] theorem State.setPreg_steps (s : State) (p off : Nat) (v : Word) : (s.setPreg p off v).steps = s.steps := rfl
@[simp] theorem State.setPreg_stepPlan (s : State) (p off : Nat) (v : Word) : (s.setPreg p off v).stepPlan = s.stepPlan := rfl
@[simp] theorem State.setPreg_shades (s : State) (p off : Nat) (v : Word) : (s.setPreg p off v).shades = s.shades := rfl
@[simp] theorem State.setPreg_applied (s : State) (p off : Nat) (v : Word) : (s.setPreg p off v).applied = s.applied := rfl
@[simp] theorem State.setPreg_fmmu (s : State) (p off : Nat) (v : Word) : (s.setPreg p off v).fmmu = s.fmmu := rfl
@[simp] theorem State.setPreg_links (s : State) (p off : Nat) (v : Word) : (s.setPreg p off v).links = s.links := rfl
@[simp] theorem State.setPreg_dies (s : State) (p off : Nat) (v : Word) : (s.setPreg p off v).dies = s.dies := rfl
@[simp] theorem State.setPreg_cxl (s : State) (p off : Nat) (v : Word) : (s.setPreg p off v).cxl = s.cxl := rfl
@[simp] theorem State.setPreg_ideKeys (s : State) (p off : Nat) (v : Word) : (s.setPreg p off v).ideKeys = s.ideKeys := rfl
@[simp] theorem State.setPreg_hostUp (s : State) (p off : Nat) (v : Word) : (s.setPreg p off v).hostUp = s.hostUp := rfl
@[simp] theorem State.setPreg_full (s : State) (p off : Nat) (v : Word) : (s.setPreg p off v).full = s.full := rfl
@[simp] theorem State.setPreg_fullPending (s : State) (p off : Nat) (v : Word) : (s.setPreg p off v).fullPending = s.fullPending := rfl
@[simp] theorem State.setPreg_irqs (s : State) (p off : Nat) (v : Word) : (s.setPreg p off v).irqs = s.irqs := rfl
@[simp] theorem State.setPreg_answers (s : State) (p off : Nat) (v : Word) : (s.setPreg p off v).answers = s.answers := rfl

/-! ### `State.record` -/

@[simp] theorem State.record_agenda (s : State) (p : Nat) (r : FaultRec) : (s.record p r).agenda = s.agenda := rfl
@[simp] theorem State.record_issue (s : State) (p : Nat) (r : FaultRec) : (s.record p r).issue = s.issue := rfl
@[simp] theorem State.record_free (s : State) (p : Nat) (r : FaultRec) : (s.record p r).free = s.free := rfl
@[simp] theorem State.record_next (s : State) (p : Nat) (r : FaultRec) : (s.record p r).next = s.next := rfl
@[simp] theorem State.record_cores (s : State) (p : Nat) (r : FaultRec) : (s.record p r).cores = s.cores := rfl
@[simp] theorem State.record_runs (s : State) (p : Nat) (r : FaultRec) : (s.record p r).runs = s.runs := rfl
@[simp] theorem State.record_hregs (s : State) (p : Nat) (r : FaultRec) : (s.record p r).hregs = s.hregs := rfl
@[simp] theorem State.record_mem (s : State) (p : Nat) (r : FaultRec) : (s.record p r).mem = s.mem := rfl
@[simp] theorem State.record_lmeta (s : State) (p : Nat) (r : FaultRec) : (s.record p r).lmeta = s.lmeta := rfl
@[simp] theorem State.record_rmap (s : State) (p : Nat) (r : FaultRec) : (s.record p r).rmap = s.rmap := rfl
@[simp] theorem State.record_tlb (s : State) (p : Nat) (r : FaultRec) : (s.record p r).tlb = s.tlb := rfl
@[simp] theorem State.record_cached (s : State) (p : Nat) (r : FaultRec) : (s.record p r).cached = s.cached := rfl
@[simp] theorem State.record_keys (s : State) (p : Nat) (r : FaultRec) : (s.record p r).keys = s.keys := rfl
@[simp] theorem State.record_bins (s : State) (p : Nat) (r : FaultRec) : (s.record p r).bins = s.bins := rfl
@[simp] theorem State.record_net (s : State) (p : Nat) (r : FaultRec) : (s.record p r).net = s.net := rfl
@[simp] theorem State.record_host (s : State) (p : Nat) (r : FaultRec) : (s.record p r).host = s.host := rfl
@[simp] theorem State.record_gander (s : State) (p : Nat) (r : FaultRec) : (s.record p r).gander = s.gander := rfl
@[simp] theorem State.record_softErrors (s : State) (p : Nat) (r : FaultRec) : (s.record p r).softErrors = s.softErrors := rfl
@[simp] theorem State.record_errorLog (s : State) (p : Nat) (r : FaultRec) : (s.record p r).errorLog = s.errorLog := rfl
@[simp] theorem State.record_replies (s : State) (p : Nat) (r : FaultRec) : (s.record p r).replies = s.replies := rfl
@[simp] theorem State.record_walks (s : State) (p : Nat) (r : FaultRec) : (s.record p r).walks = s.walks := rfl
@[simp] theorem State.record_inbox (s : State) (p : Nat) (r : FaultRec) : (s.record p r).inbox = s.inbox := rfl
@[simp] theorem State.record_steps (s : State) (p : Nat) (r : FaultRec) : (s.record p r).steps = s.steps := rfl
@[simp] theorem State.record_stepPlan (s : State) (p : Nat) (r : FaultRec) : (s.record p r).stepPlan = s.stepPlan := rfl
@[simp] theorem State.record_shades (s : State) (p : Nat) (r : FaultRec) : (s.record p r).shades = s.shades := rfl
@[simp] theorem State.record_applied (s : State) (p : Nat) (r : FaultRec) : (s.record p r).applied = s.applied := rfl
@[simp] theorem State.record_fmmu (s : State) (p : Nat) (r : FaultRec) : (s.record p r).fmmu = s.fmmu := rfl
@[simp] theorem State.record_links (s : State) (p : Nat) (r : FaultRec) : (s.record p r).links = s.links := rfl
@[simp] theorem State.record_dies (s : State) (p : Nat) (r : FaultRec) : (s.record p r).dies = s.dies := rfl
@[simp] theorem State.record_cxl (s : State) (p : Nat) (r : FaultRec) : (s.record p r).cxl = s.cxl := rfl
@[simp] theorem State.record_ideKeys (s : State) (p : Nat) (r : FaultRec) : (s.record p r).ideKeys = s.ideKeys := rfl
@[simp] theorem State.record_hostUp (s : State) (p : Nat) (r : FaultRec) : (s.record p r).hostUp = s.hostUp := rfl
@[simp] theorem State.record_full (s : State) (p : Nat) (r : FaultRec) : (s.record p r).full = s.full := rfl
@[simp] theorem State.record_fullPending (s : State) (p : Nat) (r : FaultRec) : (s.record p r).fullPending = s.fullPending := rfl
@[simp] theorem State.record_irqs (s : State) (p : Nat) (r : FaultRec) : (s.record p r).irqs = s.irqs := rfl
@[simp] theorem State.record_answers (s : State) (p : Nat) (r : FaultRec) : (s.record p r).answers = s.answers := rfl

/-! ### `State.setHreg` -/

@[simp] theorem State.setHreg_agenda (s : State) (off : Nat) (v : Word) : (s.setHreg off v).agenda = s.agenda := rfl
@[simp] theorem State.setHreg_issue (s : State) (off : Nat) (v : Word) : (s.setHreg off v).issue = s.issue := rfl
@[simp] theorem State.setHreg_free (s : State) (off : Nat) (v : Word) : (s.setHreg off v).free = s.free := rfl
@[simp] theorem State.setHreg_next (s : State) (off : Nat) (v : Word) : (s.setHreg off v).next = s.next := rfl
@[simp] theorem State.setHreg_cores (s : State) (off : Nat) (v : Word) : (s.setHreg off v).cores = s.cores := rfl
@[simp] theorem State.setHreg_runs (s : State) (off : Nat) (v : Word) : (s.setHreg off v).runs = s.runs := rfl
@[simp] theorem State.setHreg_parts (s : State) (off : Nat) (v : Word) : (s.setHreg off v).parts = s.parts := rfl
@[simp] theorem State.setHreg_mem (s : State) (off : Nat) (v : Word) : (s.setHreg off v).mem = s.mem := rfl
@[simp] theorem State.setHreg_lmeta (s : State) (off : Nat) (v : Word) : (s.setHreg off v).lmeta = s.lmeta := rfl
@[simp] theorem State.setHreg_rmap (s : State) (off : Nat) (v : Word) : (s.setHreg off v).rmap = s.rmap := rfl
@[simp] theorem State.setHreg_tlb (s : State) (off : Nat) (v : Word) : (s.setHreg off v).tlb = s.tlb := rfl
@[simp] theorem State.setHreg_cached (s : State) (off : Nat) (v : Word) : (s.setHreg off v).cached = s.cached := rfl
@[simp] theorem State.setHreg_keys (s : State) (off : Nat) (v : Word) : (s.setHreg off v).keys = s.keys := rfl
@[simp] theorem State.setHreg_bins (s : State) (off : Nat) (v : Word) : (s.setHreg off v).bins = s.bins := rfl
@[simp] theorem State.setHreg_net (s : State) (off : Nat) (v : Word) : (s.setHreg off v).net = s.net := rfl
@[simp] theorem State.setHreg_host (s : State) (off : Nat) (v : Word) : (s.setHreg off v).host = s.host := rfl
@[simp] theorem State.setHreg_gander (s : State) (off : Nat) (v : Word) : (s.setHreg off v).gander = s.gander := rfl
@[simp] theorem State.setHreg_softErrors (s : State) (off : Nat) (v : Word) : (s.setHreg off v).softErrors = s.softErrors := rfl
@[simp] theorem State.setHreg_errorLog (s : State) (off : Nat) (v : Word) : (s.setHreg off v).errorLog = s.errorLog := rfl
@[simp] theorem State.setHreg_replies (s : State) (off : Nat) (v : Word) : (s.setHreg off v).replies = s.replies := rfl
@[simp] theorem State.setHreg_walks (s : State) (off : Nat) (v : Word) : (s.setHreg off v).walks = s.walks := rfl
@[simp] theorem State.setHreg_inbox (s : State) (off : Nat) (v : Word) : (s.setHreg off v).inbox = s.inbox := rfl
@[simp] theorem State.setHreg_steps (s : State) (off : Nat) (v : Word) : (s.setHreg off v).steps = s.steps := rfl
@[simp] theorem State.setHreg_stepPlan (s : State) (off : Nat) (v : Word) : (s.setHreg off v).stepPlan = s.stepPlan := rfl
@[simp] theorem State.setHreg_shades (s : State) (off : Nat) (v : Word) : (s.setHreg off v).shades = s.shades := rfl
@[simp] theorem State.setHreg_applied (s : State) (off : Nat) (v : Word) : (s.setHreg off v).applied = s.applied := rfl
@[simp] theorem State.setHreg_fmmu (s : State) (off : Nat) (v : Word) : (s.setHreg off v).fmmu = s.fmmu := rfl
@[simp] theorem State.setHreg_links (s : State) (off : Nat) (v : Word) : (s.setHreg off v).links = s.links := rfl
@[simp] theorem State.setHreg_dies (s : State) (off : Nat) (v : Word) : (s.setHreg off v).dies = s.dies := rfl
@[simp] theorem State.setHreg_cxl (s : State) (off : Nat) (v : Word) : (s.setHreg off v).cxl = s.cxl := rfl
@[simp] theorem State.setHreg_ideKeys (s : State) (off : Nat) (v : Word) : (s.setHreg off v).ideKeys = s.ideKeys := rfl
@[simp] theorem State.setHreg_hostUp (s : State) (off : Nat) (v : Word) : (s.setHreg off v).hostUp = s.hostUp := rfl
@[simp] theorem State.setHreg_full (s : State) (off : Nat) (v : Word) : (s.setHreg off v).full = s.full := rfl
@[simp] theorem State.setHreg_fullPending (s : State) (off : Nat) (v : Word) : (s.setHreg off v).fullPending = s.fullPending := rfl
@[simp] theorem State.setHreg_irqs (s : State) (off : Nat) (v : Word) : (s.setHreg off v).irqs = s.irqs := rfl
@[simp] theorem State.setHreg_answers (s : State) (off : Nat) (v : Word) : (s.setHreg off v).answers = s.answers := rfl

/-! ### `State.bump` -/

@[simp] theorem State.bump_agenda (s : State) : (s.bump).agenda = s.agenda := rfl
@[simp] theorem State.bump_issue (s : State) : (s.bump).issue = s.issue := rfl
@[simp] theorem State.bump_free (s : State) : (s.bump).free = s.free := rfl
@[simp] theorem State.bump_cores (s : State) : (s.bump).cores = s.cores := rfl
@[simp] theorem State.bump_runs (s : State) : (s.bump).runs = s.runs := rfl
@[simp] theorem State.bump_parts (s : State) : (s.bump).parts = s.parts := rfl
@[simp] theorem State.bump_hregs (s : State) : (s.bump).hregs = s.hregs := rfl
@[simp] theorem State.bump_mem (s : State) : (s.bump).mem = s.mem := rfl
@[simp] theorem State.bump_lmeta (s : State) : (s.bump).lmeta = s.lmeta := rfl
@[simp] theorem State.bump_rmap (s : State) : (s.bump).rmap = s.rmap := rfl
@[simp] theorem State.bump_tlb (s : State) : (s.bump).tlb = s.tlb := rfl
@[simp] theorem State.bump_cached (s : State) : (s.bump).cached = s.cached := rfl
@[simp] theorem State.bump_keys (s : State) : (s.bump).keys = s.keys := rfl
@[simp] theorem State.bump_bins (s : State) : (s.bump).bins = s.bins := rfl
@[simp] theorem State.bump_net (s : State) : (s.bump).net = s.net := rfl
@[simp] theorem State.bump_host (s : State) : (s.bump).host = s.host := rfl
@[simp] theorem State.bump_gander (s : State) : (s.bump).gander = s.gander := rfl
@[simp] theorem State.bump_softErrors (s : State) : (s.bump).softErrors = s.softErrors := rfl
@[simp] theorem State.bump_errorLog (s : State) : (s.bump).errorLog = s.errorLog := rfl
@[simp] theorem State.bump_replies (s : State) : (s.bump).replies = s.replies := rfl
@[simp] theorem State.bump_walks (s : State) : (s.bump).walks = s.walks := rfl
@[simp] theorem State.bump_inbox (s : State) : (s.bump).inbox = s.inbox := rfl
@[simp] theorem State.bump_steps (s : State) : (s.bump).steps = s.steps := rfl
@[simp] theorem State.bump_stepPlan (s : State) : (s.bump).stepPlan = s.stepPlan := rfl
@[simp] theorem State.bump_shades (s : State) : (s.bump).shades = s.shades := rfl
@[simp] theorem State.bump_applied (s : State) : (s.bump).applied = s.applied := rfl
@[simp] theorem State.bump_fmmu (s : State) : (s.bump).fmmu = s.fmmu := rfl
@[simp] theorem State.bump_links (s : State) : (s.bump).links = s.links := rfl
@[simp] theorem State.bump_dies (s : State) : (s.bump).dies = s.dies := rfl
@[simp] theorem State.bump_cxl (s : State) : (s.bump).cxl = s.cxl := rfl
@[simp] theorem State.bump_ideKeys (s : State) : (s.bump).ideKeys = s.ideKeys := rfl
@[simp] theorem State.bump_hostUp (s : State) : (s.bump).hostUp = s.hostUp := rfl
@[simp] theorem State.bump_full (s : State) : (s.bump).full = s.full := rfl
@[simp] theorem State.bump_fullPending (s : State) : (s.bump).fullPending = s.fullPending := rfl
@[simp] theorem State.bump_irqs (s : State) : (s.bump).irqs = s.irqs := rfl
@[simp] theorem State.bump_answers (s : State) : (s.bump).answers = s.answers := rfl

/-! ### `State.spend` -/

@[simp] theorem State.spend_agenda (s : State) : (s.spend).agenda = s.agenda := rfl
@[simp] theorem State.spend_issue (s : State) : (s.spend).issue = s.issue := rfl
@[simp] theorem State.spend_next (s : State) : (s.spend).next = s.next := rfl
@[simp] theorem State.spend_cores (s : State) : (s.spend).cores = s.cores := rfl
@[simp] theorem State.spend_runs (s : State) : (s.spend).runs = s.runs := rfl
@[simp] theorem State.spend_parts (s : State) : (s.spend).parts = s.parts := rfl
@[simp] theorem State.spend_hregs (s : State) : (s.spend).hregs = s.hregs := rfl
@[simp] theorem State.spend_mem (s : State) : (s.spend).mem = s.mem := rfl
@[simp] theorem State.spend_lmeta (s : State) : (s.spend).lmeta = s.lmeta := rfl
@[simp] theorem State.spend_rmap (s : State) : (s.spend).rmap = s.rmap := rfl
@[simp] theorem State.spend_tlb (s : State) : (s.spend).tlb = s.tlb := rfl
@[simp] theorem State.spend_cached (s : State) : (s.spend).cached = s.cached := rfl
@[simp] theorem State.spend_keys (s : State) : (s.spend).keys = s.keys := rfl
@[simp] theorem State.spend_bins (s : State) : (s.spend).bins = s.bins := rfl
@[simp] theorem State.spend_net (s : State) : (s.spend).net = s.net := rfl
@[simp] theorem State.spend_host (s : State) : (s.spend).host = s.host := rfl
@[simp] theorem State.spend_gander (s : State) : (s.spend).gander = s.gander := rfl
@[simp] theorem State.spend_softErrors (s : State) : (s.spend).softErrors = s.softErrors := rfl
@[simp] theorem State.spend_errorLog (s : State) : (s.spend).errorLog = s.errorLog := rfl
@[simp] theorem State.spend_replies (s : State) : (s.spend).replies = s.replies := rfl
@[simp] theorem State.spend_walks (s : State) : (s.spend).walks = s.walks := rfl
@[simp] theorem State.spend_inbox (s : State) : (s.spend).inbox = s.inbox := rfl
@[simp] theorem State.spend_steps (s : State) : (s.spend).steps = s.steps := rfl
@[simp] theorem State.spend_stepPlan (s : State) : (s.spend).stepPlan = s.stepPlan := rfl
@[simp] theorem State.spend_shades (s : State) : (s.spend).shades = s.shades := rfl
@[simp] theorem State.spend_applied (s : State) : (s.spend).applied = s.applied := rfl
@[simp] theorem State.spend_fmmu (s : State) : (s.spend).fmmu = s.fmmu := rfl
@[simp] theorem State.spend_links (s : State) : (s.spend).links = s.links := rfl
@[simp] theorem State.spend_dies (s : State) : (s.spend).dies = s.dies := rfl
@[simp] theorem State.spend_cxl (s : State) : (s.spend).cxl = s.cxl := rfl
@[simp] theorem State.spend_ideKeys (s : State) : (s.spend).ideKeys = s.ideKeys := rfl
@[simp] theorem State.spend_hostUp (s : State) : (s.spend).hostUp = s.hostUp := rfl
@[simp] theorem State.spend_full (s : State) : (s.spend).full = s.full := rfl
@[simp] theorem State.spend_fullPending (s : State) : (s.spend).fullPending = s.fullPending := rfl
@[simp] theorem State.spend_irqs (s : State) : (s.spend).irqs = s.irqs := rfl
@[simp] theorem State.spend_answers (s : State) : (s.spend).answers = s.answers := rfl

/-! ### `State.modGroup` -/

@[simp] theorem State.modGroup_agenda (s : State) (c n : Nat) (f : Group → Group) : (s.modGroup c n f).agenda = s.agenda := by
  unfold State.modGroup; split <;> rfl
@[simp] theorem State.modGroup_softErrors (s : State) (c n : Nat) (f : Group → Group) : (s.modGroup c n f).softErrors = s.softErrors := by
  unfold State.modGroup; split <;> rfl
@[simp] theorem State.modGroup_errorLog (s : State) (c n : Nat) (f : Group → Group) : (s.modGroup c n f).errorLog = s.errorLog := by
  unfold State.modGroup; split <;> rfl
@[simp] theorem State.modGroup_walks (s : State) (c n : Nat) (f : Group → Group) : (s.modGroup c n f).walks = s.walks := by
  unfold State.modGroup; split <;> rfl
@[simp] theorem State.modGroup_inbox (s : State) (c n : Nat) (f : Group → Group) : (s.modGroup c n f).inbox = s.inbox := by
  unfold State.modGroup; split <;> rfl
@[simp] theorem State.modGroup_steps (s : State) (c n : Nat) (f : Group → Group) : (s.modGroup c n f).steps = s.steps := by
  unfold State.modGroup; split <;> rfl
@[simp] theorem State.modGroup_stepPlan (s : State) (c n : Nat) (f : Group → Group) : (s.modGroup c n f).stepPlan = s.stepPlan := by
  unfold State.modGroup; split <;> rfl
@[simp] theorem State.modGroup_shades (s : State) (c n : Nat) (f : Group → Group) : (s.modGroup c n f).shades = s.shades := by
  unfold State.modGroup; split <;> rfl
@[simp] theorem State.modGroup_replies (s : State) (c n : Nat) (f : Group → Group) : (s.modGroup c n f).replies = s.replies := by
  unfold State.modGroup; split <;> rfl
@[simp] theorem State.modGroup_issue (s : State) (c n : Nat) (f : Group → Group) : (s.modGroup c n f).issue = s.issue := by
  unfold State.modGroup; split <;> rfl
@[simp] theorem State.modGroup_free (s : State) (c n : Nat) (f : Group → Group) : (s.modGroup c n f).free = s.free := by
  unfold State.modGroup; split <;> rfl
@[simp] theorem State.modGroup_next (s : State) (c n : Nat) (f : Group → Group) : (s.modGroup c n f).next = s.next := by
  unfold State.modGroup; split <;> rfl
@[simp] theorem State.modGroup_runs (s : State) (c n : Nat) (f : Group → Group) : (s.modGroup c n f).runs = s.runs := by
  unfold State.modGroup; split <;> rfl
@[simp] theorem State.modGroup_parts (s : State) (c n : Nat) (f : Group → Group) : (s.modGroup c n f).parts = s.parts := by
  unfold State.modGroup; split <;> rfl
@[simp] theorem State.modGroup_hregs (s : State) (c n : Nat) (f : Group → Group) : (s.modGroup c n f).hregs = s.hregs := by
  unfold State.modGroup; split <;> rfl
@[simp] theorem State.modGroup_mem (s : State) (c n : Nat) (f : Group → Group) : (s.modGroup c n f).mem = s.mem := by
  unfold State.modGroup; split <;> rfl
@[simp] theorem State.modGroup_lmeta (s : State) (c n : Nat) (f : Group → Group) : (s.modGroup c n f).lmeta = s.lmeta := by
  unfold State.modGroup; split <;> rfl
@[simp] theorem State.modGroup_rmap (s : State) (c n : Nat) (f : Group → Group) : (s.modGroup c n f).rmap = s.rmap := by
  unfold State.modGroup; split <;> rfl
@[simp] theorem State.modGroup_tlb (s : State) (c n : Nat) (f : Group → Group) : (s.modGroup c n f).tlb = s.tlb := by
  unfold State.modGroup; split <;> rfl
@[simp] theorem State.modGroup_cached (s : State) (c n : Nat) (f : Group → Group) : (s.modGroup c n f).cached = s.cached := by
  unfold State.modGroup; split <;> rfl
@[simp] theorem State.modGroup_keys (s : State) (c n : Nat) (f : Group → Group) : (s.modGroup c n f).keys = s.keys := by
  unfold State.modGroup; split <;> rfl
@[simp] theorem State.modGroup_bins (s : State) (c n : Nat) (f : Group → Group) : (s.modGroup c n f).bins = s.bins := by
  unfold State.modGroup; split <;> rfl
@[simp] theorem State.modGroup_net (s : State) (c n : Nat) (f : Group → Group) : (s.modGroup c n f).net = s.net := by
  unfold State.modGroup; split <;> rfl
@[simp] theorem State.modGroup_host (s : State) (c n : Nat) (f : Group → Group) : (s.modGroup c n f).host = s.host := by
  unfold State.modGroup; split <;> rfl
@[simp] theorem State.modGroup_gander (s : State) (c n : Nat) (f : Group → Group) : (s.modGroup c n f).gander = s.gander := by
  unfold State.modGroup; split <;> rfl
@[simp] theorem State.modGroup_applied (s : State) (c n : Nat) (f : Group → Group) : (s.modGroup c n f).applied = s.applied := by
  unfold State.modGroup; split <;> rfl
@[simp] theorem State.modGroup_fmmu (s : State) (c n : Nat) (f : Group → Group) : (s.modGroup c n f).fmmu = s.fmmu := by
  unfold State.modGroup; split <;> rfl
@[simp] theorem State.modGroup_links (s : State) (c n : Nat) (f : Group → Group) : (s.modGroup c n f).links = s.links := by
  unfold State.modGroup; split <;> rfl
@[simp] theorem State.modGroup_dies (s : State) (c n : Nat) (f : Group → Group) : (s.modGroup c n f).dies = s.dies := by
  unfold State.modGroup; split <;> rfl
@[simp] theorem State.modGroup_cxl (s : State) (c n : Nat) (f : Group → Group) : (s.modGroup c n f).cxl = s.cxl := by
  unfold State.modGroup; split <;> rfl
@[simp] theorem State.modGroup_ideKeys (s : State) (c n : Nat) (f : Group → Group) : (s.modGroup c n f).ideKeys = s.ideKeys := by
  unfold State.modGroup; split <;> rfl
@[simp] theorem State.modGroup_hostUp (s : State) (c n : Nat) (f : Group → Group) : (s.modGroup c n f).hostUp = s.hostUp := by
  unfold State.modGroup; split <;> rfl
@[simp] theorem State.modGroup_full (s : State) (c n : Nat) (f : Group → Group) : (s.modGroup c n f).full = s.full := by
  unfold State.modGroup; split <;> rfl
@[simp] theorem State.modGroup_fullPending (s : State) (c n : Nat) (f : Group → Group) : (s.modGroup c n f).fullPending = s.fullPending := by
  unfold State.modGroup; split <;> rfl
@[simp] theorem State.modGroup_irqs (s : State) (c n : Nat) (f : Group → Group) : (s.modGroup c n f).irqs = s.irqs := by
  unfold State.modGroup; split <;> rfl
@[simp] theorem State.modGroup_answers (s : State) (c n : Nat) (f : Group → Group) : (s.modGroup c n f).answers = s.answers := by
  unfold State.modGroup; split <;> rfl

/-! ### Reads of the updated part -/

@[simp] theorem State.core_setCore_same (s : State) (c : Nat) (k : Core) : (s.setCore c k).core c = k := by
  simp [State.core, State.setCore]

theorem State.core_setCore_other (s : State) {c d : Nat} (k : Core) (h : d ≠ c) : (s.setCore c k).core d = s.core d := by
  simp [State.core, State.setCore, AMap.get_put_other _ _ _ h]

@[simp] theorem State.core_modCore_same (s : State) (c : Nat) (f : Core → Core) : (s.modCore c f).core c = f (s.core c) := by
  simp [State.modCore]

theorem State.core_modCore_other (s : State) {c d : Nat} (f : Core → Core) (h : d ≠ c) :
    (s.modCore c f).core d = s.core d := State.core_setCore_other s _ h

@[simp] theorem State.setCore_setCore (s : State) (c : Nat) (k k' : Core) : (s.setCore c k).setCore c k' = s.setCore c k' := by
  simp [State.setCore]

@[simp] theorem State.group?_setGroup_same (s : State) (c n : Nat) (g : Group) : (s.setGroup c n g).group? c n = some g := by
  simp [State.group?, State.setGroup]

theorem State.group?_setGroup_other (s : State) {c d n m : Nat} (g : Group) (h : ¬(d = c ∧ m = n)) :
    (s.setGroup c n g).group? d m = s.group? d m := by
  unfold State.group? State.setGroup
  by_cases hd : d = c
  · subst hd
    have hm : m ≠ n := fun e => h ⟨rfl, e⟩
    simp [AMap.find?_put_other _ _ hm]
  · rw [State.core_modCore_other _ _ hd]

@[simp] theorem State.setGroup_setGroup (s : State) (c n : Nat) (g g' : Group) :
    (s.setGroup c n g).setGroup c n g' = s.setGroup c n g' := by
  simp [State.setGroup, State.modCore]

/-- The change of a group that is there. -/
theorem State.modGroup_some (s : State) {c n : Nat} {g : Group} (f : Group → Group) (h : s.group? c n = some g) :
    s.modGroup c n f = s.setGroup c n (f g) := by
  simp [State.modGroup, h]

/-- The change of a group that is not there changes nothing. -/
theorem State.modGroup_none (s : State) {c n : Nat} (f : Group → Group) (h : s.group? c n = none) :
    s.modGroup c n f = s := by
  simp [State.modGroup, h]

@[simp] theorem State.run_setRun_same (s : State) (r : Nat) (x : Run) : (s.setRun r x).run r = x := by
  simp [State.run, State.setRun]

theorem State.run_setRun_other (s : State) {r q : Nat} (x : Run) (h : q ≠ r) : (s.setRun r x).run q = s.run q := by
  simp [State.run, State.setRun, AMap.get_put_other _ _ _ h]

@[simp] theorem State.part_setPart_same (s : State) (p : Nat) (x : Part) : (s.setPart p x).part p = x := by
  simp [State.part, State.setPart]

theorem State.part_setPart_other (s : State) {p q : Nat} (x : Part) (h : q ≠ p) : (s.setPart p x).part q = s.part q := by
  simp [State.part, State.setPart, AMap.get_put_other _ _ _ h]

@[simp] theorem State.part_modPart_same (s : State) (p : Nat) (f : Part → Part) : (s.modPart p f).part p = f (s.part p) := by
  simp [State.modPart]

theorem State.part_modPart_other (s : State) {p q : Nat} (f : Part → Part) (h : q ≠ p) :
    (s.modPart p f).part q = s.part q := State.part_setPart_other s _ h

@[simp] theorem State.preg_setPreg_same (s : State) (p off : Nat) (v : Word) : (s.setPreg p off v).preg p off = v := by
  simp [State.preg, State.setPreg]

theorem State.preg_setPreg_other (s : State) {p q off off' : Nat} (v : Word) (h : ¬(q = p ∧ off' = off)) :
    (s.setPreg p off v).preg q off' = s.preg q off' := by
  unfold State.preg State.setPreg
  by_cases hq : q = p
  · subst hq
    have ho : off' ≠ off := fun e => h ⟨rfl, e⟩
    simp [AMap.get_put_other _ _ _ ho]
  · rw [State.part_modPart_other _ _ hq]

@[simp] theorem State.hreg_setHreg_same (s : State) (off : Nat) (v : Word) : (s.setHreg off v).hreg off = v := by
  simp [State.hreg, State.setHreg]

theorem State.hreg_setHreg_other (s : State) {off off' : Nat} (v : Word) (h : off' ≠ off) :
    (s.setHreg off v).hreg off' = s.hreg off' := by
  simp [State.hreg, State.setHreg, AMap.get_put_other _ _ _ h]

/-! ### Reads that an update of another part leaves alone -/

@[simp] theorem State.run_setCore (s : State) (c : Nat) (k : Core) (i : Nat) : (s.setCore c k).run i = s.run i := rfl
@[simp] theorem State.part_setCore (s : State) (c : Nat) (k : Core) (i : Nat) : (s.setCore c k).part i = s.part i := rfl
@[simp] theorem State.preg_setCore (s : State) (c : Nat) (k : Core) (i j : Nat) : (s.setCore c k).preg i j = s.preg i j := rfl
@[simp] theorem State.hreg_setCore (s : State) (c : Nat) (k : Core) (i : Nat) : (s.setCore c k).hreg i = s.hreg i := rfl
@[simp] theorem State.run_modCore (s : State) (c : Nat) (f : Core → Core) (i : Nat) : (s.modCore c f).run i = s.run i := rfl
@[simp] theorem State.part_modCore (s : State) (c : Nat) (f : Core → Core) (i : Nat) : (s.modCore c f).part i = s.part i := rfl
@[simp] theorem State.preg_modCore (s : State) (c : Nat) (f : Core → Core) (i j : Nat) : (s.modCore c f).preg i j = s.preg i j := rfl
@[simp] theorem State.hreg_modCore (s : State) (c : Nat) (f : Core → Core) (i : Nat) : (s.modCore c f).hreg i = s.hreg i := rfl
@[simp] theorem State.run_setGroup (s : State) (c n : Nat) (g : Group) (i : Nat) : (s.setGroup c n g).run i = s.run i := rfl
@[simp] theorem State.part_setGroup (s : State) (c n : Nat) (g : Group) (i : Nat) : (s.setGroup c n g).part i = s.part i := rfl
@[simp] theorem State.preg_setGroup (s : State) (c n : Nat) (g : Group) (i j : Nat) : (s.setGroup c n g).preg i j = s.preg i j := rfl
@[simp] theorem State.hreg_setGroup (s : State) (c n : Nat) (g : Group) (i : Nat) : (s.setGroup c n g).hreg i = s.hreg i := rfl
@[simp] theorem State.run_modReq (s : State) (c n : Nat) (f : Req → Req) (i : Nat) : (s.modReq c n f).run i = s.run i := rfl
@[simp] theorem State.part_modReq (s : State) (c n : Nat) (f : Req → Req) (i : Nat) : (s.modReq c n f).part i = s.part i := rfl
@[simp] theorem State.preg_modReq (s : State) (c n : Nat) (f : Req → Req) (i j : Nat) : (s.modReq c n f).preg i j = s.preg i j := rfl
@[simp] theorem State.hreg_modReq (s : State) (c n : Nat) (f : Req → Req) (i : Nat) : (s.modReq c n f).hreg i = s.hreg i := rfl
@[simp] theorem State.core_setRun (s : State) (r : Nat) (x : Run) (i : Nat) : (s.setRun r x).core i = s.core i := rfl
@[simp] theorem State.group?_setRun (s : State) (r : Nat) (x : Run) (i j : Nat) : (s.setRun r x).group? i j = s.group? i j := rfl
@[simp] theorem State.part_setRun (s : State) (r : Nat) (x : Run) (i : Nat) : (s.setRun r x).part i = s.part i := rfl
@[simp] theorem State.preg_setRun (s : State) (r : Nat) (x : Run) (i j : Nat) : (s.setRun r x).preg i j = s.preg i j := rfl
@[simp] theorem State.hreg_setRun (s : State) (r : Nat) (x : Run) (i : Nat) : (s.setRun r x).hreg i = s.hreg i := rfl
@[simp] theorem State.core_modRun (s : State) (r : Nat) (f : Run → Run) (i : Nat) : (s.modRun r f).core i = s.core i := rfl
@[simp] theorem State.group?_modRun (s : State) (r : Nat) (f : Run → Run) (i j : Nat) : (s.modRun r f).group? i j = s.group? i j := rfl
@[simp] theorem State.part_modRun (s : State) (r : Nat) (f : Run → Run) (i : Nat) : (s.modRun r f).part i = s.part i := rfl
@[simp] theorem State.preg_modRun (s : State) (r : Nat) (f : Run → Run) (i j : Nat) : (s.modRun r f).preg i j = s.preg i j := rfl
@[simp] theorem State.hreg_modRun (s : State) (r : Nat) (f : Run → Run) (i : Nat) : (s.modRun r f).hreg i = s.hreg i := rfl
@[simp] theorem State.core_setPart (s : State) (p : Nat) (x : Part) (i : Nat) : (s.setPart p x).core i = s.core i := rfl
@[simp] theorem State.group?_setPart (s : State) (p : Nat) (x : Part) (i j : Nat) : (s.setPart p x).group? i j = s.group? i j := rfl
@[simp] theorem State.run_setPart (s : State) (p : Nat) (x : Part) (i : Nat) : (s.setPart p x).run i = s.run i := rfl
@[simp] theorem State.hreg_setPart (s : State) (p : Nat) (x : Part) (i : Nat) : (s.setPart p x).hreg i = s.hreg i := rfl
@[simp] theorem State.core_modPart (s : State) (p : Nat) (f : Part → Part) (i : Nat) : (s.modPart p f).core i = s.core i := rfl
@[simp] theorem State.group?_modPart (s : State) (p : Nat) (f : Part → Part) (i j : Nat) : (s.modPart p f).group? i j = s.group? i j := rfl
@[simp] theorem State.run_modPart (s : State) (p : Nat) (f : Part → Part) (i : Nat) : (s.modPart p f).run i = s.run i := rfl
@[simp] theorem State.hreg_modPart (s : State) (p : Nat) (f : Part → Part) (i : Nat) : (s.modPart p f).hreg i = s.hreg i := rfl
@[simp] theorem State.core_setPreg (s : State) (p off : Nat) (v : Word) (i : Nat) : (s.setPreg p off v).core i = s.core i := rfl
@[simp] theorem State.group?_setPreg (s : State) (p off : Nat) (v : Word) (i j : Nat) : (s.setPreg p off v).group? i j = s.group? i j := rfl
@[simp] theorem State.run_setPreg (s : State) (p off : Nat) (v : Word) (i : Nat) : (s.setPreg p off v).run i = s.run i := rfl
@[simp] theorem State.hreg_setPreg (s : State) (p off : Nat) (v : Word) (i : Nat) : (s.setPreg p off v).hreg i = s.hreg i := rfl
@[simp] theorem State.core_record (s : State) (p : Nat) (r : FaultRec) (i : Nat) : (s.record p r).core i = s.core i := rfl
@[simp] theorem State.group?_record (s : State) (p : Nat) (r : FaultRec) (i j : Nat) : (s.record p r).group? i j = s.group? i j := rfl
@[simp] theorem State.run_record (s : State) (p : Nat) (r : FaultRec) (i : Nat) : (s.record p r).run i = s.run i := rfl
@[simp] theorem State.hreg_record (s : State) (p : Nat) (r : FaultRec) (i : Nat) : (s.record p r).hreg i = s.hreg i := rfl
@[simp] theorem State.core_setHreg (s : State) (off : Nat) (v : Word) (i : Nat) : (s.setHreg off v).core i = s.core i := rfl
@[simp] theorem State.group?_setHreg (s : State) (off : Nat) (v : Word) (i j : Nat) : (s.setHreg off v).group? i j = s.group? i j := rfl
@[simp] theorem State.run_setHreg (s : State) (off : Nat) (v : Word) (i : Nat) : (s.setHreg off v).run i = s.run i := rfl
@[simp] theorem State.part_setHreg (s : State) (off : Nat) (v : Word) (i : Nat) : (s.setHreg off v).part i = s.part i := rfl
@[simp] theorem State.preg_setHreg (s : State) (off : Nat) (v : Word) (i j : Nat) : (s.setHreg off v).preg i j = s.preg i j := rfl
@[simp] theorem State.core_bump (s : State) (i : Nat) : (s.bump).core i = s.core i := rfl
@[simp] theorem State.group?_bump (s : State) (i j : Nat) : (s.bump).group? i j = s.group? i j := rfl
@[simp] theorem State.run_bump (s : State) (i : Nat) : (s.bump).run i = s.run i := rfl
@[simp] theorem State.part_bump (s : State) (i : Nat) : (s.bump).part i = s.part i := rfl
@[simp] theorem State.preg_bump (s : State) (i j : Nat) : (s.bump).preg i j = s.preg i j := rfl
@[simp] theorem State.hreg_bump (s : State) (i : Nat) : (s.bump).hreg i = s.hreg i := rfl
@[simp] theorem State.core_spend (s : State) (i : Nat) : (s.spend).core i = s.core i := rfl
@[simp] theorem State.group?_spend (s : State) (i j : Nat) : (s.spend).group? i j = s.group? i j := rfl
@[simp] theorem State.run_spend (s : State) (i : Nat) : (s.spend).run i = s.run i := rfl
@[simp] theorem State.part_spend (s : State) (i : Nat) : (s.spend).part i = s.part i := rfl
@[simp] theorem State.preg_spend (s : State) (i j : Nat) : (s.spend).preg i j = s.preg i j := rfl
@[simp] theorem State.hreg_spend (s : State) (i : Nat) : (s.spend).hreg i = s.hreg i := rfl
@[simp] theorem State.run_modGroup (s : State) (c n : Nat) (f : Group → Group) (i : Nat) : (s.modGroup c n f).run i = s.run i := by
  unfold State.modGroup; split <;> rfl
@[simp] theorem State.part_modGroup (s : State) (c n : Nat) (f : Group → Group) (i : Nat) : (s.modGroup c n f).part i = s.part i := by
  unfold State.modGroup; split <;> rfl
@[simp] theorem State.preg_modGroup (s : State) (c n : Nat) (f : Group → Group) (i j : Nat) : (s.modGroup c n f).preg i j = s.preg i j := by
  unfold State.modGroup; split <;> rfl
@[simp] theorem State.hreg_modGroup (s : State) (c n : Nat) (f : Group → Group) (i : Nat) : (s.modGroup c n f).hreg i = s.hreg i := by
  unfold State.modGroup; split <;> rfl

end Sys2Proof.Machine
end

