-- ==== Sys2Proof/Laws/Issue.lean ====
section
/-! SUPPORT. What the issue of a word can do, said once: the word of one group goes on, traps or is held, and how the words
of each shape come to one of the three. -/

namespace Sys2Proof.Machine

/-! ### Small facts -/

@[simp] theorem Spot.ctx_core (p : Spot) (s : State) (gd : Guard) : (p.ctx s gd).core = p.c := rfl
@[simp] theorem Spot.ctx_entry (p : Spot) (s : State) (gd : Guard) : (p.ctx s gd).entry = p.e := rfl
@[simp] theorem Spot.ctx_slot (p : Spot) (s : State) (gd : Guard) : (p.ctx s gd).slot = p.slot := rfl
@[simp] theorem Spot.ctx_pc (p : Spot) (s : State) (gd : Guard) : (p.ctx s gd).pc = p.ga.pc := rfl
@[simp] theorem Spot.ctx_hdr (p : Spot) (s : State) (gd : Guard) : (p.ctx s gd).hdr = p.hdr := rfl
@[simp] theorem Spot.ctx_len (p : Spot) (s : State) (gd : Guard) : (p.ctx s gd).len = p.ga.len := rfl
@[simp] theorem Spot.ctx_lanes (p : Spot) (s : State) (gd : Guard) : (p.ctx s gd).lanes = p.m := rfl
@[simp] theorem Spot.ctx_last (p : Spot) (s : State) (gd : Guard) :
    (p.ctx s gd).last = decide (p.ga.idx + 1 = p.ga.len) := rfl
@[simp] theorem Spot.ctx_act (p : Spot) (s : State) (gd : Guard) : (p.ctx s gd).act = p.m &&& (p.ctx s gd).guard p.g gd := rfl

@[simp] theorem Group.advance_halt (g : Group) (x : Ctx) (m : Mask) : (g.advance x m).halt = g.halt := rfl

/-- Going on depends on where the word stands only. -/
theorem Spot.ahead_eq (p : Spot) (s : State) (gd : Guard) (g : Group) :
    g.advance (p.ctx s gd) p.m = p.ahead s g := rfl

/-- A gang of one group that runs has nobody in the skid. -/
theorem Spot.nobody_skids {p : Spot} {s : State} (hp : p.Issues s) : s.skidding p.c p.ga = [] := by
  obtain ⟨_, h2, h3, h4⟩ := hp
  simp [State.skidding, h2, h3, h4]

/-! ### The word of one group -/

/-- A word that falls through and changes `s` into `s'`. -/
theorem issueWord_goes {p : Spot} {s s' : State} {gd : Guard} {f : Ctx → State → WRes} {g : Group} (hp : p.Issues s)
    (hf : p.Follows s) (h : f (p.ctx s gd) s = .ok s') (hg : s'.group? p.c p.slot = some g) :
    issueWord gd true f s = .next (p.after s s' g) := by
  have h0 := Spot.nobody_skids hp
  obtain ⟨h1, h2, h3, h4⟩ := hp
  have key : memberStep gd true f p.c p.e p.hdr p.ga [] p.slot p.m s =
      .ok (s'.setGroup p.c p.slot (p.ahead s g)) := by
    unfold memberStep
    simp only [h3]
    rw [show mkCtx p.c p.e p.hdr p.ga p.g gd p.slot p.m s.free (s.now p.g.part) = p.ctx s gd from rfl, h]
    simp only [if_true, Spot.ctx_last]
    rw [State.modGroup_some _ _ hg, Spot.ahead_eq]
    by_cases hl : p.ga.idx + 1 = p.ga.len
    · obtain ⟨w, hw⟩ := hf hl
      simp only [hl, decide_true, if_true, hw]; simp
    · simp [hl]
  unfold issueWord
  simp only [h1, h0, h2, runMembers, key, Spot.after]

/-- A terminator: the word has placed its lanes itself. -/
theorem issueWord_ends {p : Spot} {s s' : State} {gd : Guard} {f : Ctx → State → WRes} (hp : p.Issues s)
    (h : f (p.ctx s gd) s = .ok s') :
    issueWord gd false f s = .next (s'.finishWord p.c p.e) := by
  have h0 := Spot.nobody_skids hp
  obtain ⟨h1, h2, h3, h4⟩ := hp
  have key : memberStep gd false f p.c p.e p.hdr p.ga [] p.slot p.m s = .ok s' := by
    unfold memberStep
    simp only [h3]
    rw [show mkCtx p.c p.e p.hdr p.ga p.g gd p.slot p.m s.free (s.now p.g.part) = p.ctx s gd from rfl, h]
    simp
  unfold issueWord
  simp only [h1, h0, h2, runMembers, key]

/-- A word that traps. -/
theorem issueWord_traps {p : Spot} {s : State} {gd : Guard} {fall : Bool} {f : Ctx → State → WRes} {t : TrapInfo}
    (hp : p.Issues s) (h : f (p.ctx s gd) s = .trap t) : issueWord gd fall f s = .next (p.trapped s t) := by
  obtain ⟨h1, h2, h3, h4⟩ := hp
  have key : memberStep gd fall f p.c p.e p.hdr p.ga (s.skidding p.c p.ga) p.slot p.m s =
      .ok ((s.modCore p.c Core.dropAnswers).raisePrecise p.c p.slot t p.ga.pc p.m false) := by
    unfold memberStep
    simp only [h3]
    rw [show mkCtx p.c p.e p.hdr p.ga p.g gd p.slot p.m s.free (s.now p.g.part) = p.ctx s gd from rfl, h]
  unfold issueWord
  simp only [h1, h2, runMembers, key, Spot.trapped]

/-- A word that is held. -/
theorem issueWord_holds {p : Spot} {s : State} {gd : Guard} {fall : Bool} {f : Ctx → State → WRes} {a : List Nat}
    (hp : p.Issues s) (h : f (p.ctx s gd) s = .hold a) : issueWord gd fall f s = .next (p.held s a) := by
  obtain ⟨h1, h2, h3, h4⟩ := hp
  have key : memberStep gd fall f p.c p.e p.hdr p.ga (s.skidding p.c p.ga) p.slot p.m s = .error a := by
    unfold memberStep
    simp only [h3]
    rw [show mkCtx p.c p.e p.hdr p.ga p.g gd p.slot p.m s.free (s.now p.g.part) = p.ctx s gd from rfl, h]
  unfold issueWord
  simp only [h1, h2, runMembers, key, Spot.held]

/-- A word of a group that is there. -/
theorem onGroup_there {p : Spot} {s : State} (hp : p.Issues s) (gd : Guard) (f : Group → WRes) :
    onGroup (p.ctx s gd) s f = f p.g := by
  simp [onGroup, hp.2.2.1]

/-! ### Words that change only their group -/

theorem groupWord_goes {p : Spot} {s : State} {gd : Guard} {f : Ctx → Group → Except TrapInfo Group} {g : Group}
    (hp : p.Issues s) (hf : p.Follows s) (h : f (p.ctx s gd) p.g = .ok g) :
    groupWord gd f s = .next (p.after s s g) := by
  unfold groupWord
  have h' : (match s.group? (p.ctx s gd).core (p.ctx s gd).slot with
      | none => WRes.ok s
      | some g => match f (p.ctx s gd) g with
        | .ok g' => .ok (s.setGroup (p.ctx s gd).core (p.ctx s gd).slot g')
        | .error t => .trap t) = .ok (s.setGroup p.c p.slot g) := by
    simp [hp.2.2.1, h]
  rw [issueWord_goes hp hf h' (State.group?_setGroup_same _ _ _ _)]
  simp [Spot.after]

theorem groupWord_traps {p : Spot} {s : State} {gd : Guard} {f : Ctx → Group → Except TrapInfo Group} {t : TrapInfo}
    (hp : p.Issues s) (h : f (p.ctx s gd) p.g = .error t) : groupWord gd f s = .next (p.trapped s t) := by
  unfold groupWord
  refine issueWord_traps hp ?_
  simp [hp.2.2.1, h]

/-- Writing results changes no halt. -/
@[simp] theorem Group.split32_halt (g : Group) (lane code v n : Nat) : (g.split32 lane code v n).halt = g.halt := by
  induction n generalizing g code v with
  | zero => rfl
  | succ n ih => simp only [Group.split32, ih]; rfl

@[simp] theorem Group.shiftLast_halt (g : Group) (lane v : Nat) : (g.shiftLast lane v).halt = g.halt := by
  unfold Group.shiftLast; dsimp only; split <;> rfl

@[simp] theorem Group.putScalar_halt (g : Group) (n v : Nat) : (g.putScalar n v).halt = g.halt := rfl

@[simp] theorem Group.writeDst_halt (g : Group) (ty : Ty) (lane : Nat) (d : Dst) (v : Nat) :
    (g.writeDst ty lane d v).halt = g.halt := by
  cases d <;> simp [Group.writeDst]
  split <;> rfl

@[simp] theorem Group.laneResult_halt (g : Group) (ty : Ty) (d : Dst) (last : Bool) (lane v : Nat) :
    (g.laneResult ty d last lane v).halt = g.halt := by
  cases d <;> simp only [Group.laneResult] <;> split <;> simp

@[simp] theorem Ctx.result_halt (x : Ctx) (g : Group) (ty : Ty) (d : Dst) (last : Bool) (f : Nat → Nat) :
    (x.result g ty d last f).halt = g.halt := by
  have h : ∀ (l : List Nat) (g : Group), (l.foldl (fun h l => h.laneResult ty d last l (f l)) g).halt = g.halt := by
    intro l
    induction l with
    | nil => intro g; rfl
    | cons a t ih => intro g; simp [ih]
  unfold Ctx.result
  split <;> simp [h]

@[simp] theorem Group.putPred_halt (g : Group) (act : Mask) (n : Nat) (f : Nat → Bool) : (g.putPred act n f).halt = g.halt := rfl

/-- A word of one result for each lane (R188, R191). -/
theorem laneWord_goes {p : Spot} {s : State} {gd : Guard} {srcs : List (Nat × Src)} {d : Dst} {ty : Ty}
    {f : (Ty → Src → Nat) → Nat} (hp : p.Issues s) (hf : p.Follows s)
    (hz : p.g.poisonTrap (p.ctx s gd).active srcs = none) :
    laneWord gd srcs d ty f s =
      .next (p.after s s ((p.ctx s gd).result p.g ty d true fun l => f fun t a => (p.ctx s gd).val p.g t l a)) := by
  unfold laneWord
  refine groupWord_goes hp hf ?_
  simp [checked, hz]

/-- A word that sets a predicate (R192). -/
theorem predWord_goes {p : Spot} {s : State} {gd : Guard} {srcs : List (Nat × Src)} {pd : Fin 8}
    {f : Ctx → Group → Nat → Bool} (hp : p.Issues s) (hf : p.Follows s)
    (hz : p.g.poisonTrap (p.ctx s gd).active srcs = none) :
    predWord gd srcs pd f s =
      .next (p.after s s (p.g.putPred (p.ctx s gd).act pd.val (f (p.ctx s gd) p.g))) := by
  unfold predWord
  refine groupWord_goes hp hf ?_
  simp [checked, hz]

/-- A lane word whose sources hold poison traps with RF_POISON, and writes nothing (R194). -/
theorem laneWord_poison {p : Spot} {s : State} {gd : Guard} {srcs : List (Nat × Src)} {d : Dst} {ty : Ty}
    {f : (Ty → Src → Nat) → Nat} {t : TrapInfo} (hp : p.Issues s)
    (hz : p.g.poisonTrap (p.ctx s gd).active srcs = some t) : laneWord gd srcs d ty f s = .next (p.trapped s t) := by
  unfold laneWord
  refine groupWord_traps hp ?_
  simp [checked, hz]

end Sys2Proof.Machine
end

