-- ==== Sys2Proof/Laws/Groups.lean ====
section
/-! SUPPORT. What happens to the groups' records: which operations leave a group alone, and what the end of a word, a
barrier, a halt and the end of a group do to it. -/

namespace Sys2Proof.Machine

/-! ### Changes of a core that leave its groups alone -/

theorem State.group?_modCore (s : State) (c : Nat) (f : Core → Core) (h : (f (s.core c)).groups = (s.core c).groups) (d n : Nat) :
    (s.modCore c f).group? d n = s.group? d n := by
  unfold State.group?
  by_cases hd : d = c
  · subst hd; simp [h]
  · rw [State.core_modCore_other _ _ hd]

@[simp] theorem State.group?_finishWord (s : State) (c e d n : Nat) : (s.finishWord c e).group? d n = s.group? d n := by
  unfold State.finishWord State.spend
  refine Eq.trans ?_ (State.group?_modCore s c (fun k =>
    { k with
      tick := k.tick + 1,
      table := k.table.map fun (y : Nat × Entry) =>
        if y.1 = e then
          (y.1, { y.2 with last := k.tick, gang := y.2.gang.bind Gang.after, ended := (y.2.gang.bind Gang.after).isNone })
        else y }) rfl d n)
  rfl

@[simp] theorem State.run_finishWord (s : State) (c e r : Nat) : (s.finishWord c e).run r = s.run r := rfl
@[simp] theorem State.part_finishWord (s : State) (c e p : Nat) : (s.finishWord c e).part p = s.part p := rfl
@[simp] theorem State.mem_finishWord (s : State) (c e : Nat) : (s.finishWord c e).mem = s.mem := rfl

@[simp] theorem State.group?_leaveGang (s : State) (c slot : Nat) (m : Mask) (d n : Nat) :
    (s.modCore c fun k => k.leaveGang slot m).group? d n = s.group? d n :=
  State.group?_modCore s c _ rfl d n

@[simp] theorem State.group?_modReq (s : State) (c id : Nat) (f : Req → Req) (d n : Nat) :
    (s.modReq c id f).group? d n = s.group? d n :=
  State.group?_modCore s c _ rfl d n

@[simp] theorem State.group?_dropAnswers (s : State) (c d n : Nat) :
    (s.modCore c Core.dropAnswers).group? d n = s.group? d n :=
  State.group?_modCore s c _ rfl d n

@[simp] theorem State.group?_dropClean (s : State) (c d n : Nat) :
    (s.modCore c Core.dropClean).group? d n = s.group? d n :=
  State.group?_modCore s c _ rfl d n

/-! ### One group's change seen from another -/

/-- A change of one group leaves every other alone. -/
theorem State.group?_modGroup_other (s : State) {c n d m : Nat} (f : Group → Group) (h : ¬(d = c ∧ m = n)) :
    (s.modGroup c n f).group? d m = s.group? d m := by
  unfold State.modGroup
  split
  · rfl
  · exact State.group?_setGroup_other _ _ h

/-- A change of a group shows in it. -/
theorem State.group?_modGroup_same (s : State) (c n : Nat) (f : Group → Group) :
    (s.modGroup c n f).group? c n = (s.group? c n).map f := by
  unfold State.modGroup
  split
  · rename_i h; simp [h]
  · rename_i g h; simp [h]

/-! ### Properties that groups keep -/

/-- Every group of a state has a counterpart in another, with a property of the two. -/
def State.GroupsTo (s t : State) (P : Group → Group → Prop) : Prop :=
  ∀ d n, match s.group? d n with
    | none => t.group? d n = none
    | some g => ∃ g', t.group? d n = some g' ∧ P g g'

theorem State.GroupsTo.refl {s : State} {P : Group → Group → Prop} (h : ∀ g, P g g) : s.GroupsTo s P := by
  intro d n
  split
  · assumption
  · rename_i g hg; exact ⟨g, hg, h g⟩

theorem State.GroupsTo.trans {s t u : State} {P : Group → Group → Prop} (ht : ∀ a b c, P a b → P b c → P a c)
    (h1 : s.GroupsTo t P) (h2 : t.GroupsTo u P) : s.GroupsTo u P := by
  intro d n
  have a := h1 d n
  have b := h2 d n
  split
  · rename_i hg; rw [hg] at a; simp only at a; rw [a] at b; exact b
  · rename_i g hg
    rw [hg] at a
    obtain ⟨g1, h1, p1⟩ := a
    rw [h1] at b
    obtain ⟨g2, h2, p2⟩ := b
    exact ⟨g2, h2, ht _ _ _ p1 p2⟩

theorem State.GroupsTo.of_eq {s t : State} {P : Group → Group → Prop} (h : ∀ g, P g g) (e : ∀ d n, t.group? d n = s.group? d n) :
    s.GroupsTo t P := by
  intro d n
  split
  · rename_i hg; rw [e, hg]
  · rename_i g hg; exact ⟨g, by rw [e, hg], h g⟩

theorem State.GroupsTo.setGroup {s : State} {c n : Nat} {g g' : Group} {P : Group → Group → Prop} (h : ∀ g, P g g)
    (hg : s.group? c n = some g) (hp : P g g') : s.GroupsTo (s.setGroup c n g') P := by
  intro d m
  by_cases e : d = c ∧ m = n
  · obtain ⟨rfl, rfl⟩ := e
    rw [hg]
    exact ⟨g', State.group?_setGroup_same _ _ _ _, hp⟩
  · split
    · rename_i hh; rw [State.group?_setGroup_other _ _ e, hh]
    · rename_i g0 hh; exact ⟨g0, by rw [State.group?_setGroup_other _ _ e, hh], h g0⟩

theorem State.GroupsTo.fold {α : Type} {P : Group → Group → Prop} (h : ∀ g, P g g) (ht : ∀ a b c, P a b → P b c → P a c)
    (f : State → α → State) (hf : ∀ (s : State) (a : α), s.GroupsTo (f s a) P) (l : List α) (s : State) : s.GroupsTo (l.foldl f s) P := by
  induction l generalizing s with
  | nil => exact State.GroupsTo.refl h
  | cons a t ih => exact State.GroupsTo.trans ht (hf s a) (ih _)

/-- Two records that differ only in threads, barriers and halts. -/
def Group.SameRegs (g g' : Group) : Prop :=
  g'.gid = g.gid ∧ g'.run = g.run ∧ g'.part = g.part ∧ g'.asid = g.asid ∧ g'.num = g.num ∧ g'.width = g.width ∧ g'.mode = g.mode ∧
    g'.vo = g.vo ∧ g'.l = g.l ∧ g'.preds = g.preds ∧ g'.sc = g.sc ∧ g'.poison = g.poison ∧ g'.flags = g.flags ∧
    g'.hflags = g.hflags ∧ g'.toks = g.toks ∧ g'.rejoinm = g.rejoinm ∧ g'.awbase = g.awbase ∧ g'.awlimit = g.awlimit ∧
    g'.shadow = g.shadow ∧ g'.seq = g.seq

theorem Group.SameRegs.refl (g : Group) : g.SameRegs g := by simp [Group.SameRegs]
theorem Group.SameRegs.trans {a b c : Group} (h1 : a.SameRegs b) (h2 : b.SameRegs c) : a.SameRegs c := by
  unfold Group.SameRegs at *
  simp_all

theorem Group.SameRegs.wakeBar (g : Group) (b : Nat) (bc : BitVec 16) (now : Nat) : g.SameRegs (g.wakeBar b bc now) := by
  unfold Group.wakeBar
  dsimp only
  split
  · unfold Group.setBar Group.setBarOf; split <;> simp [Group.SameRegs]
  · exact Group.SameRegs.refl g

/-- Noting the registers that a word will write changes only what its lanes have noted. -/
theorem State.noteClause_same (s : State) (x : Ctx) (keys : List Nat) : s.GroupsTo (s.noteClause x keys) Group.SameRegs := by
  unfold State.noteClause State.modGroup
  split
  · exact State.GroupsTo.refl Group.SameRegs.refl
  · rename_i g hg; exact State.GroupsTo.setGroup Group.SameRegs.refl hg (by simp [Group.SameRegs])

theorem State.wakeBarrier_same (s : State) (r : Nat) (h : Bool) (b : Nat) :
    s.GroupsTo (s.wakeBarrier r h b) Group.SameRegs := by
  unfold State.wakeBarrier
  refine State.GroupsTo.fold Group.SameRegs.refl (fun _ _ _ => Group.SameRegs.trans) _ ?_ _ _
  intro s x
  split
  · exact State.GroupsTo.refl Group.SameRegs.refl
  · rename_i g hg
    split
    · dsimp only
      split
      · exact State.GroupsTo.refl Group.SameRegs.refl
      · have key := State.GroupsTo.setGroup Group.SameRegs.refl hg (Group.SameRegs.wakeBar g b ((s.run r).bar h b).bc (s.now g.part))
        split
        · exact State.GroupsTo.trans (fun _ _ _ => Group.SameRegs.trans) key
            (State.GroupsTo.of_eq Group.SameRegs.refl fun d n => State.group?_dropClean _ _ _ _)
        · exact key
    · exact State.GroupsTo.refl Group.SameRegs.refl

end Sys2Proof.Machine
end

