-- ==== Sys2Proof/Tests/Slice0.lean ====
section
/-! SUPPORT. The model's own tests: words from the spec decode, ill-formed words are refused, and for every statement that
has hypotheses a state and operands that meet them. -/

namespace Sys2Proof.Tests

set_option Elab.async false

open Sys2Proof Sys2Proof.Machine Sys2Proof.Claims

/-! ### States to start from -/

/-- One group of 16 lanes on core 0, in the middle of a clause of one word, with the next header behind it. -/
def base : State := State.reset.withFetchWord 64 0
def spot : Spot := ⟨0, 0, 0x10000, fetchGang, 0, 0xFFFF, fetchGroup⟩

/-- The same with another record of the group. -/
def withG (g : Group) : State := base.setGroup 0 0 g
def spotG (g : Group) : Spot := { spot with g := g }

def issues (p : Spot) (s : State) : Bool :=
  decide (s.gang? = some (p.c, p.e, p.hdr, p.ga) ∧ p.ga.members = [(p.slot, p.m)] ∧ s.group? p.c p.slot = some p.g ∧
    p.g.halt = .running)
theorem issues_of {p : Spot} {s : State} (h : issues p s = true) : p.Issues s := by
  unfold Spot.Issues
  exact of_decide_eq_true h

def headerAt (s : State) (p : Spot) (pc : Word) : Bool :=
  match s.fetch p.c p.g.part p.g.asid pc with
  | .ok w => bits w 63 56 == 1
  | _ => false

theorem headerAt_of {s : State} {p : Spot} {pc : Word} (h : headerAt s p pc = true) : HeaderAt s p pc := by
  unfold headerAt at h
  split at h
  · rename_i w e
    exact ⟨w, e, by simpa using h⟩
  · cases h

theorem follows_of {p : Spot} {s : State} (h : headerAt s p (p.ga.pc + 8) = true) : p.Follows s :=
  fun _ => let ⟨w, e, _⟩ := headerAt_of h
  ⟨w, e⟩

theorem reaches_of {s : State} {p : Spot} {uni : Bool} {dest : Nat → Word}
    (h : ((lanesOf p.m).all fun l => headerAt s p (dest l)) = true) (a : ∀ l ∈ lanesOf p.m, ∀ k ∈ lanesOf p.m, dest l = dest k) :
    Reaches s p uni dest :=
  ⟨fun l hl => headerAt_of (List.all_eq_true.mp h l hl), fun _ => a⟩

/-- A word gives a next state of which something holds. -/
def goes (i : Instr) (s : State) (P : State → Bool) : Bool :=
  match exec i s with
  | .next t => P t
  | _ => false

theorem base_issues : spot.Issues base := issues_of (by decide +kernel)
theorem base_follows : spot.Follows base := follows_of (by decide +kernel)


/-! ### Decoding: words put together by hand from the encoding tables (Tables 2.1-2.12, 8.2, 11.10, 14.1, 14.2)

One word for each constructor, many of them the worked encodings of the spec. -/

def controlWords : List (Nat × Instr) :=
  [(0x0000000000000000, .ill),
   (0x020E000000000000, .nop ⟨7, false⟩),
   (0x0302800007FFFFFA, .bra { g := ⟨1, false⟩, uni := true, disp := -6 }),
   (0x040E000140000003, .brx { g := ⟨7, false⟩, uni := false, a := .v 40, n := 3 }),
   (0x050E000007FFFFF9, .call { g := ⟨7, false⟩, uni := false, disp := -7 }),
   (0x060E800140000000, .callx { g := ⟨7, false⟩, uni := true, a := .v 40, n := 0 }),
   (0x0702000000000000, .ret ⟨1, false⟩ false),
   (0x080E001A20000001, .rejoin ⟨7, false⟩ (some (.s 4))),
   (0x0905000000000000, .exit ⟨2, true⟩),
   (0x0A0E000037FFFFF7, .spawn ⟨7, false⟩ (-9) (.v 6)),
   (0x0B0E000000000000, .yield ⟨7, false⟩),
   (0x0B1E0000000003E8, .sleep ⟨7, false⟩ 1000),
   (0x0C0E000000000005, .wtok ⟨7, false⟩ 5),
   (0x0C1E000000000801, .wflag ⟨7, false⟩ 0x801),
   (0x0D0E000000000023, .bar { g := ⟨7, false⟩, b := 3, c := 2 }),
   (0x0D14000000000011, .bara { g := ⟨2, false⟩, b := 1, c := 1 }),
   (0x0D2E000000000009, .barw ⟨7, false⟩ 9),
   (0x0E0E007A40000000, .tlaunch ⟨7, false⟩ (.v 3) (.s 8)),
   (0x0E1E000000000003, .tdone ⟨7, false⟩ .final),
   (0x0E2E6A8000000000, .twalk ⟨7, false⟩ (.s 20)),
   (0x0E3E006048000000, .tstat ⟨7, false⟩ (.v 3) (.v 9))]

def systemWords : List (Nat × Instr) :=
  [(0x780E00000000BEEF, .trap { g := ⟨7, false⟩, code := 0xBEEF }),
   (0x790E000000000000, .hret ⟨7, false⟩),
   (0x790E000000000001, .hretKill ⟨7, false⟩),
   (0x7A0E000000000000, .pret ⟨7, false⟩),
   (0x7B02000000000007, .brk { g := ⟨1, false⟩, code := 7 }),
   (0x7C0E000000000001, .sysc { g := ⟨7, false⟩, code := 1 }),
   (0x7D0E000000000000, .mfs ⟨7, false⟩ (.v 0) .lane),
   (0x7D1E001A2000000B, .mts ⟨7, false⟩ .rejoinm (.s 4)),
   (0x7E0E68E017FEC000, .harvest { g := ⟨7, false⟩, fb := false, d := .s 7, m := { a := .v 2, b := none, off := 0 } })]

def integerWords : List (Nat × Instr) :=
  [(0x100E002006820008, .iadd { g := ⟨7, false⟩, ty := .i32, rm := .rne, sat := false, d := .v 1, a := .v 0, b := .s 1 }),
   (0x109E004027FFFFFB, .iaddImm { g := ⟨7, false⟩, w := true, d := .v 2, a := .v 4, imm := -5 }),
   (0x101E0040200C101C, .isub { g := ⟨7, false⟩, ty := .n64, rm := .rne, sat := true, d := .v 2, a := .v 4, b := .v 6 }),
   (0x10AE004020000009, .isubImm { g := ⟨7, false⟩, w := false, d := .v 2, a := .v 4, imm := 9 }),
   (0x110E60201E120018, .imul { g := ⟨7, false⟩, ty := .n32, rm := .rne, sat := false, d := .o 1, a := .v 3, b := .l 1 }),
   (0x1185004020000009, .imulImm { g := ⟨2, true⟩, w := false, d := .v 2, a := .v 4, imm := 9 }),
   (0x111E0040200C000C, .imulh { g := ⟨7, false⟩, ty := .i64, rm := .rne, sat := false, d := .v 2, a := .v 4, b := .v 6 }),
   (0x11BE004027FFFFFF, .imulhImm { g := ⟨7, false⟩, w := true, d := .v 2, a := .v 4, imm := -1 }),
   (0x120E002010060208, .imad { g := ⟨7, false⟩, ty := .i32, rm := .rne, d := .v 1, a := .v 2, b := .v 3, c := .v 4 }),
   (0x128E00201007FFFC, .imadImm { g := ⟨7, false⟩, w := false, d := .v 1, a := .v 2, b := .v 3, imm := -4 }),
   (0x121E004028060318, .imadw { g := ⟨7, false⟩, ty := .n32, rm := .rne, d := .v 2, a := .v 5, b := .v 3, c := .v 6 }),
   (0x12AE004028060064, .imadwImm { g := ⟨7, false⟩, w := false, d := .v 2, a := .v 5, b := .v 3, imm := 100 }),
   (0x130E610038001008, .ineg { g := ⟨7, false⟩, ty := .i32, rm := .rne, sat := true, d := .l0, a := .v 7 }),
   (0x131E011A1000000C, .iabs { g := ⟨7, false⟩, ty := .i64, rm := .rne, sat := false, d := .v 8, a := .s 2 }),
   (0x140E002010060018, .imin { g := ⟨7, false⟩, ty := .n32, rm := .rne, sat := false, d := .v 1, a := .v 2, b := .v 3 }),
   (0x149E004027FFFFF7, .iminImm { g := ⟨7, false⟩, w := true, d := .v 2, a := .v 4, imm := -9 }),
   (0x141E002010060008, .imax { g := ⟨7, false⟩, ty := .i32, rm := .rne, sat := false, d := .v 1, a := .v 2, b := .v 3 }),
   (0x14AE00201800004D, .imaxImm { g := ⟨7, false⟩, w := false, d := .v 1, a := .v 3, imm := 77 })]

def logicWords : List (Nat × Instr) :=
  [(0x150E002016260028, .bitAnd { g := ⟨7, false⟩, ty := .b32, rm := .rne, sat := false, d := .v 1, a := .v 2, b := .k 3 }),
   (0x158E002017FFFFFF, .andImm { g := ⟨7, false⟩, w := false, d := .v 1, a := .v 2, imm := 134217727 }),
   (0x151E0040200C002C, .bitOr { g := ⟨7, false⟩, ty := .b64, rm := .rne, sat := false, d := .v 2, a := .v 4, b := .v 6 }),
   (0x15BE004020000001, .orImm { g := ⟨7, false⟩, w := true, d := .v 2, a := .v 4, imm := 1 }),
   (0x152E002010060028, .bitXor { g := ⟨7, false⟩, ty := .b32, rm := .rne, sat := false, d := .v 1, a := .v 2, b := .v 3 }),
   (0x15DE004020000006, .xorImm { g := ⟨7, false⟩, w := true, d := .v 2, a := .v 4, imm := 6 }),
   (0x153E002010060028, .andn { g := ⟨7, false⟩, ty := .b32, rm := .rne, sat := false, d := .v 1, a := .v 2, b := .v 3 }),
   (0x15EE0020100000FF, .andnImm { g := ⟨7, false⟩, w := false, d := .v 1, a := .v 2, imm := 255 }),
   (0x170E002010000028, .bitNot { g := ⟨7, false⟩, ty := .b32, rm := .rne, sat := false, d := .v 1, a := .v 2 }),
   (0x160E002010060028, .shl { g := ⟨7, false⟩, ty := .b32, rm := .rne, sat := false, d := .v 1, a := .v 2, b := .v 3 }),
   (0x168E004000000002, .shlImm { g := ⟨7, false⟩, w := false, d := .v 2, a := .v 0, imm := 2 }),
   (0x161E0040200C002C, .shr { g := ⟨7, false⟩, ty := .b64, rm := .rne, sat := false, d := .v 2, a := .v 4, b := .v 6 }),
   (0x16BE004020000028, .shrImm { g := ⟨7, false⟩, w := true, d := .v 2, a := .v 4, imm := 40 }),
   (0x162E002010060008, .sar { g := ⟨7, false⟩, ty := .i32, rm := .rne, sat := false, d := .v 1, a := .v 2, b := .v 3 }),
   (0x16CE00201000001F, .sarImm { g := ⟨7, false⟩, w := false, d := .v 1, a := .v 2, imm := 31 }),
   (0x163E002010060028, .rol { g := ⟨7, false⟩, ty := .b32, rm := .rne, sat := false, d := .v 1, a := .v 2, b := .v 3 }),
   (0x16FE004020000008, .rolImm { g := ⟨7, false⟩, w := true, d := .v 2, a := .v 4, imm := 8 })]

def fieldsWords : List (Nat × Instr) :=
  [(0x171E002010000028, .popc { g := ⟨7, false⟩, ty := .b32, rm := .rne, sat := false, d := .v 1, a := .v 2 }),
   (0x172E00201000002C, .clz { g := ⟨7, false⟩, ty := .b64, rm := .rne, sat := false, d := .v 1, a := .v 2 }),
   (0x173E002010000028, .ctz { g := ⟨7, false⟩, ty := .b32, rm := .rne, sat := false, d := .v 1, a := .v 2 }),
   (0x174E00402000002C, .brev { g := ⟨7, false⟩, ty := .b64, rm := .rne, sat := false, d := .v 2, a := .v 4 }),
   (0x180E002010060208, .bfx { g := ⟨7, false⟩, ty := .i32, rm := .rne, d := .v 1, a := .v 2, b := .v 3, c := .v 4 }),
   (0x188E002010060008, .bfxImm { g := ⟨7, false⟩, w := false, d := .v 1, a := .v 2, b := .v 3, imm := 8 }),
   (0x181E002010060228, .bfi { g := ⟨7, false⟩, ty := .b32, rm := .rne, d := .v 1, a := .v 2, b := .v 3, c := .v 4 }),
   (0x18BE0040200C000C, .bfiImm { g := ⟨7, false⟩, w := true, d := .v 2, a := .v 4, b := .v 6, imm := 12 }),
   (0x1B0E008040000030, .mov { g := ⟨7, false⟩, ty := .b128, rm := .rne, sat := false, d := .v 4, a := .v 8 }),
   (0x1B1E002007FFFFFD, .movi ⟨7, false⟩ (.v 1) (-3)),
   (0x1B2E00200000ABCD, .moviHi ⟨7, false⟩ (.v 1) 0xABCD),
   (0x1C3E0040200E0000, .lea ⟨7, false⟩ 3 (.v 2) (.v 4) (.v 7)),
   (0x1D0E002010060028, .rhash { g := ⟨7, false⟩, ty := .b32, rm := .rne, sat := false, d := .v 1, a := .v 2, b := .v 3 })]

def predicatesWords : List (Nat × Instr) :=
  [(0x192E0020280C0008, .isetp { g := ⟨7, false⟩, cond := .lt, ty := .i32, pd := 1, a := .v 5, b := .v 6 }),
   (0x19AE002028000064, .isetpImm ⟨7, false⟩ .lt false 1 (.v 5) 100),
   (0x251E0040280C0044, .fsetp { g := ⟨7, false⟩, cond := .ne, ty := .f16, pd := 2, a := .v 5, b := .v 6 }),
   (0x25DE004029FC0000, .fsetpImm ⟨7, false⟩ .ge 2 (.v 5) 0x1FC0000),
   (0x1A0E002010060228, .sel ⟨7, false⟩ .b32 (.v 1) (.v 2) (.v 3) 4),
   (0x1E0E002038060000, .pand { g := ⟨7, false⟩, pd := 1, pa := 7, pb := 3 }),
   (0x1E1E002038060000, .por { g := ⟨7, false⟩, pd := 1, pa := 7, pb := 3 }),
   (0x1E2E002038060000, .pxor { g := ⟨7, false⟩, pd := 1, pa := 7, pb := 3 }),
   (0x1E35002038000000, .pnot { g := ⟨2, true⟩, pd := 1, pa := 7, pb := 0 }),
   (0x420E002018000000, .vany { g := ⟨7, false⟩, pd := 1, pa := 3, pb := 0 }),
   (0x421E002018000000, .vall { g := ⟨7, false⟩, pd := 1, pa := 3, pb := 0 })]

def floatsWords : List (Nat × Instr) :=
  [(0x200E002010061042, .fadd { g := ⟨7, false⟩, ty := .f32, rm := .ru, sat := true, d := .v 1, a := .v 2, b := .v 3 }),
   (0x208E002011FC0000, .faddImm { g := ⟨7, false⟩, w := false, d := .v 1, a := .v 2, imm := 33292288 }),
   (0x201E002010060048, .fsub { g := ⟨7, false⟩, ty := .bf16, rm := .rne, sat := false, d := .v 1, a := .v 2, b := .v 3 }),
   (0x20BE002010003C00, .fsubImm { g := ⟨7, false⟩, w := true, d := .v 1, a := .v 2, imm := 15360 }),
   (0x210E002010060047, .fmul { g := ⟨7, false⟩, ty := .f16, rm := .rd, sat := false, d := .v 1, a := .v 2, b := .v 3 }),
   (0x218E002012000000, .fmulImm { g := ⟨7, false⟩, w := false, d := .v 1, a := .v 2, imm := 33554432 }),
   (0x220E01405A5981C1, .ffma { g := ⟨7, false⟩, ty := .f32, rm := .rz, d := .v 10, a := .v 11, b := .v 300, c := .o 3 }),
   (0x228E002010067F00, .ffmaImm { g := ⟨7, false⟩, w := false, d := .v 1, a := .v 2, b := .v 3, imm := 32512 }),
   (0x230E002010060040, .fmin { g := ⟨7, false⟩, ty := .f32, rm := .rne, sat := false, d := .v 1, a := .v 2, b := .v 3 }),
   (0x238E002010000000, .fminImm { g := ⟨7, false⟩, w := false, d := .v 1, a := .v 2, imm := 0 }),
   (0x231E002010060044, .fmax { g := ⟨7, false⟩, ty := .f16, rm := .rne, sat := false, d := .v 1, a := .v 2, b := .v 3 }),
   (0x23BE002010003C00, .fmaxImm { g := ⟨7, false⟩, w := true, d := .v 1, a := .v 2, imm := 15360 }),
   (0x240E002010000040, .fabs { g := ⟨7, false⟩, ty := .f32, rm := .rne, sat := false, d := .v 1, a := .v 2 }),
   (0x241E002010000048, .fneg { g := ⟨7, false⟩, ty := .bf16, rm := .rne, sat := false, d := .v 1, a := .v 2 }),
   (0x260E002010000040, .fclass { g := ⟨7, false⟩, ty := .f32, rm := .rne, sat := false, d := .v 1, a := .v 2 }),
   (0x270E002010000043, .frnd { g := ⟨7, false⟩, ty := .f32, rm := .rd, sat := false, d := .v 1, a := .v 2 }),
   (0x280E002010060040, .fscl { g := ⟨7, false⟩, ty := .f32, rm := .rne, sat := false, d := .v 1, a := .v 2, b := .v 3 }),
   (0x290E002010060244, .fdot2 { g := ⟨7, false⟩, ty := .f16, rm := .rne, d := .v 1, a := .v 2, b := .v 3, c := .v 4 })]

def conversionsWords : List (Nat × Instr) :=
  [(0x300E002010000809, .cvt { g := ⟨7, false⟩, ty := .i32, rm := .rz, sat := false, d := .v 1, a := .v 2 } .f32),
   (0x310E00201007894C, .pack { g := ⟨7, false⟩, ty := .e4m3, rm := .rne, d := .v 1, a := .v 2, b := .v 3, c := .k 2 }),
   (0x311E002010060000, .unpack { g := ⟨7, false⟩, ty := .i8, rm := .rne, sat := false, d := .v 1, a := .v 2, b := .v 3 }),
   (0x320E002010000040, .okey { g := ⟨7, false⟩, ty := .f32, rm := .rne, sat := false, d := .v 1, a := .v 2 }),
   (0x321E002010000044, .keyf { g := ⟨7, false⟩, ty := .f16, rm := .rne, sat := false, d := .v 1, a := .v 2 }),
   (0x330E00201006104C, .qcvt { g := ⟨7, false⟩, ty := .e4m3, rm := .rne, sat := true, d := .v 1, a := .v 2, b := .v 3 }),
   (0x340E002010000050, .bscale { g := ⟨7, false⟩, ty := .e5m2, rm := .rne, sat := false, d := .v 1, a := .v 2 })]

def sfqWords : List (Nat × Instr) :=
  [(0x380E010048000040, .sfqRcp { g := ⟨7, false⟩, tok := 0, d := .v 8, a := .v 9, b := .v 0, c := .v 0 }),
   (0x381E010048000041, .sfqRsq { g := ⟨7, false⟩, tok := 1, d := .v 8, a := .v 9, b := .v 0, c := .v 0 }),
   (0x382E010048000042, .sfqSqrt { g := ⟨7, false⟩, tok := 2, d := .v 8, a := .v 9, b := .v 0, c := .v 0 }),
   (0x383E010048000043, .sfqExp2 { g := ⟨7, false⟩, tok := 3, d := .v 8, a := .v 9, b := .v 0, c := .v 0 }),
   (0x384E010048000040, .sfqLog2 { g := ⟨7, false⟩, tok := 0, d := .v 8, a := .v 9, b := .v 0, c := .v 0 }),
   (0x385E010048000041, .sfqSin { g := ⟨7, false⟩, tok := 1, d := .v 8, a := .v 9, b := .v 0, c := .v 0 }),
   (0x386E010048000042, .sfqCos { g := ⟨7, false⟩, tok := 2, d := .v 8, a := .v 9, b := .v 0, c := .v 0 }),
   (0x387E010048000043, .sfqTanh { g := ⟨7, false⟩, tok := 3, d := .v 8, a := .v 9, b := .v 0, c := .v 0 }),
   (0x388E010048060240, .sfqExp2s { g := ⟨7, false⟩, tok := 0, d := .v 8, a := .v 9, b := .v 3, c := .v 4 }),
   (0x389E010048000041, .sfqGnoise { g := ⟨7, false⟩, tok := 1, d := .v 8, a := .v 9, b := .v 0, c := .v 0 }),
   (0x38AE010048060042, .sfqDiv { g := ⟨7, false⟩, tok := 2, d := .v 8, a := .v 9, b := .v 3, c := .v 0 })]

def crossLaneWords : List (Nat × Instr) :=
  [(0x400E0040200E002C, .xpull { g := ⟨7, false⟩, ty := .b64, rm := .rne, sat := false, d := .v 2, a := .v 4, b := .v 7 }),
   (0x401E004018080028, .xpush { g := ⟨7, false⟩, ty := .b32, rm := .rne, sat := false, d := .v 2, a := .v 3, b := .v 4 }),
   (0x410E6AA0681C0028, .xbcast { g := ⟨7, false⟩, ty := .b32, rm := .rne, sat := false, d := .s 21, a := .v 13, b := .v 14 }),
   (0x418E00201000000F, .xbcastImm ⟨7, false⟩ (.v 1) (.v 2) 15),
   (0x422E00401800002C, .vbal { g := ⟨7, false⟩, ty := .b64, d := .v 2, pa := 3 }),
   (0x423E6BC018000000, .vfirst { g := ⟨7, false⟩, ty := .i8, d := .s 30, pa := 3 }),
   (0x424E002000000000, .vcount { g := ⟨7, false⟩, ty := .i8, d := .v 1, pa := 0 }),
   (0x430E686020000040, .redg { g := ⟨7, false⟩, op := .add, ty := .f32, d := .s 3, a := .v 4 }),
   (0x442E006020000008, .scang { g := ⟨7, false⟩, op := .max, ty := .i32, d := .v 3, a := .v 4 }),
   (0x448E01A058000018, .scangEx { g := ⟨7, false⟩, op := .add, ty := .n32, d := .v 13, a := .v 11 }),
   (0x450E004028000028, .matchLanes { g := ⟨7, false⟩, ty := .b32, rm := .rne, sat := false, d := .v 2, a := .v 5 })]

def pairsWords : List (Nat × Instr) :=
  [(0x8380607021412040, .pairIadd { guard := 3, bank := 0, d := 3, a := .bank 7, imm := 0 } ⟨.and, { guard := 1, bank := 1, d := 4, a := .o 2, imm := 0 }⟩),
   (0x8580607025412040, .pairIsub { guard := 3, bank := 0, d := 3, a := .bank 7, imm := 0 } ⟨.or, { guard := 1, bank := 1, d := 4, a := .o 2, imm := 0 }⟩),
   (0x8780607029412040, .pairImul { guard := 3, bank := 0, d := 3, a := .bank 7, imm := 0 } ⟨.xor, { guard := 1, bank := 1, d := 4, a := .o 2, imm := 0 }⟩),
   (0x898060702D412040, .pairIminI32 { guard := 3, bank := 0, d := 3, a := .bank 7, imm := 0 } ⟨.andn, { guard := 1, bank := 1, d := 4, a := .o 2, imm := 0 }⟩),
   (0x8B80607031412046, .pairImaxI32 { guard := 3, bank := 0, d := 3, a := .bank 7, imm := 0 } ⟨.shl, { guard := 1, bank := 1, d := 4, a := .o 2, imm := 3 }⟩),
   (0x8D8060703541205E, .pairIminN32 { guard := 3, bank := 0, d := 3, a := .bank 7, imm := 0 } ⟨.shr, { guard := 1, bank := 1, d := 4, a := .o 2, imm := 15 }⟩),
   (0x8F80607039412042, .pairImaxN32 { guard := 3, bank := 0, d := 3, a := .bank 7, imm := 0 } ⟨.sar, { guard := 1, bank := 1, d := 4, a := .o 2, imm := 1 }⟩),
   (0x918060703D412040, .pairAnd { guard := 3, bank := 0, d := 3, a := .bank 7, imm := 0 } ⟨.mov, { guard := 1, bank := 1, d := 4, a := .o 2, imm := 0 }⟩),
   (0x9380607041410012, .pairOr { guard := 3, bank := 0, d := 3, a := .bank 7, imm := 0 } ⟨.movi, { guard := 1, bank := 1, d := 4, a := .bank 0, imm := 9 }⟩),
   (0x9580607081412044, .pairXor { guard := 3, bank := 0, d := 3, a := .bank 7, imm := 0 } ⟨.fadd, { guard := 1, bank := 1, d := 4, a := .o 2, imm := 2 }⟩),
   (0x9780607085412040, .pairAndn { guard := 3, bank := 0, d := 3, a := .bank 7, imm := 0 } ⟨.fsub, { guard := 1, bank := 1, d := 4, a := .o 2, imm := 0 }⟩),
   (0x9980607389412046, .pairShl { guard := 3, bank := 0, d := 3, a := .bank 7, imm := 3 } ⟨.fmul, { guard := 1, bank := 1, d := 4, a := .o 2, imm := 3 }⟩),
   (0x9B80607F8D412040, .pairShr { guard := 3, bank := 0, d := 3, a := .bank 7, imm := 15 } ⟨.fmin, { guard := 1, bank := 1, d := 4, a := .o 2, imm := 0 }⟩),
   (0x9D80607191412040, .pairSar { guard := 3, bank := 0, d := 3, a := .bank 7, imm := 1 } ⟨.fmax, { guard := 1, bank := 1, d := 4, a := .o 2, imm := 0 }⟩),
   (0x9F80607005412040, .pairMov { guard := 3, bank := 0, d := 3, a := .bank 7, imm := 0 } ⟨.iadd, { guard := 1, bank := 1, d := 4, a := .o 2, imm := 0 }⟩),
   (0xA180600909412040, .pairMovi { guard := 3, bank := 0, d := 3, a := .bank 0, imm := 9 } ⟨.isub, { guard := 1, bank := 1, d := 4, a := .o 2, imm := 0 }⟩),
   (0xC18060720D412040, .pairFadd { guard := 3, bank := 0, d := 3, a := .bank 7, imm := 2 } ⟨.imul, { guard := 1, bank := 1, d := 4, a := .o 2, imm := 0 }⟩),
   (0xC380607011412040, .pairFsub { guard := 3, bank := 0, d := 3, a := .bank 7, imm := 0 } ⟨.iminI32, { guard := 1, bank := 1, d := 4, a := .o 2, imm := 0 }⟩),
   (0xC580607315412040, .pairFmul { guard := 3, bank := 0, d := 3, a := .bank 7, imm := 3 } ⟨.imaxI32, { guard := 1, bank := 1, d := 4, a := .o 2, imm := 0 }⟩),
   (0xC780607019412040, .pairFmin { guard := 3, bank := 0, d := 3, a := .bank 7, imm := 0 } ⟨.iminN32, { guard := 1, bank := 1, d := 4, a := .o 2, imm := 0 }⟩),
   (0xC98060701D412040, .pairFmax { guard := 3, bank := 0, d := 3, a := .bank 7, imm := 0 } ⟨.imaxN32, { guard := 1, bank := 1, d := 4, a := .o 2, imm := 0 }⟩)]

def memoryWords : List (Nat × Instr) :=
  [(0x506E0060201299FD, .ld { g := ⟨7, false⟩, fb := false, size := .s16, space := .glb, strong := true, ord := .acq, scope := .clu, d := .v 3, m := { a := .v 4, b := some (.v 9), off := -3 } }),
   (0x512E002017FEC200, .st { g := ⟨7, false⟩, fb := false, size := .w32, space := .loc, strong := false, ord := .none, scope := .dev, d := .v 1, m := { a := .v 2, b := none, off := 0 } }),
   (0x520E80A01002CA02, .atom32 { g := ⟨7, false⟩, fb := true, fn := .add, space := .loc, ord := .none, scope := .dev, d := .v 5, a := .v 2, b := .v 1, off := 2 }),
   (0x53AE80C0101079FF, .atom64 { g := ⟨7, false⟩, fb := true, fn := .maxk, space := .glb, ord := .ar, scope := .team, d := .v 6, a := .v 2, b := .v 8, off := -1 }),
   (0x540E00000000E000, .fence { g := ⟨7, false⟩, fb := false, ord := .rel, scope := .dev, a := .v 0 }),
   (0x550E000010009000, .acqr { g := ⟨7, false⟩, fb := false, ord := .acq, scope := .clu, a := .v 2 }),
   (0x560E000017FEC004, .cflush { g := ⟨7, false⟩, fb := false, scope := .dev, m := { a := .v 2, b := none, off := 4 } }),
   (0x561E800017FEC000, .cinv { g := ⟨7, false⟩, fb := true, scope := .dev, m := { a := .v 2, b := none, off := 0 } }),
   (0x570E68E017FEC000, .seal { g := ⟨7, false⟩, fb := false, d := .s 7, m := { a := .v 2, b := none, off := 0 } }),
   (0x571E68E017FEC000, .unseal { g := ⟨7, false⟩, fb := false, d := .s 7, m := { a := .v 2, b := none, off := 0 } }),
   (0x580E00000000C006, .carve { g := ⟨7, false⟩, fb := false, n := 6 }),
   (0x590E00C010109C01, .waita { g := ⟨7, false⟩, fb := false, space := .clu, scope := .clu, d := .v 6, a := .v 2, b := .v 8, off := 1 }),
   (0x5A0E00A017FEC000, .probe { g := ⟨7, false⟩, fb := false, space := .glb, d := .v 5, m := { a := .v 2, b := none, off := 0 } }),
   (0x5B0E001AA000C000, .tcopy { g := ⟨7, false⟩, fb := false, space := .glb, sn := 20 }),
   (0x710E010017FEC200, .mload { g := ⟨7, false⟩, fb := false, space := .loc, scope := .dev, d := .v 8, m := { a := .v 2, b := none, off := 0 } }),
   (0x750E010017FE8000, .mstore { g := ⟨7, false⟩, fb := false, space := .glb, scope := .clu, d := .v 8, m := { a := .v 2, b := none, off := 0 } })]

def gradedWords : List (Nat × Instr) :=
  [(0x608E019A1008DA02, .ldg { g := ⟨7, false⟩, fb := false, grade := .prov, width := .w32, nowait := true, pd := 3, d := .v 12, m := { a := .s 2, b := some (.v 4), off := 2 } }),
   (0x6145005A0FFEC000, .stg { g := ⟨2, true⟩, fb := false, grade := .guess, width := .w32, d := .v 2, m := { a := .s 1, b := none, off := 0 } }),
   (0x62C2687A07FEC000, .amend { g := ⟨1, false⟩, fb := false, grade := .final, width := .w32, d := .s 3, m := { a := .s 0, b := none, off := 0 } }),
   (0x630E00A017FEC000, .grd { g := ⟨7, false⟩, fb := false, space := .glb, d := .v 5, m := { a := .v 2, b := none, off := 0 } }),
   (0x640E00C017FEC000, .ginit { g := ⟨7, false⟩, fb := false, d := .v 6, m := { a := .v 2, b := none, off := 0 } }),
   (0x641E00A017FEC003, .gadd { g := ⟨7, false⟩, fb := false, d := .v 5, m := { a := .v 2, b := none, off := 3 } }),
   (0x650E00A017FEF800, .gread { g := ⟨7, false⟩, fb := false, pd := 7, d := .v 5, m := { a := .v 2, b := none, off := 0 } }),
   (0x6514821A068EE800, .gspread { g := ⟨2, false⟩, fb := true, pd := 5, d := .v 16, a := .s 0, thr := .s 7, off := 0 }),
   (0x660E00000000C0C8, .gfence { g := ⟨7, false⟩, fb := false, n := 200 }),
   (0x661400000000C000, .gstep { g := ⟨2, false⟩, fb := false })]

def fabricWords : List (Nat × Instr) :=
  [(0x680E001BE000C200, .fput { g := ⟨7, false⟩, fb := false, space := .loc, sn := 60 }),
   (0x690E801BE800C000, .fget { g := ⟨7, false⟩, fb := true, space := .glb, sn := 61 }),
   (0x6ABE80A010035800, .fatom32 { g := ⟨7, false⟩, fb := true, fn := .fadd, space := .glb, ord := .acq, scope := .sys, d := .v 5, a := .v 2, b := .v 1, off := 0 }),
   (0x6B9E80C010112807, .fatom64 { g := ⟨7, false⟩, fb := true, fn := .cas, space := .glb, ord := .rel, scope := .ten, d := .v 6, a := .v 2, b := .v 8, off := 7 }),
   (0x6C0E00000000C000, .ffence { g := ⟨7, false⟩, fb := false }),
   (0x6D0E00001008C401, .acset { g := ⟨7, false⟩, fb := false, space := .clu, a := .v 2, b := .v 4, off := 1 }),
   (0x6D1E00C017FEC200, .acwait { g := ⟨7, false⟩, fb := false, space := .loc, d := .v 6, m := { a := .v 2, b := none, off := 0 } })]

def matrixWords : List (Nat × Instr) :=
  [(0x700E00201006004C, .obres { g := ⟨7, false⟩, ty := .e4m3, rm := .rne, sat := false, d := .v 1, a := .v 2, b := .v 3 }),
   (0x701E000010000000, .obrel ⟨7, false⟩ (.v 2)),
   (0x720E0000A02A0B00, .mma { g := ⟨7, false⟩, a := .v 20, b := .v 21, c := .v 22 }),
   (0x720E0000A02A0B01, .mmaAll { g := ⟨7, false⟩, a := .v 20, b := .v 21, c := .v 22 }),
   (0x730E000028000000, .mzero ⟨7, false⟩ (.v 5)),
   (0x740E002010060000, .mread ⟨7, false⟩ (.v 1) (.v 2) (.v 3)),
   (0x741E000010060200, .mwrite { g := ⟨7, false⟩, a := .v 2, b := .v 3, c := .v 4 }),
   (0x760E000010060200, .awset { g := ⟨7, false⟩, a := .v 2, b := .v 3, c := .v 4 })]

def decodes (l : List (Nat × Instr)) : Bool := l.all fun x => decide (decodeTableWord 64 x.1 = some x.2)

theorem test_decode_control : decodes controlWords = true := by decide +kernel
theorem test_decode_system : decodes systemWords = true := by decide +kernel
theorem test_decode_integer : decodes integerWords = true := by decide +kernel
theorem test_decode_logic : decodes logicWords = true := by decide +kernel
theorem test_decode_fields : decodes fieldsWords = true := by decide +kernel
theorem test_decode_predicates : decodes predicatesWords = true := by decide +kernel
theorem test_decode_floats : decodes floatsWords = true := by decide +kernel
theorem test_decode_conversions : decodes conversionsWords = true := by decide +kernel
theorem test_decode_sfq : decodes sfqWords = true := by decide +kernel
theorem test_decode_crossLane : decodes crossLaneWords = true := by decide +kernel
theorem test_decode_pairs : decodes pairsWords = true := by decide +kernel
theorem test_decode_memory : decodes memoryWords = true := by decide +kernel
theorem test_decode_graded : decodes gradedWords = true := by decide +kernel
theorem test_decode_fabric : decodes fabricWords = true := by decide +kernel
theorem test_decode_matrix : decodes matrixWords = true := by decide +kernel

/-- The headers of the first kernel (spec/02, "The first kernel, in words"). -/
theorem test_decode_headers :
    decodeHeader 0x0140000F00000000 = some { len := 4, wait := 0, sfa := some 0, sfb := none } ∧
      decodeHeader 0x011001FF00000000 = some { len := 1, wait := 1, sfa := none, sfb := none } := by decide +kernel

/-! ### Words: what the statements ask for -/

/-- Every word of a family has its entry in a table, is well-formed, and finds no poisoned source. -/
def laneReady (table : Instr → Option LaneShape) (ws : List (Nat × Instr)) : Bool :=
  ws.all fun x => match table x.2 with
    | some w => x.2.wf && (fetchGroup.poisonTrap (spot.ctx base w.gd).active w.srcs).isNone
    | none => false

theorem witness_IntegerArithmetic : spot.Issues base ∧ spot.Follows base ∧ laneReady arithmetic integerWords = true :=
  ⟨base_issues, base_follows, by decide +kernel⟩
theorem witness_LogicAndShifts : spot.Issues base ∧ spot.Follows base ∧ laneReady logic logicWords = true :=
  ⟨base_issues, base_follows, by decide +kernel⟩
theorem witness_CountsFieldsAndMoves : spot.Issues base ∧ spot.Follows base ∧ laneReady fields fieldsWords = true :=
  ⟨base_issues, base_follows, by decide +kernel⟩
theorem witness_FloatArithmetic : spot.Issues base ∧ spot.Follows base ∧ laneReady floats floatsWords = true :=
  ⟨base_issues, base_follows, by decide +kernel⟩
theorem witness_Conversions : spot.Issues base ∧ spot.Follows base ∧ laneReady conversions conversionsWords = true :=
  ⟨base_issues, base_follows, by decide +kernel⟩

/-- Every word of a family that acts on a whole group has its entry in a table and is well-formed. -/
def groupReady (table : Instr → Option GroupShape) (ws : List (Nat × Instr)) : Bool :=
  ws.all fun x => (table x.2).isSome && x.2.wf

theorem clean_base (l : Nat) (srcs : List (Nat × Src)) : fetchGroup.poisonAt l srcs = none := by
  induction srcs with
  | nil => rfl
  | cons x t ih =>
    have h : AMap.get fetchGroup.poison = fun _ d => d := rfl
    unfold Group.poisonAt
    rw [List.find?_eq_none.mpr (fun k _ => by rw [h]; simp)]
    exact ih

theorem clean_base_lanes (ls : List Nat) (srcs : List (Nat × Src)) : fetchGroup.poisonTrap ls srcs = none := by
  simp [Group.poisonTrap, clean_base]

theorem witness_PredicateWords : spot.Issues base ∧ spot.Follows base ∧ groupReady predicates predicatesWords = true ∧
    ∀ x ∈ predicatesWords, ∀ w, predicates x.2 = some w → w.clean (spot.ctx base w.gd) fetchGroup := by
  refine ⟨base_issues, base_follows, by decide +kernel, fun x _ w hw => ?_⟩
  unfold predicates at hw
  split at hw <;> cases hw <;> simp [unpoisoned, clean_base_lanes]
theorem witness_CrossLaneWords : spot.Issues base ∧ spot.Follows base ∧ groupReady crossLane crossLaneWords = true ∧
    ∀ x ∈ crossLaneWords, ∀ w, crossLane x.2 = some w → w.clean (spot.ctx base w.gd) fetchGroup := by
  refine ⟨base_issues, base_follows, by decide +kernel, fun x _ w hw => ?_⟩
  unfold crossLane at hw
  split at hw <;> cases hw <;> simp [unpoisoned, clean_base_lanes, clean_base]
theorem witness_PairWords : spot.Issues base ∧ spot.Follows base ∧ groupReady pairs pairsWords = true ∧
    ∀ x ∈ pairsWords, ∀ w, pairs x.2 = some w → w.clean (spot.ctx base w.gd) fetchGroup := by
  refine ⟨base_issues, base_follows, by decide +kernel, fun x _ w hw => ?_⟩
  unfold pairs at hw
  split at hw <;> cases hw <;> simp [pairShape, clean_base_lanes]

/-- A group with one token of the queue taken, and with two. -/
def tokens (n : Nat) : Group := { fetchGroup with toks := [(1, n)] }
theorem witness_SpecialFunctionWords : (sfqWords.all fun x => (sfqShape x.2).isSome) = true ∧
    (spotG (tokens 1)).Issues (withG (tokens 1)) ∧ (spotG (tokens 1)).Follows (withG (tokens 1)) ∧
    (tokens 1).tok 1 + ((spotG (tokens 1)).ctx (withG (tokens 1)) always).parts.length ≤ 2 ∧
    (tokens 1).poisonTrap ((spotG (tokens 1)).ctx (withG (tokens 1)) always).active [(32, .v 9)] = none :=
  ⟨by decide +kernel, issues_of (by decide +kernel), follows_of (by decide +kernel), by decide +kernel⟩
theorem witness_SpecialFunctionHeld : (spotG (tokens 2)).Issues (withG (tokens 2)) ∧ (spotG (tokens 2)).Follows (withG (tokens 2)) ∧
    2 < (tokens 2).tok 1 + ((spotG (tokens 2)).ctx (withG (tokens 2)) always).parts.length :=
  ⟨issues_of (by decide +kernel), follows_of (by decide +kernel), by decide +kernel⟩

/-- A group whose threads have three return addresses, the header behind the clause on top, and whose `v4`, `v5` hold that
address. -/
def callers : Group :=
  { fetchGroup with
    thr := (List.range 16).map fun l =>
      (l, { pc := fetchPc, hdr := some 0x10000, len := 1, rstack := [0x10010, 0x10000, 0x10000] }),
    vo := (List.range 16).map fun l => (rkey l 4, 0x10008) }
def callerSpot : Spot := spotG callers
def callerState : State := withG callers
theorem canSpill_of {s : State} {p : Spot} {x : Ctx} (h : spilling p.g x = []) : CanSpill s p x := by
  unfold CanSpill
  rw [h]
  exact ⟨fun _ h => absurd h (List.not_mem_nil), fun h => absurd rfl h⟩
theorem witness_Transfers : callerSpot.Issues callerState ∧
    Reaches callerState callerSpot true (relTo (callerSpot.ctx callerState always) ⟨always, true, 1⟩) ∧
    Reaches callerState callerSpot true (relTo (callerSpot.ctx callerState always) ⟨always, true, -1⟩) ∧
    CanSpill callerState callerSpot (callerSpot.ctx callerState always) ∧
    callers.poisonTrap (callerSpot.ctx callerState always).active [(64, .v 4)] = none ∧
    Reaches callerState callerSpot false (indTo (callerSpot.ctx callerState always) callers ⟨always, false, .v 4, 1⟩) ∧
    (∀ l ∈ (callerSpot.ctx callerState always).active, (callers.thread l).rstack ≠ [] ∧ (callers.thread l).rbad.getD 0 0 = 0) ∧
    Reaches callerState callerSpot true (retTo (callerSpot.ctx callerState always) callers) :=
  ⟨issues_of (by decide +kernel), reaches_of (by decide +kernel) (by decide +kernel),
    reaches_of (by decide +kernel) (by decide +kernel), canSpill_of (by decide +kernel), by decide +kernel,
    reaches_of (by decide +kernel) (by decide +kernel), by decide +kernel, reaches_of (by decide +kernel) (by decide +kernel)⟩

/-- A group in which `p0` is true in eight lanes. -/
def halves : Group := { fetchGroup with preds := [(0, 0xFF)] }
theorem witness_RejoinAndExit : spot.Issues base ∧ HeaderAt base spot (spot.ga.pc + 8) ∧
    fetchGroup.poisonTrap ((spot.ctx base always).active.take 1) [(64, .s 4)] = none ∧
    (∀ l ∈ fetchGroup.live, (spot.ctx base always).act.getLsbD l = true) ∧ spot.m &&& ~~~(spot.ctx base always).act = 0 ∧
    (spot.ctx base always).act ≠ 0 :=
  ⟨base_issues, headerAt_of (by decide +kernel), by decide +kernel⟩
theorem witness_SomeExit : (spotG halves).Issues (withG halves) ∧ HeaderAt (withG halves) (spotG halves) (spot.ga.pc + 8) ∧
    ∃ l ∈ halves.live, ((spotG halves).ctx (withG halves) ⟨0, false⟩).act.getLsbD l = false :=
  ⟨issues_of (by decide +kernel), headerAt_of (by decide +kernel), 8, by decide +kernel⟩

theorem witness_SleepingAndWaiting : spot.Issues base ∧ spot.Follows base ∧ HeaderAt base spot (spot.ga.pc + 8) ∧
    base.group? 0 0 = some fetchGroup ∧ (spot.ctx base always).act ≠ 0 ∧ (∀ n < 4, (3 : BitVec 4).getLsbD n = true → fetchGroup.tok n = 0) ∧
    (∀ n < 12, (0x803 : BitVec 12).getLsbD n = true → fetchGroup.flag n = 0) :=
  ⟨base_issues, base_follows, headerAt_of (by decide +kernel), by decide +kernel⟩
/-- A group that waits for a token and a flag. -/
def waiter : Group := { fetchGroup with toks := [(1, 1)], flags := [(11, 1)] }
theorem witness_Waiting : (spotG waiter).Issues (withG waiter) ∧ (spotG waiter).Follows (withG waiter) ∧
    ((spotG waiter).ctx (withG waiter) always).act ≠ 0 ∧ (∃ n < 4, (2 : BitVec 4).getLsbD n = true ∧ waiter.tok n ≠ 0) ∧
    ∃ n < 12, (0x800 : BitVec 12).getLsbD n = true ∧ waiter.flag n ≠ 0 :=
  ⟨issues_of (by decide +kernel), follows_of (by decide +kernel), by decide +kernel, ⟨1, by decide +kernel⟩, 11, by decide +kernel⟩

def barWord0 (g : Guard) (c : Fin 17) : BarArgs := ⟨g, 15, c⟩
theorem witness_Barriers : (spotG halves).Issues (withG halves) ∧ (spotG halves).Follows (withG halves) ∧
    BarReady (withG halves) (spotG halves) (barWord0 ⟨0, false⟩ 1) ∧ Missing (withG halves) (spotG halves) (barWord0 ⟨0, false⟩ 1) ∧
    (halves.bar 15).gs = (((withG halves).run 1).bar halves.handler 15).bc :=
  ⟨issues_of (by decide +kernel), follows_of (by decide +kernel), by unfold BarReady; decide +kernel,
    by unfold Missing; decide +kernel, by decide +kernel⟩
theorem witness_BarrierCompletes : spot.Issues base ∧ spot.Follows base ∧ BarReady base spot (barWord0 always 0) ∧
    (∀ l ∈ fetchGroup.live, (marksAfter base spot (barWord0 always 0)).getLsbD l = true) ∧
    (base.run 1).ngroups = (base.run 1).ended + 1 ∧ ((base.run 1).bar fetchGroup.handler 15).exp = none ∧
    ((base.run 1).bar fetchGroup.handler 15).arr = 0 ∧ (fetchGroup.bar 15).gs = ((base.run 1).bar fetchGroup.handler 15).bc :=
  ⟨base_issues, base_follows, by unfold BarReady; decide +kernel, by decide +kernel⟩

theorem witness_TrapWords : spot.Issues base ∧ fetchGroup.mode = .normal ∧ (spot.ctx base always).act ≠ 0 ∧
    trapOf (.trap ⟨always, 0xFFFF⟩) = some (⟨always, 0xFFFF⟩, 0x11) ∧ trapOf (.brk ⟨always, 0⟩) = some (⟨always, 0⟩, 0x12) ∧
    trapOf (.sysc ⟨always, 1⟩) = some (⟨always, 1⟩, 0x13) :=
  ⟨base_issues, by decide +kernel, by decide +kernel, rfl, rfl, rfl⟩

/-- A group in a handler, with one shadow set. -/
def inHandler (m : Mode) : Group := { fetchGroup with mode := m, shadow := [{ preds := [(0, 1)], thr := fetchGroup.thr }] }
def handlerState (m : Mode) (eff : Bool) : State := (withG (inHandler m)).modPart 0 fun x => { x with inEffect := eff }
theorem witness_HandlerReturns : (spotG (inHandler .trap)).Issues (handlerState .trap false) ∧
    (inHandler .trap).shadow = { preds := [(0, 1)], thr := fetchGroup.thr } :: [] ∧ ((handlerState .trap false).core 0).handlerQuiet (inHandler .trap) = true :=
  ⟨issues_of (by decide +kernel), rfl, by decide +kernel⟩
theorem witness_PreemptionHandlers : (spotG (inHandler .psave)).Issues (handlerState .psave true) ∧
    ((handlerState .psave true).core 0).handlerQuiet (inHandler .psave) = true ∧ ((handlerState .psave true).part 0).inEffect = true ∧
    (spotG (inHandler .psave)).Issues (handlerState .psave false) ∧ ((handlerState .psave false).part 0).inEffect = false ∧
    (spotG (inHandler .prest)).Issues (handlerState .prest false) ∧ ((handlerState .prest false).core 0).handlerQuiet (inHandler .prest) = true :=
  ⟨issues_of (by decide +kernel), by decide +kernel, by decide +kernel, issues_of (by decide +kernel), by decide +kernel,
    issues_of (by decide +kernel), by decide +kernel⟩

/-- A group with the window of rows 8 to 15, and scalars to set it with. -/
def windowed : Group := { fetchGroup with awbase := 8, awlimit := 16, sc := [(4, 8), (5, 16), (6, 7), (7, 24)] }
theorem witness_SpecialRegisterWords : (spotG windowed).Issues (withG windowed) ∧ (spotG windowed).Follows (withG windowed) ∧
    ((spotG windowed).ctx (withG windowed) always).act ≠ 0 ∧
    windowed.poisonTrap (((spotG windowed).ctx (withG windowed) always).active.take 1) [(64, .s 4)] = none ∧
    windowed.poisonTrap (((spotG windowed).ctx (withG windowed) always).active.take 1) [(32, .s 5)] = none ∧
    (∀ n ∈ ([4, 5] : List (Fin 64)), let v := ((spotG windowed).ctx (withG windowed) always).value windowed 32 0 (.s n)
      v % 8 = 0 ∧ windowed.awbase ≤ v ∧ v ≤ windowed.awlimit) ∧
    (∀ n ∈ ([6, 7] : List (Fin 64)), let v := ((spotG windowed).ctx (withG windowed) always).value windowed 32 0 (.s n)
      ¬(v % 8 = 0 ∧ windowed.awbase ≤ v ∧ v ≤ windowed.awlimit)) ∧ windowed.mode ≠ .trap :=
  ⟨issues_of (by decide +kernel), follows_of (by decide +kernel), by decide +kernel⟩

/-! ### Pages and registers -/

/-- The frame of a page, at the page's home. -/
def frameOf (va : Nat) : Nat := homeHash 0 1 va * 2 ^ 35 + (64 + va / 2 ^ 16) * 2 ^ 16

/-- V, W, R, P and LF, key slot 0. -/
def dataLeaf (va cls : Nat) : Word := BitVec.ofNat 64 (2 ^ 63 + cls * 2 ^ 61 + 2 ^ 57 + 2 ^ 56 + 2 ^ 52 + 2 ^ 8 + frameOf va)

/-- A page that core 0 may read and write. -/
def withPage (s : State) (va cls : Nat) : State :=
  { s.modCore 0 fun k => { k with plb := AMap.put k.plb (pageTag 0 1 va) { r := true, w := true, cls := cls } } with
    tlb := AMap.put s.tlb (pageTag 0 1 va) { leaf := dataLeaf va cls },
    rmap := AMap.put s.rmap (frameOf va / 2 ^ 16) (rmapEntry 0 1 va) }

/-- A sector that the shared cache of die 0 owns. -/
def withSector (s : State) (va : Nat) (d : Sector) : State :=
  { s with cached := AMap.put s.cached (sectorTag 0 1 va) [{ st := .m, data := d }] }

/-! ### Return stacks that spill -/

def stackOk (s : State) (p : Spot) (va : Nat) (write : Bool) : Bool :=
  match s.plbAt p.c p.g.part (easidOf p.g.asid va) va, s.leafOf p.g.part (easidOf p.g.asid va) va with
  | .hit e, .leaf w _ => decide (e.r = true ∧ (write = true → e.w = true ∧ e.sealed = false) ∧
      (e.cls = 0 ∨ (write = false ∧ e.cls ≠ 2)) ∧ s.lateCause p.g.part (easidOf p.g.asid va) va w false = none)
  | _, _ => false
theorem stackOk_of {s : State} {p : Spot} {va : Nat} {write : Bool} (h : stackOk s p va write = true) : StackOk s p va write := by
  unfold stackOk at h
  split at h
  · rename_i e w pa he hw
    obtain ⟨a, b, c, d⟩ := of_decide_eq_true h
    exact ⟨e, w, pa, he, a, b, c, hw, d⟩
  · cases h

/-- Threads with `n` return addresses, and a spill area in an ordinary page that begins `k` entries below the top. -/
def stacked (n k : Nat) : Group :=
  { fetchGroup with
    thr := (List.range 16).map fun l =>
      (l, { pc := fetchPc, hdr := some 0x10000, len := 1, rstack := List.replicate n 0x10010,
            base := BitVec.ofNat 64 (0x20000 + 64 * l), top := BitVec.ofNat 64 (0x20000 + 64 * l + 8 * k) }),
    vo := (List.range 16).map fun l => (rkey l 4, 0x10008) }
def stackState (n k : Nat) : State := withPage (withG (stacked n k)) 0x20000 0
theorem witness_Spills : (spotG (stacked 4 0)).Issues (stackState 4 0) ∧
    Reaches (stackState 4 0) (spotG (stacked 4 0)) true (relTo ((spotG (stacked 4 0)).ctx (stackState 4 0) always) ⟨always, true, 1⟩) ∧
    spilling (stacked 4 0) ((spotG (stacked 4 0)).ctx (stackState 4 0) always) = List.range 16 ∧
    CanSpill (stackState 4 0) (spotG (stacked 4 0)) ((spotG (stacked 4 0)).ctx (stackState 4 0) always) := by
  refine ⟨issues_of (by decide +kernel), reaches_of (by decide +kernel) (by decide +kernel), by decide +kernel, ?_, by decide +kernel⟩
  have h : ∀ l ∈ spilling (stacked 4 0) ((spotG (stacked 4 0)).ctx (stackState 4 0) always),
      ((stacked 4 0).thread l).rbad.getD 3 0 = 0 ∧
        stackOk (stackState 4 0) (spotG (stacked 4 0)) ((stacked 4 0).thread l).top.toNat true = true := by decide +kernel
  exact fun l hl => ⟨(h l hl).1, stackOk_of (h l hl).2⟩
theorem witness_Fills : (spotG (stacked 0 2)).Issues (stackState 0 2) ∧
    filling (stacked 0 2) ((spotG (stacked 0 2)).ctx (stackState 0 2) always) = List.range 16 ∧
    (∀ l ∈ filling (stacked 0 2) ((spotG (stacked 0 2)).ctx (stackState 0 2) always),
      StackOk (stackState 0 2) (spotG (stacked 0 2)) (lastTop ((stacked 0 2).thread l)).toNat false) ∧
    (∀ l ∈ ((spotG (stacked 0 0)).ctx (stackState 0 0) always).active, ((stacked 0 0).thread l).rstack = [] ∧
      ((stacked 0 0).thread l).top = ((stacked 0 0).thread l).base) := by
  refine ⟨issues_of (by decide +kernel), by decide +kernel, ?_, by decide +kernel⟩
  have h : ∀ l ∈ filling (stacked 0 2) ((spotG (stacked 0 2)).ctx (stackState 0 2) always),
      stackOk (stackState 0 2) (spotG (stacked 0 2)) (lastTop ((stacked 0 2).thread l)).toNat false = true := by decide +kernel
  exact fun l hl => stackOk_of (h l hl)
/-- Lane 5 returns elsewhere, and the upper half of the lanes does not branch. -/
def parted : Group :=
  { halves with thr := (List.range 16).map fun l =>
      (l, { pc := fetchPc, hdr := some 0x10000, len := 1, rstack := [if l = 5 then 0x10020 else 0x10010] }) }
theorem witness_Splits : (spotG parted).Issues (withG parted) ∧
    Splits 0xFFFF (relTo ((spotG parted).ctx (withG parted) ⟨0, false⟩) ⟨⟨0, false⟩, true, 5⟩) 8 ∧
    Splits 0xFFFF (retTo ((spotG parted).ctx (withG parted) always) parted) 5 :=
  ⟨issues_of (by decide +kernel), by unfold Splits; decide +kernel, by unfold Splits; decide +kernel⟩

/-- Registers of the sixteen lanes. -/
def regsOf (f : List (Nat × (Nat → Nat))) : AMap Reg32 :=
  (List.range 16).flatMap fun l => f.map fun x => (rkey l x.1, BitVec.ofNat 32 (x.2 l))

/-! ### Tasks -/

/-- `v4` holds the address of a record: a task of one team of one group, whose entry is the page of the clause. -/
def launcher : Group := { fetchGroup with vo := regsOf [(4, fun _ => 0x20000), (5, fun _ => 0)] }
def launchState : State :=
  withSector (withPage (withG launcher) 0x20000 0) 0x20000 (BitVec.ofNat 512 (0x10000 + 2 ^ 64 * 2 ^ 47))
def recordLoc : Loc := leafLoc 0 1 0x20000 (dataLeaf 0x20000 0)
def recordWords : List Word := [0x10000, 0x800000000000] ++ List.replicate 30 0

def isMem (r : Except Nat Dest) (l : Loc) : Bool :=
  match r with
  | .ok (.mem k) => decide (k = l)
  | _ => false
theorem isMem_of {r : Except Nat Dest} {l : Loc} (h : isMem r l = true) : r = .ok (.mem l) := by
  unfold isMem at h
  split at h
  · rw [of_decide_eq_true h]
  · cases h

theorem witness_Spawn :
    (spotG launcher).Issues launchState ∧ (spotG launcher).Follows launchState ∧
    HeaderAt launchState (spotG launcher) (((spotG launcher).ctx launchState always).pc + (1#27).signExtend 64 * 8) ∧
    ((spotG launcher).ctx launchState always).act ≠ 0 ∧
    launcher.poisonTrap ((spotG launcher).ctx launchState always).active [(64, .v 4)] = none ∧
    ∀ l ∈ ((spotG launcher).ctx launchState always).active, launcher.spawned.getLsbD l = false →
      (spawnInto launchState (spotG launcher) always (((spotG launcher).ctx launchState always).pc + (1#27).signExtend 64 * 8)
        (.v 4)).2.getLsbD l = true :=
  ⟨issues_of (by decide +kernel), follows_of (by decide +kernel), headerAt_of (by decide +kernel), by decide +kernel⟩

/-- The state in which the record has been read. -/
def readState : State :=
  match launchState.readRecord 0 recordLoc with
  | some (s, _) => s
  | none => launchState
theorem witness_Launch :
    launchState.resolve 0 1 0x20000 .noWindow = .ok (.mem recordLoc) ∧
    OneHalf launchState (spotG launcher) always 0 0xFFFF ∧ launcher.poisonTrap [0] [(64, .v 4)] = none ∧
    launchState.check ((spotG launcher).ctx launchState always) launcher .dev [recordTouch 0 0x20000] none = none ∧
    ((spotG launcher).ctx launchState always).value launcher 64 0 (.v 4) = 0x20000 ∧
    (∀ q ∈ (launchState.core 0).reqs, q.kind = .record → q.idn.gid ≠ 1) ∧ launchState.releaseDev 0 1 = (launchState, true) ∧
    launchState.readRecord 0 recordLoc = some (readState, some recordWords) ∧ readState.group? 0 0 = some launcher ∧
    recordBad recordWords false = false ∧ readState.recordClash 0 (recordOf recordWords) = false ∧ readState.freeSlots 0 ≠ [] :=
  ⟨isMem_of (by decide +kernel), by unfold OneHalf; decide +kernel⟩

/-- The task of the run, in slot 0, and a walk of three indices of which two are taken. -/
def taskState : State :=
  (base.modPart 0 fun x => { x with slots := [(0, { asid := 1 })] }).modRun 1 fun r => { r with walkn := 3, taken := [0, 2] }
theorem witness_DoneWalkAndStat :
    spot.Issues taskState ∧ spot.Follows taskState ∧ OneHalf taskState spot always 0 0xFFFF ∧
    (taskState.run 1).disp = false ∧ (taskState.run 1).spawned = false ∧ (taskState.run 1).part = 0 ∧ (taskState.run 1).team < 4096 ∧
    taskState.task? 0 0 = some { asid := 1 } ∧ (taskState.part 0).hold = [] ∧ (∀ y ∈ (taskState.part 0).slots, y.2.desc.deps = []) ∧
    fetchGroup.poisonTrap (spot.ctx taskState always).active [(32, .v 3)] = none ∧
    (∀ l ∈ (spot.ctx taskState always).active, (spot.ctx taskState always).value fetchGroup 32 l (.v 3) / 2 ^ 10 % 2 ^ 6 = 0 ∧
      taskState.spillOk 0 ((spot.ctx taskState always).value fetchGroup 32 l (.v 3) % 2 ^ 10)
        ((spot.ctx taskState always).value fetchGroup 32 l (.v 3) / 2 ^ 16 % 2 ^ 16) = true) :=
  ⟨issues_of (by decide +kernel), follows_of (by decide +kernel), by unfold OneHalf; decide +kernel, by decide +kernel⟩
/-- A group of 64 threads that issues in two halves. -/
def wideGroup : Group :=
  { fetchGroup with width := 64, thr := (List.range 64).map fun l => (l, { pc := fetchPc, hdr := some 0x10000, len := 1 }) }
def wideGang : Gang := { fetchGang with members := [(0, BitVec.allOnes 64)], two := true }
def wideSpot : Spot := { spot with ga := wideGang, m := BitVec.allOnes 64, g := wideGroup }
def wideState : State :=
  (taskState.setGroup 0 0 wideGroup).modCore 0 fun k =>
    { k with table := [(0, { kern := 1, hdr := 0x10000, gang := some wideGang })] }

theorem oneHalf_effect {p : Spot} {x : Ctx} {f : State → Group → Nat → Mask → State → Prop} {s t : State} {g : Group} {l : Nat}
    {m : Mask} (hx : x.two = false) (hl : x.leads = [(l, m)]) (hg : s.group? p.c p.slot = some g) (hf : f s g l m t) :
    EachHalf p x f x.leads s t := by
  rw [hl]
  exact ⟨g, t, hg, hf, by simp [EachHalf, hx]⟩

theorem twoHalves_effect {p : Spot} {x : Ctx} {f : State → Group → Nat → Mask → State → Prop} {s t : State} {g : Group}
    {a b : Nat × Mask} (hx : x.two = true) (hl : x.leads = [a, b]) (hg : s.group? p.c p.slot = some g)
    (hf : f s g a.1 a.2 t)
    (h2 : ((t.modGroup p.c p.slot fun g => { g with spawned := g.spawned ||| a.2 }).group? p.c p.slot).isSome = true)
    (hf2 : ∀ h, ∃ u, f (t.modGroup p.c p.slot fun g => { g with spawned := g.spawned ||| a.2 }) h b.1 b.2 u) :
    ∃ u, EachHalf p x f x.leads s u := by
  obtain ⟨h, hh⟩ := Option.isSome_iff_exists.mp h2
  obtain ⟨u, hu⟩ := hf2 h
  rw [hl]
  exact ⟨_, g, t, hg, hf, h, u, by rw [hx]; exact hh, by rw [hx]; exact hu, rfl⟩

/-- Both halves of a walk take an index each, and the halves of the other group instructions have an effect. -/
theorem witness_EachHalf : wideSpot.Issues wideState ∧ wideSpot.Follows wideState ∧
    Fresh wideSpot (wideSpot.ctx wideState always) ∧
    (∃ s', EachHalf wideSpot (wideSpot.ctx wideState always) (twalkDone wideState wideSpot always (.v 5))
      (wideSpot.ctx wideState always).leads wideState s') ∧
    Fresh spot (spot.ctx taskState always) ∧
    (∃ s', EachHalf spot (spot.ctx taskState always) (tdoneDone spot .prov) (spot.ctx taskState always).leads taskState s') ∧
    ∃ s', EachHalf (spotG launcher) ((spotG launcher).ctx launchState always)
      (tlaunchDone launchState (spotG launcher) always (.v 3) (.v 4)) ((spotG launcher).ctx launchState always).leads
      launchState s' := by
  obtain ⟨a, -, b, c, -, d, e, f, g, h, i, j⟩ := witness_Launch
  refine ⟨issues_of (by decide +kernel), follows_of (by decide +kernel), by unfold Fresh; decide +kernel, ?_,
    by unfold Fresh; decide +kernel, ?_, ?_⟩
  · exact twoHalves_effect (a := (0, 0xFFFFFFFF#64)) (b := (32, 0xFFFFFFFF00000000#64)) rfl (by decide +kernel)
      (by decide +kernel : _ = some wideGroup) ⟨by decide +kernel, rfl⟩ (by decide +kernel)
      fun _ => ⟨_, by decide +kernel, rfl⟩
  · exact ⟨_, oneHalf_effect (l := 0) (m := 0xFFFF) rfl (by decide +kernel) (by decide +kernel : _ = some fetchGroup)
      ⟨taskState, by decide +kernel, rfl⟩⟩
  · exact ⟨_, oneHalf_effect (l := 0) (m := 0xFFFF) rfl (by decide +kernel) (by decide +kernel : _ = some launcher)
      ⟨b, by decide +kernel, d, launchState, readState, recordLoc, recordWords, e, isMem_of (by decide +kernel), f, g, h, i, j, rfl⟩⟩

theorem witness_WalkTakesEachOnce : (walkNext 70 { walkn := 3, taken := [0, 2] }).isSome = true ∧
    walkNext 70 { walkn := 1, taken := [0] } = none := ⟨rfl, by decide +kernel⟩

/-! ### Matrix words -/

/-- Two reservations (16 and 64 rows of E4M3, one k-step), a share of the buffer and of the accumulator, a window of 16 rows. -/
def tiler : Group :=
  { fetchGroup with
    awlimit := 16,
    vo := regsOf [(2, fun _ => 0x1000F), (3, fun _ => 0x40), (6, fun _ => 0), (7, fun _ => 0), (8, fun _ => 16), (9, fun _ => 2),
      (10, fun _ => 17), (20, fun l => l / 8 * 8), (21, fun l => l / 8 * 8 * 65536), (22, fun _ => 1)] }
def tileState : State :=
  (withG tiler).modRun 1 fun r =>
    { r with ob := [(0, (0, 8))], accs := [(0, (0, 8))],
             resv := [(0, { v := true, fmt := .e4m3, ksteps := 1, rowsm1 := 15 }),
               (1, { v := true, fmt := .e4m3, base := 2, ksteps := 1, rowsm1 := 63 }),
               (2, { v := true, fmt := .e4m3, base := 20, ksteps := 1, rowsm1 := 7 })] }
def tileSpot : Spot := spotG tiler
def obresWord : F2 := ⟨always, .e4m3, .rne, false, .v 1, .v 2, .v 3⟩
def mmaWords : Reg3 := ⟨always, .v 20, .v 21, .v 22⟩
theorem witness_Reservations : tileSpot.Issues tileState ∧ tileSpot.Follows tileState ∧ OneHalf tileState tileSpot always 0 0xFFFF ∧
    tiler.poisonTrap [0] [(32, .v 2), (32, .v 3)] = none ∧
    ObresOk tileState tileSpot .e4m3 ((tileSpot.ctx tileState always).value tiler 32 0 (.v 2))
      ((tileSpot.ctx tileState always).value tiler 32 0 (.v 3)) ∧
    (List.range 16).find? (fun k => !(tileState.resvOf 1 0 k).v) = some 3 ∧
    (∀ n ∈ ([9, 10] : List (Fin 768)), let v := (tileSpot.ctx tileState always).value tiler 32 0 (.v n)
      v < 32 ∧ (tileState.resvOf 1 0 (v % 16)).v = true ∧ tileState.slotBusy 1 0 (v % 16) = false) :=
  ⟨issues_of (by decide +kernel), follows_of (by decide +kernel), by unfold OneHalf; decide +kernel, by decide +kernel,
    by unfold ObresOk; decide +kernel, by decide +kernel⟩
theorem witness_Window : tileState.leader 0 tiler = true ∧
    (((tileState.core 0).groups.filter fun z => z.2.run == 1).find? fun z => z.2.num == 0) = some (0, tiler) ∧
    (∀ z ∈ (tileState.core 0).groups, z.2.run = 1 → z.2.num ≠ 0 → False) ∧ 16 ≤ tileState.accRows 1 0 ∧
    tiler.poisonTrap [0] [(32, .v 6), (32, .v 7), (32, .v 8)] = none := by
  decide +kernel
theorem witness_MatrixWords : MmaOk tileState tileSpot mmaWords false ∧ MmaOk tileState tileSpot mmaWords true ∧
    RowsOk tileState tileSpot always (.v 20) [(32, .v 20), (32, .v 21), (32, .v 22)] ∧
    RowsOk tileState tileSpot always (.v 20) [(32, .v 20)] ∧ RowsOk tileState tileSpot always (.v 20) [(32, .v 20), (32, .v 21)] ∧
    (∀ l ∈ (tileSpot.ctx tileState always).active,
      AMap.find? (tileState.core 0).accPoison (accOf tileState tileSpot always (.v 20) (.v 22) l) = none) :=
  ⟨by unfold MmaOk; decide +kernel, by unfold MmaOk; decide +kernel, by unfold RowsOk; decide +kernel,
    by unfold RowsOk; decide +kernel, by unfold RowsOk; decide +kernel, by decide +kernel⟩

/-! ### Memory words -/

def scalarsOf (l : List (Nat × Nat)) : AMap Word := l.map fun x => (x.1, BitVec.ofNat 64 x.2)

/-- `v4` addresses a sector for each lane in an ordinary page, `v6` in a graded one, `v8` in one of gossip, `v10` in the
scratchpad; `v12` is 1, `v13` 0, `v14` a row of the first reservation, `v15` a row of the accumulator as FP32; scalars 20 to
32 hold descriptors. -/
def mover : Group :=
  { tiler with
    vo := regsOf [(4, fun l => 0x20000 + 256 * l), (6, fun l => 0x30000 + 64 * l), (8, fun l => 0x40000 + 256 * l),
      (10, fun l => 64 * l), (12, fun _ => 1), (14, fun l => l * 65536), (15, fun l => 0x100000 + l)],
    sc := scalarsOf [(20, 0x20000), (21, 0x20000), (22, 32), (23, 32), (24, 2 ^ 63), (26, 0x20000), (27, 0x20040), (28, 32),
      (30, 0x20000), (31, 0x20040), (32, 32)] }
def moveState : State :=
  ((withPage (withPage (withPage (tileState.setGroup 0 0 mover) 0x20000 0) 0x30000 1) 0x40000 2).modRun 1 fun r =>
    { r with ways := [(0, 4)] }).modCore 0 fun k => { k with holders := [(4, 1)] }
def moveSpot : Spot := spotG mover

def addr (n : Fin 768) : Addr := { a := .v n, b := none, off := 0 }
def readyWords : List Instr :=
  [.ld ⟨always, false, .s8, .glb, true, .acq, .dev, .v 3, addr 4⟩, .ld ⟨always, false, .w64, .loc, false, .none, .dev, .v 3, addr 10⟩,
   .st ⟨always, false, .w32, .glb, false, .none, .dev, .v 1, addr 4⟩, .st ⟨always, true, .w32, .clu, false, .none, .dev, .v 1, addr 4⟩,
   .atom32 ⟨always, false, .add, .glb, .none, .dev, .v 3, .v 4, .v 1, 0⟩,
   .atom64 ⟨always, false, .maxk, .glb, .ar, .dev, .v 2, .v 4, .v 12, 0⟩,
   .fence ⟨always, false, .rel, .dev, .v 0⟩, .acqr ⟨always, false, .acq, .clu, .v 13⟩, .cflush ⟨always, false, .dev, addr 4⟩,
   .cinv ⟨always, false, .dev, addr 4⟩, .seal ⟨always, false, .v 12, addr 4⟩, .unseal ⟨always, false, .v 12, addr 4⟩,
   .harvest ⟨always, false, .v 12, addr 4⟩, .carve ⟨always, false, 6⟩, .waita ⟨always, false, .glb, .dev, .v 2, .v 4, .v 12, 0⟩,
   .probe ⟨always, false, .glb, .v 3, addr 4⟩, .tcopy ⟨always, false, .glb, 20⟩,
   .ldg ⟨always, false, .prov, .w32, true, 3, .v 3, addr 6⟩, .stg ⟨always, false, .guess, .w32, .v 2, addr 6⟩,
   .amend ⟨always, false, .final, .w32, .v 3, addr 6⟩, .grd ⟨always, false, .glb, .v 3, addr 6⟩,
   .ginit ⟨always, false, .v 12, addr 8⟩, .gadd ⟨always, false, .v 12, addr 8⟩, .gread ⟨always, false, 3, .v 3, addr 8⟩,
   .gspread ⟨always, false, 3, .v 3, .v 8, .v 12, 0⟩, .gfence ⟨always, false, 200⟩, .gstep ⟨always, false⟩,
   .fput ⟨always, false, .glb, 26⟩, .fget ⟨always, false, .glb, 30⟩,
   .fatom32 ⟨always, false, .fadd, .glb, .none, .dev, .v 3, .v 4, .v 1, 0⟩,
   .fatom64 ⟨always, false, .cas, .glb, .ar, .dev, .v 2, .v 4, .v 12, 0⟩,
   .ffence ⟨always, false⟩, .acset ⟨always, false, .glb, .v 4, .v 12, 0⟩, .acwait ⟨always, false, .glb, .v 2, addr 4⟩,
   .mload ⟨always, false, .glb, .dev, .v 14, addr 4⟩, .mstore ⟨always, false, .glb, .dev, .v 15, addr 4⟩]

/-- `MemReady`, as a test, and that every half then finds room. -/
def memReady (s : State) (p : Spot) (gd : Guard) (w : MemWord) : Bool :=
  let x := Left p (p.ctx s gd)
  decide ((p.ctx s gd).act ≠ 0 ∧ w.early x s p.g (actLanes w x) = none ∧ p.g.poisonTrap (actLanes w x) w.srcs = none ∧
    s.check x p.g w.scope (w.touches x s p.g (actLanes w x)) (w.desc x s p.g (actLanes w x)) = none ∧
    (w.more x s p.g (actLanes w x)).isNone = true ∧ (w.ordered = true → (s.core p.c).mayIssue p.g.gid = true)) &&
  (match (p.ctx s gd).setFlag w.fb with
   | some f => decide (p.g.flag f + x.parts.length ≤ 63)
   | none => true)
theorem memReady_of {s : State} {p : Spot} {gd : Guard} {w : MemWord} (h : memReady s p gd w = true) : MemReady s p gd w := by
  unfold memReady at h
  rw [Bool.and_eq_true] at h
  obtain ⟨a, b, c, d, e, f⟩ := of_decide_eq_true h.1
  refine ⟨a, b, c, d, Option.isNone_iff_eq_none.mp e, f, fun k hk => ?_⟩
  have := h.2
  rw [hk] at this
  exact of_decide_eq_true this
def putsAll (s : State) (p : Spot) (gd : Guard) (w : MemWord) : Bool :=
  (putOut w (p.ctx s gd) p.g (Left p (p.ctx s gd)).parts s).isSome
def allReady (s : State) (p : Spot) (l : List Instr) : Bool :=
  l.all fun i => match memWordOf i with
    | some (gd, w) => memReady s p gd w && putsAll s p gd w
    | none => false
theorem allReady_of {s : State} {p : Spot} {l : List Instr} (h : allReady s p l = true) (i : Instr) (hi : i ∈ l) :
    ∃ gd w, memWordOf i = some (gd, w) ∧ MemReady s p gd w ∧
      ∃ s', putOut w (p.ctx s gd) p.g (Left p (p.ctx s gd)).parts s = some s' := by
  have := List.all_eq_true.mp h i hi
  split at this
  · rw [Bool.and_eq_true] at this
    exact ⟨_, _, by assumption, memReady_of this.1, Option.isSome_iff_exists.mp this.2⟩
  · cases this
theorem witness_MemoryWordsIssue : moveSpot.Issues moveState ∧ moveSpot.Follows moveState ∧
    ∀ i ∈ readyWords, ∃ gd w, memWordOf i = some (gd, w) ∧ MemReady moveState moveSpot gd w ∧
      ∃ s', putOut w (moveSpot.ctx moveState gd) mover (Left moveSpot (moveSpot.ctx moveState gd)).parts moveState = some s' :=
  ⟨issues_of (by decide +kernel), follows_of (by decide +kernel), allReady_of (by decide +kernel)⟩
/-- A store whose sixteen entries find no room behind 120 others. -/
def fullState : State :=
  moveState.modCore 0 fun k => { k with reqs := [{ id := 3, kind := .st, accs := (List.range 120).map fun i => { va := 64 * i, size := 4 } }] }
def wideSt : StArgs := ⟨always, false, .w32, .glb, false, .none, .dev, .v 1, addr 4⟩
theorem witness_StoreHeld : moveSpot.Issues fullState ∧ moveSpot.Follows fullState ∧ MemReady fullState moveSpot always (stMem wideSt) ∧
    (Left moveSpot (moveSpot.ctx fullState always)).parts = 0xFFFF :: [] ∧ (stMem wideSt).ordered = true ∧
    (fullState.core 0).roomFor (((stMem wideSt).req (moveSpot.ctx fullState always) fullState mover 0xFFFF).entries
      fun _ => true) = false :=
  ⟨issues_of (by decide +kernel), follows_of (by decide +kernel), memReady_of (by decide +kernel), by decide +kernel⟩
theorem witness_RequestsAreCounted : moveSpot.Issues moveState ∧ (moveSpot.ctx moveState always).act ≠ 0 ∧
    (moveState.countHalf (moveSpot.ctx moveState always) true 0xFFFF
      ((ldMem ⟨always, true, .w32, .glb, false, .none, .dev, .v 3, addr 4⟩).req (moveSpot.ctx moveState always) moveState mover 0xFFFF)
      []).isSome = true :=
  ⟨issues_of (by decide +kernel), by decide +kernel⟩
theorem witness_HighestLaneStores :
    let l := [(0, 64, 1), (3, 64, 0x0A0B0C0D), (5, 68, 9)]
    (∀ e ∈ l, e.2.1 % 4 = 0 ∧ 64 % 4 = 0) ∧ (3, 64, 0x0A0B0C0D) ∈ l ∧ l.Pairwise (fun a b => a.1 < b.1) ∧
    (∀ e ∈ l, 3 < e.1 → e.2.1 ≠ 64) ∧
    ((sectorAccs .glb 4 l).map fun a => (a.va / 64, a.mask, a.data.toNat)) = [(1, 0xFF, 0x90A0B0C0D)] := by decide +kernel

/-- A word's accesses to the ordinary page and to the page of the clause, which grants no W. -/
def touch (lane va size : Nat) (w : Bool) : Touch :=
  { lane := lane, space := .glb, va := va, size := size, r := !w, w := w, cls := clsOrdinary }
def good : List Touch := [touch 0 0x20000 4 true, touch 3 0x2FFFC 4 false, touch 5 0x10000 8 false]
theorem witness_CheckOrder :
    moveState.scopeOk 0 .dev = true ∧
    ([touch 0 0x20002 4 true, touch 2 (2 ^ 56) 4 true].find? fun t => !isCanonical t.va).map (·.lane) = some 2 ∧
    ([touch 0 0x20000 4 true, touch 2 (2 ^ 56 - 1) 4 true].find? fun t => t.va % t.size != 0).map (·.lane) = some 2 ∧
    (∀ t ∈ good, t.va < 2 ^ 56 ∧ t.va % t.size = 0 ∧ ∃ b ∈ [true, false],
      moveState.plbFor 0 mover t = .hit { r := true, w := b, x := !b } ∧ t.cls 0 = true ∧ (t.w = true → b = true)) ∧
    ((touch 4 0x10008 4 true :: good).find? fun t => match moveState.plbFor 0 mover t with
      | .hit e => (t.r && !e.r) || (t.w && (!e.w || (t.store && e.sealed)))
      | _ => false).map (·.lane) = some 4 := by
  decide +kernel

/-- The lanes 5 and 9 address two bytes behind their sectors. -/
def crooked : Group := { mover with vo := regsOf [(4, fun l => 0x20000 + 256 * l + if l = 5 ∨ l = 9 then 2 else 0)] }
def crookedState : State := moveState.setGroup 0 0 crooked
def crookedWords : List Instr :=
  [.ld ⟨always, false, .w32, .glb, true, .acq, .dev, .v 3, addr 4⟩, .st ⟨always, false, .w128, .glb, false, .none, .dev, .v 8, addr 4⟩,
   .atom32 ⟨always, false, .add, .glb, .none, .dev, .v 3, .v 4, .v 1, 0⟩, .waita ⟨always, false, .glb, .dev, .v 2, .v 4, .v 12, 0⟩]
theorem witness_MisalignedTraps : (spotG crooked).Issues crookedState ∧ crookedWords.all (fun i => match memWordOf i with
    | some (gd, w) =>
      let x := Left (spotG crooked) ((spotG crooked).ctx crookedState gd)
      decide (((spotG crooked).ctx crookedState gd).act ≠ 0 ∧ (crookedState.core 0).mayIssue 1 = true ∧ w.early x crookedState crooked (actLanes w x) = none ∧
        crooked.poisonTrap (actLanes w x) w.srcs = none ∧ crookedState.scopeOk 0 w.scope = true ∧
        (∀ t ∈ w.touches x crookedState crooked (actLanes w x), t.space = .glb ∧ t.va < 2 ^ 56) ∧
        ((w.touches x crookedState crooked (actLanes w x)).find? fun t => t.va % t.size != 0).map (·.lane) = some 5)
    | none => false) = true :=
  ⟨issues_of (by decide +kernel), by decide +kernel⟩

/-! ### Requests -/

/-- A request of the group, and core 0 with nothing but it outstanding. -/
def me : Ident := { asid := 1, run := 1, gid := 1 }
def request (kind : ReqKind) (accs : List Machine.Acc) : Req := { id := 7, idn := me, kind := kind, dst := some (.v 3), accs := accs }
def outstanding (s : State) (q : Req) : State := s.modCore 0 fun k => { k with reqs := [q] }

/-- `Turn`, as a test. -/
def reached (s : State) (p : Nat) (l : List (Nat × Nat)) : Bool :=
  l.all fun y => s.hostWindow p y.2 || (AMap.find? s.tlb (pageTag p y.1 y.2)).isSome ||
    (s.walkTurn (pageTag p y.1 y.2) && !s.walkBusy p y.1 y.2)
theorem reached_of {s : State} {p : Nat} {l : List (Nat × Nat)} (h : reached s p l = true) : State.walkPages p l s = (s, true) := by
  induction l with
  | nil => rfl
  | cons y t ih =>
    unfold reached at h ih
    rw [List.all_cons, Bool.and_eq_true] at h
    unfold State.walkPages
    rw [if_pos h.1]
    exact ih h.2
def turn (s : State) (c id idx : Nat) (q : Req) (a : Machine.Acc) : Bool :=
  decide (s.acc? c id idx = some (q, a) ∧ (a.st = .waiting ∨ a.st = .miss) ∧ s.blocked c q idx a = false ∧
    (s.core c).pageLogged q a = false ∧
    reached s q.idn.part ((q.pagesOf a).map fun va => (easidOf q.idn.asid va, va)) = true)
theorem turn_of {s : State} {c id idx : Nat} {q : Req} {a : Machine.Acc} (h : turn s c id idx q a = true) : Turn s c id idx q a := by
  obtain ⟨a, b, c, d, e⟩ := of_decide_eq_true h
  exact ⟨a, b, c, d, reached_of e⟩

/-- `Plain`, as a test. -/
def plain (s : State) (va : Nat) (w : Word) : Bool :=
  (match s.leafOf 0 1 va with
   | .leaf e _ => e == w
   | _ => false) &&
  decide ((AMap.find? s.tlb (pageTag 0 1 va)).isSome = true ∧ s.hostWindow 0 va = false ∧ leafF w = false ∧
    s.lateCause 0 1 va w false = none ∧ s.claimed (leafLoc 0 1 va w).tag = false)
theorem plain_of {s : State} {va : Nat} {w : Word} (h : plain s va w = true) : Plain s 0 1 va w := by
  unfold plain at h
  rw [Bool.and_eq_true] at h
  obtain ⟨a, b⟩ := of_decide_eq_true h.2
  refine ⟨a, ?_, b⟩
  have h := h.1
  split at h
  · rename_i e pa x
    exact ⟨pa, by rw [x, beq_iff_eq.mp h]⟩
  · cases h

def padLoad : Machine.Acc := { lane := 3, space := .loc, va := 0x20010, size := 4 }
def padLoads : Req := { request .ld [padLoad] with size := 4, space := .loc }
def padState : State := (outstanding moveState padLoads).modCore 0 fun k => { k with ways := [(0x20010, 0xEF), (0x20013, 0x80)] }
theorem witness_LoadsReturn : Turn padState 0 7 0 padLoads padLoad ∧ padLoads.together 0 padLoad = [(0, padLoad)] ∧
    padLoads.size ∈ [1, 2, 4, 8, 16] ∧ padLoad.va % padLoads.size = 0 := ⟨turn_of (by decide +kernel), by decide +kernel⟩

/-- A load of memory: from the L1, and past it from the home. -/
def memLoad : Machine.Acc := { lane := 3, va := 0x20010, size := 4 }
def memLoads : Req := request .ld [memLoad]
def strongLoads : Req := { memLoads with strong := true }
def cachedSec : L1Sec := { data := 0x1234 <<< 128, full := true, way := 3 }
def hitState : State :=
  (outstanding moveState memLoads).modCore 0 fun k => { k with l1 := [(sectorTag 0 1 0x20000, cachedSec)] }
theorem witness_MemoryLoads : Turn hitState 0 7 0 memLoads memLoad ∧ memLoads.together 0 memLoad = [(0, memLoad)] ∧
    Plain hitState 0 1 0x20010 (dataLeaf 0x20000 0) ∧ StayingL1 (hitState.core 0) ∧
    AMap.find? (hitState.core 0).l1 (leafLoc 0 1 0x20010 (dataLeaf 0x20000 0)).tag = some cachedSec ∧
    Turn (outstanding moveState strongLoads) 0 7 0 strongLoads memLoad ∧
    Plain (outstanding moveState strongLoads) 0 1 0x20010 (dataLeaf 0x20000 0) ∧
    strongLoads.wide (outstanding moveState strongLoads) = true ∧
    (∀ x ∈ ((outstanding moveState strongLoads).core 0).l1, x.2.dirty = 0) ∧
    (outstanding moveState strongLoads).noGrant (leafLoc 0 1 0x20010 (dataLeaf 0x20000 0)).tag memLoad.home = false ∧
    ((outstanding moveState strongLoads).sector (leafLoc 0 1 0x20010 (dataLeaf 0x20000 0))).poison = false ∧
    ((outstanding moveState strongLoads).core 0).aged = [] :=
  ⟨turn_of (by decide +kernel), by decide +kernel, plain_of (by decide +kernel), by unfold StayingL1; decide +kernel,
    by decide +kernel, turn_of (by decide +kernel), plain_of (by decide +kernel), by decide +kernel⟩

def padStore : Machine.Acc := { lane := 3, space := .loc, va := 0x20010, size := 4, mask := 0xF0000, data := 0xABCD <<< 128 }
def padStores : Req := { request .st [padStore] with size := 4, space := .loc }
def wideStore : Machine.Acc := { lane := 3, va := 0x20010, size := 4, mask := 0xF0000, data := 0xABCD <<< 128 }
def wideStores : Req := { request .st [wideStore] with size := 4, strong := true }
def dataState (q : Req) : State := { outstanding moveState q with hregs := AMap.put moveState.hregs 0x400 1 }
theorem witness_StoresPerform : Turn (outstanding moveState padStores) 0 7 0 padStores padStore ∧
    Turn (dataState wideStores) 0 7 0 wideStores wideStore ∧ Plain (dataState wideStores) 0 1 0x20010 (dataLeaf 0x20000 0) ∧
    wideStores.wide (dataState wideStores) = true ∧ (dataState wideStores).outwardMem 0 0x20010 = false ∧
    (dataState wideStores).inShadow 0 1 0x20000 = false ∧
    (∀ x ∈ ((dataState wideStores).core 0).l1, x.2.dirty = 0) ∧ bits ((dataState wideStores).hreg 0x400) 15 0 ≠ 0 ∧
    (dataState wideStores).noGrant (leafLoc 0 1 0x20010 (dataLeaf 0x20000 0)).tag wideStore.home = false ∧
    ∃ q ∈ ((outstanding moveState (request .st [{ wideStore with st := .port }])).core 0).reqs, ∃ a ∈ q.accs, a.st = .port :=
  ⟨turn_of (by decide +kernel), turn_of (by decide +kernel), plain_of (by decide +kernel), by decide +kernel⟩

/-- A dirty sector of the L1, and a store that has gone into it. -/
def dirtySec : L1Sec := { data := 0xABCD <<< 128, dirty := 0xF0000, way := 3 }
def dirtyState : State :=
  (dataState { request .st [{ wideStore with st := .l1 }] with size := 4 }).modCore 0 fun k =>
    { k with l1 := [(sectorTag 0 1 0x20000, dirtySec)] }
theorem witness_WriteBacks : Plain dirtyState 0 1 0x20000 (dataLeaf 0x20000 0) ∧
    (dirtyState.core 0).l1 = [(sectorTag 0 1 0x20000, dirtySec)] ∧ dirtySec.dirty ≠ 0 ∧
    bits (dirtyState.hreg 0x400) 15 0 ≠ 0 ∧ dirtyState.inShadow 0 1 0x20000 = false ∧
    dirtyState.noGrant (sectorTag 0 1 0x20000) dirtySec.home = false ∧ (dirtyState.core 0).l1Held (sectorTag 0 1 0x20000) = false :=
  ⟨plain_of (by decide +kernel), by decide +kernel⟩

def fillRead : Machine.Acc := { lane := 3, va := 0x20010, size := 8 }
def fillReads : Req := { request .fill [fillRead, { fillRead with lane := 4, va := 0x20040 }] with size := 8 }
def fillState : State :=
  (outstanding moveState fillReads).modCore 0 fun k => { k with l1 := [(sectorTag 0 1 0x20000, cachedSec)] }
theorem witness_StackFills : Turn fillState 0 7 0 fillReads fillRead ∧
    ((fillState.core 0).reqs.find? fun r => r.kind == .fill && r.idn.slot == 0 && fillState.alive r.idn &&
      r.accs.any fun b => b.lane == 3) = some fillReads ∧
    fillReads.accs.findIdx? (fun b => b.lane == 3) = some 0 ∧ (∃ b ∈ fillReads.accs, b ≠ fillRead ∧ b.finished = false) ∧
    Plain fillState 0 1 0x20010 (dataLeaf 0x20000 0) ∧ StayingL1 (fillState.core 0) ∧
    fillState.countRead fillReads (leafClass (dataLeaf 0x20000 0)) cachedSec.record = .ok fillState ∧
    AMap.find? (fillState.core 0).l1 (leafLoc 0 1 0x20010 (dataLeaf 0x20000 0)).tag = some cachedSec :=
  ⟨turn_of (by decide +kernel), by decide +kernel, by decide +kernel, by decide +kernel, plain_of (by decide +kernel),
    by unfold StayingL1; decide +kernel, rfl, by decide +kernel⟩

/-- A load of a page that nothing maps, and one that finds poison in the L1. -/
def lostLoad : Machine.Acc := { lane := 3, va := 0x90010, size := 4 }
def lostLoads : Req := request .ld [lostLoad]
def poisonState : State :=
  (outstanding moveState memLoads).modCore 0 fun k => { k with l1 := [(sectorTag 0 1 0x20000, { cachedSec with poison := true })] }
theorem witness_LateFaults : Turn (outstanding moveState lostLoads) 0 7 0 lostLoads lostLoad ∧
    (match (outstanding moveState lostLoads).resolve 0 1 0x90010 .either with | .error n => n == 8 | _ => false) = true ∧
    Turn poisonState 0 7 0 memLoads memLoad ∧ Plain poisonState 0 1 0x20010 (dataLeaf 0x20000 0) ∧
    StayingL1 (poisonState.core 0) ∧
    AMap.find? (poisonState.core 0).l1 (leafLoc 0 1 0x20010 (dataLeaf 0x20000 0)).tag = some { cachedSec with poison := true } ∧
    (poisonState.core 0).aged = [] :=
  ⟨turn_of (by decide +kernel), by decide +kernel, turn_of (by decide +kernel), plain_of (by decide +kernel),
    by unfold StayingL1; decide +kernel, by decide +kernel⟩
/-- The line of a load that nothing caches meets an error. -/
theorem witness_MemoryErrors : Turn (outstanding moveState memLoads) 0 7 0 memLoads memLoad ∧
    Plain (outstanding moveState memLoads) 0 1 0x20010 (dataLeaf 0x20000 0) ∧ ((outstanding moveState memLoads).core 0).l1 = [] ∧
    memLoads.size ≠ 0 ∧ (outstanding moveState memLoads).copies (leafLoc 0 1 0x20010 (dataLeaf 0x20000 0)).tag = [] ∧
    (outstanding moveState memLoads).noGrant (leafLoc 0 1 0x20010 (dataLeaf 0x20000 0)).tag memLoad.home = false ∧
    memLoads.together 0 memLoad = [(0, memLoad)] :=
  ⟨turn_of (by decide +kernel), plain_of (by decide +kernel), by decide +kernel⟩

def loggedLoads : Req := request .ld [{ lostLoad with st := .logged }]
def loggedState : State := outstanding moveState loggedLoads
theorem witness_ReplayCommands : loggedState.cores = [(0, loggedState.core 0)] ∧ (loggedState.core 0).reqs = [loggedLoads] ∧
    (loggedState.core 0).save = none ∧ loggedLoads.idn.part = 0 ∧ easidOf loggedLoads.idn.asid 0x90010 = 1 ∧ 0x90010 / 2 ^ 16 = 9 := by decide +kernel

/-- An engine's finished sector, and one that it has still to write. -/
def engineSec (st : Mesi) : SecCopy :=
  { holder := 8, st := st, data := 0x77, pa := (leafLoc 0 1 0x20040 (dataLeaf 0x20000 0)).pa }
def engineState (st : Mesi) : State := { moveState with cached := [(sectorTag 0 1 0x20040, [engineSec st])] }
theorem witness_Recalls : AMap.find? (engineState .m).cached (sectorTag 0 1 0x20040) = some [engineSec .m] ∧
    (engineSec .m).pa = (leafLoc 0 1 0x20040 (dataLeaf 0x20000 0)).pa ∧
    (∀ t ∈ lineTags 0 1 0x20000, (engineState .m).claimed t = false ∧ ∀ x ∈ (engineState .m).copies t, x.st ≠ .sealed) ∧
    ∃ t ∈ lineTags 0 1 0x20000, (engineState .e).claimed t = true := by decide +kernel

/-! ### Fills, waits, engines -/

/-- A core that waits for a permission. -/
def asking (va : Nat) (s : State) : State := s.modCore 0 fun k => { k with fills := [(pageTag 0 1 va, .asked)] }
/-- The directory of partition 0 with address space 1's root at an address, and what else stands in memory. -/
def tables (root : Nat) (l : List (Nat × Nat)) : State :=
  { base.setPreg 0 0x2000 (BitVec.ofNat 64 (2 ^ 63 + 0x540000)) with
    mem := ((0x540010, 2 ^ 63 + root) :: l).foldl (fun m x => Memory.writeN m x.1 8 x.2) base.mem }
def walkState : State :=
  tables 0x500000 [(0x500000, 2 ^ 63 + 0x510000), (0x510000, 2 ^ 63 + 0x520000), (0x520000, 2 ^ 63 + 0x530000),
    (0x530028, (dataLeaf 0x50000 0).toNat)]
def ownedState : State := { walkState with rmap := AMap.put walkState.rmap (frameOf 0x50000 / 2 ^ 16) (rmapEntry 0 1 0x60000) }
def walksTo (s : State) (va : Nat) (w : Word) : Bool :=
  match s.walk 0 1 va with
  | .leaf e _ => e == w
  | _ => false
/-- A page's fill waits behind 32 walks. -/
def crowded : State :=
  let tags := (List.range 32).map fun n => pageTag 0 1 ((0x100 + n) * 65536)
  { moveState.modCore 0 fun k => { k with fills := (pageTag 0 1 0x90000 :: tags).map fun t => (t, .asked) } with
    walks := [((moveState.pageHome (pageTag 0 1 0x90000)).number, tags)] }
theorem witness_WalkQueue : AMap.find? (crowded.core 0).fills (pageTag 0 1 0x90000) = some .asked ∧
    crowded.fillsHeld 0 1 0x90000 = false ∧ (crowded.part 0).killing.contains 1 = false ∧
    AMap.find? crowded.tlb (pageTag 0 1 0x90000) = none ∧
    pageTag 0 1 0x90000 ∉ crowded.walkList (crowded.pageHome (pageTag 0 1 0x90000)).number ∧
    (crowded.walkList (crowded.pageHome (pageTag 0 1 0x90000)).number).length = 32 := by decide +kernel
def filled (s : State) (va : Nat) : State := (s.walked (pageTag 0 1 va)).installTlb 0 1 va
/-- The walk of a page is queued. -/
def queued (s : State) (va : Nat) : State := s.queueWalk (pageTag 0 1 va)
def inQueue (s : State) (va : Nat) : Bool :=
  let tag := pageTag 0 1 va
  let queue := s.walkList (s.pageHome tag).number
  decide (tag ∈ queue ∧ queue.idxOf tag < 32 ∧ (s.part 0).killing.contains 1 = false ∧ s.hostWindow 0 va = false ∧
    AMap.find? s.tlb tag = none)
theorem witness_FillsAndWalks :
    (∀ x ∈ [(0x20000, asking 0x20000 moveState), (0x90000, asking 0x90000 moveState), (0x50000, asking 0x50000 (tables 0x1FFFFFFF000 []))],
      AMap.find? (x.2.core 0).fills (pageTag 0 1 x.1) = some .asked ∧ x.2.fillsHeld 0 1 x.1 = false ∧
      (match (x.2.reach 0 1 x.1).2 with | .busy => false | _ => true) = true ∧
      ((x.2.modPart 0 fun p => { p with killing := [1] }).part 0).killing.contains 1 = true ∧
      (x.2.part 0).killing.contains 1 = false ∧ (x.2.walkList (x.2.pageHome (pageTag 0 1 x.1)).number).length < 32) ∧
    plain (filled (asking 0x20000 moveState) 0x20000) 0x20000 (dataLeaf 0x20000 0) = true ∧
    (filled (asking 0x90000 moveState) 0x90000).leafOf 0 1 0x90000 = .unmapped ∧
    (filled (asking 0x50000 (tables 0x1FFFFFFF000 [])) 0x50000).leafOf 0 1 0x50000 = .bad ∧
    inQueue (queued walkState 0x50000) 0x50000 = true ∧ inQueue (queued ownedState 0x50000) 0x50000 = true ∧
    (walkState.part 0).killing.contains 1 = false ∧ walkState.walkList (walkState.pageHome (pageTag 0 1 0x50000)).number = [] ∧
    walksTo (queued walkState 0x50000) 0x50000 (dataLeaf 0x50000 0) = true ∧
    walksTo (queued ownedState 0x50000) 0x50000 (dataLeaf 0x50000 0) = true ∧
    walksTo walkState 0x50000 (dataLeaf 0x50000 0) = true ∧ walksTo ownedState 0x50000 (dataLeaf 0x50000 0) = true ∧
    walkState.hostWindow 0 0x50000 = false ∧ AMap.find? walkState.tlb (pageTag 0 1 0x50000) = none ∧
    (queued walkState 0x50000).lateCause 0 1 0x50000 (dataLeaf 0x50000 0) false = none ∧
    (queued ownedState 0x50000).lateCause 0 1 0x50000 (dataLeaf 0x50000 0) false = some 0x1B := by decide +kernel

/-- A watching lane whose word is 0, against a value. -/
def watched (sp : Space) (v : Word) : Machine.Acc := { lane := 3, space := sp, va := 0x20010, size := 8, cmp := v, st := .watching }
def watches (sp : Space) (v : Word) : Req := { request .waita [watched sp v] with size := 8, space := sp }
def watchState (sp : Space) (v : Word) : State := outstanding moveState (watches sp v)
def watching (sp : Space) (v : Word) : Bool :=
  let s := watchState sp v
  decide (s.acc? 0 7 0 = some (watches sp v, watched sp v) ∧ (watches sp v).accs.findIdx? (fun b => b.lane == 3) = some 0 ∧
    s.blocked 0 (watches sp v) 0 { watched sp v with st := .waiting } = false ∧
    Memory.readN (s.core (placeCore 0x20010)).pad (placeKey 0x20010) 8 = 0 ∧ (watches sp v).wide s = true ∧
    (s.core 0).pageLogged (watches sp v) { watched sp v with st := .waiting } = false ∧ (∀ x ∈ (s.core 0).l1, x.2.dirty = 0) ∧
    s.noGrant (leafLoc 0 1 0x20010 (dataLeaf 0x20000 0)).tag (watched sp v).home = false ∧
    (s.sector (leafLoc 0 1 0x20010 (dataLeaf 0x20000 0))).poison = false ∧
    sectorValue (s.sector (leafLoc 0 1 0x20010 (dataLeaf 0x20000 0))).data 0x20010 8 = 0) && plain s 0x20010 (dataLeaf 0x20000 0)
theorem witness_Watching : (watching .loc 0 && watching .glb 0 && watching .loc 5 && watching .glb 5) = true := by decide +kernel

/-- A graded load of lane 3 against a sector of grade PROV, with and without the value of an earlier write. -/
def graded (st : AccSt) (got : Bool) : Machine.Acc := { lane := 3, va := 0x30010, size := 4, got := got, cmp := 3, st := st }
def gradedLoads (st : AccSt) (g : Grade) (got : Bool) : Req := { request .ldg [graded st got] with strong := true, grade := g }
def gradedState (st : AccSt) (g : Grade) (got : Bool) (others : List Req) : State :=
  { moveState.modCore 0 fun k => { k with reqs := gradedLoads st g got :: others } with
    cached := [(sectorTag 0 1 0x30000, [{ st := .m, record := { grade := .prov } }])] }
def gradedLoc : Loc := leafLoc 0 1 0x30010 (dataLeaf 0x30000 1)
theorem countsOk_of {s : State} {q : Req} {cls : Nat} {r : Rec} (h : (match AMap.find? s.runs q.idn.run with
    | none => true
    | some run => decide (max run.depth (r.depth + if run.refire then 1 else 0) ≤ run.limit)) = true) : CountsOk s q cls r := by
  intro _ run hr
  rw [hr] at h
  exact of_decide_eq_true h
def parkable (st : AccSt) (g : Grade) (got : Bool) (others : List Req) : Bool :=
  let s := gradedState st g got others
  decide (s.acc? 0 7 0 = some (gradedLoads st g got, graded st got) ∧ (s.core 0).aged = [] ∧
    (gradedLoads st g got).accs.findIdx? (fun b => b.lane == 3 && b.st == st) = some 0 ∧
    s.noGrant gradedLoc.tag (graded st got).home = false ∧ (s.sector gradedLoc).record.grade = .prov ∧
    (s.sector gradedLoc).poison = false) && plain s 0x30010 (dataLeaf 0x30000 1)
theorem witness_Parked : parkable .parked .prov false [] = true ∧ parkable .parked .final true [] = true ∧
    parkable .parked .final false [] = true := by decide +kernel
theorem witness_ParkedCounts :
    CountsOk (gradedState .parked .prov false []) (gradedLoads .parked .prov false) 1 { grade := .prov } ∧
    CountsOk (gradedState .parked .final true []) (gradedLoads .parked .final true) 1 (recOf (graded .parked true).cmp.toNat) :=
  ⟨countsOk_of (by decide +kernel), countsOk_of (by decide +kernel)⟩
/-- A refused lane finds room in the pool, a full pool, and no miss entry. -/
def retries (others : List Req) (misses parked : Nat) : Bool :=
  let s := gradedState .refused .final false others
  let q := gradedLoads .refused .final false
  let a := graded .refused false
  parkable .refused .final false others && decide (s.blocked 0 q 0 { a with st := .miss } = false ∧
    (s.core 0).pageLogged q { a with st := .miss } = false ∧ (s.core 0).missTags.length = misses ∧
    (s.core 0).missTags.contains (a.spot 0 1) = false ∧ s.parkedAt (s.home 0 gradedLoc.easid 0x30010) = parked ∧ a.rejects + 1 < 16)
def crowd (n : Nat) (st : AccSt) (f : Nat → Nat) : Req :=
  { request .ldg ((List.range n).map fun i => { lane := 5, va := f i, size := 4, st := st }) with id := 9 }
theorem witness_Refused : retries [] 0 0 = true ∧
    retries (List.replicate 64 (crowd 64 .parked fun _ => 0x30040)) 0 4096 = true ∧
    retries [crowd 64 .miss fun i => 0x20040 + 64 * i] 64 0 = true := by decide +kernel

/-- A tile copy of two pieces, whose first, and whose last, has been read. -/
def tileAcc : Machine.Acc := { lane := 0, va := 0x20000, size := 32, data := 0xAB, got := true }
def tileReq (n : Nat) (note : Word) : Req :=
  { request .tcopy [tileAcc] with n := n, words := [0x20000, 0x20000, 64, 64, note, 0x77] }
theorem witness_Tiles : ∀ x ∈ ([(0, 0x8000000000000000), (1, 0x8000000000000000), (1, 0x20100)] : List (Nat × Word)),
    let q := tileReq x.1 x.2
    turn (outstanding moveState q) 0 7 0 q tileAcc = true ∧ (tileOf q.words).toMem = false ∧ tileAcc.mask = 0 ∧
    (outstanding moveState q).engineReady 0 q = true ∧ (clusterOf 0 * 96 * 2 ^ 18 + (tileOf q.words).dest q.n) % 32 = 0 ∧
    (clusterOf 0 * 96 * 2 ^ 18 + (tileOf q.words).naddr) % 8 = 0 ∧ (tileOf q.words).pieces = 2 := by decide +kernel
/-- A strong store of the group comes before the copy. -/
def behindStore (scope : Scope) : State :=
  let q := { tileReq 0 0 with id := 8 }
  moveState.modCore 0 fun k => { k with reqs := [{ request .st [tileAcc] with strong := true, scope := scope }, q] }
theorem witness_EngineOrder :
    turn (behindStore .dev) 0 8 0 { tileReq 0 0 with id := 8 } tileAcc = true ∧
    (behindStore .dev).engineReady 0 { tileReq 0 0 with id := 8 } = false ∧
    (behindStore .grp).engineReady 0 { tileReq 0 0 with id := 8 } = true := by decide +kernel
/-- A page of the fabric window. -/
def windowLeaf : Word := 0x8310035000000300
def combined : CombEnt := { easid := 1, line := 0x500, mask := 0xF, data := 0xABCD }
def windowState (k : Core) : State :=
  { moveState.setCore 0 k with tlb := AMap.put moveState.tlb (pageTag 0 1 0x50000) { leaf := windowLeaf } }
def combState : State := windowState { moveState.core 0 with comb := [combined] }
def heldStore : Machine.Acc := { lane := 3, va := 0x50010, size := 4, st := .held }
def stalledState : State :=
  ((outstanding moveState (request .st [heldStore])).setGroup 0 0 { mover with stalled := some (7, 0) }).modPart 0 fun p =>
    { p with hold := List.replicate 1024 {} }
theorem witness_CopiesAndBuffers :
    (combState.core 0).comb[0]? = some combined ∧
    (match combState.resolve 0 1 (0x500 * 256) .either with | .ok (.window ifa c) => ifa == 0x0030005000000000 && c == 0 | _ => false) = true ∧
    (∀ x ∈ (combState.core 0).comb, x = combined) ∧
    (stalledState.group? 0 0).map (·.stalled) = some (some (7, 0)) ∧
    stalledState.acc? 0 7 0 = some (request .st [heldStore], heldStore) ∧ 1024 ≤ (stalledState.part 0).hold.length := by
  decide +kernel

/-- A rejected load, among as many misses as there are entries. -/
def rejected (n : Nat) : Req := request .ld [{ memLoad with st := .rejected n }]
def missing (m : Nat) : Req :=
  { request .ld ((List.range m).map fun i => { memLoad with va := 0x20040 + 64 * i, st := .miss }) with id := 9 }
def missState (n m : Nat) : State := moveState.modCore 0 fun k => { k with reqs := [rejected n, missing m] }
def carving (n : Nat) : State := moveState.modCore 0 fun k => { k with target := n }
theorem witness_MissesAndWays :
    (∀ x ∈ [(0, 63), (14, 64), (15, 64)], ((missState x.1 x.2).core 0).req? 7 = some (rejected x.1) ∧
      ((missState x.1 x.2).core 0).aged = [] ∧
      ((missState x.1 x.2).core 0).missTags.contains ((memLoad).spot 0 1) = false ∧
      ((missState x.1 x.2).core 0).missTags.length = x.2) ∧
    ((carving 6).core 0).carve < ((carving 6).core 0).target ∧ ((carving 6).core 0).target ≤ 7 ∧
    ((carving 3).core 0).target < ((carving 3).core 0).carve ∧ (∀ x ∈ ((carving 3).core 0).l1, x.2.dirty = 0) := by decide +kernel

/-- A job of the queue, quarters of the matrix unit, and a row of an `MLOAD`. -/
def job : SfqJob := { id := 5, gid := 1, tok := 2, dst := .v 3, res := [(4, 0x3F800000)] }
def sfqState : State := (moveState.setGroup 0 0 { mover with toks := [(2, 1)] }).modCore 0 fun k => { k with sfq := [job] }
def quarter (n : Nat) : Quarter := { run := 1, row0 := n, lanes := [0], aw := 0, bw := 1 }
def oxState (pass : Option Nat) : State :=
  moveState.modCore 0 fun k => { k with oxq := [quarter 0, quarter 8, { quarter 0 with bw := 17 }], pass := pass }
def rowAcc : Machine.Acc := { lane := 0, space := .glb, va := 0x20000, size := 128, cmp := 0 }
def rowReq : Req := request .mload [rowAcc]
def rowState : State := outstanding moveState rowReq
def pieces (s : State) : Bool :=
  match s.readPieces 0 rowReq .glb 4 0x20000 0 0 with
  | (.done _, _) => true
  | _ => false
theorem witness_EnginesFinish :
    (sfqState.core 0).sfq.find? (fun j => j.id == 5) = some job ∧ (sfqState.group? 0 0).map (·.gid) = some job.gid ∧
    ((oxState none).core 0).pass = none ∧ ((oxState none).core 0).oxq = [quarter 0, quarter 8, { quarter 0 with bw := 17 }] ∧
    ((oxState (some 1)).core 0).pass = some 1 ∧ ((oxState (some 1)).core 0).oxq.take 1 = [quarter 0] ∧
    (rowState.core 0).req? 7 = some rowReq ∧ rowReq.accs.zipIdx.find? (fun b => b.1.st == .waiting) = some (rowAcc, 0) ∧
    rowState.hostWindow 0 0x20000 = false ∧ rowState.hostWindow 0 (0x20000 + 128 - 1) = false ∧ pieces rowState = true := by
  decide +kernel

/-- Core 0 with its entry in the middle of a clause, at a header, and with nothing to issue. -/
def choosing (ga : Option Gang) (t : ThrSt) : State :=
  let g := { fetchGroup with thr := (List.range 16).map fun l => (l, { pc := 0x10000, st := t }) }
  { base with issue := none }.modCore 0 fun k => { k with groups := [(0, g)], table := [(0, { kern := 1, hdr := 0x10000, gang := ga })] }
def readyAt (s : State) : AMap Entry :=
  let u := atChoice s 0 0 none
  (u.core 0).table.filter fun e => u.entryReady 0 e.2
theorem witness_IssueChoices : readyAt (choosing none .rejoin) = [] ∧
    (readyAt { base with issue := none }).map (fun e => (e.1, e.2.gang.isSome)) = [(0, true)] ∧
    (readyAt (choosing none .ready)).map (fun e => (e.1, e.2.gang.isSome)) = [(0, false)] ∧
    AMap.rising ((atChoice (choosing none .ready) 0 0 none).core 0).table = true ∧
    headerAt (choosing none .ready) spot 0x10000 = true := by decide +kernel

/-! ### Exceptions, tasks, pre-emption -/

/-- A page of an address space, in a frame of its home, and a partition's registers. -/
def pageOf (s : State) (e va : Nat) : State :=
  { s with tlb := AMap.put s.tlb (pageTag 0 e va) { leaf := BitVec.ofNat 64 (2 ^ 63 + 2 ^ 57 + 2 ^ 56 + 2 ^ 52 + 2 ^ 8 +
      homeHash 0 e va * 2 ^ 35 + (64 + va / 2 ^ 16 % 2 ^ 10) * 2 ^ 16) } }
def leafAt (s : State) (e va : Nat) : Word := match s.leafOf 0 e va with | .leaf w _ => w | _ => 0
def plainAt (s : State) (e va : Nat) : Bool :=
  decide (s.leafOf 0 e va = .leaf (leafAt s e va) 0 ∧ (AMap.find? s.tlb (pageTag 0 e va)).isSome = true ∧ s.hostWindow 0 va = false ∧ leafF (leafAt s e va) = false ∧
    s.lateCause 0 e va (leafAt s e va) false = none ∧ s.claimed (leafLoc 0 e va (leafAt s e va)).tag = false)
theorem plainAt_of {s : State} {e va : Nat} (h : plainAt s e va = true) : Plain s 0 e va (leafAt s e va) :=
  ⟨(of_decide_eq_true h).2.1, ⟨0, (of_decide_eq_true h).1⟩, (of_decide_eq_true h).2.2⟩
def pregs (s : State) (l : List (Nat × Word)) : State := l.foldl (fun s x => s.setPreg 0 x.1 x.2) s
def hregs (s : State) (l : List (Nat × Word)) : State :=
  { s with hregs := l.foldl (fun m x => AMap.put m x.1 x.2) s.hregs }

def fault : FaultRec := { cause := 0x18, va := 0x20010, easid := 1 }
/-- The fault queue at its last place, with its head behind it. -/
def queueState : State :=
  hregs (pregs (pageOf (base.modPart 0 fun x => { x with records := [fault] }) 0 0x70000)
    [(0x2718, 0x8000000000040000), (0x2728, 0x1FFF), (0x2720, 5)]) [(0x400, 1)]
theorem witness_FaultQueue : (queueState.part 0).records = [fault] ∧ (queueState.preg 0 0x2718).getLsbD 63 = true ∧
    bits (queueState.hreg 0x400) 15 0 ≠ 0 ∧ queueState.inShadow 0 0 0x7FFC0 = false ∧ easidOf 0 0x7FFC0 = 0 ∧ (queueState.preg 0 0x2728).toNat % 8192 = 8191 ∧
    ((8191 : Nat) % 4096 + 1) % 4096 ≠ bits (queueState.preg 0 0x2720) 11 0 ∧
    bits (queueState.preg 0 0x2718) 55 18 * 2 ^ 18 + 64 * (8191 % 4096) = 0x7FFC0 := by decide +kernel
theorem witness_FaultQueuePage : Plain queueState 0 0 0x7FFC0 (leafAt queueState 0 0x7FFC0) := plainAt_of (by decide +kernel)

def lateGroup : Group := { fetchGroup with lateTrap := some (0x29, 7, 1, 3) }
def skidGroup : Group := { fetchGroup with halt := .skid 3 }
theorem witness_LateTrapAndSkid : (withG lateGroup).group? 0 0 = some lateGroup ∧
    (List.find? (fun (x : Nat × Thread) => x.2.st == .ready) lateGroup.thr).map (·.1) = some 0 ∧
    lateGroup.halt = .running ∧ lateGroup.mode = .normal ∧ (withG skidGroup).group? 0 0 = some skidGroup := by decide +kernel

/-- The group has stopped: for a trap of its own, or for a pre-emption. -/
def stoppedGroup : Group := { fetchGroup with halt := .stopped }
def haltedState (vec : Word) : State :=
  (pregs (withG stoppedGroup) [(0x2700, vec)]).modRun 1 fun r => { r with halt := some { core := 0, slot := 0 } }
def preemptState : State := (pregs (withG stoppedGroup) [(0x2708, 0x8000000000010000)]).modPart 0 fun x => { x with inEffect := true }
theorem witness_HandlerEntry : ∀ s ∈ [haltedState 0x8000000000010000, haltedState 0, preemptState],
    s.group? 0 0 = some stoppedGroup ∧ (s.core 0).reqs = [] ∧ (s.core 0).sfq = [] ∧ s.groupsOf 1 = [(0, 0)] ∧ 0 ∈ (s.run 1).cores := by
  decide +kernel
theorem witness_HandlerVectors : ((haltedState 0x8000000000010000).preg 0 0x2700).getLsbD 63 = true ∧
    ((haltedState 0).preg 0 0x2700).getLsbD 63 = false ∧ ((haltedState 0).run 1).halt = some { core := 0, slot := 0 } ∧
    (preemptState.run 1).halt = none ∧ (preemptState.part 0).inEffect = true ∧ (preemptState.preg 0 0x2708).getLsbD 63 = true := by
  decide +kernel

/-- Whatever place is chosen, a core with a free slot and room has a place for one group. -/
theorem anyOrder_one (fr i : Nat) {l : List Nat} (h : l ≠ []) : (anyOrder fr i 1 l).length = 1 := by
  have hl : 0 < l.length := List.length_pos_iff.mpr h
  unfold anyOrder
  rw [List.getElem?_eq_getElem (Nat.mod_lt _ hl)]
  rfl
def roomy (s : State) (c width regs : Nat) : Bool :=
  let k := s.core c
  !k.save.isSome && decide (((List.range Config.slots).filter fun i => (AMap.find? k.groups i).isNone) ≠ []) &&
    decide (((List.range (64 / width)).flatMap fun i => List.replicate (k.posRoom width regs (width * i)) (width * i)) ≠ [])
theorem fits {s : State} {c width regs : Nat} (h : roomy s c width regs = true) :
    (s.fitCore c 1 width regs 0 0 0).isSome = true := by
  simp only [roomy, Bool.and_eq_true, Bool.not_eq_true', decide_eq_true_eq] at h
  obtain ⟨⟨a, b⟩, d⟩ := h
  have b' := List.length_pos_iff.mpr b
  simp only [State.fitCore, anyOrder_one _ _ d, List.length_take, a, freeRange]
  have : ¬ min 1 ((List.range Config.slots).filter fun i => (AMap.find? (s.core c).groups i).isNone).length < 1 := by omega
  simp [this]

/-- A task of one team with a queue, and a spawn bin of cluster 0 that is full. -/
def oneTask : Machine.Task := { asid := 1, desc := { entry := 0x10000, regs := 8, carve := 4 } }
def teamState : State :=
  base.modPart 0 fun x => { x with slots := [(0, oneTask)], queue := [(0, 0, 0)], head := some (0, 0) }
theorem witness_PlaceTeam : teamState.taskHeld 0 = false ∧
    (((teamState.retestSpilled 0).headTarget 0).placeable 0) = [(0, 0, 0)] ∧
    ((teamState.retestSpilled 0).headTarget 0).task? 0 0 = some oneTask ∧
    1 ∈ ((teamState.retestSpilled 0).headTarget 0).partCores 0 ∧ AMap.find? oneTask.ran 0 = none := by decide +kernel
theorem witness_PlaceTeamFits : (((teamState.retestSpilled 0).headTarget 0).fitTeam 0 oneTask.desc 1).isSome = true := by
  have h : (((teamState.retestSpilled 0).headTarget 0).fitCore 1 1 16 8 0 0 0).isSome = true := fits (by decide +kernel)
  have e : ((teamState.retestSpilled 0).headTarget 0).fitTeam 0 oneTask.desc 1 =
      (((teamState.retestSpilled 0).headTarget 0).fitCore 1 1 16 8 0 0 0).map fun f => [(1, f)] := by
    unfold State.fitTeam
    rw [if_neg (by decide +kernel), if_neg (by decide +kernel)]
    rfl
  rw [e, Option.isSome_map, h]
def fullBin : SpawnBin := { run := 1, asid := 1, entry := 0x10000, items := (List.range 16).map (BitVec.ofNat 64) }
def spawnState : State := { teamState with bins := [(0, [fullBin])] }
theorem witness_SpawnBins : (AMap.get spawnState.bins 0 [])[0]? = some fullBin ∧ spawnState.taskHeld 0 = false ∧
    fullBin.width ≤ fullBin.items.length ∧ clusterOf 1 = 0 ∧ clusterOf 97 ≠ 0 ∧ spawnState.inPart 0 1 = true ∧
    1 ≠ spawnState.bellwether 0 ∧ spawnState.task? 0 0 = some oneTask := by
  decide +kernel
theorem witness_SpawnBinFits : (spawnState.fitCore 1 1 16 1 0 0 0).isSome = true := fits (by decide +kernel)
def refireState (limit : Nat) : State :=
  (base.modPart 0 fun x => { x with
    slots := [(0, { oneTask with desc := { oneTask.desc with limit := limit } })], clock := 100000,
    refire := [{ items := [0] }] })
theorem witness_RefireBins : ∀ n ∈ [0, 1], ((refireState n).part 0).refire = [{ items := [0] }] ∧
    (refireState n).binDue 0 0 = true ∧ (refireState n).taskHeld 0 = false ∧ ((refireState n).part 0).refireWait = [] ∧
    (refireState n).testWaits 0 { oneTask with desc := { oneTask.desc with limit := n } } 0 = false ∧
    (refireState n).startDepth 0 { oneTask with desc := { oneTask.desc with limit := n } } 0 = 0 := by decide +kernel
/-- The team depends on one of the task's entries that cannot be reached. -/
def farTask : Machine.Task :=
  { oneTask with desc := { oneTask.desc with limit := 1, nteams := 5000, deps := [{ map := 1, mul := 0, off := 4096, np := 5000 }] } }
def farState : State :=
  (refireState 1).modPart 0 fun x => { x with slots := [(0, farTask)], spillLost := [(0, 4096)] }
theorem witness_RefireWaits : (farState.part 0).refire = [{ items := [0] }] ∧ farState.binDue 0 0 = true ∧ farState.taskHeld 0 = false ∧
    (farState.part 0).refireWait = [] ∧ farState.task? 0 0 = some farTask ∧ farState.testWaits 0 farTask 0 = true := by decide +kernel
def fitsOne : List (Nat × CoreFit) := [(3, { places := [(3, 0), (7, 16)], ways := [], ob := 0, acc := 0 })]
def fitsPair : List (Nat × CoreFit) := fitsOne ++ [(4, { places := [(0, 0), (1, 16)], ways := [], ob := 0, acc := 0 })]
theorem witness_RunsStart : (∃ c f, fitsOne = [(c, f)]) ∧ (∃ c f d h, d ≠ c ∧ fitsPair = [(c, f), (d, h)]) ∧
    (∀ y ∈ fitsPair, (y.2.places.map (·.1)).Nodup) :=
  ⟨⟨_, _, rfl⟩, ⟨_, _, 4, _, by decide, rfl⟩, by decide⟩

/-- A run whose groups have ended: of the dispatch team, of a spawn, and of the task's team. -/
def endState (disp spawned : Bool) : State :=
  (teamState.modRun 1 fun r => { r with disp := disp, spawned := spawned, ended := 1, completed := true })
/-- The run of the task's team ends without a completion of its own, and with a re-fire pending. -/
def quietEnd : State := teamState.modRun 1 fun r => { r with ended := 1 }
def pendEnd : State := (endState false false).setComp 0 0 0 { pend := true }
theorem witness_UnrecordedEnd : AMap.find? quietEnd.runs 1 = some { part := 0, asid := 1, cores := [0], ended := 1 } ∧
    (quietEnd.core 0).oxq = [] ∧ (quietEnd.comp 0 0 0).pend = false ∧
    (quietEnd.releaseRun 1 { part := 0, asid := 1, cores := [0], ended := 1 }).2 = true ∧
    ∀ x ∈ (quietEnd.part 0).slots, ∀ d ∈ x.2.desc.deps, d.producer ≠ 0 := by decide +kernel
theorem witness_PendingEnd : AMap.find? pendEnd.runs 1 = some { part := 0, asid := 1, cores := [0], ended := 1, completed := true } ∧
    (pendEnd.core 0).oxq = [] ∧ pendEnd.task? 0 0 = some { oneTask with entries := [(0, { pend := true })] } ∧
    (pendEnd.comp 0 0 0).pend = true ∧ oneTask.desc.graph ∉ (pendEnd.part 0).ending := by decide +kernel
def ends (disp spawned : Bool) : Bool :=
  let s := endState disp spawned
  (match AMap.find? s.runs 1 with
   | some r => r.disp == disp && r.spawned == spawned && decide (r.ngroups ≤ r.ended) && r.completed && r.team == 0 && r.task == 0
   | none => false) &&
  decide ((s.core 0).oxq = [] ∧ s.task? 0 0 = some oneTask ∧ (s.comp 0 0 0).pend = false)
theorem witness_TeamEnds : ends true false = true ∧ ends false true = true ∧ ends false false = true := by decide +kernel

/-- A task all of whose teams have completed `FINAL`, with and without a word to write. -/
def doneTask (va : Word) : Machine.Task :=
  { asid := 1, desc := { doneva := va, doneval := 0x55 }, entries := [(0, { grade := 3, st := .done })] }
def retireState (va : Word) : State :=
  hregs { pageOf (State.reset.modPart 0 fun x => { x with slots := [(0, doneTask va)] }) 1 0x20000 with
    parts := AMap.upd (State.reset.modPart 0 fun x => { x with slots := [(0, doneTask va)], regs := [(0x2040, 1)] }).parts 0 id }
    [(0x300, 0x8000000000000000), (0x400, 1)]
def retires (va : Word) : Bool :=
  let s := retireState va
  decide (s.task? 0 0 = some (doneTask va)) && (s.part 0).ending.isEmpty && s.runs.isEmpty && s.bins.isEmpty &&
    (s.part 0).hold.isEmpty && s.net.isEmpty && s.host.isEmpty &&
    (s.cores.all fun c => c.2.reqs.isEmpty && c.2.comb.isEmpty && c.2.l1.isEmpty) &&
    (List.range 1).all fun u => decide ((AMap.get (doneTask va).entries u {}).st = .done) &&
      decide ((AMap.get (doneTask va).entries u {}).grade = 3)
theorem witness_Retires : retires 0 = true ∧ retires 0x20008 = true := by decide +kernel
theorem witness_RetireStore : (retireState 0x20008).storeCause 0 1 0x20008 8 = none ∧
    bits ((retireState 0x20008).hreg 0x400) 15 0 ≠ 0 ∧ (retireState 0x20008).inShadow 0 1 0x20000 = false ∧
    (doneTask 0x20008).desc.deps = [] := by decide +kernel
theorem witness_RetirePage : Plain (retireState 0x20008) 0 1 0x20000 (leafAt (retireState 0x20008) 1 0x20000) :=
  plainAt_of (by decide +kernel)

theorem witness_EndGraph : State.reset.serves 0 = false ∧ teamState.serves 0 = true ∧ (teamState.preg 0 0x2600).getLsbD 63 = false ∧ (0x8000000000000007#64).getLsbD 63 = true ∧
    (∀ x ∈ (teamState.part 0).slots, x.2.desc.graph ≠ bits 0x8000000000000007 7 0) ∧
    ∃ x ∈ (teamState.part 0).slots, x.2.desc.graph = bits 0x8000000000000000 7 0 := by decide +kernel

/-- A dispatch team's record, in the system's half: good, one of entry 4, poisoned, and still an engine's. -/
def bootVa : Nat := 0x80000000020000
def bootCopy (d : Nat) : SecCopy := { st := .m, data := BitVec.ofNat 512 (d + 2 ^ 64 * 2 ^ 47) }
def bootState (x : SecCopy) : State := { pageOf base 0 bootVa with cached := [(sectorTag 0 0 bootVa, [x])] }
def bootLoc : Loc := leafLoc 0 0 bootVa (leafAt (bootState (bootCopy 0x10000)) 0 bootVa)
/-- The record's line with a sector that an engine has still to write. -/
def bootHeld : State :=
  { bootState (bootCopy 0x10000) with
    cached := AMap.put (bootState (bootCopy 0x10000)).cached (sectorTag 0 0 (bootVa + 64)) [{ holder := 65, st := .e }] }
/-- What the Bellwether reads there, and the state behind. -/
def bootRead (s : State) : Option (State × Option (List Word)) :=
  (s.setPreg 0 0x2610 ((BitVec.ofNat 64 (2 ^ 63 + bootVa) &&& 0x80FFFFFFFFFFFF00) ||| 0)).readRecord (s.bellwether 0) bootLoc
theorem witness_StartsDispatch : (teamState.preg 0 0x2610).getLsbD 63 = false ∧ teamState.serves 0 = true ∧
    bits (BitVec.ofNat 64 (2 ^ 63 + bootVa)) 55 8 * 256 = bootVa ∧ (BitVec.ofNat 64 (2 ^ 63 + bootVa)).getLsbD 63 = true ∧
    nbit bootVa 55 = true ∧ easidOf 0 bootVa = 0 ∧
    ∀ s ∈ [bootState (bootCopy 0x10000), bootState (bootCopy 4), bootState { bootCopy 0x10000 with poison := true }, bootHeld],
      s.preg 0 0x2610 = 0 ∧ s.serves 0 = true ∧ plainAt s 0 bootVa = true ∧
      (leafAt s 0 bootVa).getLsbD 56 = true ∧ leafClass (leafAt s 0 bootVa) = 0 := by decide +kernel
theorem witness_DispatchRecords : (bootRead (bootState (bootCopy 0x10000))).map (·.2) = some (some recordWords) ∧
    recordBad recordWords true = false ∧ (bootRead (bootState (bootCopy 4))).map (·.2) = some (some (4 :: recordWords.drop 1)) ∧
    recordBad (4 :: recordWords.drop 1) true = true ∧
    (bootRead (bootState { bootCopy 0x10000 with poison := true })).map (·.2) = some none ∧ bootRead bootHeld = none := by
  decide +kernel
def bootTold : State :=
  match bootRead (bootState (bootCopy 0x10000)) with
  | some (s, _) => s
  | none => base
theorem witness_StartsDispatchFits : bootTold.taskHeld 0 = false ∧
    (bootTold.fitCore (bootTold.bellwether 0) 1 16 1 0 0 0).isSome = true := ⟨by decide +kernel, fits (by decide +kernel)⟩
theorem witness_StartsDispatchPage : Plain (bootState (bootCopy 0x10000)) 0 0 bootVa (leafAt (bootState (bootCopy 0x10000)) 0 bootVa) :=
  plainAt_of (by decide +kernel)
/-- A page that the Bellwether may not read. -/
def sealedBoot : State :=
  { bootState (bootCopy 0x10000) with
    tlb := AMap.upd (bootState (bootCopy 0x10000)).tlb (pageTag 0 0 bootVa) fun t => { t with leaf := t.leaf &&& 0xFEFFFFFFFFFFFFFF } }
theorem witness_UnreadableBoot : Plain sealedBoot 0 0 bootVa (leafAt sealedBoot 0 bootVa) ∧
    (leafAt sealedBoot 0 bootVa).getLsbD 56 = false := ⟨plainAt_of (by decide +kernel), by decide +kernel⟩

theorem witness_Go : State.reset.prectlBit 0 61 = false ∧ State.reset.prectlBit 0 63 = false ∧
    (hregs base [(0x100, 2 ^ 61)]).prectlBit 0 61 = true ∧ (hregs base [(0x100, 2 ^ 61)]).prectlBit 0 63 = false := by decide +kernel

/-- A pre-emption that is about to take effect, of a ready group and of one that sleeps. -/
def begunState (st : ThrSt) : State :=
  (withG { fetchGroup with thr := fetchGroup.thr.map fun x => (x.1, { x.2 with st := st }) }).modPart 0 fun x =>
    { x with preempting := true }
def begun (st : ThrSt) : Bool :=
  let s := begunState st
  (s.part 0).preempting && !(s.part 0).inEffect && s.residents 0 == [(0, 0)] && ((s.group? 0 0).map fun g => g.halt) == some .running &&
    ((s.group? 0 0).map fun g => g.mode) == some .normal && (s.run 1).halt.isNone && (s.partCores 0).contains 0 &&
    (s.core 0).save.isNone && AMap.rising s.cores
theorem witness_TakesEffect : begun .ready = true ∧ begun .rejoin = true := by decide +kernel

/-- A core whose budget runs, at its last clock and behind it. -/
def budgetState (clock : Word) : State :=
  (base.modPart 0 fun x => { x with inEffect := true, clock := clock }).modCore 0 fun k => { k with t0 := some 100 }
theorem witness_Budget : (budgetState 16484).partOf 0 = some 0 ∧ ((budgetState 16484).core 0).t0 = some 100 ∧
    ((budgetState 16484).core 0).groups = [(0, fetchGroup)] ∧ (budgetState 16484).runsOn 0 0 fetchGroup = false ∧
    ((budgetState 16484).part 0).inEffect = true ∧ fetchGroup.mode ≠ .psaveDone ∧
    ((budgetState 16484).part 0).prebudget ≤ ((budgetState 16484).clock 0 - 100).toNat ∧
    ((budgetState 16483).clock 0 - 100).toNat < ((budgetState 16483).part 0).prebudget := by decide +kernel

/-- A core that is done: without a save area, with a save area that nothing maps, and with one that is mapped. -/
def doneState (s : State) : State :=
  ((s.setGroup 0 0 { fetchGroup with mode := .psaveDone }).modPart 0 fun x => { x with inEffect := true }).modCore 0 fun k =>
    { k with t0 := some 5 }
def noArea : State := hregs (doneState base) [(0x200, 0x8000000000000000)]
def badArea : State := pregs noArea [(0x2710, 0x8000000000300000)]
def badAreaOnly : State := pregs (doneState base) [(0x2710, 0x8000000000300000)]
/-- No area at all, and the last core of the partition with all others saved. -/
def nowhere : State := doneState base
def lastCore : State :=
  ((noArea.partCores 0).filter (· != 0)).foldl (fun s c => s.modCore c fun k => { k with save := some {} }) noArea
theorem witness_LastCore : (∀ k ∈ lastCore.partCores 0, k ≠ 0 → (lastCore.core k).save.isSome = true) ∧
    0 ∈ lastCore.partCores 0 ∧ nowhere.saveEn 0 = false ∧ nowhere.fallEn 0 = false := by decide +kernel
def coreDone (s : State) : Bool :=
  let k := s.core 0
  k.groups.all (fun g => g.2.mode == .psaveDone) && k.reqs.isEmpty && k.sfq.isEmpty && k.oxq.isEmpty && k.l1.isEmpty &&
    k.comb.isEmpty && !k.forcing && k.save.isNone && k.t0.isSome && s.partOf 0 == some 0 && (s.part 0).inEffect
theorem witness_CoreDone : coreDone noArea = true ∧ coreDone nowhere = true ∧ coreDone lastCore = true ∧ coreDone badArea = true ∧ coreDone badAreaOnly = true := by decide +kernel
theorem witness_SaveAreas : noArea.saveEn 0 = false ∧ noArea.fallEn 0 = true ∧ badArea.saveEn 0 = true ∧ badArea.fallEn 0 = true ∧
    badArea.saveFaults 0 0 = true ∧ badAreaOnly.saveEn 0 = true ∧ badAreaOnly.fallEn 0 = false ∧ badAreaOnly.saveFaults 0 0 = true := by
  decide +kernel
/-- A held save of core 0, whose slot in the fallback names no kind of save, a cooperative one and a forced one. -/
def savedImage : SaveImg :=
  { kind := 1, carve := 4, groups := [(2, { fetchGroup with mode := .psaveDone, sc := [(4, 77)], preds := [(1, 0xF0)] })],
    holders := [(5, 1)], teams := [some 1] }
def savedState (kind : Nat) : State :=
  { (hregs base [(0x100, 2 ^ 61 + 2 ^ 59), (0x200, 0x8000000050000000)]).modCore 0 fun k =>
      { k with groups := [], table := [], carve := 6, save := some savedImage } with
    mem := Memory.writeN (Memory.writeN base.mem 0x50000000 8 (kind + 16 + 4096 * 4)) 0x50000010 8 1 }
def resumes (kind : Nat) : Bool :=
  let s := savedState kind
  s.prectlBit 0 61 && !s.prectlBit 0 63 && (s.part 0).resuming.isNone && s.cached.isEmpty && (s.partCores 0).contains 0 &&
    ((s.partCores 0).all fun k => k == 0 || (s.core k).save.isNone) && (s.core 0).save == some savedImage &&
    bits (s.slotWord64 0 0 0) 2 0 == kind && bits (s.slotWord64 0 0 0) 8 4 == 1 && bits (s.slotWord64 0 0 0x1000) 1 0 == 0 &&
    (AMap.find? savedImage.groups 2).map (·.run) == some 1 && savedImage.teams[0]? == some (some 1)
theorem witness_Resume : resumes 0 = true ∧ resumes 1 = true ∧ resumes 2 = true ∧ base.prectlBit 0 61 = false ∧
    (hregs base [(0x100, 2 ^ 63)]).prectlBit 0 63 = true := by decide +kernel

/-! ### Management -/

def calm (s : State) : Bool :=
  s.cached.isEmpty && s.inbox.isEmpty && s.serves 0 && s.cores.all fun k => k.2.reqs.isEmpty && k.2.comb.isEmpty && k.2.l1.isEmpty
theorem witness_ShootDown : calm base = true ∧ (base.preg 0 0x2008).getLsbD 63 = false ∧ (0xC000000000000001#64).getLsbD 63 = true ∧
    (0xC000000000000001#64).getLsbD 62 = true ∧ State.reset.tdiLocked 0 = false ∧
    State.reset.serves 0 = false := by decide +kernel
/-- Nothing resides: two cores with a load of the address space, and a store held for it. -/
def killState : State :=
  (base.modCore 0 fun k => { k with groups := [], table := [], reqs := [memLoads] }).modPart 0 fun x =>
    { x with hold := [{ org := { idn := { part := 0, asid := 1 } } }] }
theorem witness_Askill : (killState.preg 0 0x2738).getLsbD 63 = false ∧ killState.residents 0 = [] ∧ killState.serves 0 = true ∧
    (killState.core 0).reqs ≠ [] ∧ (killState.part 0).hold ≠ [] := by decide +kernel
theorem witness_FrameRelease : let v : Word := BitVec.ofNat 64 (2 ^ 63 + fetchPa)
    v.getLsbD 63 = true ∧ bits v 5 0 = 0 ∧ AMap.find? base.rmap (bits v 51 16) = some (rmapEntry 0 1 fetchVa) ∧
    (rmapEntry 0 1 fetchVa).getLsbD 63 = true ∧ (base.preg 0 0x2018).getLsbD 63 = false := by decide +kernel

/-- Every cluster has been released, and nothing is enabled. -/
def releasedState : State := hregs State.reset [(0, 0xFFFFFFFFFFFF)]
theorem witness_Partcfg : releasedState.tdiLocked 0 = false ∧ releasedState.partcfgBad 0 0x80000000000000C1 = false ∧
    bits 0x8000000000000041 11 6 < bits 0x8000000000000042 5 0 ∧ teamState.enabled 0 = true ∧ (teamState.part 0).slots ≠ [] ∧
    releasedState.enabled 0 = false ∧ 4800 < teamState.powerSum 0 (max 50 (bits 4801 15 0)) ∧
    releasedState.prectlBit 0 58 = false := by decide +kernel
def lockedState : State := State.reset.modPart 0 fun x => { x with tdi := .locked }
theorem witness_Locked : lockedState.tdiLocked 0 = true := by decide +kernel
theorem witness_PowerInterval : base.enabled 0 = true ∧ bits (base.preg 0 0x2800) 11 0 ≤ base.serviceMax ∧
    max 50 (bits (base.hreg 0x500) 15 0) = 300 ∧ 300 < 301 ∧ 100 * 291 ≤ 97 * 300 ∧ 97 * 300 < 100 * 292 := by decide +kernel
/-- The function's interface has been started: its own stream serves, another does not. -/
def runTdi : State := base.modPart 0 fun x => { x with tdi := .run }
theorem witness_Writers : Allowed base 0 (.function false) ∧ Allowed base 0 .hyper ∧ Allowed runTdi 0 (.function true) ∧
    ¬Allowed runTdi 0 (.function false) ∧ ¬Allowed State.reset 0 (.function false) := by
  refine ⟨⟨by decide +kernel, by decide +kernel, fun h => absurd h (by decide +kernel)⟩, trivial,
    ⟨by decide +kernel, by decide +kernel, fun _ => rfl⟩, fun h => ?_, fun h => ?_⟩
  · exact absurd (h.2.2 (by decide +kernel)) (by decide)
  · exact absurd h.1 (by decide +kernel)
theorem witness_PlainRegisters : base.serves 0 = true ∧
    base.tdiLocked 0 = false ∧ ((pregs base [(0x2008, 2 ^ 63)]).preg 0 0x2008).getLsbD 63 = true ∧
    (pregs base [(0x2008, 2 ^ 63)]).serves 0 = true ∧
    ([0x2040, 0x2200, 0x2308, 0x2340, 0x2808, 0x2810].all fun o => (hyperOnly o).isSome && o % 8 == 0) = true ∧
    ([0x2000, 0x2010, 0x2020, 0x2500, 0x2608, 0x2700, 0x2708, 0x2710, 0x2718, 0x2720].all fun o =>
      (hyperOnly o).isNone && (plainFields o).isSome && o % 8 == 0) = true := by decide +kernel

def up : State := { base with hostUp := true }
def session (b : Bool) : State := { up with dies := AMap.put up.dies 8 { sessions := [(3, b)] } }
theorem witness_Sessions : (session true).hostUp = true ∧ (session true).established 3 = true ∧ (session false).established 3 = false ∧
    (∃ x ∈ ((session false).die 8).sessions, x.1 = 3) ∧ ((session true).part 0).tdi = .unlocked ∧
    (((session true).modPart 0 fun x => { x with tdi := .locked }).part 0).tdi = .locked := by decide +kernel
def goodImage : Firmware := ⟨true, true, 3, 3, 77⟩
def oldImage : Firmware := ⟨true, true, 2, 3, 77⟩
theorem witness_Images : base.hostUp = false ∧ goodImage.minVersion ≤ goodImage.version ∧ oldImage.version < oldImage.minVersion := by
  decide +kernel
def attestable : State := { up with dies := AMap.put up.dies 0 { held := false, channels := [0, 1, 2, 3, 4, 5] } }
theorem witness_Channels : (attestable.die 0).held = false ∧ 5 ∉ (({ up with dies := AMap.put up.dies 0 { held := false } } : State).die 0).channels ∧
    (attestable.die 0).attested = false ∧ attestable.failed 0 = false ∧ (attestable.die 0).channels.length = 6 := by decide +kernel
theorem witness_Training : lkBit State.reset 71 0 = false ∧ 3 ∉ State.reset.cxl := by decide +kernel

/-! ### The fabric, gossip, the host -/

/-- Policy entry 0 serves FPID 5 for partition 0, with tables that map the window page 3 to a frame of memory and page 4 to
the scratchpad. -/
def servedState : State :=
  let s := { hregs moveState [(0x800, 0x8000000500000000), (0x808, 0x600000)] with
    rmap := AMap.put moveState.rmap (frameOf 0x20000 / 2 ^ 16) (rmapEntry 0 1 0x20000) }
  { s with mem := [(0x600000, 2 ^ 63 + 0x610000), (0x610018, 2 ^ 63 + 2 ^ 57 + 2 ^ 56 + frameOf 0x20000),
      (0x610020, 2 ^ 63 + 2 ^ 62 + 2 ^ 58 + 2 ^ 57 + 2 * 2 ^ 16)].foldl (fun m x => Memory.writeN m x.1 8 x.2) s.mem }
def okWith (r : Except Nat Word) (w : Nat) : Bool := match r with | .ok e => e.toNat == w | _ => false
def failsWith (r : Except Nat Word) (n : Nat) : Bool := match r with | .error m => m == n | _ => false
def packet (src : Nat) (ifa : Word) (op : PacketOp) : Packet := ⟨5, src, 4, ifa, op⟩
/-- What stands behind the walk of an address, the entries of the two pages, and the place that the first one names. -/
def walked (s : State) (ifa : Word) : State := (s.fabricWalk 0 ifa).1
def memEntry : Word := BitVec.ofNat 64 (2 ^ 63 + 2 ^ 57 + 2 ^ 56 + frameOf 0x20000)
def padEntry : Word := BitVec.ofNat 64 (2 ^ 63 + 2 ^ 62 + 2 ^ 58 + 2 ^ 57 + 2 * 2 ^ 16)
def servedLoc : Loc := leafLoc 0 1 0x20050 (dataLeaf 0x20000 0)
def servedAt : Loc := { servedLoc with va := servedLoc.va + 0x30050 % 64, pa := servedLoc.pa + 0x30050 % 64 }
def lineOfPacket (s : State) : Option Nat := ((walked s 0x30050).installTlb 0 1 servedAt.va).lineRead servedAt 0x50 4
theorem witness_Packets : servedState.inbox = [] ∧ 7 ≠ bits (servedState.hreg 0x710) 11 0 ∧ base.inbox = [] ∧
    base.policy 5 = none ∧ servedState.policy 5 = some 0 ∧ bits (servedState.hreg 0x800) 3 0 = 0 ∧
    failsWith (servedState.fabricWalk 0 0x50000).2 0x27 = true ∧ okWith (servedState.fabricWalk 0 0x30050).2 memEntry.toNat = true ∧
    memEntry.getLsbD 56 = true ∧ memEntry.getLsbD 62 = false ∧
    (walked servedState 0x30050).ownerLoc 0 memEntry 0x30050 = some servedLoc ∧ servedLoc.cls ≠ 2 ∧
    (AMap.find? (walked servedState 0x30050).tlb (pageTag 0 1 servedLoc.va)).isSome = true ∧
    (∀ t ∈ lineTags 0 1 servedAt.va, (walked servedState 0x30050).noGrant t 0 = false) ∧
    (lineOfPacket servedState).isSome = true ∧
    lineOfPacket { servedState with cached := [(sectorTag 0 1 0x20040, [{ st := .m, poison := true }])] } = none := by
  decide +kernel
/-- Whatever port a path takes: no link has a key, and none waits for one. -/
theorem link_lt {s : State} {code chip : Nat} (hp : s.planeOf code < 8) : s.linkFor code chip < 72 := by
  show 9 * s.planeOf code + Config.pathPort (s.planeOf code) chip % 9 < 72
  omega
theorem linkSends_of {s : State} {code chip n : Nat} (hp : s.planeOf code < 8)
    (hk : ((List.range 72).all fun m => (s.link m).key.isNone) = true) : LinkSends s code chip n :=
  .inl (Option.isNone_iff_eq_none.mp (List.all_eq_true.mp hk _ (List.mem_range.mpr (link_lt hp))))
theorem canReply_of {s : State} {k : Packet} (hr : s.replies.isEmpty = true) (hl : s.planeLive (s.planeOf (codeOf k.ifa)) = true)
    (hp : s.planeOf (codeOf k.ifa) < 8) (hk : ((List.range 72).all fun m => (s.link m).key.isNone) = true)
    (hq : ((List.range 72).all fun n => !lkBit s n 1) = true) : CanReply s k := by
  refine ⟨List.isEmpty_iff.mp hr, hl, ?_, linkSends_of hp hk⟩
  have := List.all_eq_true.mp hq _ (List.mem_range.mpr (link_lt (s := s) (code := codeOf k.ifa) (chip := k.src) hp))
  simpa using this
theorem witness_CanReply : CanReply base (packet 7 0 .grd) ∧ CanReply servedState (packet 7 0x30050 (.load 4)) ∧
    CanReply servedState (packet 7 0x50000 .grd) ∧ CanReply servedState (packet 7 0x40100 (.bulk 0xF0 0 (some 0x41008))) :=
  ⟨canReply_of (by decide +kernel) (by decide +kernel) (by decide +kernel) (by decide +kernel) (by decide +kernel),
   canReply_of (by decide +kernel) (by decide +kernel) (by decide +kernel) (by decide +kernel) (by decide +kernel),
   canReply_of (by decide +kernel) (by decide +kernel) (by decide +kernel) (by decide +kernel) (by decide +kernel),
   canReply_of (by decide +kernel) (by decide +kernel) (by decide +kernel) (by decide +kernel) (by decide +kernel)⟩
def counterAt (s : State) (ctr : Word) (n : Nat) : Bool := match s.counterPlace 0 0 ctr with | .ok k => k == n | _ => false
theorem witness_BulkPackets : okWith (servedState.fabricWalk 0 0x40100).2 padEntry.toNat = true ∧
    padEntry.getLsbD 57 = true ∧ padEntry.getLsbD 62 = true ∧
    (walked servedState 0x40100).kindPlace 0 padEntry 0x40100 = some 0x20100 ∧
    counterAt (walked servedState 0x40100) 0x41008 0x21008 = true ∧ 0x20100 / 256 ≠ 0x21008 / 256 := by decide +kernel

/-- A load or store of the window page that waits for the fabric. -/
def sentAcc : Machine.Acc := { lane := 3, va := 0x50010, size := 4, mask := 0xF0000, st := .sent 4 }
def sentReq (k : ReqKind) : Req := request k [sentAcc]
def outReq (lost : Bool) : OutReq := { id := 4, easid := 1, va := 0x50010, ifa := 0x30005000000010, sent := !lost, lost := lost, who := [(0, 7, 0)] }
def sentState (k : ReqKind) (lost : Bool) : State :=
  { windowState { moveState.core 0 with reqs := [sentReq k] } with net := [outReq lost] }
/-- The answer's record may be counted. -/
def counts (s : State) (q : Req) (cls w : Nat) : Bool :=
  match s.countRead q cls (recOf w) with
  | .ok _ => true
  | .error _ => false
def onFabric (k : ReqKind) : Bool :=
  let s := sentState k false
  decide (s.asked 4 = some (outReq false)) &&
    decide (s.acc? 0 7 0 = some (sentReq k, sentAcc)) && (s.core 0).aged.isEmpty && counts s (sentReq k) 0 0 &&
    counts s (sentReq k) 1 (recWord { grade := .prov })
theorem witness_OnFabric : onFabric .ld = true ∧ onFabric .st = true := by decide +kernel
theorem witness_LostRequests :
    (sentState .ld true).net.find? (fun x => x.id == 4 && x.lost) = some (outReq true) ∧
    (sentState .ld true).acc? 0 7 0 = some (sentReq .ld, sentAcc) ∧ ((sentState .ld true).core 0).aged = [] := by decide +kernel

/-- A request of this chip to itself. -/
def ownReq : OutReq := { id := 4, fpid := 5, easid := 1, va := 0x50010, ifa := 0x30010, op := .load 4, sent := true, who := [(0, 7, 0)] }
def ownState : State := { sentState .ld false with net := [ownReq] }
theorem witness_LoopBack : ownState.inbox = [] ∧ ownState.replies = [] ∧ (∀ y ∈ ownState.net, y.id = 4 → y.lost = false) ∧ bits (ownState.hreg 0x710) 11 0 = 0 ∧ ownState.policy 5 = none ∧
    ownState.loopsBack (packet 0 0x30010 (.load 4)) = true ∧ ownState.loopsBack (packet 0 0x30010 .grd) = false ∧
    ownState.net.find? (fun x => x.id == 4) = some ownReq ∧ ownState.acc? 0 7 0 = some (sentReq .ld, sentAcc) ∧
    (ownState.core 0).aged = [] := by decide +kernel

/-- A link with keys, whose status has a bit set. -/
def linked (bit : Word) (standby : Option (Nat × Nat)) : State :=
  { hregs base [(0x1028, bit)] with links := AMap.put base.links 5 { key := some (1, 2), standby := standby, trained := true } }
theorem witness_Links : lkBit (linked 0 none) 5 2 = false ∧ ((linked 0 none).link 5).key.isSome = true ∧
    ((linked 0 (some (3, 4))).link 5).standby = some (3, 4) ∧ (base.link 5).key = none ∧ ((linked 0 none).link 5).standby = none ∧
    lkBit (linked 2 none) 5 1 = true ∧ ((linked 2 none).link 5).standby = none ∧ lkBit (linked 1 none) 5 0 = true := by decide +kernel
def counting (n : Nat) : State := linked (BitVec.ofNat 64 (n * 2 ^ 16)) none
theorem witness_Counters : lkBit (counting (2 ^ 47)) 5 2 = false ∧ lkCtr (counting (2 ^ 47)) 5 = 2 ^ 47 ∧
    lkCtr (linked 0 none) 5 < 2 ^ 47 ∧ lkCtr (counting (2 ^ 47 - 3)) 5 + 5 < 2 ^ 48 - 2 ∧ lkCtr (counting (2 ^ 48 - 7)) 5 + 5 = 2 ^ 48 - 2 ∧
    2 ^ 48 - 2 < lkCtr (counting (2 ^ 48 - 6)) 5 + 5 ∧ lkCtr (counting (2 ^ 48 - 2)) 5 = 2 ^ 48 - 2 ∧
    lkBit (counting (2 ^ 48 - 2)) 5 1 = false ∧ (linked 0 (some (3, 4))).replies = [] := by decide +kernel
theorem witness_SwitchedLink : ∀ x ∈ (linked 0 (some (3, 4))).net, x.sent = true := by decide +kernel
theorem witness_Planes : State.reset.drained = true ∧
    (∀ c < 8, bits 0xFAC688 (3 * c + 2) (3 * c) = State.reset.planeOf c ∧ State.reset.planeLive (bits 0xFAC688 (3 * c + 2) (3 * c)) = true) ∧
    (∃ c < 8, bits 0 (3 * c + 2) (3 * c) ≠ State.reset.planeOf c ∧ State.reset.codeHeld c = false) ∧
    (∀ k ∈ base.cores, k.2.comb = []) := by decide +kernel

/-- The Gander with one region of four lines in a page of gossip, and one neighbour. -/
def gossipLeaf : Word := BitVec.ofNat 64 (2 ^ 63 + 2 * 2 ^ 61 + 2 ^ 57 + 2 ^ 56 + 2 ^ 52 + 2 ^ 8 + homeHash 0 0 0x40000 * 2 ^ 35 + 68 * 2 ^ 16)
def gossipState (g : Gander) : State :=
  let s := hregs (pregs base [(0x2300, 0x8000000000000000), (0x2308, 0x8000000000000007), (0x2440, 0x8000000000040000), (0x2450, 3)])
    [(0x800, 0x8000000500000000)]
  { s with tlb := AMap.put s.tlb (pageTag 0 0 0x40000) { leaf := gossipLeaf }, gander := AMap.put s.gander 0 g }
def inFlight : Flight := { seq := 9, region := 2, line := 1, va := 0x40100, sent := List.replicate 31 5 }
def message (seq : BitVec 32) : GossipMsg := ⟨7, 5, 6, 2, 1, seq, List.replicate 31 5, 3⟩
def lineOf : Loc := leafLoc 0 0 0x40100 gossipLeaf
def quiet (s : State) : Bool := (s.part 0).stepNext.isNone && (List.range 8).all fun j => (s.gand 0 j).stopped == []
theorem quiet_of {s : State} (h : quiet s = true) : GanderQuiet s 0 := by
  unfold quiet at h
  rw [Bool.and_eq_true] at h
  exact ⟨Option.isNone_iff_eq_none.mp h.1, fun j hj => beq_iff_eq.mp (List.all_eq_true.mp h.2 j (List.mem_range.mpr hj))⟩
theorem witness_Rounds : GanderQuiet (gossipState {}) 0 ∧ (gossipState {}).ganderOn 0 = true ∧ (gossipState {}).regionOn 0 2 = true ∧
    ((gossipState {}).neighbour 0 0).isSome = true ∧ (gossipState {}).stepped 0 = false ∧
    ((gossipState {}).gand 0 0).active = [] ∧ (gossipState {}).steps = [] := ⟨quiet_of (by decide +kernel), by decide +kernel⟩
/-- A `GSTEP` of the partition has begun. -/
def stepReq : Req := { request .gstep [] with started := true }
def stepState : State := { outstanding (gossipState {}) stepReq with steps := [(0, 7)], stepPlan := [(0, 2)] }
theorem witness_StepRounds : GanderQuiet stepState 0 ∧ stepState.steps = (0, 7) :: [] ∧ (stepState.core 0).req? 7 = some stepReq ∧
    stepReq.started = true ∧ stepReq.idn.part = 0 ∧ stepState.stepPlan = (0, 2) :: [] ∧ (∀ i < 8, (stepState.gand 0 i).active = []) ∧
    stepState.ganderOn 0 = true ∧ stepState.regionOn 0 2 = true ∧ (stepState.neighbour 0 0).isSome = true :=
  ⟨quiet_of (by decide +kernel), by decide +kernel⟩

/-- `LineAt` of line 1, as a test. -/
def lineAt (s : State) : Bool :=
  decide (s.gossipPlace 0 (s.regionVa 0 2 1) = some lineOf ∧
    (AMap.find? s.tlb (pageTag 0 (easidOf 0 lineOf.va) lineOf.va)).isSome = true ∧ 1 < s.regionLines 0 2 ∧ s.regionOn 0 2 = true)
theorem lineAt_of {s : State} (h : lineAt s = true) : LineAt s 0 2 1 lineOf := by
  unfold LineAt
  exact of_decide_eq_true h
/-- Whatever port a path takes, no link waits for a key. -/
theorem netWaits_of {s : State} {ifa : Word} (h : s.codeHeld (codeOf ifa) = false) (hp : s.planeOf (codeOf ifa) < 8)
    (hq : ((List.range 72).all fun n => !(s.hreg (lkstat n)).getLsbD 1) = true) : s.netWaits ifa = false := by
  have hb : s.linkFor (codeOf ifa) (chipOf ifa) < 72 := link_lt hp
  have := List.all_eq_true.mp hq _ (List.mem_range.mpr hb)
  simp only [Bool.not_eq_true'] at this
  simp only [State.netWaits, h, this, Bool.or_self]
def splitState : State := gossipState { active := [(2, [0])] }
theorem witness_SplitSends : LinkSends splitState (codeOf (messageIfa 7 1)) 7 5 :=
  linkSends_of (by decide +kernel) (by decide +kernel)
theorem witness_GossipSplits : LineAt splitState 0 2 1 lineOf ∧ splitState.netWaits (messageIfa 7 1) = false ∧
    AMap.find? (splitState.gand 0 0).active 2 = some [0] ∧ 1 ∉ [0] ∧ (splitState.gand 0 0).flight.length < 256 ∧
    2 ∉ (splitState.gand 0 0).stopped ∧ splitState.ganderOn 0 = true ∧ splitState.neighbour 0 0 = some 7 ∧ 1 = [0].length :=
  ⟨lineAt_of (by decide +kernel), netWaits_of (by decide +kernel) (by decide +kernel) (by decide +kernel), by decide +kernel⟩
def messageKey : Nat := (7 * 65536 + 5 % 65536) * 8 + 6 % 8
def applied (seq : BitVec 32) : State := { gossipState {} with applied := [(messageKey, seq)] }
theorem witness_Messages : LineAt (applied 9) 0 2 1 lineOf ∧ (applied 9).policy 5 = some 0 ∧
    newer 9 (AMap.get (applied 9).applied messageKey 0) = false ∧ newer 10 (AMap.get (applied 9).applied messageKey 0) = true ∧
    newer 0 0xFFFFFFFF = true ∧ newer 0 0 = false ∧ (∀ j < 8, (applied 9).neighbour 0 j ≠ some 8) :=
  ⟨lineAt_of (by decide +kernel), by decide +kernel⟩
theorem witness_RefusedMessages : (applied 9).regionOn 0 1 = false ∧ (applied 9).regionLines 0 2 ≤ 4 ∧
    ({ applied 9 with tlb := [] } : State).gossipPlace 0 ((applied 9).regionVa 0 2 1) = none := by decide +kernel
theorem witness_AddHalves : (List.replicate 32 (0#64)).length = 32 ∧ (List.replicate 31 (0#64)).length = 31 := by decide +kernel
theorem witness_Answers : ((gossipState { flight := [inFlight] }).gand 0 0).flight.find? (fun f => f.seq == 9 && !f.lost) = some inFlight ∧
    (gossipState { flight := [inFlight] }).gossipPlace 0 inFlight.va = some lineOf ∧
    (AMap.find? (gossipState { flight := [inFlight] }).tlb (pageTag 0 (easidOf 0 lineOf.va) lineOf.va)).isSome = true ∧
    (gossipState { flight := [inFlight] }).canAddBack 0 inFlight = true ∧ (∃ n < 8, (gossipState {}).planeLive n = true) ∧
    newer ({ inFlight with lost := true } : Flight).seq 9 = false ∧ newer ({ inFlight with lost := true } : Flight).seq 8 = true := by
  decide +kernel
theorem witness_StoppedMode : GanderQuiet (gossipState {}) 0 ∧ (gossipState {}).steps = [] ∧ (gossipState {}).serves 0 = true ∧
    State.reset.serves 0 = false ∧ ((gossipState { flight := [inFlight] }).gand 0 0).flight ≠ [] :=
  ⟨quiet_of (by decide +kernel), by decide +kernel⟩
theorem witness_Regions : (gossipState {}).regionOn 0 1 = false ∧ (gossipState {}).regionOn 0 2 = true ∧
    ((0x80800000000000A0#64).setWidth 8 : BitVec 8).toInt = -96 ∧ ((0x808000000000001F#64).setWidth 8 : BitVec 8).toInt = 31 ∧
    (0x80800000000000A0#64).getLsbD 55 = true ∧ (0x800000000000001F#64).getLsbD 55 = false ∧
    (gossipState { flight := [inFlight] }).roundBusy 0 = true ∧ (gossipState {}).roundBusy 0 = false := by decide +kernel

/-- Accesses of a function to the system's half: one that no partition serves, reads, writes and a page that nothing maps. -/
def access (off size : Nat) (w : Bool) : Bar2 := ⟨0, off, size, w, 0x1234, false⟩
def hostState : State := { pageOf base 0 bootVa with cached := [(sectorTag 0 0 bootVa, [{ st := .m, data := 0x99 }])] }
theorem witness_Functions : State.reset.barServes (access 0x20000 4 false) = false ∧ hostState.barServes (access 0x20000 4 false) = true ∧
    (2 ^ 55 + 0x2003C) % 64 + 4 ≤ 64 ∧ hostState.barServes (access 0x2003C 4 true) = true ∧
    leafClass (leafAt hostState 0 bootVa) = 0 ∧ (leafAt hostState 0 bootVa).getLsbD 56 = true ∧
    (leafAt hostState 0 bootVa).getLsbD 57 = true ∧ (leafAt hostState 0 bootVa).getLsbD 60 = false ∧
    (hostState.sector (leafLoc 0 0 bootVa (leafAt hostState 0 bootVa))).poison = false ∧
    hostState.noGrant (leafLoc 0 0 bootVa (leafAt hostState 0 bootVa)).tag 0 = false ∧
    hostState.barServes (access 0x90000 4 false) = true ∧ hostState.leafOf 0 0 (2 ^ 55 + 0x90000) = .unmapped ∧
    hostState.hostWindow 0 (2 ^ 55 + 0x90000) = false := by decide +kernel
/-- A read that crosses from one sector of the page to the next. -/
theorem witness_LongRead : hostState.barServes (access 0x2003C 8 false) = true ∧
    ∀ i < 8, plainAt hostState 0 (bootVa + 0x3C + i) = true ∧
      leafAt hostState 0 (bootVa + 0x3C + i) = leafAt hostState 0 bootVa ∧
      hostState.noGrant (leafLoc 0 0 (bootVa + 0x3C + i) (leafAt hostState 0 bootVa)).tag 0 = false ∧
      (hostState.sector (leafLoc 0 0 (bootVa + 0x3C + i) (leafAt hostState 0 bootVa))).poison = false := by decide +kernel
theorem witness_FunctionPage : Plain hostState 0 0 bootVa (leafAt hostState 0 bootVa) := plainAt_of (by decide +kernel)
def askedState (k : ReqKind) : State :=
  { sentState k false with net := [], host := [{ id := 4, easid := 1, va := 0x50010, addr := 0x10, who := [(0, 7, 0)] }] }
def asked (k : ReqKind) : Bool :=
  let s := askedState k
  ((s.host.find? fun x => x.id == 4).map (·.who)) == some [(0, 7, 0)] && decide (s.acc? 0 7 0 = some (sentReq k, sentAcc)) &&
    (s.core 0).aged.isEmpty
theorem witness_HostCompletions : asked .ld = true ∧ asked .st = true := by decide +kernel

/-! ### Ill-formed words: one for each check of WellFormed, refused as a term, and as a word where it has an encoding -/

def f2 (ty : Ty) (rm : Rm) (sat : Bool) (d : Dst) (a b : Src) : F2 := ⟨always, ty, rm, sat, d, a, b⟩
def illOperands : List Instr :=
  [.iadd (f2 .i64 .rne false (.v 1) (.v 2) (.v 4)),
   .iadd (f2 .i64 .rne false (.v 2) (.v 3) (.v 4)), .bitAnd (f2 .b128 .rne false (.v 2) (.v 4) (.v 8)),
   .bitAnd (f2 .b128 .rne false (.o 2) (.v 4) (.v 8)), .iadd (f2 .i64 .rne false (.o 1) (.v 2) (.v 4)),
   .bitAnd (f2 .b128 .rne false .l0 (.v 4) (.v 8)), .bitAnd (f2 .b128 .rne false (.v 4) (.l 1) (.v 8)),
   .bitAnd (f2 .b128 .rne false (.s 3) (.v 4) (.v 8)), .iadd (f2 .i64 .rne false (.v 2) (.k 1) (.v 4)),
   .bitAnd (f2 .b128 .rne false (.v 4) (.s 1) (.v 8)), .lea always 0 (.v 1) (.v 2) (.v 4)]
def illModifiers : List Instr :=
  [.iadd (f2 .f32 .rne false (.v 1) (.v 2) (.v 3)), .iadd (f2 .b32 .rne true (.v 1) (.v 2) (.v 3)),
   .iadd (f2 .i32 .rz false (.v 1) (.v 2) (.v 3)), .imul (f2 .i32 .rne true (.v 1) (.v 2) (.v 3)),
   .imadw ⟨always, .b32, .rne, .v 2, .v 1, .v 1, .v 2⟩, .ineg ⟨always, .n32, .rne, false, .v 1, .v 2⟩,
   .imin (f2 .b32 .rne false (.v 1) (.v 2) (.v 3)), .sar (f2 .b32 .rne false (.v 1) (.v 2) (.v 3)),
   .shl (f2 .i32 .rne false (.v 1) (.v 2) (.v 3)), .rhash (f2 .b64 .rne false (.v 1) (.v 2) (.v 3)),
   .sel always .i32 (.v 1) (.v 2) (.v 3) 0, .mov ⟨always, .i32, .rne, false, .v 1, .v 2⟩,
   .fmin (f2 .f32 .rz false (.v 1) (.v 2) (.v 3)), .fadd (f2 .e4m3 .rne false (.v 1) (.v 2) (.v 3)),
   .fdot2 ⟨always, .f32, .rne, .v 1, .v 2, .v 3, .v 4⟩, .fabs ⟨always, .e8m0, .rne, false, .v 1, .v 2⟩,
   .faddImm ⟨always, true, .v 1, .v 2, 65536⟩, .ffmaImm ⟨always, true, .v 1, .v 2, .v 3, 65536⟩,
   .cvt ⟨always, .i32, .rne, false, .v 1, .v 2⟩ .i32, .cvt ⟨always, .f32, .rne, true, .v 1, .v 2⟩ .i32,
   .cvt ⟨always, .b32, .rne, false, .v 1, .v 2⟩ .i32, .pack ⟨always, .f32, .rne, .v 1, .v 2, .v 3, .v 4⟩,
   .qcvt (f2 .f32 .rne false (.v 1) (.v 2) (.v 3)), .obres (f2 .i32 .rne false (.v 1) (.v 2) (.v 3)),
   .redg ⟨always, .and, .f32, .v 1, .v 2⟩, .redg ⟨always, .min, .b32, .v 1, .v 2⟩, .matchLanes ⟨always, .i32, .rne, false, .v 2, .v 4⟩,
   .vbal ⟨always, .i32, .v 1, 0⟩, .vcount ⟨always, .b32, .v 1, 0⟩]
def illFields : List Instr :=
  [.isetp ⟨always, .lt, .i32, 7, .v 1, .v 2⟩, .isetpImm always .lt false 7 (.v 1) 0, .fsetpImm always .lt 7 (.v 1) 0,
   .pand ⟨always, 7, 0, 0⟩, .pnot ⟨always, 0, 0, 1⟩, .vany ⟨always, 0, 0, 1⟩, .sfqRcp ⟨always, 0, .v 1, .v 2, .v 3, .v 0⟩,
   .sfqDiv ⟨always, 0, .v 1, .v 2, .v 3, .v 4⟩, .carve ⟨always, false, 0⟩, .carve ⟨always, false, 9⟩, .tdone always .empty,
   .hret ⟨0, false⟩, .hretKill ⟨7, true⟩, .pret ⟨1, false⟩, .mts always .lane (.v 1), .mfs always (.v 1) .clock]
def illMemory : List Instr :=
  [.ld ⟨always, false, .w32, .glb, false, .acq, .dev, .v 3, addr 4⟩, .ld ⟨always, false, .w32, .glb, true, .rel, .dev, .v 3, addr 4⟩,
   .ld ⟨always, false, .w32, .glb, false, .none, .dev, .v 3, addr 5⟩, .st ⟨always, false, .s8, .glb, false, .none, .dev, .v 1, addr 4⟩,
   .st ⟨always, false, .w32, .glb, false, .rel, .dev, .v 1, addr 4⟩, .atom32 ⟨always, false, .maxk, .glb, .none, .dev, .v 3, .v 4, .v 1, 0⟩,
   .atom64 ⟨always, false, .fadd, .glb, .none, .dev, .v 2, .v 4, .v 6, 0⟩, .fatom32 ⟨always, false, .add, .loc, .none, .dev, .v 3, .v 4, .v 1, 0⟩,
   .fatom32 ⟨always, false, .add, .glb, .none, .clu, .v 3, .v 4, .v 1, 0⟩, .fence ⟨always, false, .none, .dev, .v 0⟩,
   .fence ⟨always, false, .rel, .dev, .v 1⟩, .acqr ⟨always, false, .rel, .clu, .v 2⟩, .acqr ⟨always, false, .acq, .team, .v 2⟩,
   .tcopy ⟨always, false, .loc, 20⟩, .tcopy ⟨always, false, .glb, 59⟩, .fput ⟨always, false, .glb, 61⟩, .fget ⟨always, false, .glb, 62⟩,
   .stg ⟨always, false, .empty, .w32, .v 2, addr 6⟩, .grd ⟨always, false, .clu, .v 3, addr 6⟩, .acset ⟨always, false, .glb, .v 4, .v 6, 0⟩,
   .acwait ⟨always, false, .glb, .v 2, addr 4⟩, .mload ⟨always, false, .glb, .clu, .v 8, addr 2⟩]
def illPairs : List Instr :=
  [.pairIadd ⟨3, 0, 3, .bank 7, 1⟩ ⟨.fmul, ⟨3, 1, 4, .o 2, 0⟩⟩, .pairIadd ⟨3, 0, 3, .bank 7, 0⟩ ⟨.fmul, ⟨3, 0, 4, .o 2, 0⟩⟩,
   .pairFadd ⟨3, 0, 3, .bank 7, 4⟩ ⟨.mov, ⟨3, 1, 4, .o 2, 0⟩⟩, .pairMovi ⟨3, 0, 3, .bank 7, 4⟩ ⟨.mov, ⟨3, 1, 4, .o 2, 0⟩⟩]
def refused (l : List Instr) : Bool := l.all fun i => !i.wf && match decode (encode i) with
  | .ok j => decide (j ≠ i)
  | _ => true
theorem test_illOperands : refused illOperands = true := by decide +kernel
theorem test_illModifiers : refused illModifiers = true := by decide +kernel
theorem test_illFields : refused illFields = true := by decide +kernel
theorem test_illMemory : refused illMemory = true := by decide +kernel
theorem test_illPairs : refused illPairs = true := by decide +kernel
/-- A register that the group has not got makes a word illegal for it (R55). -/
theorem test_illForGroup : (Instr.iadd (f2 .i32 .rne false (.v 8) (.v 1) (.v 1))).wfAt 9 = true ∧
    (Instr.iadd (f2 .i32 .rne false (.v 8) (.v 1) (.v 1))).wfAt 8 = false := by decide +kernel
theorem witness_RoundTrip : (memoryWords.all fun x => x.2.isWord && x.2.wf) = true ∧ fetchHeader.len ≠ 0 ∧
    fetchHeader.sfa ≠ fetchHeader.sfb := by decide +kernel

/-! ### Steps -/

/-- The word that the next step fetches, in the group of `base`. -/
def word (w : Nat) : State := State.reset.withFetchWord 64 w
def fetches (s : State) (w : Nat) : Bool :=
  match s.fetch 0 0 1 spot.ga.pc with
  | .ok v => v.toNat == w
  | _ => false
theorem test_step_iadd : (match decode 0x100E002006820008 with | .ok i => decide (i.wfAt 768 = true ∧ i.terminator = false) | _ => false) = true ∧
    spot.Issues (word 0x100E002006820008) ∧ (word 0x100E002006820008).agenda = [] ∧ fetches (word 0x100E002006820008) 0x100E002006820008 = true :=
  ⟨by decide +kernel, issues_of (by decide +kernel), by decide +kernel⟩
/-- A word that decodes to nothing, one that the group may not execute (a register beyond its count), and a terminator before the
end of its clause. -/
def smallState (w : Nat) : State := (word w).setGroup 0 0 { fetchGroup with regs := 1 }
theorem witness_IllegalWords : (match decode 0xFF00000000000000 with | .ok _ => false | _ => true) = true ∧
    fetches (word 0xFF00000000000000) 0xFF00000000000000 = true ∧
    (match decode 0x100E002006820008 with | .ok i => !i.wfAt 1 | _ => false) = true ∧ fetches (smallState 0x100E002006820008) 0x100E002006820008 = true ∧
    (match decode 0x090E000000000000 with | .ok i => i.terminator | _ => false) = true ∧ ({ fetchGang with len := 2 } : Gang).idx + 1 ≠ 2 := by
  decide +kernel
def noExec : State := base.modCore 0 fun k => { k with plb := [(pageTag 0 1 fetchVa, { r := true })] }
def noPage : State := base.modCore 0 fun k => { k with plb := [] }
theorem witness_BadFetches : (match noExec.fetch 0 0 1 fetchPc with | .bad n => n == 9 | _ => false) = true ∧
    (match noPage.fetch 0 0 1 fetchPc with | .miss _ => true | _ => false) = true ∧ spot.Issues noExec ∧ spot.Issues noPage :=
  ⟨by decide +kernel, by decide +kernel, issues_of (by decide +kernel), issues_of (by decide +kernel)⟩
theorem witness_Schedule : ({ base with agenda := [.yieldWake 0 0 0] } : State).agenda = [.yieldWake 0 0 0] ∧
    State.reset.agenda = [] ∧ State.reset.issue = none := by decide +kernel
theorem witness_FetchedBytes :
    AMap.find? (base.core 0).plb (pageTag 0 1 fetchVa) = some { r := true, x := true } ∧ plain base fetchPc.toNat fetchLeaf = true ∧
    base.cached = [] ∧ (AMap.get base.lmeta (leafPa fetchLeaf fetchPc.toNat / 256) {}).slot = leafKey fetchLeaf ∧
    (AMap.get base.lmeta (leafPa fetchLeaf fetchPc.toNat / 256) {}).epoch = (base.slot 0).epoch ∧
    (AMap.get base.lmeta (leafPa fetchLeaf fetchPc.toNat / 256) {}).key = (base.slot 0).key ∧ (base.part 0).killing.contains 1 = false := by
  decide +kernel

/-! ### Frames, and what every step keeps -/

theorem witness_LaneFrames : spot.Issues base ∧ spot.Follows base ∧ arithmetic ∈ laneTables ∧ laneReady arithmetic integerWords = true :=
  ⟨base_issues, base_follows, .head _, by decide +kernel⟩
theorem witness_GroupFrames : spot.Issues base ∧ spot.Follows base ∧
    (predicatesWords.all fun x => (predicates x.2).isSome && x.2.wf) = true ∧
    ∀ x ∈ predicatesWords, ∀ w, predicates x.2 = some w → w.clean (spot.ctx base w.gd) fetchGroup :=
  ⟨base_issues, base_follows, by decide +kernel, witness_PredicateWords.2.2.2⟩
/-- The guard `p0` is false in every lane. -/
theorem witness_GuardedOff : spot.Issues base ∧ (spot.ctx base ⟨0, false⟩).act = 0 ∧ spot.Follows base ∧
    HeaderAt base spot (spot.ga.pc + 8) ∧ spot.ga.idx + 1 = spot.ga.len :=
  ⟨base_issues, by decide +kernel, base_follows, headerAt_of (by decide +kernel), rfl⟩

/-- Lane 5's `v1` is poisoned. -/
def poisoned : Group := { fetchGroup with poison := [(rkey 5 1, 1)] }
theorem witness_PreciseTraps : (spotG poisoned).Issues (withG poisoned) ∧
    (poisoned.poisonTrap ((spotG poisoned).ctx (withG poisoned) always).active [(32, .v 1)]).map (·.lane) = some 5 ∧
    poisoned.mode = .normal ∧ (spotG (inHandler .trap)).Issues (handlerState .trap false) ∧ (inHandler .trap).mode = .trap :=
  ⟨issues_of (by decide +kernel), by decide +kernel, by decide +kernel, issues_of (by decide +kernel), rfl⟩
theorem witness_MemoryStaysCanonical : base.MemOk ∧ (match step base with | .next _ => true | _ => false) = true :=
  ⟨by unfold State.MemOk; decide +kernel, by decide +kernel⟩

/-! ### A save area that takes a core's slot: what depends on the page of an address only -/

theorem page_large {a b : Nat} (h : a / 2 ^ 16 = b / 2 ^ 16) : isLarge a = isLarge b := by
  unfold isLarge nbit
  rw [show a / 2 ^ 54 = b / 2 ^ 54 by omega]
theorem page_window {a b : Nat} (h : a / 2 ^ 16 = b / 2 ^ 16) (w : Word) : inWindow w a = inWindow w b := by
  unfold inWindow
  rw [show a / 2 ^ 21 = b / 2 ^ 21 by omega]
theorem page_home {a b : Nat} (h : a / 2 ^ 16 = b / 2 ^ 16) (s : State) (p e : Nat) : s.home p e a = s.home p e b := by
  simp only [State.home, State.hostWindow, State.cxlWindow, page_window h, homeHash, h, page_large h]
  rfl
theorem page_frame {a b : Nat} (h : a / 2 ^ 16 = b / 2 ^ 16) (w : Word) : leafPa w a / 2 ^ 16 = leafPa w b / 2 ^ 16 := by
  unfold leafPa
  rw [page_large h]
  split <;> omega
theorem frame_home {a b : Nat} (h : a / 2 ^ 16 = b / 2 ^ 16) : paHome a = paHome b ∧ ∀ d, paMappable d a = paMappable d b := by
  have e : paHome a = paHome b := by
    unfold paHome
    have h1 : a < 2 ^ 41 ↔ b < 2 ^ 41 := by omega
    have h2 : 2 ^ 51 ≤ a ∧ a < 2 ^ 51 + 2 ^ 44 ↔ 2 ^ 51 ≤ b ∧ b < 2 ^ 51 + 2 ^ 44 := by omega
    simp only [h, h1, h2, show a / 2 ^ 35 = b / 2 ^ 35 by omega, show a / 2 ^ 42 = b / 2 ^ 42 by omega]
  refine ⟨e, fun d => ?_⟩
  unfold paMappable
  rw [e, h, show a % 2 ^ 42 / 65536 = b % 2 ^ 42 / 65536 by omega]
theorem page_late {a b : Nat} (h : a / 2 ^ 16 = b / 2 ^ 16) (s : State) (p e : Nat) (w : Word) (bad : Bool) :
    s.lateCause p e a w bad = s.lateCause p e b w bad := by
  have f := page_frame h w
  simp only [State.lateCause, State.hostWindow, State.cxlDomain, State.cxlWindow, page_window h, page_large h, page_home h, f,
    (frame_home f).1, (frame_home f).2, rmapEntry, h]
  rfl

/-- Sixteen pages of the save area, written once already; core 0 has nothing left. -/
def saveTlb : AMap TlbEnt := (List.range 16).map fun i => (pageTag 0 0 (0x300000 + 65536 * i),
  { leaf := BitVec.ofNat 64 (2 ^ 63 + 2 ^ 57 + 2 ^ 56 + 2 ^ 52 + 2 ^ 8 + homeHash 0 0 (0x300000 + 65536 * i) * 2 ^ 35 + (112 + i) * 2 ^ 16), dirty := true })
def saveRegs : AMap Word := [(0x2040, 1), (0x2710, 0x8000000000300000)]
def saveState : State :=
  { hregs := [(0x300, 0x8000000000000000)], parts := [(0, { inEffect := true, regs := saveRegs })],
    cores := [(0, { t0 := some 5 })], tlb := saveTlb,
    rmap := saveTlb.foldl (fun m x => AMap.put m (leafPa x.2.leaf 0 / 2 ^ 16) (rmapEntry 0 0 (x.1 % 2 ^ 40 * 65536))) [] }
/-- What a page of the area must be for a write to go through, and to change nothing but the copies. -/
def takes (s : State) (va : Nat) : Bool :=
  !s.hostWindow 0 va && match AMap.find? s.tlb (pageTag 0 0 va) with
  | none => false
  | some t =>
    decide (s.lateCause 0 0 va t.leaf false = none) && !leafF t.leaf &&

    decide (AMap.upd s.tlb (pageTag 0 0 va) (fun t => { t with dirty := true }) = s.tlb)
theorem takes_all : ∀ i < 16, takes saveState (0x300000 + 65536 * i) = true := by decide +kernel

/-- A state whose caches and memory are others: all that writing a sector changes. -/
def copied (s : State) (x : AMap (List SecCopy)) (m : Memory) (n : AMap LineMeta) : State := { s with cached := x, mem := m, lmeta := n }
/-- No copy is in an engine's hands. -/
def Unclaimed (x : AMap (List SecCopy)) : Prop := ∀ y ∈ x, ∀ c ∈ y.2, c.st ≠ .e
/-- A state that differs from `s` so, and where nothing is claimed. -/
def Near (s t : State) : Prop := ∃ x m n, t = copied s x m n ∧ Unclaimed x

theorem find_mem {α : Type} (m : AMap α) (k : Nat) (v : α) (h : AMap.find? m k = some v) : (k, v) ∈ m := by
  induction m with
  | nil => cases h
  | cons x t ih =>
    simp only [AMap.find?] at h
    split at h
    · rename_i e
      cases h
      exact e ▸ .head _
    · exact .tail _ (ih h)

theorem Near.held {s t : State} (h : Near s t) (k : Nat) : ∀ c ∈ t.copies k, c.st ≠ .e := by
  obtain ⟨x, m, n, rfl, u⟩ := h
  intro c hc
  unfold State.copies AMap.get copied at hc
  cases e : AMap.find? x k with
  | none => rw [e] at hc; cases hc
  | some l => rw [e] at hc; exact u _ (find_mem x k l e) c hc

theorem Near.unclaimed {s t : State} (h : Near s t) (k : Nat) : t.claimed k = false := by
  unfold State.claimed
  rw [List.any_eq_false]
  intro c hc
  simp [h.held k c hc]

theorem Near.setCopies {s t : State} (h : Near s t) (k : Nat) (cs : List SecCopy) (hc : ∀ c ∈ cs, c.st ≠ .e) :
    Near s (t.setCopies k cs) := by
  obtain ⟨x, m, n, rfl, u⟩ := h
  refine ⟨_, m, n, rfl, fun y hy c hy' => ?_⟩
  split at hy
  · exact u y (List.mem_filter.mp hy).1 c hy'
  · rcases AMap.mem_put _ _ _ _ hy with e | e
    · subst e
      exact hc c hy'
    · exact u y e c hy'

theorem Near.recall {s t : State} (h : Near s t) (k : Nat) : Near s (t.recall k) := by
  unfold State.recall
  refine Near.setCopies ?_ k [] (fun _ hc => nomatch hc)
  unfold State.cleanSector
  split
  · exact h
  rename_i c _
  have w : ∀ u, Near s u → ∀ l d r b, Near s (u.writeDram l d r b) := fun u hu l d r b => by
    obtain ⟨x, m, n, rfl, q⟩ := hu
    unfold State.writeDram State.retag
    simp only
    split
    · exact ⟨x, _, _, rfl, q⟩
    · split <;> exact ⟨x, _, _, rfl, q⟩
  have g : ∀ u, Near s u → Near s (u.setCopies k ((u.copies k).filterMap fun x =>
      if x.st = .m ∨ x.st = .e then (if x.holder < 8 then some { x with st := .s } else none) else some x)) := fun u hu => by
    refine hu.setCopies k _ fun c hc => ?_
    obtain ⟨x, hx, e⟩ := List.mem_filterMap.mp hc
    split at e
    · split at e <;> cases e
      simp
    · cases e
      exact hu.held k _ hx
  apply g
  split
  · exact w t h _ _ _ _
  · exact h

theorem Near.room {s t : State} (h : Near s t) (k : Nat) : Near s (t.directoryRoom k) := by
  have f : ∀ (l : List Nat) (n : Nat) (u : State), Near s u → Near s (l.foldl (fun u i => u.recall (4 * n + i)) u) := by
    intro l n
    induction l with
    | nil => exact fun u hu => hu
    | cons i l ih => exact fun u hu => ih _ (hu.recall _)
  unfold State.directoryRoom
  split
  · exact h
  · simp only
    split
    · exact h
    · split
      · exact h
      · exact f _ _ _ h

/-- A sector of the area is written. -/
theorem takes_one (s t : State) (h : Near s t) (hg : (s.part 0).regs = saveRegs) (va vb : Nat) (k : takes s vb = true)
    (pg : va / 2 ^ 16 = vb / 2 ^ 16) (d : Sector) :
    ∃ l, t.resolve 0 0 va .noWindow = .ok (.mem l) ∧ Near s ((t.installTlb 0 0 va).writeOwned 68 l d {} false) := by
  obtain ⟨x, m, n, rfl, u⟩ := h
  have tag (a : Nat) (e : a / 2 ^ 16 = vb / 2 ^ 16) : pageTag 0 0 a = pageTag 0 0 vb := by unfold pageTag; rw [e]
  unfold takes at k
  simp only [Bool.and_eq_true, Bool.not_eq_true'] at k
  obtain ⟨hw, k⟩ := k
  cases f : AMap.find? s.tlb (pageTag 0 0 vb) with
  | none => rw [f] at k; simp at k
  | some e =>
    rw [f] at k
    simp only [Bool.and_eq_true, Bool.not_eq_true', decide_eq_true_eq] at k
    obtain ⟨⟨late, lf⟩, p3⟩ := k
    have hw' : (copied s x m n).hostWindow 0 va = false := by
      unfold State.hostWindow
      rw [page_window pg]
      exact hw
    have f' : AMap.find? (copied s x m n).tlb (pageTag 0 0 va) = some e := by rw [tag va pg]; exact f
    have leaf : (copied s x m n).leafOf 0 0 va = .leaf e.leaf 0 := by
      unfold State.leafOf
      rw [hw', f']
      rfl
    have late' : (copied s x m n).lateCause 0 0 va e.leaf false = none := by
      rw [page_late pg]
      exact late
    have eas : easidOf 0 va = 0 := by unfold easidOf; split <;> rfl
    refine ⟨leafLoc 0 0 va e.leaf, by simp [State.resolve, eas, leaf, hw', Kindly.bad, lf, late'], ?_⟩
    have i : (copied s x m n).installTlb 0 0 va = copied s x m n := by
      unfold State.installTlb
      simp only [hw', f', Option.isSome_some, Bool.or_true, if_true]
    have q : (copied s x m n).markDirty (leafLoc 0 0 va e.leaf) = copied s x m n := by
      have q3 : AMap.upd (copied s x m n).tlb (pageTag 0 0 (va / 64 * 64)) (fun t => { t with dirty := true }) = (copied s x m n).tlb := by
        rw [tag _ (by omega)]
        exact p3
      unfold State.markDirty
      simp only [leafLoc]
      rw [q3]
    have sh : ∀ a, (copied s x m n).inShadow 0 0 a = false := fun a => by
      have z : ∀ n < 8, (AMap.get saveRegs (0x2400 + 32 * n + 8 * 0) (partReset (0x2400 + 32 * n + 8 * 0))).getLsbD 55 = false := by decide
      unfold State.inShadow
      simp only [beq_self_eq_true, Bool.true_and, List.any_eq_false]
      intro k hk
      have y := z k (List.mem_range.mp hk)
      rw [← hg] at y
      have y : ((copied s x m n).gsreg 0 k 0).getLsbD 55 = false := y
      rw [y]
      simp
    rw [i]
    unfold State.writeOwned
    rw [q]
    simp only [leafLoc, sh, or_true, if_true, State.own]
    rw [if_pos (by omega)]
    exact Near.setCopies (Near.room ⟨x, m, n, rfl, u⟩ _) _ _ (by simp)

theorem saves (s : State) (base : Nat) (hb : base % 65536 = 0) (hg : (s.part 0).regs = saveRegs)
    (ht : ∀ i < 16, takes s (base + 65536 * i) = true) (hv : s.saveVa 0 0 = base) (l : List Nat)
    (hl : ∀ off ∈ l, off < 2 ^ 20) (t : State) (h : Near s t) :
    ∃ u, l.foldl (fun t off => t.bind fun t =>
      match s.saveSector 0 1 off with
      | none => some t
      | some d =>
        match t.resolve 0 0 (s.saveVa 0 0 + off) .noWindow with
        | .ok (.mem l) =>
          if t.claimed l.tag then none
          else some ((t.installTlb 0 0 (s.saveVa 0 0 + off)).writeOwned (68 + dieOf 0) l d {} false)
        | _ => none) (some t) = some u := by
  induction l generalizing t with
  | nil => exact ⟨t, rfl⟩
  | cons off l ih =>
    have h0 : off < 2 ^ 20 := hl off (.head _)
    have rest : ∀ o ∈ l, o < 2 ^ 20 := fun o ho => hl o (.tail _ ho)
    rw [List.foldl_cons]
    cases e : s.saveSector 0 1 off with
    | none => exact ih rest t h
    | some d =>
      obtain ⟨p, r, w⟩ := takes_one s t h hg (base + off) _ (ht (off / 65536) (by omega)) (by omega) d
      simp only [Option.bind_some, hv, r, h.unclaimed, Bool.false_eq_true, if_false]
      have g := ih rest _ w
      rw [hv] at g
      exact g

theorem saveOffsets_lt (off : Nat) (h : off ∈ saveOffsets) : off < 2 ^ 20 := by
  unfold saveOffsets at h
  rcases List.mem_append.mp h with h | h
  · obtain ⟨a, ha, rfl⟩ := List.mem_map.mp (List.mem_of_mem_drop h)
    have := List.mem_range.mp ha
    omega
  · rw [List.mem_singleton.mp h]
    omega
theorem writeSave_some (s : State) (base : Nat) (hb : base % 65536 = 0) (ht : ∀ i < 16, takes s (base + 65536 * i) = true)
    (hg : (s.part 0).regs = saveRegs) (hv : s.saveVa 0 0 = base) (hf : s.saveFaults 0 0 = false)
    (u : Unclaimed s.cached) : ∃ t, s.writeSave 0 0 1 = some t := by
  rw [State.writeSave, if_neg (by simp [hf])]
  exact saves s base hb hg ht hv saveOffsets saveOffsets_lt s ⟨s.cached, s.mem, s.lmeta, rfl, u⟩
theorem saveState_va : saveState.saveVa 0 0 = 0x300000 := by decide +kernel
theorem saveState_fits : saveState.saveFaults 0 0 = false := by decide +kernel
theorem witness_ContextSaves : ∃ t, saveState.writeSave 0 0 1 = some t :=
  writeSave_some saveState _ (by omega) takes_all rfl saveState_va saveState_fits (fun _ h => nomatch h)
theorem witness_ContextSave : coreDone saveState = true ∧ saveState.saveEn 0 = true := by decide +kernel

/-! ### Releases, narrow stores, the last fill -/

/-- A store of narrow scope into a sector that the L1 holds. -/
def narrowStores : Req := { wideStores with strong := false }
def l1State (q : Req) : State :=
  (dataState q).modCore 0 fun k => { k with l1 := [(sectorTag 0 1 0x20000, cachedSec)] }
theorem witness_NarrowStores : Turn (l1State narrowStores) 0 7 0 narrowStores wideStore ∧
    ReleaseOk (l1State narrowStores) 0 narrowStores ∧ (narrowStores.strong && narrowStores.wide (l1State narrowStores)) = false ∧
    Plain (l1State narrowStores) 0 1 0x20010 (dataLeaf 0x20000 0) ∧ (l1State narrowStores).outwardMem 0 0x20010 = false ∧
    (l1State narrowStores).inShadow 0 1 0x20000 = false ∧ StayingL1 ((l1State narrowStores).core 0) ∧
    AMap.find? ((l1State narrowStores).core 0).l1 (leafLoc 0 1 0x20010 (dataLeaf 0x20000 0)).tag = some cachedSec :=
  ⟨turn_of (by decide +kernel), fun h => absurd h (by decide), by decide +kernel, plain_of (by decide +kernel), by decide +kernel,
    by decide +kernel, by unfold StayingL1; decide +kernel, by decide +kernel⟩

/-- A release with nothing ahead of it, and behind a load of its group. -/
def releases : Req := { wideStores with ord := .rel }
def releaseState (l : List Req) : State := (dataState releases).modCore 0 fun k => { k with reqs := l ++ [releases] }
def aheadLoads : Req := { request .ld [{ memLoad with va := 0x20080 }] with id := 3 }
theorem flushed_of {s : State} {c : Nat} {q : Req} (a : (s.core c).l1 = []) (b : (s.core c).comb = []) : Flushed s c q :=
  ⟨fun _ x hx => (nomatch (a ▸ hx : x ∈ ([] : AMap L1Sec))), fun _ => b⟩
theorem witness_Releases : Turn (releaseState []) 0 7 0 releases wideStore ∧ ReleaseOk (releaseState []) 0 releases ∧
    Turn (releaseState [aheadLoads]) 0 7 0 releases wideStore ∧ releases.ord = .rel ∧ Flushed (releaseState [aheadLoads]) 0 releases ∧
    Earlier (releaseState [aheadLoads]) 0 releases = false :=
  ⟨turn_of (by decide +kernel), fun _ => ⟨flushed_of (by decide +kernel) (by decide +kernel), by decide +kernel⟩,
    turn_of (by decide +kernel), rfl, flushed_of (by decide +kernel) (by decide +kernel), by decide +kernel⟩

/-- The last word of a fill: a return address of the group's clause. -/
def lastReads : Req := { request .fill [fillRead, { fillRead with lane := 4, va := 0x20040, st := .done, cmp := 0x10000 }] with
  size := 8, mask := 0x18, sx := true, pc := 0x10008 }
def returning : Group :=
  { fetchGroup with thr := (List.range 16).map fun l => (l, { pc := 0x10008, st := if l = 3 ∨ l = 4 then .fill 7 else .ready }) }
def returnState : State :=
  ((outstanding moveState lastReads).setGroup 0 0 returning).modCore 0 fun k =>
    { k with l1 := [(sectorTag 0 1 0x20000, { cachedSec with data := BitVec.ofNat 512 (0x10000 * 2 ^ 128) })] }
def lastGot (l : Nat) : Option Word :=
  (lastReads.accs.find? fun b => b.lane == l).map fun b =>
    if b.lane = fillRead.lane then BitVec.ofNat 64 (sectorValue (BitVec.ofNat 512 (0x10000 * 2 ^ 128)) 0x20010 8) else b.cmp
theorem witness_LastFill : Turn returnState 0 7 0 lastReads fillRead ∧
    ((returnState.core 0).reqs.find? fun r => r.kind == .fill && r.idn.slot == 0 && returnState.alive r.idn &&
      r.accs.any fun b => b.lane == 3) = some lastReads ∧
    (lastReads.accs.findIdx? (fun b => b.lane == 3)) = some 0 ∧ (lastReads.accs.drop 1).all (·.finished) = true ∧
    Plain returnState 0 1 0x20010 (dataLeaf 0x20000 0) ∧ StayingL1 (returnState.core 0) ∧
    returnState.group? 0 0 = some returning ∧ heldBy returning 7 = 0x18 ∧
    (∀ l ∈ lanesOf 0x18, (match returnState.fetch 0 0 1 (fillTo returnState returning lastReads lastGot l) with
      | .ok v => bits v 63 56 == 1
      | _ => false) = true) ∧
    Agree lastReads.sx 0x18 (fillTo returnState returning lastReads lastGot) :=
  ⟨turn_of (by decide +kernel), by decide +kernel, by decide +kernel, by decide +kernel, plain_of (by decide +kernel),
    by unfold StayingL1; decide +kernel, by decide +kernel, by decide +kernel, by decide +kernel,
    by unfold Agree; decide +kernel⟩

/-! ### Atomics -/

/-- An atomic of a word of the scratchpad, one of memory at the home and in the L1, and one through the window. -/
def padAtom (got : Bool) : Machine.Acc :=
  { lane := 3, space := .loc, va := 0x20010, size := 4, data := 5 + 2 ^ 64 * 7, cmp := 7, got := got }
def padAtoms (fn : AtomFn) (scope : Scope) (got : Bool) : Req :=
  { request .atom [padAtom got] with size := 4, space := .loc, fn := fn, scope := scope, ord := .ar }
def padAtomState (q : Req) : State := (outstanding moveState q).modCore 0 fun k => { k with ways := [(0x20010, 0xEF), (0x20013, 0x80)] }
theorem releaseOk_of {s : State} {c : Nat} {q : Req} (a : (s.core c).l1 = []) (b : (s.core c).comb = []) (e : Earlier s c q = true) :
    ReleaseOk s c q := fun _ => ⟨flushed_of a b, e⟩
theorem witness_PadAtomics : ∀ x ∈ [(Scope.dev, false), (.grp, true), (.grp, false)],
    Turn (padAtomState (padAtoms .maxS x.1 x.2)) 0 7 0 (padAtoms .maxS x.1 x.2) (padAtom x.2) ∧
    ReleaseOk (padAtomState (padAtoms .maxS x.1 x.2)) 0 (padAtoms .maxS x.1 x.2) ∧ (4 : Nat) ∈ [4, 8] ∧ 0x20010 % 4 = 0 := by
  have h : ∀ x ∈ [(Scope.dev, false), (.grp, true), (.grp, false)],
      turn (padAtomState (padAtoms .maxS x.1 x.2)) 0 7 0 (padAtoms .maxS x.1 x.2) (padAtom x.2) = true ∧
      ((padAtomState (padAtoms .maxS x.1 x.2)).core 0).l1 = [] ∧ ((padAtomState (padAtoms .maxS x.1 x.2)).core 0).comb = [] ∧
      Earlier (padAtomState (padAtoms .maxS x.1 x.2)) 0 (padAtoms .maxS x.1 x.2) = true := by decide +kernel
  exact fun x hx => ⟨turn_of (h x hx).1, releaseOk_of (h x hx).2.1 (h x hx).2.2.1 (h x hx).2.2.2, by decide, by decide⟩
def memAtom : Machine.Acc := { lane := 3, va := 0x20010, size := 4, data := 5, cmp := 0x1234 }
def memAtoms (fn : AtomFn) (strong : Bool) (scope : Scope) : Req :=
  { request .atom [memAtom] with size := 4, strong := strong, scope := scope, fn := fn }
def homeAtoms (fn : AtomFn) : State :=
  { dataState (memAtoms fn true .dev) with cached := [(sectorTag 0 1 0x20000, [{ holder := 2, st := .m, data := 0x1234 <<< 128 }])] }
def l1Atoms (fn : AtomFn) : State := l1State (memAtoms fn true .grp)
theorem witness_MemoryAtomics : Turn (homeAtoms .add) 0 7 0 (memAtoms .add true .dev) memAtom ∧
    ReleaseOk (homeAtoms .add) 0 (memAtoms .add true .dev) ∧
    Plain (homeAtoms .add) 0 1 0x20010 (dataLeaf 0x20000 0) ∧ (homeAtoms .add).outwardMem 0 0x20010 = false ∧
    bits ((homeAtoms .add).hreg 0x400) 15 0 ≠ 0 ∧ (homeAtoms .add).inShadow 0 1 0x20000 = false ∧
    (memAtoms .add true .dev).wide (homeAtoms .add) = true ∧ Granted (homeAtoms .add) 0 memAtom (leafLoc 0 1 0x20010 (dataLeaf 0x20000 0)) ∧
    ((homeAtoms .add).sector (leafLoc 0 1 0x20010 (dataLeaf 0x20000 0))).poison = false ∧
    Turn (l1Atoms .add) 0 7 0 (memAtoms .add true .grp) memAtom ∧ ReleaseOk (l1Atoms .add) 0 (memAtoms .add true .grp) ∧
    Plain (l1Atoms .add) 0 1 0x20010 (dataLeaf 0x20000 0) ∧ (l1Atoms .add).outwardMem 0 0x20010 = false ∧
    (memAtoms .add true .grp).wide (l1Atoms .add) = false ∧ StayingL1 ((l1Atoms .add).core 0) ∧
    AMap.find? ((l1Atoms .add).core 0).l1 (leafLoc 0 1 0x20010 (dataLeaf 0x20000 0)).tag = some cachedSec ∧
    cachedSec.full = true ∧ cachedSec.poison = false :=
  ⟨turn_of (by decide +kernel), fun h => absurd h (by decide), plain_of (by decide +kernel), by decide +kernel, by decide +kernel,
    by decide +kernel, by decide +kernel, ⟨by decide +kernel, by decide +kernel⟩, by decide +kernel, turn_of (by decide +kernel),
    fun h => absurd h (by decide), plain_of (by decide +kernel), by decide +kernel, by decide +kernel,
    by unfold StayingL1; decide +kernel, by decide +kernel, rfl, rfl⟩
def farAtom : Machine.Acc := { lane := 3, va := 0x50010, size := 4, data := 5, cmp := 9 }
def farAtoms : Req := { request .fatom [farAtom] with size := 4, fn := .cas, floor := 3 }
def farAtomState : State := windowState { moveState.core 0 with reqs := [farAtoms] }
/-- A page of the window, as a test. -/
def farPage (s : State) (va : Nat) : Bool :=
  (match s.leafOf 0 1 va with
   | .leaf e _ => e == windowLeaf
   | _ => false) &&
  decide (leafF windowLeaf = true ∧ s.hostWindow 0 va = false ∧ s.lateCause 0 1 va windowLeaf false = none)
theorem witness_FabricAtomics : Turn farAtomState 0 7 0 farAtoms farAtom ∧ ReleaseOk farAtomState 0 farAtoms ∧
    farPage farAtomState 0x50010 = true ∧ farAtoms.floor = 3 ∧ farAtomState.draining 0 1 = false ∧ (farAtomState.core 0).comb = [] :=
  ⟨turn_of (by decide +kernel), fun h => absurd h (by decide), by decide +kernel⟩

/-! ### Graded accesses and PROBE -/

/-- Accesses of lane 3 to a sector of grade PROV, generation 2, depth 1, that die 2 owns; `n` parked requests of others wait there. -/
def sectorNow : SecCopy := { holder := 2, st := .m, data := 0x1234 <<< 128, record := { grade := .prov, gen := 2, depth := 1 } }
def gradedAcc (rejects : Nat) : Machine.Acc := { lane := 3, va := 0x30010, size := 4, mask := 0xF0000, data := 0xABCD <<< 128, rejects := rejects }
def gradedOn (kind : ReqKind) (g : Grade) (nowait : Bool) (gen depth limit rejects : Nat) : Req :=
  { request kind [gradedAcc rejects] with strong := true, pd := 3, grade := g, nowait := nowait, gen := gen, depth := depth, limit := limit }
def gradedSt (q : Req) (others : List Req) : State :=
  { (moveState.modCore 0 fun k => { k with reqs := q :: others }).setHreg 0x400 1 with
    cached := [(sectorTag 0 1 0x30000, [sectorNow])] }
def gradedOk (q : Req) (others : List Req) (rejects : Nat) : Bool :=
  let s := gradedSt q others
  turn s 0 7 0 q (gradedAcc rejects) && plain s 0x30010 (dataLeaf 0x30000 1) && decide ((∀ x ∈ (s.core 0).l1, x.2.dirty = 0) ∧
    s.noGrant gradedLoc.tag (gradedAcc rejects).home = false ∧ (s.core 0).aged = [] ∧ (s.sector gradedLoc).poison = false ∧
    (s.sector gradedLoc).record = sectorNow.record ∧ s.outwardMem 0 0x30010 = false ∧ s.inShadow 0 1 0x30000 = false ∧
    bits (s.hreg 0x400) 15 0 ≠ 0 ∧ (∀ n, (AMap.find? s.runs 1).map (fun r => decide (max r.depth (1 + if r.refire then 1 else 0) ≤ r.limit)) = some n → n = true))
theorem granted_of {q : Req} {o : List Req} {r : Nat} (h : gradedOk q o r = true) :
    Turn (gradedSt q o) 0 7 0 q (gradedAcc r) ∧ Plain (gradedSt q o) 0 1 0x30010 (dataLeaf 0x30000 1) ∧
      Granted (gradedSt q o) 0 (gradedAcc r) gradedLoc := by
  unfold gradedOk at h
  simp only [Bool.and_eq_true] at h
  obtain ⟨⟨a, b⟩, d⟩ := h
  have d := of_decide_eq_true d
  exact ⟨turn_of a, plain_of b, d.1, d.2.1⟩
/-- A full pool: 64 requests of 64 parked accesses. -/
def fullPool : List Req := List.replicate 64 (crowd 64 .parked fun _ => 0x30040)
theorem witness_GradedLoads :
    (∀ g ∈ [Grade.guess, .prov, .final], ∀ w ∈ [false, true], gradedOk (gradedOn .ldg g w 0 0 8 0) [] 0 = true) ∧
    gradedOk (gradedOn .ldg .final false 0 0 8 0) fullPool 0 = true ∧
    4096 ≤ (gradedSt (gradedOn .ldg .final false 0 0 8 0) fullPool).parkedAt
      ((gradedSt (gradedOn .ldg .final false 0 0 8 0) fullPool).home 0 1 0x30010) ∧
    (gradedSt (gradedOn .ldg .final false 0 0 8 0) []).parkedAt
      ((gradedSt (gradedOn .ldg .final false 0 0 8 0) []).home 0 1 0x30010) < 4096 ∧
    (sectorNow.record.grade.code < Grade.final.code) ∧ Grade.prov.code ≤ sectorNow.record.grade.code := by decide +kernel
/-- A request that waits for the grade that a store brings. -/
def parkedLoad : Req := { gradedOn .ldg .final false 0 0 8 0 with id := 9, accs := [{ gradedAcc 0 with lane := 5, st := .parked }] }
theorem witness_GradedStores :
    (∀ k ∈ [ReqKind.stg, .amend, .grd], ∀ g ∈ [Grade.guess, .final], gradedOk (gradedOn k g false 2 1 8 0) [parkedLoad] 0 = true) ∧
    table42 false sectorNow.record .final 2 1 8 = .inl { grade := .final, gen := 2, depth := 1 } ∧
    table42 false sectorNow.record .guess 2 1 8 = .inr 0x20 ∧ table42 true sectorNow.record .final 2 1 8 =
      .inl { grade := .final, gen := 3, depth := 2 } ∧ table42 true sectorNow.record .final 2 1 1 = .inr 0x22 ∧
    table42 true {} .final 2 1 8 = .inr 0x21 ∧ parkedLoad.grade.code ≤ Grade.final.code ∧ accTag 0 parkedLoad (gradedAcc 0) = gradedLoc.tag := by
  decide +kernel
theorem witness_Granted : Turn (gradedSt (gradedOn .stg .final false 2 1 8 0) [parkedLoad]) 0 7 0 (gradedOn .stg .final false 2 1 8 0) (gradedAcc 0) ∧
    Granted (gradedSt (gradedOn .stg .final false 2 1 8 0) [parkedLoad]) 0 (gradedAcc 0) gradedLoc :=
  ⟨(granted_of (witness_GradedStores.1 .stg (by decide) .final (by decide))).1,
    (granted_of (witness_GradedStores.1 .stg (by decide) .final (by decide))).2.2⟩

/-- Probes: of a scratchpad, of an address that is none, of a page of each kind, and of one that nothing maps. -/
def probeOf (sp : Space) (va : Nat) (got : Bool) : Machine.Acc := { lane := 3, space := sp, va := va, got := got }
def probeState (a : Machine.Acc) : State := windowState { moveState.core 0 with reqs := [request .probe [a]] }
theorem witness_Probes :
    (∀ a ∈ [probeOf .loc 0x20010 true, probeOf .glb (2 ^ 60) false, probeOf .glb 0x30010 false, probeOf .glb 0x50010 false,
      probeOf .glb 0x90010 false], turn (probeState a) 0 7 0 (request .probe [a]) a = true) ∧
    isCanonical (2 ^ 60) = false ∧ isCanonical 0x30010 = true ∧ isCanonical 0x90010 = true ∧
    plain (probeState (probeOf .glb 0x30010 false)) 0x30010 (dataLeaf 0x30000 1) = true ∧
    farPage (probeState (probeOf .glb 0x50010 false)) 0x50010 = true ∧
    (probeState (probeOf .glb 0x90010 false)).leafOf 0 1 0x90010 = .unmapped := by decide +kernel

/-! ### Gossip accesses -/

/-- Accesses of address space 0 to line 1 of region 2, whose shadow lies in a page of its own; slot 0 of the line is valid or not. -/
def gossipAcc (off data : Nat) (cmp : Word) : Machine.Acc :=
  { lane := 3, va := 0x40100 + off, size := 8, data := BitVec.ofNat 512 data, cmp := cmp }
def gossipReq (kind : ReqKind) (a : Machine.Acc) : Req :=
  { request kind [a] with idn := { me with asid := 0 }, pd := 3, strong := true, size := 8 }
def lineNow : List Nat := (List.range 31).map (fun i => if i % 2 = 0 then 1000 * i + 1 else 2 ^ 64 - 77 * i) ++ [2 ^ 62]
def slotNow (valid : Bool) : List Nat := (List.range 31).map (fun i => 0x3F800000 + i * 0x1234) ++ [if valid then 2 ^ 31 else 0]
def putWords (size pa : Nat) (l : List Nat) (m : Memory) : Memory :=
  l.zipIdx.foldl (fun m x => Memory.writeN m (pa + size * x.2) size x.1) m
def shadowed (kind : ReqKind) (a : Machine.Acc) (valid : Bool) : State :=
  let s := pageOf (pregs (gossipState {}) [(0x2448, 0x60000)]) 0 0x60000
  let s := s.modCore 0 fun k => { k with reqs := [gossipReq kind a] }
  { s with mem := putWords 4 (leafLoc 0 0 0x60400 (leafAt s 0 0x60000)).pa (slotNow valid) (putWords 8 lineOf.pa lineNow s.mem) }
def gossipOk (kind : ReqKind) (a : Machine.Acc) (valid : Bool) : Bool :=
  let s := shadowed kind a valid
  turn s 0 7 0 (gossipReq kind a) a && plainAt s 0 a.va && decide (leafAt s 0 a.va = gossipLeaf ∧ s.linePoison (leafLoc 0 0 a.va gossipLeaf) = false ∧
    s.regionBase 0 2 = 0x40000 ∧ s.regionLines 0 2 = 4 ∧ s.regionExp 0 2 = 0) &&
    (List.range 2).all fun m => decide (s.regionBase 0 m + 256 * s.regionLines 0 m ≤ 0x40000)
theorem gossip_of {kind : ReqKind} {a : Machine.Acc} {v : Bool} (h : gossipOk kind a v = true) (hl : a.va / 256 * 256 = 0x40100) :
    Turn (shadowed kind a v) 0 7 0 (gossipReq kind a) a ∧ GossipAt (shadowed kind a v) (gossipReq kind a) a (leafLoc 0 0 a.va gossipLeaf) ∧
      ExpOf (shadowed kind a v) 0 (a.va / 256 * 256) 0 := by
  unfold gossipOk at h
  simp only [Bool.and_eq_true] at h
  obtain ⟨⟨⟨t, p⟩, d⟩, o⟩ := h
  obtain ⟨l, -, b, n, e⟩ := of_decide_eq_true d
  have eas : easidOf (gossipReq kind a).idn.asid a.va = 0 := by unfold easidOf; split <;> rfl
  have p := plainAt_of p
  rw [l] at p
  refine ⟨turn_of t, ⟨gossipLeaf, by rw [eas]; exact p, by rw [eas]; rfl⟩, .inl ⟨2, by omega, ?_, fun m hm => ?_, e.symm⟩⟩
  · show (shadowed kind a v).regionBase 0 2 ≤ _ ∧ _ < (shadowed kind a v).regionBase 0 2 + 256 * (shadowed kind a v).regionLines 0 2
    rw [b, n, hl]
    omega
  · have := of_decide_eq_true (List.all_eq_true.mp o m (List.mem_range.mpr hm))
    show ¬(_ ∧ a.va / 256 * 256 < _)
    rw [hl]
    omega
theorem witness_GossipPerform :
    (∀ x ∈ [(ReqKind.ginit, gossipAcc 16 77 0), (.gadd, gossipAcc 16 0x43480000 0), (.gadd, gossipAcc 16 0x7F800000 0),
      (.gread, gossipAcc 24 0 0), (.gspread, gossipAcc 0 0 0x40000000)], gossipOk x.1 x.2 true = true ∧ x.2.va / 256 * 256 = 0x40100) ∧
    gossipOk .gspread (gossipAcc 0 0 0x40000000) false = true ∧ gaddC 0x43480000 0 1000 = some 200 ∧ gaddC 0x7F800000 0 1000 = none ∧
    gaddC 0x3F800000 (-62) (2 ^ 61) = some (2 ^ 62) ∧ gaddC 0x3F800000 (-62) (2 ^ 62) = none := by decide +kernel
/-- What a `GSPREAD` reads of the shadow. -/
theorem witness_ShadowSlots : ∀ v ∈ [false, true], let s := shadowed .gspread (gossipAcc 0 0 0x40000000) v
    s.regionShadow 0 2 = 0x60000 ∧ (∀ j < 8, (s.neighbour 0 j).isSome = true → j = 0) ∧ (s.neighbour 0 0).isSome = true ∧
    (∀ k < 32, plainAt s 0 (0x60400 + 4 * k) = true) ∧ ∀ k ∈ [0, 31],
      (s.sector (leafLoc 0 0 (0x60400 + 4 * k) (leafAt s 0 0x60000))).poison = false ∧
      sectorValue (s.sector (leafLoc 0 0 (0x60400 + 4 * k) (leafAt s 0 0x60000))).data (0x60400 + 4 * k) 4 = (slotNow v).getD k 0 := by
  decide +kernel

/-! ### Fences -/

def waits (s : State) (q : Req) : Bool :=
  decide ((s.core 0).req? q.id = some q) && q.accs.all fun a => a.st != .withdrawn && a.st != .logged
theorem waits_of {s : State} {q : Req} (h : waits s q = true) : Waits s 0 q := by
  unfold waits at h
  rw [Bool.and_eq_true] at h
  refine ⟨of_decide_eq_true h.1, fun a ha => ?_⟩
  have := List.all_eq_true.mp h.2 a ha
  simpa using this
def dirtyLine : L1Sec := { data := 0xABCD <<< 128, dirty := 0xF0000, way := 3 }
def sealedLine : L1Sec := { cachedSec with sealed := true }
/-- Core 0's L1 with a clean line and a sealed one, and core 5's with the lines given. -/
def fenceState (q : Req) (others : List Req) (far : AMap L1Sec) : State :=
  ((dataState q).modCore 0 fun k =>
    { k with reqs := others ++ [q], l1 := [(sectorTag 0 1 0x20000, cachedSec), (sectorTag 0 1 0x20040, sealedLine)] }).modCore 5 fun k =>
    { k with l1 := far }
def fences (o : MemOrder) (scope : Scope) : Req := { request .fence [] with strong := true, ord := o, scope := scope }
def strongAhead : Req := { aheadLoads with strong := true }
theorem flushedL1_of {s : State} {q : Req} (a : ((s.core 0).l1.all fun x => x.2.dirty == 0) = true) (b : (s.core 0).comb = []) :
    Flushed s 0 q := ⟨fun _ x hx => by simpa using List.all_eq_true.mp a x hx, fun _ => b⟩
theorem readsBack_nil {s : State} {q : Req} (h : (s.core 0).reqs = [q]) : ReadsBack s 0 q := by
  intro r hr _ hlt
  rw [h, List.mem_singleton] at hr
  subst hr
  omega
theorem witness_Fences : ∀ o ∈ [MemOrder.rel, .acq, .ar], ∀ sc ∈ [Scope.grp, .dev],
    Waits (fenceState (fences o sc) [] []) 0 (fences o sc) ∧ ReleaseOk (fenceState (fences o sc) [] []) 0 (fences o sc) ∧
    ReadsBack (fenceState (fences o sc) [] []) 0 (fences o sc) ∧ (fences o sc).wide (fenceState (fences o sc) [] []) = decide (sc = .dev) := by
  have h : ∀ o ∈ [MemOrder.rel, .acq, .ar], ∀ sc ∈ [Scope.grp, .dev], let s := fenceState (fences o sc) [] []
      waits s (fences o sc) = true ∧ ((s.core 0).l1.all fun x => x.2.dirty == 0) = true ∧ (s.core 0).comb = [] ∧
      Earlier s 0 (fences o sc) = true ∧ (s.core 0).reqs = [fences o sc] ∧ (fences o sc).wide s = decide (sc = .dev) := by decide +kernel
  exact fun o ho sc hs => ⟨waits_of (h o ho sc hs).1, fun _ => ⟨flushedL1_of (h o ho sc hs).2.1 (h o ho sc hs).2.2.1, (h o ho sc hs).2.2.2.1⟩,
    readsBack_nil (h o ho sc hs).2.2.2.2.1, (h o ho sc hs).2.2.2.2.2⟩
theorem witness_WaitingFences : Waits (fenceState (fences .ar .dev) [strongAhead] []) 0 (fences .ar .dev) ∧
    Flushed (fenceState (fences .ar .dev) [strongAhead] []) 0 (fences .ar .dev) ∧
    Earlier (fenceState (fences .ar .dev) [strongAhead] []) 0 (fences .ar .dev) = false ∧
    Waits (fenceState (fences .acq .dev) [strongAhead] []) 0 (fences .acq .dev) ∧
    ReleaseOk (fenceState (fences .acq .dev) [strongAhead] []) 0 (fences .acq .dev) ∧
    ¬ReadsBack (fenceState (fences .acq .dev) [strongAhead] []) 0 (fences .acq .dev) :=
  ⟨waits_of (by decide +kernel), flushedL1_of (by decide +kernel) (by decide +kernel), by decide +kernel, waits_of (by decide +kernel),
    fun h => absurd h (by decide), fun h => absurd (h strongAhead (.head _) rfl (by decide) (.inl ⟨rfl, rfl⟩) _ (.head _)) (by decide)⟩

/-- `ACQR` of core 5: with and without dirty lines there, and once it waits for one to be written back. -/
def acqrs (started : Bool) : Req := { request .acqr [] with n := 5, started := started, rounds := if started then [(sectorTag 0 1 0x20080, 0, 0)] else [] }
def farDirty : AMap L1Sec := [(sectorTag 0 1 0x20080, dirtyLine), (sectorTag 0 1 0x200C0, cachedSec)]
theorem witness_Acqr : Waits (fenceState (acqrs false) [] [(sectorTag 0 1 0x200C0, cachedSec)]) 0 (acqrs false) ∧
    Waits (fenceState (acqrs false) [] farDirty) 0 (acqrs false) ∧
    (∀ x ∈ ((fenceState (acqrs false) [] [(sectorTag 0 1 0x200C0, cachedSec)]).core 5).l1, x.2.dirty = 0) ∧
    Waits (fenceState (acqrs true) [] []) 0 (acqrs true) ∧ (∀ y ∈ (acqrs true).rounds, (((fenceState (acqrs true) [] []).core 5).l1Sec y.1).dirty = 0) :=
  ⟨waits_of (by decide +kernel), waits_of (by decide +kernel), by decide +kernel, waits_of (by decide +kernel), by decide +kernel⟩

/-- `FFENCE` with a combined store of its group, with one sent, and with a load of memory ahead. -/
def ffences : Req := request .ffence []
def outStores (st : AccSt) : Req := { request .st [{ sentAcc with st := st }] with id := 3 }
def combOf : CombEnt := { combined with who := [(3, 0)] }
def ffenceState (others : List Req) (comb : List CombEnt) (net : List OutReq) : State :=
  { windowState { moveState.core 0 with reqs := others ++ [ffences], comb := comb } with net := net }
theorem witness_Ffence : Waits (ffenceState [outStores .comb] [combOf] []) 0 ffences ∧
    (∃ x ∈ ((ffenceState [outStores .comb] [combOf] []).core 0).comb, HoldsOf (ffenceState [outStores .comb] [combOf] []) 0 ffences x) ∧
    Waits (ffenceState [outStores (.sent 4)] [] [outReq false]) 0 ffences ∧
    OutThere (ffenceState [outStores (.sent 4)] [] [outReq false]) (outStores (.sent 4)) { sentAcc with st := .sent 4 } ∧
    Waits (ffenceState [{ outStores .waiting with accs := [padLoad] }] [] [outReq false]) 0 ffences ∧ padLoad.space ≠ .glb ∧
    ¬OutThere (ffenceState [{ outStores .waiting with accs := [padLoad] }] [] [outReq false]) { outStores .waiting with accs := [padLoad] } padLoad :=
  ⟨waits_of (by decide +kernel), ⟨combOf, .head _, (3, 0), .head _, outStores .comb, by decide +kernel, rfl⟩, waits_of (by decide +kernel),
    ⟨rfl, .inr (.inr ⟨outReq false, .head _, rfl⟩)⟩, waits_of (by decide +kernel), by decide, fun h => by
      rcases h.2 with h | h | ⟨n, _, h⟩
      · exact absurd h (by decide)
      · exact absurd h (by decide)
      · cases h⟩

/-- `GFENCE` of two rounds for region 2, which has one neighbour. -/
def gfences (n : Nat) (words : List Word) (started : Bool) : Req :=
  { request .gfence [] with n := n, words := words, started := started, rounds := if started then [(0, 2, 6)] else [] }
def aheadGadd : Req := { request .gadd [gossipAcc 0 0 0] with id := 3 }
def gfenceState (q : Req) (others : List Req) (g : Gander) : State :=
  (gossipState g).modCore 0 fun k => { k with reqs := others ++ [q] }
theorem witness_Gfence : (∀ x ∈ [(2, [(2 : Word)], false), (0, [2], false), (2, [], false), (2, [2], true)],
      Waits (gfenceState (gfences x.1 x.2.1 x.2.2) [] {}) 0 (gfences x.1 x.2.1 x.2.2)) ∧
    Waits (gfenceState (gfences 2 [2] false) [aheadGadd] {}) 0 (gfences 2 [2] false) ∧ (gossipState {}).neighbour 0 0 = some 7 ∧
    (∀ x ∈ [({ counts := [(2, 8)] } : Gander), { counts := [(2, 7)] }, { counts := [(2, 8)], active := [(2, [])] }],
      Waits (gfenceState (gfences 2 [2] true) [] x) 0 (gfences 2 [2] true)) :=
  ⟨fun x hx => waits_of ((by decide +kernel : ∀ x ∈ [(2, [(2 : Word)], false), (0, [2], false), (2, [], false), (2, [2], true)],
      waits (gfenceState (gfences x.1 x.2.1 x.2.2) [] {}) (gfences x.1 x.2.1 x.2.2) = true) x hx), waits_of (by decide +kernel), by decide +kernel,
    fun x hx => waits_of ((by decide +kernel : ∀ x ∈ [({ counts := [(2, 8)] } : Gander), { counts := [(2, 7)] }, { counts := [(2, 8)], active := [(2, [])] }],
      waits (gfenceState (gfences 2 [2] true) [] x) (gfences 2 [2] true) = true) x hx)⟩

/-! ### Page ranges -/

/-- A word over the one page that the tables map, whose leaf its home knows with a dirty bit; core 2 may read the page too. -/
def rangeAcc : Machine.Acc := { lane := 0, va := 0x50000 }
def ranges (kind : ReqKind) (started : Bool) : Req := { request kind [rangeAcc] with n := 1, words := [0x50000], started := started, strong := true }
def rangeState (q : Req) (cached : AMap (List SecCopy)) (l1 : AMap L1Sec) : State :=
  { ((walkState.modCore 0 fun k => { k with reqs := [q], l1 := l1 }).modCore 2 fun k =>
      { k with plb := [(pageTag 0 1 0x50000, { r := true })] }) with
    tlb := [(pageTag 0 1 0x50000, { leaf := dataLeaf 0x50000 0, dirty := true })], cached := cached,
    rmap := AMap.put walkState.rmap (frameOf 0x50000 / 2 ^ 16) (rmapEntry 0 1 0x50000) }
/-- A copy that a shared cache owns, with the same bytes in core 0's L1, and one in an engine's hands. -/
def ownedCopy : AMap (List SecCopy) :=
  [(sectorTag 0 1 0x50040, [{ holder := 2, st := .m, data := 0x77, pa := (leafLoc 0 1 0x50040 (dataLeaf 0x50000 0)).pa }])]
def heldCopy : AMap (List SecCopy) := [(sectorTag 0 1 0x50040, [{ holder := 8, st := .e }])]
def l1Copy : AMap L1Sec := [(sectorTag 0 1 0x50040, { data := 0x77, full := true, way := 3 })]
def settled4 (s : State) (q : Req) : Bool :=
  (s.cores.all fun k => (k.2.reqs.all fun r => !(r.kind.store || [ReqKind.atom, .fatom, .fget, .tcopy].contains r.kind) ||
      r.accs.all (·.finished)) &&
    k.2.l1.all fun x => !q.covers (tagPart x.1) (tagEasid x.1) (tagVa x.1) || x.2.dirty == 0) &&
  s.cached.all fun x => !s.claimed x.1
theorem settled4_of {s : State} {q : Req} (h : settled4 s q = true) : Settled4 s q := by
  unfold settled4 at h
  simp only [Bool.and_eq_true, List.all_eq_true, Bool.or_eq_true, Bool.not_eq_true'] at h
  obtain ⟨hk, hc⟩ := h
  refine ⟨fun k m => ⟨fun r hr hs a ha => ?_, fun x hx hv => ?_⟩, hc⟩
  · rcases (hk k m).1 r hr with e | e
    · rw [Bool.or_eq_false_iff] at e
      rcases hs with hs | hs
      · rw [hs] at e
        exact absurd e.1 (by decide)
      · rw [List.contains_iff_mem.mpr hs] at e
        exact absurd e.2 (by decide)
    · exact e a ha
  · rcases (hk k m).2 x hx with e | e
    · rw [hv] at e
      cases e
    · exact beq_iff_eq.mp e
theorem plainRange_of {s : State} {q : Req} (hp : q.pages = [0x50000]) (hi : q.idn.part = 0 ∧ easidOf q.idn.asid 0x50000 = 1)
    (h : plain s 0x50000 (dataLeaf 0x50000 0) = true) : PlainRange s q := by
  intro va hva
  rw [hp, List.mem_singleton] at hva
  subst hva
  refine ⟨dataLeaf 0x50000 0, ?_⟩
  rw [hi.1, hi.2]
  exact plain_of h
theorem witness_Ranges : ∀ k ∈ [ReqKind.seal, .unseal, .harvest], ∀ b ∈ [false, true], ∀ x ∈ [([], []), (ownedCopy, l1Copy)],
    Waits (rangeState (ranges k b) x.1 x.2) 0 (ranges k b) ∧ PlainRange (rangeState (ranges k b) x.1 x.2) (ranges k b) ∧
    Settled4 (rangeState (ranges k b) x.1 x.2) (ranges k b) := by
  have h : ∀ k ∈ [ReqKind.seal, .unseal, .harvest], ∀ b ∈ [false, true], ∀ x ∈ [([], []), (ownedCopy, l1Copy)],
      waits (rangeState (ranges k b) x.1 x.2) (ranges k b) = true ∧ settled4 (rangeState (ranges k b) x.1 x.2) (ranges k b) = true ∧
      plain (rangeState (ranges k b) x.1 x.2) 0x50000 (dataLeaf 0x50000 0) = true ∧ (ranges k b).pages = [0x50000] := by decide +kernel
  exact fun k hk b hb x hx => ⟨waits_of (h k hk b hb x hx).1,
    plainRange_of (h k hk b hb x hx).2.2.2 ⟨rfl, rfl⟩ (h k hk b hb x hx).2.2.1, settled4_of (h k hk b hb x hx).2.1⟩
/-- The leaf that memory holds for the page, and a sector of the range in an engine's hands. -/
theorem witness_RangeLeaves : (match (rangeState (ranges .seal false) [] []).reach 0 1 0x50000 with
      | (_, .leaf w pa) => w == dataLeaf 0x50000 0 && pa == 0x530028 && w.getLsbD 63
      | _ => false) = true ∧ (ranges .harvest false).idn.asid < 4096 ∧
    (∀ k ∈ [ReqKind.seal, .harvest], Waits (rangeState (ranges k false) heldCopy []) 0 (ranges k false) ∧
      (rangeState (ranges k false) heldCopy []).claimed (sectorTag 0 1 0x50040) = true ∧
      (ranges k false).covers (tagPart (sectorTag 0 1 0x50040)) (tagEasid (sectorTag 0 1 0x50040)) (tagVa (sectorTag 0 1 0x50040)) = true) ∧
    plain { rangeState (ranges .harvest false) heldCopy [] with cached := [] } 0x50000 (dataLeaf 0x50000 0) = true := by
  refine ⟨by decide +kernel, by decide, fun k hk => ?_, by decide +kernel⟩
  have h : ∀ k ∈ [ReqKind.seal, .harvest], waits (rangeState (ranges k false) heldCopy []) (ranges k false) = true ∧
      (rangeState (ranges k false) heldCopy []).claimed (sectorTag 0 1 0x50040) = true ∧
      (ranges k false).covers (tagPart (sectorTag 0 1 0x50040)) (tagEasid (sectorTag 0 1 0x50040)) (tagVa (sectorTag 0 1 0x50040)) = true := by
    decide +kernel
  exact ⟨waits_of (h k hk).1, (h k hk).2⟩

/-! ### Engines -/

/-- Two pieces of an `FPUT`: read or not, from the scratchpad or from memory. -/
def putPiece (i src : Nat) (got : Bool) : Machine.Acc :=
  { lane := 0, va := 0x50000 + 32 * i, size := 32, cmp := BitVec.ofNat 64 (src + 32 * i), got := got,
    data := if got then BitVec.ofNat 512 (0x1234 + i) else 0 }
def puts (sp : Space) (src : Nat) (got : Bool) (ctr : Word) : Req :=
  { request .fput [putPiece 0 src got, putPiece 1 src got] with
    space := sp, words := [BitVec.ofNat 64 src, 0x50000, 64, ctr], floor := 3, strong := false }
def engineSt (l : List Req) : State :=
  windowState { moveState.core 0 with
    reqs := l, ways := [(0x20000, 0xEF), (0x20021, 0x80), (0x20080, 5), (0x20088, 9), (0x20090, 9), (0x20098, 9)] }
def aheadStrong : Req := { request .st [{ padStore with va := 0x20100 }] with id := 3, strong := true, scope := .dev, space := .loc }
theorem witness_Puts : (∀ x ∈ [(puts .loc 0x20000 false 0, aheadStrong :: [puts .loc 0x20000 false 0])],
      turn (engineSt x.2) 0 7 0 x.1 (putPiece 0 0x20000 false) = true ∧ (engineSt x.2).engineReady 0 x.1 = false) ∧
    (∀ sp ∈ [Space.loc, .glb], let q := puts sp 0x20000 false 0
      turn (engineSt [q]) 0 7 0 q (putPiece 0 0x20000 false) = true ∧ (engineSt [q]).engineReady 0 q = true ∧
      ∃ x ∈ [(0, putPiece 0 0x20000 false), (1, putPiece 1 0x20000 false)], x.1 ≠ 0 ∧ x.2.got = false) ∧
    plain (engineSt [puts .glb 0x20000 false 0]) 0x20000 (dataLeaf 0x20000 0) = true ∧
    (engineSt [puts .glb 0x20000 false 0]).noGrant (leafLoc 0 1 0x20000 (dataLeaf 0x20000 0)).tag 7 = false ∧
    ((engineSt [puts .glb 0x20000 false 0]).sector (leafLoc 0 1 0x20000 (dataLeaf 0x20000 0))).poison = false ∧
    leafClass (dataLeaf 0x20000 0) = 0 := by decide +kernel
def putLine (ctr : Word) : Bool :=
  let q := puts .loc 0x20000 true ctr
  turn (engineSt [q]) 0 7 0 q (putPiece 0 0x20000 true) && farPage (engineSt [q]) 0x50000 &&
    ((q.accs.zipIdx.map fun x => (x.2, x.1)).filter fun x => x.2.va / 256 == 0x50000 / 256) ==
      [(0, putPiece 0 0x20000 true), (1, putPiece 1 0x20000 true)] && !(engineSt [q]).draining 0 1 && ((engineSt [q]).core 0).comb.isEmpty
theorem witness_PutLines : putLine 0xFFFFFFFFFFFFFFFF = true ∧ putLine (leafIfa windowLeaf 0x50100) = true ∧
    chipOf (leafIfa windowLeaf 0x50100) = chipOf (leafIfa windowLeaf 0x50000) ∧ 0xFFFFFFFFFFFFFFFF#64 = BitVec.allOnes 64 ∧
    ∀ i < 2, (putPiece i 0x20000 true).got = true ∧ (putPiece i 0x20000 true).st = .waiting ∧ (putPiece i 0x20000 true).va % 32 = 0 ∧
      (putPiece i 0x20000 true).data.toNat < 2 ^ 256 := by decide +kernel

/-- Two pieces of an `FGET` from the window, into the scratchpad or memory. -/
def getPiece (i dst : Nat) (sp : Space) (got : Bool) : Machine.Acc :=
  { lane := 0, space := sp, va := dst + 32 * i, size := 32, cmp := BitVec.ofNat 64 (0x50000 + 32 * i), got := got,
    data := if got then BitVec.ofNat 512 (0x1234 + i) else 0 }
def gets (sp : Space) (got got1 : Bool) : Req :=
  { request .fget [getPiece 0 0x20040 sp got, getPiece 1 0x20040 sp got1] with space := sp, floor := 3 }
theorem witness_Gets : ∀ sp ∈ [Space.loc, .glb], let q := gets sp false false
    turn (engineSt [q]) 0 7 0 q (getPiece 0 0x20040 sp false) = true ∧ (engineSt [q]).engineReady 0 q = true ∧
    ((engineSt [q]).core 0).comb = [] ∧ farPage (engineSt [q]) 0x50000 = true ∧ farPage (engineSt [q]) 0x50020 = true ∧
    turn (engineSt [aheadStrong, q]) 0 7 0 q (getPiece 0 0x20040 sp false) = true ∧
    (engineSt [aheadStrong, q]).engineReady 0 q = false := by decide +kernel
/-- The bytes of one piece, and of both, have come; a sector of memory is in the engine's hands. -/
def landing (sp : Space) (got1 : Bool) : State :=
  let s := engineSt [gets sp true got1]
  { s.setHreg 0x400 1 with cached := [(sectorTag 0 1 0x20040, [{ holder := s.fgetPort (gets sp true got1) (0x20040 / 64), st := .e, data := 0x99 <<< 256 }])] }
theorem witness_Landings : ∀ sp ∈ [Space.loc, .glb], ∀ b ∈ [false, true], let q := gets sp true b
    let s := landing sp b
    turn s 0 7 0 q (getPiece 0 0x20040 sp true) = true ∧
    ((q.accs.zipIdx.map fun x => (x.2, x.1)).filter fun x => x.1 == 0 || (x.2.va / 64 == 0x20040 / 64 && x.2.going)) =
      [(0, getPiece 0 0x20040 sp true), (1, getPiece 1 0x20040 sp b)] ∧
    (AMap.find? s.tlb (pageTag 0 1 0x20040)).isSome = true ∧ s.hostWindow 0 0x20040 = false ∧
    s.lateCause 0 1 0x20040 (dataLeaf 0x20000 0) false = none ∧ s.leafOf 0 1 0x20040 = .leaf (dataLeaf 0x20000 0) 0 ∧
    s.outwardMem 0 0x20040 = false ∧ bits (s.hreg 0x400) 15 0 ≠ 0 ∧ s.inShadow 0 1 0x20040 = false ∧
    s.copies (sectorTag 0 1 0x20040) = [{ holder := s.fgetPort q (0x20040 / 64), st := .e, data := 0x99 <<< 256 }] := by decide +kernel

def counterAcc : Machine.Acc := { lane := 3, space := .loc, va := 0x20080, size := 8, data := 77 }
def counterWords (k : ReqKind) (va : Nat) : Req := { request k [{ counterAcc with va := va }] with space := .loc, size := 8, scope := .dev }
theorem witness_CounterWords : (∀ x ∈ [(ReqKind.acset, 0x20080), (.acwait, 0x20080), (.acwait, 0x20090)],
      turn (engineSt [counterWords x.1 x.2]) 0 7 0 (counterWords x.1 x.2) { counterAcc with va := x.2 } = true ∧ x.2 % 16 = 0) ∧
    (let m := ((engineSt []).core (placeCore 0x20080)).pad;
      Memory.readN m (placeKey 0x20080) 8 < Memory.readN m (placeKey 0x20080 + 8) 8 ∧
        Memory.readN m (placeKey 0x20090 + 8) 8 ≤ Memory.readN m (placeKey 0x20090) 8) := by decide +kernel

end Sys2Proof.Tests
end

section
/-! PROOF of O8. Table 2.6 as the model computes it on natural numbers agrees with the table of the statement on bit vectors and
integers, for operands within 32 bits; a pair word then writes both slots from the registers before the word (R45). -/

namespace Sys2Proof.Claims

open Sys2Proof.Machine

/-! ### Operands -/

/-- An operand read at a width fits it, whatever is unspecified of it. -/
theorem value_lt (x : Ctx) (g : Group) (w lane : Nat) (a : Src) : x.value g w lane a < 2 ^ w := by
  have hpos := Nat.two_pow_pos w
  unfold Ctx.value
  rw [apply_ite (· < 2 ^ w)]
  split
  · exact Nat.mod_lt _ hpos
  · exact Nat.mod_lt _ hpos

/-- Types of 32 bits and more take a constant's low bits; only narrower ones convert it (R190). -/
theorem constAt_lt {ty : Ty} (h : 32 ≤ ty.bits) (n : Nat) : constAt ty n < 2 ^ ty.bits := by
  have hlow : constAt ty n = constTable.getD n 0 % 2 ^ ty.bits := by
    cases ty <;> simp [Ty.bits] at h <;> rfl
  rw [hlow]
  exact Nat.mod_lt _ (Nat.two_pow_pos _)

theorem val_lt {ty : Ty} (h : 32 ≤ ty.bits) (x : Ctx) (g : Group) (lane : Nat) (a : Src) : x.val g ty lane a < 2 ^ ty.bits := by
  unfold Ctx.val
  split
  · exact constAt_lt h _
  · exact value_lt x g _ lane _

@[simp] theorem pairTy_bits (op : PairOp) : (pairTy op).bits = 32 := by
  cases op <;> rfl

/-! ### Integers: a code's number, and a number's code -/

theorem nbit_eq_testBit (a i : Nat) : nbit a i = a.testBit i := by
  rw [nbit, Nat.testBit_eq_decide_div_mod_eq, Bool.beq_eq_decide_eq]

theorem intCode_eq_code (ty : Ty) (i : Int) : intCode ty.bits i = code ty i := by
  simp [intCode, code, BitVec.toNat_ofInt]

theorem codeInt_eq_num (ty : Ty) (a : Nat) : codeInt ty a = num ty a := by
  have hmsb : (BitVec.ofNat ty.bits a).msb = nbit (a % 2 ^ ty.bits) (ty.bits - 1) := by
    rw [BitVec.msb_eq_getLsbD_last, BitVec.getLsbD, BitVec.toNat_ofNat, nbit_eq_testBit]
  unfold codeInt num
  cases ty.signed with
  | false => simp
  | true => simp [BitVec.toInt_eq_msb_cond, hmsb]

/-- The number of a code stands for that code alone. -/
theorem code_num {ty : Ty} {a : Nat} (h : a < 2 ^ ty.bits) : code ty (num ty a) = a := by
  have hmod : (BitVec.ofNat ty.bits a).toNat = a := by rw [BitVec.toNat_ofNat, Nat.mod_eq_of_lt h]
  unfold code num
  split
  · rw [BitVec.ofInt_toInt, hmod]
  · rw [BitVec.ofInt_natCast, BitVec.ofNat_toNat, BitVec.setWidth_eq, hmod]

theorem addOp_eq_addC (ty : Ty) (a b : Nat) : addOp ty false a b = addC ty false a b := by
  simp [addOp, addC, narrow, satIf?, intCode_eq_code, codeInt_eq_num]

theorem subOp_eq_subC (ty : Ty) (a b : Nat) : subOp ty false a b = subC ty false a b := by
  simp [subOp, subC, narrow, satIf?, intCode_eq_code, codeInt_eq_num]

theorem mulOp_eq_mulC (ty : Ty) (a b : Nat) : mulOp ty a b = mulC ty a b := by
  simp [mulOp, mulC, BitVec.toNat_mul, Nat.mul_mod]

theorem minOp_eq_minC {ty : Ty} {a b : Nat} (ha : a < 2 ^ ty.bits) (hb : b < 2 ^ ty.bits) : minOp ty a b = minC ty a b := by
  unfold minOp minC
  rw [codeInt_eq_num, codeInt_eq_num]
  split
  next h => rw [Int.min_eq_right (Int.le_of_lt h), code_num hb]
  next h => rw [Int.min_eq_left (Int.not_lt.mp h), code_num ha]

theorem maxOp_eq_maxC {ty : Ty} {a b : Nat} (ha : a < 2 ^ ty.bits) (hb : b < 2 ^ ty.bits) : maxOp ty a b = maxC ty a b := by
  unfold maxOp maxC
  rw [codeInt_eq_num, codeInt_eq_num]
  split
  next h => rw [Int.max_eq_right (Int.le_of_lt h), code_num hb]
  next h => rw [Int.max_eq_left (Int.not_lt.mp h), code_num ha]

/-! ### Bit strings -/

theorem toNat_bv {ty : Ty} {a : Nat} (h : a < 2 ^ ty.bits) : (bv ty a).toNat = a := by
  rw [bv, BitVec.toNat_ofNat, Nat.mod_eq_of_lt h]

theorem and_eq_andC {ty : Ty} {a b : Nat} (ha : a < 2 ^ ty.bits) (hb : b < 2 ^ ty.bits) : a &&& b = andC ty a b := by
  rw [andC, BitVec.toNat_and, toNat_bv ha, toNat_bv hb]

theorem or_eq_orC {ty : Ty} {a b : Nat} (ha : a < 2 ^ ty.bits) (hb : b < 2 ^ ty.bits) : a ||| b = orC ty a b := by
  rw [orC, BitVec.toNat_or, toNat_bv ha, toNat_bv hb]

theorem xor_eq_xorC {ty : Ty} {a b : Nat} (ha : a < 2 ^ ty.bits) (hb : b < 2 ^ ty.bits) : a ^^^ b = xorC ty a b := by
  rw [xorC, BitVec.toNat_xor, toNat_bv ha, toNat_bv hb]

theorem andnOp_eq_andnC {ty : Ty} {a : Nat} (ha : a < 2 ^ ty.bits) (b : Nat) : andnOp ty a b = andnC ty a b := by
  rw [andnC, BitVec.toNat_and, BitVec.toNat_not, toNat_bv ha, bv, BitVec.toNat_ofNat, andnOp, notOp]

theorem shlOp_eq_shlC (ty : Ty) (a k : Nat) : shlOp ty.bits a k = shlC ty a k := by
  rw [shlOp, shlC, BitVec.toNat_shiftLeft, Nat.shiftLeft_eq, bv, BitVec.toNat_ofNat, Nat.mod_mul_mod]
  split
  next h => exact (Nat.mod_eq_zero_of_dvd (Nat.dvd_mul_left_of_dvd (Nat.pow_dvd_pow 2 h) a)).symm
  next h => rfl

theorem shrOp_eq_shrC {ty : Ty} {a : Nat} (ha : a < 2 ^ ty.bits) (k : Nat) : shrOp ty.bits a k = shrC ty a k := by
  rw [shrOp, shrC, BitVec.toNat_ushiftRight, toNat_bv ha, Nat.shiftRight_eq_div_pow]
  split
  next h => exact (Nat.div_eq_of_lt (Nat.lt_of_lt_of_le ha (Nat.pow_le_pow_right (by decide) h))).symm
  next h => rfl

/-- A signed type's arithmetic shift is the floor division of its number. -/
theorem sarOp_eq_sarC {ty : Ty} (hs : ty.signed = true) (a : Nat) {k : Nat} (hk : k ≤ ty.bits) :
    sarOp ty a k = sarC ty a k := by
  have hnum : num ty a = (bv ty a).toInt := by simp [num, bv, hs]
  rw [sarOp, sarC, intCode_eq_code, code, codeInt_eq_num, hnum, Nat.min_eq_left hk, ← Int.shiftRight_eq_div_pow,
    ← BitVec.toInt_sshiftRight, BitVec.ofInt_toInt]

/-! ### Floating minimum and maximum (R225) -/

theorem signOf_eq_nbit (ty : Ty) (a : Nat) : signOf ty a = nbit a (signBit ty) := by
  have hlt : signBit ty < 64 := by cases ty <;> decide
  rw [signOf, BitVec.getLsbD_ofNat, nbit_eq_testBit, decide_eq_true hlt, Bool.true_and]

/-- The key of a code, by its sign and magnitude. -/
theorem orderKey_eq (ty : Ty) (a : Nat) :
    orderKey ty a = if signOf ty a then -(magOf ty a : Int) - 1 else (magOf ty a : Int) := by
  rw [signOf_eq_nbit]; rfl

/-- The statement's order of codes is the order of the model's keys. -/
theorem below_eq_orderKey_lt (ty : Ty) (a b : Nat) : below ty a b = decide (orderKey ty a < orderKey ty b) := by
  rw [orderKey_eq, orderKey_eq]
  unfold below
  cases signOf ty a <;> cases signOf ty b <;> grind

/-- A code within its format is its magnitude under its sign bit. -/
theorem eq_magOf_add_sign {ty : Ty} {a : Nat} (h : a < 2 ^ (signBit ty + 1)) :
    a = magOf ty a + if signOf ty a then 2 ^ signBit ty else 0 := by
  have hsplit := Nat.mod_pow_succ (b := 2) (k := signBit ty) (x := a)
  rw [Nat.mod_eq_of_lt h] at hsplit
  rw [signOf_eq_nbit, nbit, magOf]
  rcases Nat.mod_two_eq_zero_or_one (a / 2 ^ signBit ty) with h2 | h2
  · simpa [h2] using hsplit
  · simpa [h2] using hsplit

/-- A key names its sign and magnitude, so codes of one key within the format are one code. -/
theorem orderKey_inj {ty : Ty} {a b : Nat} (ha : a < 2 ^ (signBit ty + 1)) (hb : b < 2 ^ (signBit ty + 1))
    (h : orderKey ty a = orderKey ty b) : a = b := by
  rw [orderKey_eq, orderKey_eq] at h
  rw [eq_magOf_add_sign ha, eq_magOf_add_sign hb]
  cases hsa : signOf ty a <;> cases hsb : signOf ty b <;>
    simp only [hsa, hsb, if_true, Bool.false_eq_true, if_false] at h ⊢ <;> omega

theorem isNan_eq_isNaN : isNan = isNaN := rfl

/-- Of two codes with one key the model takes the second and the statement the first; they are one code. -/
theorem fminCode_eq_fminC {ty : Ty} {a b : Nat} (ha : a < 2 ^ (signBit ty + 1)) (hb : b < 2 ^ (signBit ty + 1)) :
    fminCode ty false a b = fminC ty a b := by
  have hkey : (if orderKey ty a < orderKey ty b then a else b) = if orderKey ty b < orderKey ty a then b else a := by
    rcases Int.lt_trichotomy (orderKey ty a) (orderKey ty b) with h | h | h
    · rw [if_pos h, if_neg (Int.lt_asymm h)]
    · rw [orderKey_inj ha hb h]
    · rw [if_neg (Int.lt_asymm h), if_pos h]
  unfold fminCode fminC
  rw [isNan_eq_isNaN, below_eq_orderKey_lt]
  cases isNaN ty a <;> cases isNaN ty b <;> simp [hkey]

theorem fminCode_eq_fmaxC (ty : Ty) (a b : Nat) : fminCode ty true a b = fmaxC ty a b := by
  unfold fminCode fmaxC
  rw [isNan_eq_isNaN, below_eq_orderKey_lt]
  cases isNaN ty a <;> cases isNaN ty b <;> cases decide (orderKey ty a < orderKey ty b) <;> rfl

/-! ### Pair words -/

/-- Table 2.6 agrees on operands of 32 bits. -/
theorem pairOp_eq_slotC (op : PairOp) (k : Fin 16) {d a : Nat} (hd : d < 2 ^ 32) (ha : a < 2 ^ 32) :
    pairOp op k.val d a = slotC op k.val d a := by
  have hk : k.val < 32 := by omega
  cases op with
  | iadd => exact addOp_eq_addC .i32 d a
  | isub => exact subOp_eq_subC .i32 d a
  | imul => exact mulOp_eq_mulC .i32 d a
  | iminI32 => exact minOp_eq_minC (ty := .i32) hd ha
  | imaxI32 => exact maxOp_eq_maxC (ty := .i32) hd ha
  | iminN32 => exact minOp_eq_minC (ty := .n32) hd ha
  | imaxN32 => exact maxOp_eq_maxC (ty := .n32) hd ha
  | and => exact and_eq_andC (ty := .b32) hd ha
  | or => exact or_eq_orC (ty := .b32) hd ha
  | xor => exact xor_eq_xorC (ty := .b32) hd ha
  | andn => exact andnOp_eq_andnC (ty := .b32) hd a
  | shl => exact shlOp_eq_shlC .b32 a k
  | shr => exact shrOp_eq_shrC (ty := .b32) ha k
  | sar => exact sarOp_eq_sarC (ty := .i32) rfl a (Nat.le_of_lt hk)
  | mov | movi => rfl
  | fadd | fsub | fmul => rfl
  | fmin => exact fminCode_eq_fminC (ty := .f32) hd ha
  | fmax => exact fminCode_eq_fmaxC .f32 d a

theorem and_pairGuard_eq_slotLanes (x : Ctx) (g : Group) (y : PairArgs) :
    x.lanes &&& pairGuard x g y = slotLanes x g y := rfl

theorem pairValue_eq_slotValue (x : Ctx) (g : Group) (y : PairSlot) : pairValue x g y = slotValue x g y := by
  funext l
  have hlt (a : Src) : x.val g (pairTy y.op) l a < 2 ^ 32 := by
    simpa using val_lt (ty := pairTy y.op) (by simp) x g l a
  exact pairOp_eq_slotC y.op y.x.imm (hlt _) (hlt _)

/-- Every word with two slots executes as the pair word of those slots. -/
theorem exec_of_pair? {i : Instr} {a b : PairSlot} (h : i.pair? = some (a, b)) (s : State) : exec i s = pairWord a b s := by
  unfold Instr.pair? at h
  split at h <;> cases h <;> rfl

/-- The statement's table lists the words with two slots. -/
theorem pair?_of_pairs {i : Instr} {w : GroupShape} (h : pairs i = some w) :
    ∃ a b, i.pair? = some (a, b) ∧ w = pairShape a b := by
  unfold pairs at h
  split at h <;> cases h <;> exact ⟨_, _, rfl, rfl⟩

/-- A pair word none of whose slots reads poison writes slot X's results, then slot Y's, all computed from the registers before
the word (R45). -/
theorem pairWord_goes {p : Spot} {s : State} {a b : PairSlot} (hp : p.Issues s) (hf : p.Follows s)
    (hz : (pairShape a b).clean (p.ctx s always) p.g) :
    pairWord a b s = .next (p.after s s ((pairShape a b).out (p.ctx s always) p.g)) := by
  obtain ⟨hza, hzb⟩ := hz
  refine groupWord_goes hp hf ?_
  simp only [Ctx.active, and_pairGuard_eq_slotLanes, hza, hzb, pairValue_eq_slotValue]
  rfl

/-- Settles O8: a pair word is `pairWord` of its slots, which agrees with Table 2.6 on its operands. -/
theorem pairWords : Obligations.PairWords := by
  unfold Obligations.PairWords
  intro i w hw _ s p hp hf hz
  obtain ⟨a, b, hi, rfl⟩ := pair?_of_pairs hw
  rw [exec_of_pair? hi]
  exact pairWord_goes hp hf hz

end Sys2Proof.Claims
end

section
/-! REFUTATION of O52. The statement counts a thread's whole record among the registers that a precise trap leaves alone. That record
holds the marks of its return stack, and the trap for a poisoned entry turns the entry's mark from poisoned to consumed (R309, R360). -/

namespace Sys2Proof.Claims

open Sys2Proof.Machine

/-- A `RET` that reads a poisoned entry of a return stack traps with RF_POISON for the lowest lane that does (R309). -/
theorem ret_traps_of_stackTrap {p : Spot} {s : State} {gd : Guard} {uni : Bool} {t : TrapInfo} (hp : p.Issues s)
    (ht : p.g.stackTrap ((p.ctx s gd).active.filter fun l => (p.g.thread l).rstack != []) (fun _ => 0) = some t) :
    exec (.ret gd uni) s = .next (p.trapped s t) := by
  refine issueWord_traps hp ?_
  rw [onGroup_there hp]
  simp only [ht]

/-- The group that `State.withFetchWord` places, with one return address on lane 0's stack, its entry poisoned. -/
def poisonedReturnGroup : Group :=
  { fetchGroup with
    thr := AMap.put fetchGroup.thr 0 { fetchGroup.thread 0 with rstack := [0x10010], rbad := [1] } }

/-- That group is about to issue a `RET`, the one word of its clause. -/
def poisonedReturn : State :=
  (State.reset.withFetchWord 64 (encode (.ret always false))).setGroup 0 0 poisonedReturnGroup

def poisonedReturnSpot : Spot := ⟨0, 0, BitVec.ofNat 64 fetchVa, fetchGang, 0, 0xFFFF, poisonedReturnGroup⟩

/-- RF_POISON for lane 0, on the top entry of its return stack. -/
def poisonedReturnTrap : TrapInfo := { cause := 0x02, lane := 0, reg := some (stackKey 0 0, 15) }

theorem poisonedReturn_issues : poisonedReturnSpot.Issues poisonedReturn := by
  unfold Spot.Issues
  decide +kernel

/-- The trap is one that the machine takes: a step from `poisonedReturn` fetches the `RET`, which traps so. -/
theorem step_poisonedReturn : step poisonedReturn = .next (poisonedReturnSpot.trapped poisonedReturn poisonedReturnTrap) := by
  have hagenda : poisonedReturn.agenda = [] := rfl
  have hissue : poisonedReturn.issue.isNone = false := rfl
  have hfound : poisonedReturn.found = .word (.ret always false) := by decide +kernel
  have hstack : poisonedReturnGroup.stackTrap (((poisonedReturnSpot.ctx poisonedReturn always).active).filter
      fun l => (poisonedReturnGroup.thread l).rstack != []) (fun _ => 0) = some poisonedReturnTrap := by decide +kernel
  unfold step
  simp only [hagenda, hissue, hfound]
  exact ret_traps_of_stackTrap poisonedReturn_issues hstack

theorem poisonedReturnGroup_mark : (poisonedReturnGroup.thread 0).rbad = [1] := by decide +kernel

theorem trapped_poisonedReturn_mark :
    ((poisonedReturnSpot.trapped poisonedReturn poisonedReturnTrap).group? poisonedReturnSpot.c poisonedReturnSpot.slot).map
      (fun h => (h.thread 0).rbad) = some [2] := by decide +kernel

/-- Refutes O52: the `RET` of `poisonedReturn` traps precisely in normal code, yet `thr` is not as before. The mark of the return-stack
entry that it read has gone from 1, poisoned, to 2, consumed. -/
theorem not_preciseTraps : ¬ Obligations.PreciseTraps := by
  unfold Obligations.PreciseTraps
  rintro ⟨-, hprecise⟩
  obtain ⟨-, hframe, -, -⟩ := hprecise poisonedReturn poisonedReturnSpot poisonedReturnTrap poisonedReturn_issues
  obtain ⟨-, -, -, h, hgroup, hsame, -⟩ := hframe rfl
  obtain ⟨-, -, -, -, -, -, hthr⟩ := hsame
  have hkept : (h.thread 0).rbad = [1] := by
    rw [Group.thread, hthr]
    exact poisonedReturnGroup_mark
  have hchanged : (h.thread 0).rbad = [2] := by
    simpa only [hgroup, Option.map_some, Option.some.injEq] using trapped_poisonedReturn_mark
  simp [hkept] at hchanged

end Sys2Proof.Claims
end
